-- ==== Sys2Proof/Word.lean ====
section
/-! DEFINITION. The bit widths the reference uses: bytes of the bench link, 16-bit and 32-bit fields (R180, R188). -/

namespace Sys2Proof

/-- One byte of a frame, an image or a payload (R180). -/
abbrev Byte := BitVec 8

/-- A 16-bit field: an epoch (R113), a board sequence number (R120), a check value (R180). -/
abbrev Half := BitVec 16

/-- A 32-bit field: an address, observation data (R40), a placement number (R3). -/
abbrev Word := BitVec 32

end Sys2Proof
end

