-- ==== Sys2Proof/Syntax.lean ====
section
/-! DEFINITION. The commands of the part: one constructor per row of spec/opcode_table.json, with the
operands that come from outside the state (a channel, a port, pin levels, bytes, superframes). -/

namespace Sys2Proof

/-- Target ports P0 to P5. -/
abbrev PortId := Fin 6
/-- Channels C0 to C7. -/
abbrev ChanId := Fin 8
/-- Status lines S0 to S3 of a port. -/
abbrev LineId := Fin 4
/-- Cross lines X0 to X3. -/
abbrev CrossId := Fin 4

/-- The units that take events against the records: six Match Units and the Cross Line Unit (R35). -/
inductive UnitId where
  | matchUnit (p : PortId)
  | crossLine
  deriving DecidableEq, Repr

/-- One byte as received on BRX; a low stop bit is a framing error (R179). -/
structure RxByte where
  value : Byte
  stopHigh : Bool
  deriving DecidableEq, Repr

/-- Direction of a bus transaction (R40). -/
inductive Direction where
  | read
  | write
  deriving DecidableEq, Repr

/-- Origin of a bus transaction (R40). -/
inductive Origin where
  | board
  | debug
  deriving DecidableEq, Repr

/-- The fields of an OBS frame as the board sends them (R119, R120). `none`, and a number outside its
range, is a value outside those listed. -/
structure RawObs where
  address : Word
  data : Word
  direction : Option Direction
  width : Nat
  initiator : Nat
  origin : Option Origin
  sequence : Half
  deriving DecidableEq, Repr

/-- The outcome field of a REPLY frame (R119). -/
inductive RawResult where
  | ok
  | fault (code : Nat)
  | unlisted
  deriving DecidableEq, Repr

/-- One frame of a board superframe (R119). -/
inductive BoardFrame where
  | obs (o : RawObs)
  | reply (tag : Nat) (result : RawResult) (data : Word)
  | stopped
  | otherKind
  deriving DecidableEq, Repr

/-- Where the sync word of a superframe period stood (R116). -/
inductive SyncWord where
  | atExpected
  | elsewhere
  | missing
  deriving DecidableEq, Repr

/-- One superframe period on Pn_DI (R116): where its sync word stood, whether its closing check agrees, the
sent count of its header (R121) and its frames in order. -/
structure BoardSuperframe where
  sync : SyncWord
  checkAgrees : Bool
  sentCount : Byte
  frames : List BoardFrame
  deriving DecidableEq, Repr

/-- Levels of the seat sense pin and the four status pins of one port (true is high) (R110, R124). -/
structure PinLevels where
  seat : Bool
  status : Vector Bool 4
  deriving DecidableEq, Repr

/-- The two blocks of a port that raise port events (R173). -/
inductive PortBlock where
  | runControl
  | linkController
  deriving DecidableEq, Repr

/-- The blocks that hand additions to the Notice Unit (R174). -/
inductive NoticeSource where
  | watchTable
  | benchPort
  | channelTable
  deriving DecidableEq, Repr

/-- The commands. A request command takes the frame at the head of its channel's queue (R183); a command of
a block takes that block's next event from the sender named (log 1, log 3). -/
inductive Instr where
  -- Bench Port (R181 to R184, R194)
  | benchFrame (bytes : List RxByte)
  | frameGapTimeout
  | unknownKind (c : ChanId)
  | starting (c : ChanId)
  | responseTransmit
  -- Channel Table and Notice Unit requests (R159, R164, R161, R178, R176)
  | openChannel (c : ChanId)
  | closeChannel (c : ChanId)
  | renew (c : ChanId)
  | poll (c : ChanId)
  | notices (c : ChanId)
  -- claims (R132, R133)
  | claim (c : ChanId)
  | release (c : ChanId)
  -- run control requests (R77, R80, R82)
  | halt (c : ChanId)
  | resume (c : ChanId)
  | stepBoard (c : ChanId)
  -- link, gate and port requests (R127, R103, R130)
  | drive (c : ChanId)
  | gate (c : ChanId)
  | portstat (c : ChanId)
  -- access requests (R136, R149, R150)
  | read (c : ChanId)
  | write (c : ChanId)
  | replay (c : ChanId)
  | drop (c : ChanId)
  -- record requests (R13, R16, R19, R20, R21, R23, R24, R25, R65)
  | place (c : ChanId)
  | amend (c : ChanId)
  | suspend (c : ChanId)
  | arm (c : ChanId)
  | retire (c : ChanId)
  | lookup (c : ChanId)
  | list (c : ChanId)
  | find (c : ChanId)
  | tally (c : ChanId)
  -- part requests (R196, R195)
  | partstat (c : ChanId)
  | resetbench (c : ChanId)
  -- leases and teardown (R162, R166, R154, R91, R168)
  | leaseExpiry (c : ChanId)
  | teardownRecords
  | teardownAtArbiter (p : PortId)
  | teardownAtRunControl (p : PortId)
  | teardownClose
  -- the change boundary and the events of a Match Unit (R31, R39, R42, R53, R50, R114)
  | changeBoundary (u : UnitId)
  | observation (p : PortId)
  | lineEdge (p : PortId)
  | quietTimerZero (p : PortId) (slot : Nat)
  | quietExpiry (p : PortId)
  | runStateReport (p : PortId)
  | linkStateReport (p : PortId)
  | unseatAtMatchUnit (p : PortId)
  -- actions taken by their blocks (R172, R79, R83, R97, R98, R99, R101, R104, R122)
  | signal (u : UnitId)
  | freeze (p : PortId) (crossSender : Bool)
  | observationTaken (p : PortId)
  | gateOpen (p : PortId) (crossSender : Bool)
  | gateClose (p : PortId) (crossSender : Bool)
  | gateDecision (p : PortId) (storeReady : Bool)
  | endOfSending (p : PortId)
  | unseatAtGate (p : PortId)
  | creditReturn (p : PortId)
  -- cross lines (R106, R107, R56)
  | crossPulse (p : PortId)
  | pulseTimerExpiry (x : CrossId)
  | crossFallingEdge (x : CrossId)
  | crossEdge
  -- seat, status and link (R112, R125, R116, R118)
  | seatChange (p : PortId) (high : Bool)
  | debounceExpiry (p : PortId)
  | statusEdge (p : PortId) (l : LineId) (high : Bool)
  | boardSuperframe (p : PortId) (f : BoardSuperframe)
  | outgoingSuperframe (p : PortId) (room : Nat)
  -- run control events (R84, R85, R88, R89, R87, R90, R91)
  | stopped (p : PortId)
  | stopTimerExpiry (p : PortId)
  | resetAsserted (p : PortId)
  | resetReleased (p : PortId)
  | linkLossAtRunControl (p : PortId)
  | linkLockAtRunControl (p : PortId)
  | unseatAtRunControl (p : PortId)
  | holdRemoval (p : PortId)
  | safeLevels (p : PortId)
  -- arbiter events (R139, R143, R144, R151, R152)
  | grant (p : PortId)
  | reply (p : PortId)
  | replyLimitExpiry (p : PortId)
  | linkLossAtArbiter (p : PortId)
  | linkLockAtArbiter (p : PortId)
  | unseatAtArbiter (p : PortId)
  -- notices (R173, R174)
  | portEvent (p : PortId) (b : PortBlock)
  | noticeAddition (src : NoticeSource)
  -- start-up (R194) and the cross line's rise (R107)
  | pinReset (brate1 : Bool) (brate0 : Bool)
  | walkEnd (memory : List (Nat × Byte)) (pins : Vector PinLevels 6)
  | crossRisingEdge (x : CrossId)
  deriving DecidableEq, Repr

end Sys2Proof
end

