-- ==== Sys2Proof/Decode.lean ====
section
/-! DEFINITION. The command a word of spec/opcode_table.json spells. No row of the table gives bits (every
row's "fields" is empty), so no word spells a command (log 23). -/

namespace Sys2Proof

/-- The command that an `nbits`-bit word spells by the table's bits: none, since no row gives bits. -/
def decodeTableWord (_nbits _w : Nat) : Option Instr := none

end Sys2Proof
end

