-- ==== Sys2Proof/Config.lean ====
section
/-! DEFINITION. The fixed sizes and limits of the part, the defaults a fixture description replaces, and the
free values: constants with no body for what the reference leaves open. -/

namespace Sys2Proof.Config

/-- Slots of the Watch Table (R1). -/
def slotCount : Nat := 96

/-- Most records of one watch chain (R33). -/
def chainRoom : Nat := 40

/-- Most records of the cross list (R33). -/
def crossRoom : Nat := 24

/-- Most outstanding frames of one channel (R182). -/
def outstandingLimit : Nat := 4

/-- Most handles of one FIRED list (R171). -/
def firedLimit : Nat := 16

/-- Most payload bytes of one bench frame (R180). -/
def payloadLimit : Nat := 1024

/-- Credits of one port (R121). -/
def creditLimit : Nat := 8

/-- Largest step budget (R74). -/
def budgetLimit : Nat := 65535

/-- Age from which an entry is overdue (R138). -/
def overdueAge : Nat := 6

/-- Length of a cross pulse in microseconds (R106). -/
def pulseLength : Nat := 1

/-- Superframes in a row that lock or lose a link (R117). -/
def syncRun : Nat := 3

/-- Nodes after which the description walk ends (R193). -/
def nodeLimit : Nat := 64

/-- Largest quiet limit in microseconds (R6). -/
def quietLimitMax : Nat := 16777215

/-- Default seat debounce in milliseconds (R110). -/
def defaultDebounce : Nat := 20

/-- Default stop limit in milliseconds (R76). -/
def defaultStopLimit : Nat := 5

/-- Default reply limit in units of 100 microseconds (R142). -/
def defaultReplyLimit : Nat := 20

/-- Default lease in milliseconds (R157). -/
def defaultLease : Nat := 2000

/-- FREE VALUE (log 9). The rank in which a waiting HALT is answered when one event settles several of them:
the reference does not order their responses. Arguments: the counter `fresh` and the channel number. -/
opaque settleRank : Nat → Nat → Nat

/-- FREE VALUE (log 10). The description status code when byte 0 of the description memory is acknowledged and
a later byte of the header is not: the reference names no outcome. Argument: the counter `fresh`. -/
opaque headerStatus : Nat → Fin 4

end Sys2Proof.Config
end

