-- ==== Sys2Proof/Machine/State.lean ====
section
/-! DEFINITION. The state of the part as plain data: every piece of state the chapters name, each in the block
that owns it, with its value after a pin reset; the hand-overs between blocks; the queue of commands. -/

namespace Sys2Proof.Machine

/-- A set of channels: bit c is channel c. -/
abbrev ChanSet := Vector Bool 8

/-- The empty set of channels. -/
def ChanSet.empty : ChanSet := Vector.replicate 8 false

/-! ### Codes of the bench port -/

/-- Response statuses (R186). -/
inductive Status where
  | done | bad | denied | stale | full | busy | inUse | notHeld | noClaim | absent | noLink | inReset
  | running | parked | timeout | fault | linkLost | unresponsive | epoch | closed | starting
  deriving DecidableEq, Repr

/-! ### Watch Table (chapters 1 and 3) -/

/-- A handle: slot and issue (R2). A handle from a payload may name a slot above 95. -/
structure Handle where
  slot : Nat
  issue : Byte
  deriving DecidableEq, Repr

/-- States of a record that is not FREE (R9). -/
inductive RecState where
  | suspended | waiting | armed | spent
  deriving DecidableEq, Repr

/-- Guards (R10). -/
inductive Guard where
  | guardOpen | guardReadable | guardPrivate
  deriving DecidableEq, Repr

/-- Scopes (R4). -/
inductive Scope where
  | one (p : PortId) | all | allBut (p : PortId)
  deriving DecidableEq, Repr

/-- Widths of a transaction in bytes: 1, 2 or 4 (R40). -/
inductive Width where
  | one | two | four
  deriving DecidableEq, Repr

/-- Direction of a bus match (R5). -/
inductive DirFilter where
  | read | write | either
  deriving DecidableEq, Repr

/-- Width set of a bus match (R5). -/
structure WidthSet where
  one : Bool
  two : Bool
  four : Bool
  deriving DecidableEq, Repr

/-- Initiator filter of a bus match (R5). -/
inductive InitiatorFilter where
  | any | only (t : Fin 16) | allBut (t : Fin 16)
  deriving DecidableEq, Repr

/-- Origin filter of a bus match (R5). -/
inductive OriginFilter where
  | boardOnly | boardAndDebug
  deriving DecidableEq, Repr

/-- Bus match (R5). -/
structure BusMatch where
  base : Word
  mask : Word
  direction : DirFilter
  widths : WidthSet
  initiator : InitiatorFilter
  origin : OriginFilter
  deriving DecidableEq, Repr

/-- Data match (R8). -/
structure DataMatch where
  pattern : Word
  mask : Word
  deriving DecidableEq, Repr

/-- Direction of a filtered edge (R124). -/
inductive Edge where
  | rise | fall
  deriving DecidableEq, Repr

/-- Edge field of a line match (R5). -/
inductive EdgeFilter where
  | rise | fall | either
  deriving DecidableEq, Repr

/-- The match part with the source it belongs to (R5); a data match stands beside a bus match only (R8). -/
inductive Cond where
  | bus (b : BusMatch) (d : Option DataMatch)
  | line (l : LineId) (e : EdgeFilter)
  | cross (x : CrossId)
  deriving DecidableEq, Repr

/-- The trigger, with the quiet limit it holds (R6). -/
inductive Trigger where
  | onHit | onSilence (limit : Nat)
  deriving DecidableEq, Repr

/-- The action set (R7); each action stands in it at most once. -/
structure Actions where
  signal : Bool
  freeze : Bool
  gateOpen : Option Half
  gateClose : Bool
  crossPulse : Option CrossId
  deriving DecidableEq, Repr

/-- Tally modes (R59). -/
inductive TallyMode where
  | count | sum
  deriving DecidableEq, Repr

/-- Tally signs (R59). -/
inductive TallySign where
  | unsigned | signed
  deriving DecidableEq, Repr

/-- Tally limits (R59). -/
inductive TallyLimit where
  | wrap | saturate
  deriving DecidableEq, Repr

/-- A tally part (R59). -/
structure Tally where
  mode : TallyMode
  sign : TallySign
  limit : TallyLimit
  accumulator : Int
  contributions : Nat
  overflow : Bool
  deriving DecidableEq, Repr

/-- An accepted observation (R120): the bytes of `data` above the width are 0. -/
structure Observation where
  address : Word
  data : Word
  direction : Direction
  width : Width
  initiator : Fin 16
  origin : Origin
  sequence : Half
  deriving DecidableEq, Repr

/-- What a snapshot holds beside its fire number (R8). -/
inductive SnapBody where
  | bus (p : PortId) (epoch : Half) (o : Observation)
  | silence (p : PortId) (epoch : Half)
  | line (p : PortId) (epoch : Half) (l : LineId) (e : Edge)
  | cross (x : CrossId)
  deriving DecidableEq, Repr

/-- A snapshot (R8). -/
structure Snapshot where
  body : SnapBody
  fireNumber : Nat
  deriving DecidableEq, Repr

/-- The match side of a record (R35): what each unit's copy holds. Source and trigger are fixed at placement. -/
structure MatchSide where
  rank : Fin 16
  cond : Cond
  trigger : Trigger
  actions : Actions
  deriving DecidableEq, Repr

/-- A watch record (R4 to R8). `repeats` is REPEAT when true and ONCE when false. -/
structure Record where
  state : RecState
  owner : ChanId
  guard : Guard
  keep : Bool
  scope : Scope
  side : MatchSide
  placement : Word
  goal : Nat
  hits : Nat
  repeats : Bool
  after : Option Handle
  tally : Option Tally
  snapshot : Option Snapshot
  deriving DecidableEq, Repr

/-- A slot: FREE (`none`) or holding a record, with its issue number (R1). -/
structure Slot where
  issue : Byte
  record : Option Record
  deriving DecidableEq, Repr

/-- The Watch Table (R1, R3). `nextChange` names the next change to the table (log 5). -/
structure WatchTable where
  slots : List Slot
  counter : Word
  nextChange : Nat
  deriving DecidableEq, Repr

/-! ### Copies and changes (R31, R35) -/

/-- One member of a unit's copy: the record's slot, placement number and match side (R35). -/
structure CopyEntry where
  slot : Nat
  placement : Word
  side : MatchSide
  deriving DecidableEq, Repr

/-- A change not yet taken at one unit (R31). `update` is the match side the unit takes into its copy, and
whether the quiet limit was named; `none` where the change reached the copy already (R35). -/
structure Token where
  change : Nat
  update : Option (CopyEntry × Bool)
  deriving DecidableEq, Repr

/-- What a unit holds of the records: its copy in chain order and the changes it has yet to take, oldest first. `begun`:
the oldest waiting event may have begun before a match side among them was made, and then ends under the copy as it
is (R31, log 5). -/
structure RecordView where
  copy : List CopyEntry
  tokens : List Token
  begun : Bool
  deriving DecidableEq, Repr

/-! ### Match Unit (chapter 2) -/

/-- Run states (R72). -/
inductive RunState where
  | running | stopping | frozen | stepping | unresponsive | offline
  deriving DecidableEq, Repr

/-- Link states (R115). -/
inductive LinkState where
  | down | hunting | locked
  deriving DecidableEq, Repr

/-- A quiet timer that is not stopped (R50); `left` is 0 when it has reached zero and its expiry waits (R53). -/
structure QuietTimer where
  slot : Nat
  left : Nat
  deriving DecidableEq, Repr

/-- Events waiting at a Match Unit (R37). A quiet expiry is live until its timer is stopped or restarted (R53). -/
inductive MatchEvent where
  | obs (o : Observation) (epoch : Half)
  | edge (l : LineId) (e : Edge) (epoch : Half)
  | quiet (slot : Nat) (live : Bool)
  deriving DecidableEq, Repr

/-- Reports of the Target Link Controller to a Match Unit (R50, R114). -/
inductive LinkReport where
  | link (l : LinkState)
  | unseat
  deriving DecidableEq, Repr

/-- A Match Unit: `run` and `link` are what it was last told (R50). -/
structure MatchUnit where
  view : RecordView
  events : List MatchEvent
  timers : List QuietTimer
  run : RunState
  link : LinkState
  runReports : List RunState
  linkReports : List LinkReport
  deriving DecidableEq, Repr

/-! ### Cross Line Unit (chapters 2 and 5) -/

/-- One cross line: its pulse timer while DRIVING, `none` while IDLE (R106), and its filtered level (R107). -/
structure CrossLine where
  driving : Option Nat
  high : Bool
  deriving DecidableEq, Repr

/-- The Cross Line Unit (R35, R56, R106). `requests` holds the CROSS_PULSE actions, each with the port of the Match Unit
that handed it over, in the order the walks dispatched them (R46). -/
structure CrossUnit where
  view : RecordView
  lines : Vector CrossLine 4
  edges : List CrossId
  requests : List (PortId × CrossId)
  deriving DecidableEq, Repr

/-! ### Run Control (chapter 4) -/

/-- What the port's Match Unit and the Cross Line Unit hand to Run Control, in dispatch order (R45 to R47): a FREEZE
action, of the Cross Line Unit or of the Match Unit, and the report of an observation taken. -/
inductive UnitToRun where
  | freeze (crossSender : Bool) (owner : ChanId)
  | taken
  deriving DecidableEq, Repr

/-- What the Target Link Controller hands to Run Control (R114, R117, R119, R128): its reports and the STOPPED frames,
in the order handed over. That one order for both is DEDUCED (log 3). -/
inductive RunReport where
  | linkLost | linkLocked | resetAsserted | resetReleased | unseat | stopped
  deriving DecidableEq, Repr

/-- Run Control of a port (R72 to R76, R92). `linkLocked` and `resetAsserted` are as last reported (log 7).
`fromUnits`, `reports` and `removals` are the events that wait, each in the order handed over (log 3). -/
structure RunControl where
  run : RunState
  holds : ChanSet
  boardHold : Bool
  budget : Nat
  stopTimer : Option Nat
  expiries : Nat
  resumers : ChanSet
  linkLocked : Bool
  resetAsserted : Bool
  fromUnits : List UnitToRun
  reports : List RunReport
  removals : List ChanId
  deriving DecidableEq, Repr

/-! ### Capture Gate (chapter 5) -/

/-- Who last opened a gate (R95). -/
inductive Opener where
  | record (h : Handle) | channel (c : ChanId)
  deriving DecidableEq, Repr

/-- The kind of event whose walk fired a gate action (R96). -/
inductive EventKind where
  | observation | lineEdge | quietExpiry | crossEdge
  deriving DecidableEq, Repr

/-- What reaches a gate from the Match Unit or the Cross Line Unit (R96). -/
inductive GateMsg where
  | openGate (span : Half) (h : Handle) (kind : EventKind)
  | closeGate (kind : EventKind)
  | handOver (o : Observation) (epoch : Half)
  deriving DecidableEq, Repr

/-- A Capture Gate (R95). `sent` lists the capture records that have left the output, oldest first (log 19). -/
structure Gate where
  isOpen : Bool
  opener : Option Opener
  span : Nat
  gap : Bool
  missed : Nat
  closingMark : Bool
  sending : Bool
  fromMatch : List GateMsg
  fromCross : List GateMsg
  unseats : Nat
  sent : List (List Byte)
  deriving DecidableEq, Repr

/-! ### Target Link Controller (chapter 6) -/

/-- Seat states (R110). -/
inductive SeatState where
  | empty | arriving | seated | leaving
  deriving DecidableEq, Repr

/-- Frames to the board (R118). -/
inductive LinkFrame where
  | access (tag : BitVec 4) (direction : Direction) (address : Word) (width : Width) (data : Word)
  | stop
  | run
  deriving DecidableEq, Repr

/-- A superframe as sent: the credit total of its header and its frames (R118, R121). -/
structure SentSuperframe where
  creditTotal : Byte
  frames : List LinkFrame
  deriving DecidableEq, Repr

/-- What the part does with an output of a debug link: it holds the pin low, or drives it (R115). How a driven pin moves is
the data sheet's (log 36). -/
inductive LinkOutput where
  | low | driven
  deriving DecidableEq, Repr

/-- The outputs of a debug link: the clock Pn_CK, the data Pn_DO and the frame strobe Pn_FS (R115). -/
structure LinkOutputs where
  clock : LinkOutput
  dataOut : LinkOutput
  strobe : LinkOutput
  deriving DecidableEq, Repr

/-- The Target Link Controller of a port (R110, R115, R118, R121, R124, R126). `creditReturns` and
`safeRequests` are hand-overs that wait; a return to the safe levels names the channel whose RELEASE waits for it. -/
structure LinkController where
  seatHigh : Bool
  seat : SeatState
  debounce : Option Nat
  epoch : Half
  link : LinkState
  goodSync : Nat
  badSync : Nat
  expecting : Bool
  outgoing : List LinkFrame
  sentFrames : List SentSuperframe
  credits : Nat
  received : Byte
  violation : Bool
  status : Vector Bool 4
  resetAsserted : Bool
  powerOn : Bool
  creditReturns : Nat
  safeRequests : List ChanId
  deriving DecidableEq, Repr

/-! ### Access Arbiter (chapter 7) -/

/-- Claim modes (R131). -/
inductive ClaimMode where
  | shared | sole
  deriving DecidableEq, Repr

/-- Stepping of a block (R134). -/
inductive Stepping where
  | increment | fixed | wrap (span : Nat)
  deriving DecidableEq, Repr

/-- A block of words (R134). `data` holds the words of a WRITE in word order, and is empty for a READ. -/
structure Block where
  direction : Direction
  width : Width
  count : Nat
  start : Word
  stepping : Stepping
  haltedOnly : Bool
  data : List Word
  deriving DecidableEq, Repr

/-- Why a block failed (R148). -/
inductive FailReason where
  | fault (code : Fin 16) | timeout | linkLost
  deriving DecidableEq, Repr

/-- A parked remainder (R148): its words left, next address and write data left are the count, start and data
of `block`. -/
structure Remainder where
  block : Block
  reason : FailReason
  epoch : Half
  deriving DecidableEq, Repr

/-- An entry of an access queue (R137). `replayOf` is the remainder of a REPLAY entry. -/
structure QueueEntry where
  chan : ChanId
  block : Block
  epochGuard : Option Half
  replayOf : Option Remainder
  age : Nat
  deriving DecidableEq, Repr

/-- The word in flight (R142). -/
structure FlightWord where
  tag : BitVec 4
  index : Nat
  address : Word
  data : Word
  deriving DecidableEq, Repr

/-- A granted block being carried out: whose, the words done, the data read so far, the epoch at the grant. -/
structure RunningBlock where
  chan : ChanId
  block : Block
  wordsDone : Nat
  readData : List Word
  epoch : Half
  deriving DecidableEq, Repr

/-- The condition of an arbiter's link (R141). -/
inductive LinkUse where
  | idle
  | executing (b : RunningBlock) (w : FlightWord)
  | draining (w : FlightWord)
  deriving DecidableEq, Repr

/-- A REPLY frame handed to the arbiter (R119): its outcome is OK (`none`) or FAULT with a code. -/
structure ReplyFrame where
  tag : BitVec 4
  faultCode : Option (Fin 16)
  data : Word
  deriving DecidableEq, Repr

/-- Reports of the Target Link Controller to the arbiter (R151, R152). -/
inductive ArbiterReport where
  | linkLost | linkLocked | unseat
  deriving DecidableEq, Repr

/-- What the Target Link Controller hands to the arbiter: one sender, so it reaches the arbiter in the order handed over
(R117, R119, R156, log 3). -/
inductive ArbiterMsg where
  | reply (r : ReplyFrame)
  | report (r : ArbiterReport)
  deriving DecidableEq, Repr

/-- The Access Arbiter of a port (R131, R137, R138, R141, R142, R148). `linkLocked` is its own record of the
link (R136). -/
structure Arbiter where
  claims : Vector (Option ClaimMode) 8
  queue : List QueueEntry
  lifts : ChanSet
  use : LinkUse
  parked : Vector (Option Remainder) 8
  nextTag : BitVec 4
  replyTimer : Option Nat
  linkLocked : Bool
  fromLink : List ArbiterMsg
  deriving DecidableEq, Repr

/-! ### One port -/

/-- Status-line filters (R124). -/
inductive StatusFilter where
  | none | us2 | us200 | ms20
  deriving DecidableEq, Repr

/-- What a PORT node sets (R192): debounce in ms, reply limit in units of 100 us, stop limit in ms. -/
structure PortSettings where
  debounce : Nat
  filters : Vector StatusFilter 4
  safeResetAsserted : Bool
  safePowerOn : Bool
  replyLimit : Nat
  stopLimit : Nat
  deriving DecidableEq, Repr

/-- The blocks of one port and its loaded settings. -/
structure Port where
  settings : PortSettings
  mu : MatchUnit
  rc : RunControl
  gate : Gate
  tlc : LinkController
  arb : Arbiter
  deriving DecidableEq, Repr

/-! ### Channel Table (chapter 8) -/

/-- Causes of a teardown (R157). -/
inductive TeardownCause where
  | closing | lapsing
  deriving DecidableEq, Repr

/-- Notice enables: the four groups (R175). -/
structure Enables where
  fired : Bool
  portEvents : Bool
  revokedOverrun : Bool
  lapsedLinkError : Bool
  deriving DecidableEq, Repr

/-- A channel's entry (R157). -/
structure Channel where
  isOpen : Bool
  teardown : Option TeardownCause
  cls : Fin 4
  leaseLimit : Option Nat
  leaseTimer : Option Nat
  enables : Enables
  maxClass : Fin 4
  defaultLease : Nat
  deriving DecidableEq, Repr

/-- How far the teardown in progress has come (R165): step 1 not yet taken; step 1 taken as the table change
named; step 2 with the ports whose arbiter and whose Run Control have yet to take it. -/
inductive TeardownStage where
  | records
  | changing (change : Nat)
  | ports (arbiters : List PortId) (runControls : List PortId)
  deriving DecidableEq, Repr

/-- Teardowns, one at a time; those that wait, in the order they became due (R165). -/
structure Teardowns where
  current : Option (ChanId × TeardownStage)
  queued : List ChanId
  deriving DecidableEq, Repr

/-! ### Bench Port (chapter 10) -/

/-- The receiver: HUNTING, or READING with the bytes after the start byte, oldest first, and whether every stop
bit so far was high (R179, R181). -/
inductive Receiver where
  | hunting
  | reading (got : List Byte) (stopsHigh : Bool)
  deriving DecidableEq, Repr

/-- A good frame waiting in a channel queue (R180). -/
structure Frame where
  tag : Byte
  kind : Byte
  payload : List Byte
  deriving DecidableEq, Repr

/-- A response (R184). `handle` is the handle that the answer of LOOKUP reports with the record's image (R23); no other
response has one, and no byte of the payload layouts carries it (R188, R191, log 30). -/
structure Response where
  chan : ChanId
  tag : Byte
  status : Status
  payload : List Byte
  handle : Option Handle := none
  deriving DecidableEq, Repr

/-- What an executing request waits for: a table change to be in effect, with the payload its answer will carry
(R31); Run Control and the Target Link Controller after a RELEASE (R133); its port to settle (R78); its block
(R136); its teardown (R164). -/
inductive Wait where
  | change (id : Nat) (payload : List Byte)
  | release (runControl : Bool) (linkController : Bool)
  | settle (p : PortId)
  | access (p : PortId)
  | teardown
  deriving DecidableEq, Repr

/-- The request a channel is executing (R183); `silent` when it is marked to end without a response (R163). -/
structure Executing where
  tag : Byte
  kind : Byte
  wait : Wait
  silent : Bool
  deriving DecidableEq, Repr

/-- A channel at the Bench Port (R182, R183). -/
structure Lane where
  outstanding : Nat
  queue : List Frame
  executing : Option Executing
  deriving DecidableEq, Repr

/-- A frame that has left on BTX: the bit rate in Mbit/s and the levels of the line, bit time by bit time (R179, log 19). -/
structure SentFrame where
  rate : Nat
  levels : List Bool
  deriving DecidableEq, Repr

/-- The Bench Port (R179, R181, R182, R184). `sentFrames` lists the frames that have left on BTX (log 19). -/
structure Bench where
  rate1 : Bool
  rate0 : Bool
  receiver : Receiver
  lanes : Vector Lane 8
  output : List Response
  sentFrames : List SentFrame
  deriving DecidableEq, Repr

/-! ### Notice Unit (chapter 9) -/

/-- Kinds of port event, in the order of R178. -/
inductive EventCode where
  | seated | unseated | locked | lost | frozen | resumed | selfStop | unresponsive
  deriving DecidableEq, Repr

/-- A pending set (R171). `lapsed` and `linkError` are used by C0 only. `portEvents` is kept in the order of
R178 with no repeats. -/
structure Pending where
  fired : List Handle
  more : Bool
  portEvents : List (PortId × EventCode)
  revoked : Bool
  overrun : Bool
  lapsed : ChanSet
  linkError : Bool
  deriving DecidableEq, Repr

/-- A port event handed to the Notice Unit with the channels its sender chose (R173). -/
structure PortEventMsg where
  port : PortId
  block : PortBlock
  kind : EventCode
  chans : ChanSet
  deriving DecidableEq, Repr

/-- The remaining additions (R174). -/
inductive Addition where
  | revoked (c : ChanId) | overrun (c : ChanId) | lapsed (c : ChanId) | linkError
  deriving DecidableEq, Repr

/-- The Notice Unit (R171, R177). `attn` is true while ATTN is driven low. -/
structure NoticeUnit where
  pending : Vector Pending 8
  attn : Bool
  signals : List (UnitId × Handle × ChanId)
  events : List PortEventMsg
  additions : List Addition
  deriving DecidableEq, Repr

/-! ### Description Reader (chapter 11) -/

/-- Description statuses (R193), in the code order of R196. -/
inductive DescStatus where
  | loaded | partlyLoaded | defective | absent
  deriving DecidableEq, Repr

/-- A read the Description Reader makes (R192): the 7-bit address of the device and the bytes sent before the read, the
16-bit memory address, most significant byte first. -/
structure BusRead where
  device : BitVec 7
  sent : List Byte
  deriving DecidableEq, Repr

/-- The Description Reader (R193, R196). `walking` from the end of pin reset to the end of the walk (R194). `reads`
lists the reads of the walk, oldest first, from its end on (log 11). -/
structure Description where
  walking : Bool
  status : DescStatus
  nodesTaken : Nat
  nodesSkipped : Nat
  name : List Byte
  reads : List BusRead
  deriving DecidableEq, Repr

/-! ### The whole part -/

/-- The state of the part. `pending` is the queue of commands that wait, first in, first out; `fresh` is the
counter the free values are read with (log 9). -/
structure State where
  pending : List Instr
  bench : Bench
  chans : Vector Channel 8
  teardowns : Teardowns
  table : WatchTable
  ports : Vector Port 6
  cross : CrossUnit
  notice : NoticeUnit
  desc : Description
  fresh : Nat
  deriving DecidableEq, Repr

/-! ### Values after a pin reset -/

def RecordView.reset : RecordView := { copy := [], tokens := [], begun := false }

/-- R36; the run and link state follow R72 and R115. -/
def MatchUnit.reset : MatchUnit :=
  { view := RecordView.reset, events := [], timers := [], run := .offline, link := .down,
    runReports := [], linkReports := [] }

/-- R106; the filtered level is log 15. -/
def CrossUnit.reset : CrossUnit :=
  { view := RecordView.reset, lines := Vector.replicate 4 { driving := none, high := true },
    edges := [], requests := [] }

/-- R72. The reset line is at its default safe level, ASSERTED (R126). -/
def RunControl.reset : RunControl :=
  { run := .offline, holds := ChanSet.empty, boardHold := false, budget := 0, stopTimer := none,
    expiries := 0, resumers := ChanSet.empty, linkLocked := false, resetAsserted := true,
    fromUnits := [], reports := [], removals := [] }

/-- R95. -/
def Gate.reset : Gate :=
  { isOpen := false, opener := none, span := 0, gap := false, missed := 0, closingMark := false,
    sending := false, fromMatch := [], fromCross := [], unseats := 0, sent := [] }

/-- R110, R113, R115, R121, R126; the status levels are log 15. -/
def LinkController.reset : LinkController :=
  { seatHigh := false, seat := .empty, debounce := none, epoch := 0, link := .down, goodSync := 0,
    badSync := 0, expecting := false, outgoing := [], sentFrames := [], credits := Config.creditLimit,
    received := 0, violation := false, status := Vector.replicate 4 false, resetAsserted := true,
    powerOn := false, creditReturns := 0, safeRequests := [] }

/-- R155. -/
def Arbiter.reset : Arbiter :=
  { claims := Vector.replicate 8 none, queue := [], lifts := ChanSet.empty, use := .idle,
    parked := Vector.replicate 8 none, nextTag := 0, replyTimer := none, linkLocked := false,
    fromLink := [] }

/-- The defaults of R193. -/
def PortSettings.reset : PortSettings :=
  { debounce := Config.defaultDebounce, filters := Vector.replicate 4 .us2, safeResetAsserted := true,
    safePowerOn := false, replyLimit := Config.defaultReplyLimit, stopLimit := Config.defaultStopLimit }

def Port.reset : Port :=
  { settings := PortSettings.reset, mu := MatchUnit.reset, rc := RunControl.reset, gate := Gate.reset,
    tlc := LinkController.reset, arb := Arbiter.reset }

/-- No enables. -/
def Enables.empty : Enables :=
  { fired := false, portEvents := false, revokedOverrun := false, lapsedLinkError := false }

/-- R157. -/
def Channel.reset : Channel :=
  { isOpen := false, teardown := none, cls := 0, leaseLimit := none, leaseTimer := none,
    enables := Enables.empty, maxClass := 3, defaultLease := Config.defaultLease }

/-- R182. -/
def Lane.reset : Lane := { outstanding := 0, queue := [], executing := none }

/-- R181, R182, R184; the straps are log 15. -/
def Bench.reset : Bench :=
  { rate1 := false, rate0 := false, receiver := .hunting, lanes := Vector.replicate 8 Lane.reset,
    output := [], sentFrames := [] }

/-- R171. -/
def Pending.empty : Pending :=
  { fired := [], more := false, portEvents := [], revoked := false, overrun := false,
    lapsed := ChanSet.empty, linkError := false }

/-- R171, R177. -/
def NoticeUnit.reset : NoticeUnit :=
  { pending := Vector.replicate 8 Pending.empty, attn := false, signals := [], events := [], additions := [] }

/-- R32: every slot FREE with issue number 0, the placement counter 0. -/
def WatchTable.reset : WatchTable :=
  { slots := List.replicate Config.slotCount { issue := 0, record := none }, counter := 0, nextChange := 0 }

/-- R194: the walk begins as nRESET rises; the status and counts before its end are log 15. -/
def Description.reset : Description :=
  { walking := true, status := .absent, nodesTaken := 0, nodesSkipped := 0, name := [], reads := [] }

/-- The part right after a pin reset, with the description walk beginning (R194). -/
def State.reset : State :=
  { pending := [], bench := Bench.reset, chans := Vector.replicate 8 Channel.reset,
    teardowns := { current := none, queued := [] }, table := WatchTable.reset,
    ports := Vector.replicate 6 Port.reset, cross := CrossUnit.reset, notice := NoticeUnit.reset,
    desc := Description.reset, fresh := 0 }

/-! ### How a step stops -/

/-- Reasons to stop with a fault. The reference gives the part no fault that stops it, so there is none. -/
inductive Fault where
  deriving DecidableEq, Repr

/-- Reasons to refuse a command. -/
inductive Refusal where
  /-- Raised by exec for a row with no meaning yet; safe. No arm raises it in this model. -/
  | notModelled (mnemonic : String)
  deriving DecidableEq, Repr

end Sys2Proof.Machine
end

