-- ==== Sys2Proof/Machine/Ops.lean ====
section
/-! DEFINITION. The named operations every family shares: reading and writing the parts of the state, taking the
oldest event of a sender, answering a request, handing an addition to the Notice Unit. -/

namespace Sys2Proof.Machine

/-! ### Numbers of ports, channels and units -/

def allPorts : List PortId := [0, 1, 2, 3, 4, 5]
def allChans : List ChanId := [0, 1, 2, 3, 4, 5, 6, 7]
def allUnits : List UnitId :=
  [.matchUnit 0, .matchUnit 1, .matchUnit 2, .matchUnit 3, .matchUnit 4, .matchUnit 5, .crossLine]

/-! ### Sets of channels -/

namespace ChanSet

def has (s : ChanSet) (c : ChanId) : Bool := s[c]
def insert (s : ChanSet) (c : ChanId) : ChanSet := s.set c true
def erase (s : ChanSet) (c : ChanId) : ChanSet := s.set c false
def isEmpty (s : ChanSet) : Bool := allChans.all fun c => !s.has c
def size (s : ChanSet) : Nat := (allChans.filter s.has).length

/-- The set holding exactly the channels `f` accepts. -/
def ofPred (f : ChanId → Bool) : ChanSet := #v[f 0, f 1, f 2, f 3, f 4, f 5, f 6, f 7]

def union (a b : ChanSet) : ChanSet := ofPred fun c => a.has c || b.has c

/-- The set holding one channel. -/
def single (c : ChanId) : ChanSet := empty.insert c

/-- Bit c of the byte is channel c (R191). -/
def bitmap (s : ChanSet) : Byte :=
  BitVec.ofNat 8 (allChans.foldl (fun n c => if s.has c then n + 2 ^ c.val else n) 0)

end ChanSet

/-! ### Reading and writing the parts of the state -/

def mapPorts (f : Port → Port) (v : Vector Port 6) : Vector Port 6 :=
  #v[f v[0], f v[1], f v[2], f v[3], f v[4], f v[5]]

def mapEight {α : Type} (f : α → α) (v : Vector α 8) : Vector α 8 :=
  #v[f v[0], f v[1], f v[2], f v[3], f v[4], f v[5], f v[6], f v[7]]

namespace State

def port (s : State) (p : PortId) : Port := s.ports[p]
def setPort (s : State) (p : PortId) (x : Port) : State := { s with ports := s.ports.set p x }

def chan (s : State) (c : ChanId) : Channel := s.chans[c]
def setChan (s : State) (c : ChanId) (x : Channel) : State := { s with chans := s.chans.set c x }

def lane (s : State) (c : ChanId) : Lane := s.bench.lanes[c]
def setLane (s : State) (c : ChanId) (x : Lane) : State :=
  { s with bench := { s.bench with lanes := s.bench.lanes.set c x } }

def pendingOf (s : State) (c : ChanId) : Pending := s.notice.pending[c]
def setPending (s : State) (c : ChanId) (x : Pending) : State :=
  { s with notice := { s.notice with pending := s.notice.pending.set c x } }

end State

/-! ### Waiting events -/

/-- The oldest element `sel` accepts, and the list without it: how a block takes the next event of one sender. -/
def takeFirst {α : Type} (sel : α → Bool) : List α → Option (α × List α)
  | [] => none
  | x :: rest =>
    if sel x then some (x, rest)
    else match takeFirst sel rest with
      | none => none
      | some (y, rest') => some (y, x :: rest')

/-- The channel whose set an addition goes to: LAPSED and LINK_ERROR go to C0 (R174). -/
def Addition.target : Addition → ChanId
  | .revoked c => c
  | .overrun c => c
  | .lapsed _ => 0
  | .linkError => 0

/-! ### Answering requests (R183, R184) -/

namespace State

/-- Hands a response to the output queue (R184), with the handle it reports where it is the answer of LOOKUP (R23). -/
def respond (s : State) (c : ChanId) (tag : Byte) (st : Status) (payload : List Byte) (handle : Option Handle := none) :
    State :=
  { s with bench := { s.bench with output := s.bench.output ++
    [{ chan := c, tag := tag, status := st, payload := payload, handle := handle }] } }

/-- Ends the request channel `c` is executing: its response is handed over, or, where it is marked to end without
one, its place is freed (R163, R182). -/
def finish (s : State) (c : ChanId) (st : Status) (payload : List Byte) : State :=
  match (s.lane c).executing with
  | none => s
  | some e =>
    if e.silent then
      s.setLane c { s.lane c with executing := none, outstanding := (s.lane c).outstanding - 1 }
    else
      (s.setLane c { s.lane c with executing := none }).respond c e.tag st payload

/-- Ends the request channel `c` is executing without a response (R169, R195). -/
def endSilently (s : State) (c : ChanId) : State :=
  match (s.lane c).executing with
  | none => s
  | some _ => s.setLane c { s.lane c with executing := none, outstanding := (s.lane c).outstanding - 1 }

/-- The frame channel `c` may execute now: the head of its queue, when the request before it has ended, no
teardown of the channel is in progress and the description walk is over (R158, R183, R194). -/
def headFrame (s : State) (c : ChanId) : Option Frame :=
  if s.desc.walking || (s.lane c).executing.isSome || (s.chan c).teardown.isSome then none
  else (s.lane c).queue.head?

/-- Takes the head frame out of the queue of channel `c`. -/
def popFrame (s : State) (c : ChanId) : State :=
  s.setLane c { s.lane c with queue := (s.lane c).queue.tail }

/-- Makes `f` the executing request of channel `c`, to be answered later (R183). -/
def wait (s : State) (c : ChanId) (f : Frame) (w : Wait) : State :=
  s.setLane c { s.lane c with executing := some { tag := f.tag, kind := f.kind, wait := w, silent := false } }

/-- Executes the head frame of channel `c` when its kind is `kind`: the frame leaves the queue and `body` is its
owning block's rule. Without such a frame nothing happens (log 1). -/
def request (s : State) (c : ChanId) (kind : Byte) (body : Frame → State → State) : State :=
  match s.headFrame c with
  | none => s
  | some f => if f.kind = kind then body f (s.popFrame c) else s

/-- Answers frame `f` of channel `c` at once. -/
def answer (s : State) (c : ChanId) (f : Frame) (st : Status) (payload : List Byte) (handle : Option Handle := none) :
    State :=
  s.respond c f.tag st payload handle

/-- A request whose first check is that the channel is OPEN, otherwise CLOSED (R158). -/
def openRequest (s : State) (c : ChanId) (kind : Byte) (body : Frame → State → State) : State :=
  s.request c kind fun f s' =>
    if (s'.chan c).isOpen then body f s' else s'.answer c f .closed []

/-- Channels whose HALT waits for port `p` to settle (R78). -/
def waitingHalts (s : State) (p : PortId) : List ChanId :=
  allChans.filter fun c => match (s.lane c).executing with
    | some e => e.wait = .settle p
    | none => false

end State

/-- Inserts a channel behind those of a rank not above its own. -/
def insertByRank (rank : ChanId → Nat) (c : ChanId) : List ChanId → List ChanId
  | [] => [c]
  | d :: rest => if rank c < rank d then c :: d :: rest else d :: insertByRank rank c rest

/-- The channels in the order of a rank. -/
def orderByRank (rank : ChanId → Nat) : List ChanId → List ChanId
  | [] => []
  | c :: rest => insertByRank rank c (orderByRank rank rest)

namespace State

/-- Answers every HALT that waits for port `p` (R78). Where several wait, the order of their responses is a free
value (log 9). -/
def settleHalts (s : State) (p : PortId) (st : Status) : State :=
  let order := orderByRank (fun c => Config.settleRank s.fresh c.val) (s.waitingHalts p)
  order.foldl (fun t c => t.finish c st []) { s with fresh := if order.length ≤ 1 then s.fresh else s.fresh + 1 }

/-! ### Hand-overs to the Notice Unit (R172, R173, R174) -/

def sendSignal (s : State) (u : UnitId) (h : Handle) (owner : ChanId) : State :=
  { s with notice := { s.notice with signals := s.notice.signals ++ [(u, h, owner)] } }

def sendEvent (s : State) (m : PortEventMsg) : State :=
  { s with notice := { s.notice with events := s.notice.events ++ [m] } }

def sendAddition (s : State) (a : Addition) : State :=
  { s with notice := { s.notice with additions := s.notice.additions ++ [a] } }

/-- A SIGNAL, a port event or an addition for the channel waits at the Notice Unit. Where a rule puts the channel's opening
or its closing behind it, the command waits for it (log 4). -/
def noticeWaits (s : State) (c : ChanId) : Bool :=
  s.notice.signals.any (fun x => x.2.2 = c) || s.notice.events.any (fun m => m.chans.has c) ||
  s.notice.additions.any (fun a => a.target = c)

end State

/-! ### Reading a port's claims (R131) -/

namespace Port

/-- The channels that hold a claim on the port. -/
def claimants (p : Port) : ChanSet := ChanSet.ofPred fun c => p.arb.claims[c].isSome

/-- The channels that hold a claim on the port or are in its hold set (R92, R129). -/
def concerned (p : Port) : ChanSet := p.claimants.union p.rc.holds

def hasClaim (p : Port) (c : ChanId) : Bool := p.arb.claims[c].isSome
def hasSole (p : Port) (c : ChanId) : Bool := p.arb.claims[c] = some .sole

/-- A channel other than `owner` holds the port SOLE (R48). -/
def foreignSole (p : Port) (owner : ChanId) : Bool := allChans.any fun c => c ≠ owner && p.hasSole c

/-- Hands a frame to the Target Link Controller: it waits to be sent while the link is LOCKED, and is discarded
otherwise (R118). -/
def sendFrame (p : Port) (f : LinkFrame) : Port :=
  if p.tlc.link = .locked then { p with tlc := { p.tlc with outgoing := p.tlc.outgoing ++ [f] } } else p

end Port

end Sys2Proof.Machine
end

