-- ==== Sys2Proof/Machine/Flags.lean ====
section
/-! DEFINITION. The flags and conditions computed from other state: the pending members and the attention line
(R171, R175, R177), saturating counts, the tally's range and overflow flag (R62 to R64), the mean (R66). -/

namespace Sys2Proof.Machine

/-! ### The attention line -/

/-- FIRED is non-empty also when only its MORE flag is set (R171). -/
def Pending.firedNonEmpty (q : Pending) : Bool := !q.fired.isEmpty || q.more

/-- A non-empty member in a group of the channel's own enables (R175, R177). -/
def attentionOf (e : Enables) (q : Pending) : Bool :=
  (e.fired && q.firedNonEmpty) || (e.portEvents && !q.portEvents.isEmpty) ||
  (e.revokedOverrun && (q.revoked || q.overrun)) || (e.lapsedLinkError && (!q.lapsed.isEmpty || q.linkError))

/-- At least one OPEN channel has a non-empty enabled member (R177). -/
def State.attentionCondition (s : State) : Bool :=
  allChans.any fun c => (s.chan c).isOpen && attentionOf (s.chan c).enables (s.pendingOf c)

/-- Re-evaluates the attention line (R177). -/
def State.reevaluate (s : State) : State :=
  { s with notice := { s.notice with attn := s.attentionCondition } }

/-! ### Pending sets -/

/-- The kinds of port event in the order of R178. -/
def allEventCodes : List EventCode :=
  [.seated, .unseated, .locked, .lost, .frozen, .resumed, .selfStop, .unresponsive]

/-- The 48 pairs in the order of R178. -/
def allPairs : List (PortId × EventCode) := allPorts.flatMap fun p => allEventCodes.map fun k => (p, k)

/-- Adds a pair to a port events set: each pair at most once (R171, R173). -/
def addPair (x : PortId × EventCode) (l : List (PortId × EventCode)) : List (PortId × EventCode) :=
  allPairs.filter fun y => y = x || l.contains y

/-- A SIGNAL's handle joins a FIRED list by the table of R172. -/
def Pending.addFired (q : Pending) (h : Handle) : Pending :=
  if q.fired.contains h then q
  else if q.fired.length < Config.firedLimit then { q with fired := q.fired ++ [h] }
  else { q with more := true }

/-! ### Saturating counts -/

/-- Adds without passing `top`. -/
def satAdd (top n k : Nat) : Nat := if n + k ≤ top then n + k else top

/-! ### Tally arithmetic (R59, R61 to R64) -/

/-- Smallest value of the accumulator's range (R59). -/
def TallySign.low : TallySign → Int
  | .unsigned => 0
  | .signed => -2147483648

/-- Largest value of the accumulator's range (R59). -/
def TallySign.high : TallySign → Int
  | .unsigned => 4294967295
  | .signed => 2147483647

def Width.bytes : Width → Nat
  | .one => 1
  | .two => 2
  | .four => 4

/-- The bytes within the width; those above it are 0 (R41). -/
def Width.low (w : Width) (d : Word) : Word :=
  match w with
  | .one => (d.extractLsb' 0 8).setWidth 32
  | .two => (d.extractLsb' 0 16).setWidth 32
  | .four => d

/-- The data read as a number of the tally's sign (R61). -/
def Width.number (w : Width) (sign : TallySign) (d : Word) : Int :=
  match sign, w with
  | .unsigned, _ => ((w.low d).toNat : Int)
  | .signed, .one => (d.extractLsb' 0 8).toInt
  | .signed, .two => (d.extractLsb' 0 16).toInt
  | .signed, .four => d.toInt

/-- The contribution of a hit (R61): 1 in COUNT mode, the observation's data in SUM mode. A hit without an
observation comes to COUNT tallies only (R14). -/
def Tally.contribution (t : Tally) (o : Option Observation) : Int :=
  match t.mode, o with
  | .sum, some ob => ob.width.number t.sign ob.data
  | .sum, none => 1
  | .count, _ => 1

/-- The accumulator and overflow flag after a contribution `k` (R62 to R64). -/
def Tally.accumulate (t : Tally) (k : Int) : Tally :=
  if t.limit = .saturate && t.overflow then t
  else
    let sum := t.accumulator + k
    if t.sign.high < sum then
      { t with overflow := true, accumulator := match t.limit with
          | .wrap => sum - 4294967296
          | .saturate => t.sign.high }
    else if sum < t.sign.low then
      { t with overflow := true, accumulator := match t.limit with
          | .wrap => sum + 4294967296
          | .saturate => t.sign.low }
    else { t with accumulator := sum }

/-- One contribution (R62): the contributions count rises, saturating, and the accumulator takes it. -/
def Tally.contribute (t : Tally) (o : Option Observation) : Tally :=
  { t.accumulate (t.contribution o) with contributions := satAdd 4294967295 t.contributions 1 }

/-- A tally at its start values (R8, R70). -/
def Tally.start (m : TallyMode) (sg : TallySign) (l : TallyLimit) : Tally :=
  { mode := m, sign := sg, limit := l, accumulator := 0, contributions := 0, overflow := false }

/-- The tally after a clear (R67). -/
def Tally.clear (t : Tally) : Tally := { t with accumulator := 0, contributions := 0, overflow := false }

/-- A 32-bit value read in the form of the tally's sign (R68). -/
def TallySign.read (sg : TallySign) (w : Word) : Int :=
  match sg with
  | .unsigned => (w.toNat : Int)
  | .signed => w.toInt

/-- `a` divided by `n`, rounded to the nearest whole number, halves to the even one (R66). -/
def roundedMean (a : Int) (n : Nat) : Int :=
  let q := a / (n : Int)
  let r := a % (n : Int)
  if 2 * r < (n : Int) then q
  else if (n : Int) < 2 * r then q + 1
  else if q % 2 = 0 then q else q + 1

end Sys2Proof.Machine
end

