-- ==== Sys2Proof/Machine/Operands.lean ====
section
/-! DEFINITION. The byte forms of the bench port: fields (R180), codes (R186, R187), the frame check (R180), and
every request payload read and every response payload written (R185, R188 to R191). A payload that is not well
formed reads as `none`, which its request answers BAD. -/

namespace Sys2Proof.Machine

/-! ### Fields, least significant byte first (R180) -/

def byteAt (b : List Byte) (i : Nat) : Nat := (b.getD i 0).toNat
def halfAt (b : List Byte) (i : Nat) : Half := b.getD (i + 1) 0 ++ b.getD i 0
def wordAt (b : List Byte) (i : Nat) : Word :=
  b.getD (i + 3) 0 ++ b.getD (i + 2) 0 ++ b.getD (i + 1) 0 ++ b.getD i 0

def byteOf (n : Nat) : Byte := BitVec.ofNat 8 n
def halfBytes (h : Half) : List Byte := [h.extractLsb' 0 8, h.extractLsb' 8 8]
def wordBytes (w : Word) : List Byte :=
  [w.extractLsb' 0 8, w.extractLsb' 8 8, w.extractLsb' 16 8, w.extractLsb' 24 8]
def halfOf (n : Nat) : Half := BitVec.ofNat 16 n
def flagByte (f : Bool) : Byte := if f then 1 else 0

/-- Bit `i` of a number read from a payload. -/
def bitOf (n i : Nat) : Bool := n.testBit i

/-! ### The check (R180) -/

/-- One bit step of the CRC-16 with polynomial x^16 + x^12 + x^5 + 1. -/
def crcBit (c : Half) : Half := if c.msb then (c <<< 1) ^^^ 0x1021 else c <<< 1

/-- One byte, most significant bit first. -/
def crcByte (c : Half) (b : Byte) : Half :=
  let x := c ^^^ (b.setWidth 16 <<< 8)
  crcBit (crcBit (crcBit (crcBit (crcBit (crcBit (crcBit (crcBit x)))))))

/-- The check over bytes in order, initial value 0xFFFF, no final inversion. -/
def crc16 (bytes : List Byte) : Half := bytes.foldl crcByte 0xFFFF

/-! ### Codes (R186) -/

def Status.code : Status → Nat
  | .done => 0 | .bad => 1 | .denied => 2 | .stale => 3 | .full => 4 | .busy => 5 | .inUse => 6
  | .notHeld => 7 | .noClaim => 8 | .absent => 9 | .noLink => 10 | .inReset => 11 | .running => 12
  | .parked => 13 | .timeout => 14 | .fault => 15 | .linkLost => 16 | .unresponsive => 17 | .epoch => 18
  | .closed => 19 | .starting => 20

def kindOpen : Byte := 0x01
def kindClose : Byte := 0x02
def kindRenew : Byte := 0x03
def kindPoll : Byte := 0x04
def kindNotices : Byte := 0x05
def kindClaim : Byte := 0x10
def kindRelease : Byte := 0x11
def kindHalt : Byte := 0x12
def kindResume : Byte := 0x13
def kindStep : Byte := 0x14
def kindDrive : Byte := 0x15
def kindGate : Byte := 0x16
def kindPortstat : Byte := 0x17
def kindRead : Byte := 0x20
def kindWrite : Byte := 0x21
def kindReplay : Byte := 0x22
def kindDrop : Byte := 0x23
def kindPlace : Byte := 0x30
def kindAmend : Byte := 0x31
def kindSuspend : Byte := 0x32
def kindArm : Byte := 0x33
def kindRetire : Byte := 0x34
def kindLookup : Byte := 0x35
def kindList : Byte := 0x36
def kindFind : Byte := 0x37
def kindTally : Byte := 0x38
def kindPartstat : Byte := 0x40
def kindResetbench : Byte := 0x41

/-- The request kinds of R186; every other code is answered BAD (R183). -/
def requestKinds : List Byte :=
  [kindOpen, kindClose, kindRenew, kindPoll, kindNotices, kindClaim, kindRelease, kindHalt, kindResume, kindStep,
   kindDrive, kindGate, kindPortstat, kindRead, kindWrite, kindReplay, kindDrop, kindPlace, kindAmend, kindSuspend,
   kindArm, kindRetire, kindLookup, kindList, kindFind, kindTally, kindPartstat, kindResetbench]

/-! ### Frames (R180) -/

/-- A response as the bytes of its frame. -/
def Response.frameBytes (r : Response) : List Byte :=
  let body := halfBytes (halfOf r.payload.length) ++ [byteOf r.chan.val, r.tag, byteOf r.status.code] ++ r.payload
  0xA5 :: (body ++ halfBytes (crc16 body))

/-! ### Enumerated fields (R187) -/

def readFlag (n : Nat) : Option Bool := match n with | 0 => some false | 1 => some true | _ => none
def readPort (n : Nat) : Option PortId := if h : n < 6 then some ⟨n, h⟩ else none
def readChan (n : Nat) : Option ChanId := if h : n < 8 then some ⟨n, h⟩ else none
def readFour (n : Nat) : Option (Fin 4) := if h : n < 4 then some ⟨n, h⟩ else none
def readSixteen (n : Nat) : Option (Fin 16) := if h : n < 16 then some ⟨n, h⟩ else none
def readGuard (n : Nat) : Option Guard :=
  match n with | 0 => some .guardOpen | 1 => some .guardReadable | 2 => some .guardPrivate | _ => none
def readDirection (n : Nat) : Option Direction := match n with | 0 => some .read | 1 => some .write | _ => none
def readDirFilter (n : Nat) : Option DirFilter :=
  match n with | 0 => some .read | 1 => some .write | 2 => some .either | _ => none
def readWidth (n : Nat) : Option Width :=
  match n with | 1 => some .one | 2 => some .two | 4 => some .four | _ => none
def readOrigin (n : Nat) : Option Origin := match n with | 0 => some .board | 1 => some .debug | _ => none
def readOriginFilter (n : Nat) : Option OriginFilter :=
  match n with | 0 => some .boardOnly | 1 => some .boardAndDebug | _ => none
def readEdgeFilter (n : Nat) : Option EdgeFilter :=
  match n with | 0 => some .rise | 1 => some .fall | 2 => some .either | _ => none
def readMode (n : Nat) : Option TallyMode := match n with | 0 => some .count | 1 => some .sum | _ => none
def readSign (n : Nat) : Option TallySign := match n with | 0 => some .unsigned | 1 => some .signed | _ => none
def readLimit (n : Nat) : Option TallyLimit := match n with | 0 => some .wrap | 1 => some .saturate | _ => none

/-- A non-empty width set drawn from 1, 2 and 4 (R14, R187). -/
def readWidths (n : Nat) : Option WidthSet :=
  if 0 < n ∧ n < 8 then some { one := bitOf n 0, two := bitOf n 1, four := bitOf n 2 } else none

/-- The initiator number is not read under the filter ANY (log 17). -/
def readInitiator (f t : Nat) : Option InitiatorFilter :=
  match f with
  | 0 => some .any
  | 1 => (readSixteen t).map .only
  | 2 => (readSixteen t).map .allBut
  | _ => none

/-- The port of an ALL scope is not read (R188). -/
def readScope (k p : Nat) : Option Scope :=
  match k with
  | 0 => (readPort p).map .one
  | 1 => some .all
  | 2 => (readPort p).map .allBut
  | _ => none

/-- An action set with its span and line; those of absent actions are not read (R185). -/
def readActions (set : Nat) (span : Half) (line : Nat) : Option Actions :=
  if set < 32 then
    if bitOf set 4 then
      (readFour line).map fun x =>
        { signal := bitOf set 0, freeze := bitOf set 1, gateOpen := if bitOf set 2 then some span else none,
          gateClose := bitOf set 3, crossPulse := some x }
    else
      some { signal := bitOf set 0, freeze := bitOf set 1, gateOpen := if bitOf set 2 then some span else none,
             gateClose := bitOf set 3, crossPulse := none }
  else none

/-- Notice enables: bits 0 to 3 (R191). -/
def readEnables (n : Nat) : Option Enables :=
  if n < 16 then
    some { fired := bitOf n 0, portEvents := bitOf n 1, revokedOverrun := bitOf n 2, lapsedLinkError := bitOf n 3 }
  else none

def Enables.byte (e : Enables) : Byte :=
  flagByte e.fired + 2 * flagByte e.portEvents + 4 * flagByte e.revokedOverrun + 8 * flagByte e.lapsedLinkError

/-! ### Short request payloads (R191) -/

/-- A payload of one port byte. -/
def readPortPayload (b : List Byte) : Option PortId := if b.length = 1 then readPort (byteAt b 0) else none

/-- A payload of one handle. -/
def readHandle (b : List Byte) (i : Nat) : Handle := { slot := byteAt b i, issue := b.getD (i + 1) 0 }

/-- A handle's slot is 0 to 95; one above is answered BAD (R2). -/
def Handle.inRange (h : Handle) : Bool := h.slot < Config.slotCount

def readHandlePayload (b : List Byte) : Option Handle :=
  if b.length = 2 ∧ (readHandle b 0).inRange then some (readHandle b 0) else none

/-- A payload of a handle and a flag (RETIRE, TALLY). -/
def readHandleFlag (b : List Byte) : Option (Handle × Bool) :=
  if b.length = 3 ∧ (readHandle b 0).inRange then (readFlag (byteAt b 2)).map fun f => (readHandle b 0, f) else none

structure OpenRequest where
  cls : Fin 4
  lease : Option Nat
  enables : Enables
  deriving DecidableEq, Repr

/-- OPEN: class; lease present; lease; enables (R159, R191). An absent lease's bytes are not read (R185). -/
def readOpen (b : List Byte) : Option OpenRequest :=
  if b.length = 5 then
    match readFour (byteAt b 0), readFlag (byteAt b 1), readEnables (byteAt b 4) with
    | some cls, some present, some en =>
      let lease := (halfAt b 2).toNat
      if present then
        if 100 ≤ lease ∧ lease ≤ 60000 then some { cls := cls, lease := some lease, enables := en } else none
      else some { cls := cls, lease := none, enables := en }
    | _, _, _ => none
  else none

def readNotices (b : List Byte) : Option Enables := if b.length = 1 then readEnables (byteAt b 0) else none

def readClaim (b : List Byte) : Option (PortId × ClaimMode) :=
  if b.length = 2 then
    match readPort (byteAt b 0), byteAt b 1 with
    | some p, 0 => some (p, .shared)
    | some p, 1 => some (p, .sole)
    | _, _ => none
  else none

/-- STEP: port; n, 1 to 65535 (R82). -/
def readStep (b : List Byte) : Option (PortId × Nat) :=
  if b.length = 3 then
    match readPort (byteAt b 0) with
    | some p => if (halfAt b 1).toNat = 0 then none else some (p, (halfAt b 1).toNat)
    | none => none
  else none

structure DriveRequest where
  port : PortId
  reset : Option Bool
  power : Option Bool
  deriving DecidableEq, Repr

/-- 0 no change, 1 ASSERTED or ON (true), 2 RELEASED or OFF (false) (R191). -/
def readLevel (n : Nat) : Option (Option Bool) :=
  match n with | 0 => some none | 1 => some (some true) | 2 => some (some false) | _ => none

/-- DRIVE: at least one line is named (R127). -/
def readDrive (b : List Byte) : Option DriveRequest :=
  if b.length = 3 then
    match readPort (byteAt b 0), readLevel (byteAt b 1), readLevel (byteAt b 2) with
    | some p, some r, some w => if r.isNone && w.isNone then none else some { port := p, reset := r, power := w }
    | _, _, _ => none
  else none

/-- GATE: port; OPEN with its span (`some`) or CLOSE (`none`), whose span is not read (R185). -/
def readGate (b : List Byte) : Option (PortId × Option Half) :=
  if b.length = 4 then
    match readPort (byteAt b 0), byteAt b 1 with
    | some p, 0 => some (p, some (halfAt b 2))
    | some p, 1 => some (p, none)
    | _, _ => none
  else none

inductive Selector where
  | owner (c : ChanId) | port (p : PortId) | cross
  deriving DecidableEq, Repr

/-- LIST: a selector and its channel or port; the second byte is not read for CROSS (R189). -/
def readList (b : List Byte) : Option Selector :=
  if b.length = 2 then
    match byteAt b 0 with
    | 0 => (readChan (byteAt b 1)).map .owner
    | 1 => (readPort (byteAt b 1)).map .port
    | 2 => some .cross
    | _ => none
  else none

structure FindRequest where
  port : PortId
  obs : Observation
  withData : Bool
  deriving DecidableEq, Repr

/-- FIND: an observation image, whose epoch and sequence are not read, and the data-present flag (R189). The data
bytes above the width are taken as 0 (R41). -/
def readFind (b : List Byte) : Option FindRequest :=
  if b.length = 18 then
    match readPort (byteAt b 0), readDirection (byteAt b 13), readWidth (byteAt b 14), readSixteen (byteAt b 15),
        readOrigin (byteAt b 16), readFlag (byteAt b 17) with
    | some p, some d, some w, some t, some og, some present =>
      some { port := p, withData := present,
             obs := { address := wordAt b 5, data := w.low (wordAt b 9), direction := d, width := w,
                      initiator := t, origin := og, sequence := 0 } }
    | _, _, _, _, _, _ => none
  else none

/-! ### Access payloads (R190) -/

structure AccessRequest where
  port : PortId
  block : Block
  epochGuard : Option Half
  deriving DecidableEq, Repr

/-- The powers of two from 8 to 4096 (R134). -/
def wrapSpans : List Nat := [8, 16, 32, 64, 128, 256, 512, 1024, 2048, 4096]

/-- The WRAP span is read under WRAP only (R185). -/
def readStepping (k : Nat) (span : Nat) : Option Stepping :=
  match k with
  | 0 => some .increment
  | 1 => some .fixed
  | 2 => if wrapSpans.contains span then some (.wrap span) else none
  | _ => none

/-- The epoch guard is read when its presence byte is set only (R185). -/
def readEpochGuard (present : Nat) (g : Half) : Option (Option Half) :=
  match present with | 0 => some none | 1 => some (some g) | _ => none

/-- Word `i` of the data of a WRITE: `n` bytes, least significant first, the bytes above them 0. -/
def dataWord (b : List Byte) (w : Width) (i : Nat) : Word :=
  match w with
  | .one => (b.getD i 0).setWidth 32
  | .two => (halfAt b (2 * i)).setWidth 32
  | .four => wordAt b (4 * i)

/-- The offset of the data in a READ or WRITE payload. -/
def accessHeader : Nat := 14

/-- READ and WRITE (R134, R190): a READ carries no data, a WRITE exactly count × width bytes; WRAP wants a start
address that is a multiple of the width. -/
def readAccess (dir : Direction) (b : List Byte) : Option AccessRequest :=
  if b.length < accessHeader then none
  else
    match readPort (byteAt b 0), readWidth (byteAt b 1), readStepping (byteAt b 7) (halfAt b 8).toNat,
        readEpochGuard (byteAt b 10) (halfAt b 11), readFlag (byteAt b 13) with
    | some p, some w, some st, some g, some ho =>
      let count := byteAt b 2
      let start := wordAt b 3
      let payload := b.drop accessHeader
      let aligned : Bool := match st with
        | .wrap _ => start.toNat % w.bytes = 0
        | .increment | .fixed => true
      let sized : Bool := match dir with
        | .read => payload.length = 0
        | .write => payload.length = count * w.bytes
      if 1 ≤ count ∧ count ≤ 64 ∧ aligned ∧ sized then
        some { port := p, epochGuard := g,
               block := { direction := dir, width := w, count := count, start := start, stepping := st,
                          haltedOnly := ho,
                          data := match dir with
                            | .read => []
                            | .write => (List.range count).map fun i => dataWord payload w i } }
      else none
    | _, _, _, _, _ => none

/-! ### The record image (R188) -/

/-- Size of the fixed part. -/
def imageFixed : Nat := 34

def afterOffset (presence : Nat) : Nat := imageFixed + (if bitOf presence 0 then 8 else 0)
def quietOffset (presence : Nat) : Nat := afterOffset presence + (if bitOf presence 1 then 2 else 0)
def tallyOffset (presence : Nat) : Nat := quietOffset presence + (if bitOf presence 2 then 3 else 0)
def imageLength (presence : Nat) : Nat := tallyOffset presence + (if bitOf presence 3 then 12 else 0)

/-- An image of the PLACE form: the snapshot bit clear, no bit above it set (log 16), and the length its presence
bits give (R185, R188). -/
def imageShaped (b : List Byte) : Bool := byteAt b 0 < 16 && b.length = imageLength (byteAt b 0)

def readDataMatch (b : List Byte) : DataMatch := { pattern := wordAt b imageFixed, mask := wordAt b (imageFixed + 4) }

/-- The quiet limit, 3 bytes (R188), from 1 to 16,777,215 (R6). -/
def readQuiet (b : List Byte) : Option Nat :=
  let o := quietOffset (byteAt b 0)
  let n := byteAt b o + 256 * byteAt b (o + 1) + 65536 * byteAt b (o + 2)
  if n = 0 then none else some n

/-- The mode, sign and limit of a tally part. -/
def readTallyKind (b : List Byte) : Option (TallyMode × TallySign × TallyLimit) :=
  let o := tallyOffset (byteAt b 0)
  match readMode (byteAt b o), readSign (byteAt b (o + 1)), readLimit (byteAt b (o + 2)) with
  | some m, some sg, some l => some (m, sg, l)
  | _, _, _ => none

def readBusMatch (b : List Byte) : Option BusMatch :=
  match readDirFilter (byteAt b 29), readWidths (byteAt b 30), readInitiator (byteAt b 31) (byteAt b 32),
      readOriginFilter (byteAt b 33) with
  | some d, some w, some i, some og =>
    some { base := wordAt b 21, mask := wordAt b 25, direction := d, widths := w, initiator := i, origin := og }
  | _, _, _, _ => none

/-- The match part of the image's source (R5, R188); a data match stands in a BUS image only (R14). -/
def readCond (b : List Byte) : Option Cond :=
  let hasData := bitOf (byteAt b 0) 0
  match byteAt b 5 with
  | 0 => (readBusMatch b).map fun m => .bus m (if hasData then some (readDataMatch b) else none)
  | 1 => if hasData then none else
      match readFour (byteAt b 21), readEdgeFilter (byteAt b 22) with
      | some l, some e => some (.line l e)
      | _, _ => none
  | 2 => if hasData then none else (readFour (byteAt b 21)).map .cross
  | _ => none

/-- The trigger with its quiet limit, which is present exactly when it is ON_SILENCE (R14). -/
def readTrigger (b : List Byte) : Option Trigger :=
  let hasQuiet := bitOf (byteAt b 0) 2
  match byteAt b 9 with
  | 0 => if hasQuiet then none else some .onHit
  | 1 => if hasQuiet then (readQuiet b).map .onSilence else none
  | _ => none

/-- Whether a cond is a BUS one. -/
def Cond.isBus : Cond → Bool
  | .bus _ _ => true
  | .line _ _ | .cross _ => false

def Cond.isCross : Cond → Bool
  | .cross _ => true
  | .bus _ _ | .line _ _ => false

def Trigger.isSilence : Trigger → Bool
  | .onSilence _ => true
  | .onHit => false

def Scope.isOne : Scope → Bool
  | .one _ => true
  | .all | .allBut _ => false

/-- The conditions of R14 between fields; the ranges of single fields are checked where they are read. -/
def imageValid (scope : Scope) (cond : Cond) (trigger : Trigger) (goal : Nat) (actions : Actions)
    (tallyMode : Option TallyMode) : Bool :=
  (1 ≤ goal && goal ≤ 255) &&
  (!trigger.isSilence || (cond.isBus && scope.isOne && goal = 1 && tallyMode.isNone)) &&
  !(actions.gateOpen.isSome && actions.gateClose) &&
  !(cond.isCross && actions.crossPulse.isSome) &&
  (match tallyMode, cond with
    | none, _ => true
    | some _, .bus _ _ => true
    | some m, .line _ _ => m = .count
    | some _, .cross _ => false)

structure PlaceRequest where
  armed : Bool
  guard : Guard
  keep : Bool
  scope : Scope
  goal : Nat
  repeats : Bool
  side : MatchSide
  after : Option Handle
  tally : Option Tally
  deriving DecidableEq, Repr

/-- A start field: ARMED or SUSPENDED (R13, R187). -/
def readStart (n : Nat) : Option Bool := match n with | 3 => some true | 1 => some false | _ => none

/-- The tally part of a PLACE image, at its start values (R15); `some none` when absent. -/
def readPlaceTally (b : List Byte) : Option (Option Tally) :=
  if bitOf (byteAt b 0) 3 then (readTallyKind b).map fun k => some (Tally.start k.1 k.2.1 k.2.2) else some none

/-- The after handle of a PLACE image (R13, R188). -/
def readAfter (b : List Byte) : Option Handle :=
  if bitOf (byteAt b 0) 1 then some (readHandle b (afterOffset (byteAt b 0))) else none

/-- PLACE: a record image valid by R14 (R13, R188); an after handle names a slot of the table (R2). -/
def readPlace (b : List Byte) : Option PlaceRequest :=
  if imageShaped b then
    match readStart (byteAt b 1), readGuard (byteAt b 3), readFlag (byteAt b 4), readScope (byteAt b 6) (byteAt b 7),
        readSixteen (byteAt b 8), readTrigger b, readFlag (byteAt b 12),
        readActions (byteAt b 13) (halfAt b 14) (byteAt b 16), readCond b, readPlaceTally b with
    | some st, some g, some k, some sc, some rk, some tr, some rp, some ac, some cd, some tl =>
      if imageValid sc cd tr (byteAt b 10) ac (tl.map (·.mode)) && (readAfter b).all Handle.inRange then
        some { armed := st, guard := g, keep := k, scope := sc, goal := byteAt b 10, repeats := rp,
               side := { rank := rk, cond := cd, trigger := tr, actions := ac },
               after := readAfter b,
               tally := tl }
      else none
    | _, _, _, _, _, _, _, _, _, _ => none
  else none

structure AmendRequest where
  handle : Handle
  guard : Option Guard
  keep : Option Bool
  rank : Option (Fin 16)
  goal : Option Nat
  repeats : Option Bool
  actions : Option Actions
  bus : Option BusMatch
  data : Option (Option DataMatch)
  edge : Option EdgeFilter
  quiet : Option Nat
  mode : Option TallyMode
  load : Option Word
  newTally : Option (TallyMode × TallySign × TallyLimit)
  namesFixed : Bool
  deriving DecidableEq, Repr

/-- A field the mask does not name is not read; a named field is read by `r` (R188). -/
def named {α : Type} (bit : Bool) (r : Option α) : Option (Option α) := if bit then r.map some else some none

/-- A part of the image that is there when its presence bit is set. -/
def partOf {α : Type} (present : Bool) (r : Option α) : Option α := if present then r else none

/-- AMEND: a handle, a change mask and an image of the PLACE form, of which the named fields are read (R16, R188).
A named field whose optional part the image leaves out is not well formed (log 16). -/
def readAmend (payload : List Byte) : Option AmendRequest :=
  let b := payload.drop 4
  let m := (halfAt payload 2).toNat
  let pr := byteAt b 0
  if payload.length < 4 + imageFixed || !imageShaped b || !(readHandle payload 0).inRange then none
  else
    match named (bitOf m 0) (readGuard (byteAt b 3)), named (bitOf m 1) (readFlag (byteAt b 4)),
        named (bitOf m 2) (readSixteen (byteAt b 8)),
        named (bitOf m 3) (if byteAt b 10 = 0 then none else some (byteAt b 10)),
        named (bitOf m 4) (readFlag (byteAt b 12)),
        named (bitOf m 5) (readActions (byteAt b 13) (halfAt b 14) (byteAt b 16)),
        named (bitOf m 6) (readBusMatch b), named (bitOf m 8) (readEdgeFilter (byteAt b 22)),
        named (bitOf m 9) (partOf (bitOf pr 2) (readQuiet b)),
        named (bitOf m 10) (partOf (bitOf pr 3) (readMode (byteAt b (tallyOffset pr)))),
        named (bitOf m 11) (partOf (bitOf pr 3) (some (wordAt b (tallyOffset pr + 3)))),
        named (bitOf m 12) (partOf (bitOf pr 3) (readTallyKind b)) with
    | some g, some k, some rk, some gl, some rp, some ac, some bm, some ed, some q, some md, some ld, some nt =>
      some { handle := readHandle payload 0, guard := g, keep := k, rank := rk, goal := gl, repeats := rp,
             actions := ac, bus := bm,
             data := if bitOf m 7 then some (if bitOf pr 0 then some (readDataMatch b) else none) else none,
             edge := ed, quiet := q, mode := md, load := ld, newTally := nt,
             namesFixed := bitOf m 13 || bitOf m 14 || bitOf m 15 }
    | _, _, _, _, _, _, _, _, _, _, _, _ => none

/-! ### Codes sent (R187, R188) -/

def Handle.bytes (h : Handle) : List Byte := [byteOf h.slot, h.issue]

def RecState.code : RecState → Nat
  | .suspended => 1 | .waiting => 2 | .armed => 3 | .spent => 4
def Guard.code : Guard → Nat
  | .guardOpen => 0 | .guardReadable => 1 | .guardPrivate => 2
def Cond.sourceCode : Cond → Nat
  | .bus _ _ => 0 | .line _ _ => 1 | .cross _ => 2
def Scope.code : Scope → Nat
  | .one _ => 0 | .all => 1 | .allBut _ => 2
def Scope.portByte : Scope → Nat
  | .one p => p.val | .all => 0 | .allBut p => p.val
def Trigger.code : Trigger → Nat
  | .onHit => 0 | .onSilence _ => 1
def directionCode : Direction → Nat
  | .read => 0 | .write => 1
def originCode : Origin → Nat
  | .board => 0 | .debug => 1
def Edge.code : Edge → Nat
  | .rise => 0 | .fall => 1
def DirFilter.code : DirFilter → Nat
  | .read => 0 | .write => 1 | .either => 2
def EdgeFilter.code : EdgeFilter → Nat
  | .rise => 0 | .fall => 1 | .either => 2
def OriginFilter.code : OriginFilter → Nat
  | .boardOnly => 0 | .boardAndDebug => 1
def InitiatorFilter.code : InitiatorFilter → Nat
  | .any => 0 | .only _ => 1 | .allBut _ => 2
def InitiatorFilter.tag : InitiatorFilter → Nat
  | .any => 0 | .only t => t.val | .allBut t => t.val
def TallyMode.code : TallyMode → Nat
  | .count => 0 | .sum => 1
def TallySign.code : TallySign → Nat
  | .unsigned => 0 | .signed => 1
def TallyLimit.code : TallyLimit → Nat
  | .wrap => 0 | .saturate => 1
def RunState.code : RunState → Nat
  | .running => 0 | .stopping => 1 | .frozen => 2 | .stepping => 3 | .unresponsive => 4 | .offline => 5
def SeatState.code : SeatState → Nat
  | .empty => 0 | .arriving => 1 | .seated => 2 | .leaving => 3
def LinkState.code : LinkState → Nat
  | .down => 0 | .hunting => 1 | .locked => 2
def EventCode.code : EventCode → Nat
  | .seated => 0 | .unseated => 1 | .locked => 2 | .lost => 3 | .frozen => 4 | .resumed => 5 | .selfStop => 6
  | .unresponsive => 7
def ClaimMode.code : ClaimMode → Nat
  | .shared => 0 | .sole => 1
def Stepping.code : Stepping → Nat
  | .increment => 0 | .fixed => 1 | .wrap _ => 2
/-- The WRAP span of a DROP response (R190). What its 2 bytes hold under another stepping is not given: 0 is the model's
choice (log 32). -/
def Stepping.span : Stepping → Nat
  | .wrap s => s | .increment | .fixed => 0
def DescStatus.code : DescStatus → Nat
  | .loaded => 0 | .partlyLoaded => 1 | .defective => 2 | .absent => 3

def WidthSet.byte (w : WidthSet) : Byte := flagByte w.one + 2 * flagByte w.two + 4 * flagByte w.four

def Actions.setByte (a : Actions) : Byte :=
  flagByte a.signal + 2 * flagByte a.freeze + 4 * flagByte a.gateOpen.isSome + 8 * flagByte a.gateClose +
  16 * flagByte a.crossPulse.isSome

/-- The 13 bytes of a match part (R188). -/
def Cond.bytes : Cond → List Byte
  | .bus m _ => wordBytes m.base ++ wordBytes m.mask ++
      [byteOf m.direction.code, m.widths.byte, byteOf m.initiator.code, byteOf m.initiator.tag, byteOf m.origin.code]
  | .line l e => [byteOf l.val, byteOf e.code] ++ List.replicate 11 0
  | .cross x => byteOf x.val :: List.replicate 12 0

/-- Offsets 3 to 16 of the observation image (R189). -/
def Observation.body (o : Observation) : List Byte :=
  halfBytes o.sequence ++ wordBytes o.address ++ wordBytes o.data ++
  [byteOf (directionCode o.direction), byteOf o.width.bytes, byteOf o.initiator.val, byteOf (originCode o.origin)]

/-- The observation image (R189). -/
def observationImage (p : PortId) (epoch : Half) (o : Observation) : List Byte :=
  byteOf p.val :: (halfBytes epoch ++ o.body)

/-- A capture record: the observation image and the missed count (R102, R189). -/
def captureRecord (p : PortId) (epoch : Half) (o : Observation) (missed : Nat) : List Byte :=
  observationImage p epoch o ++ [byteOf missed]

/-- The snapshot part (R188). -/
def Snapshot.bytes (s : Snapshot) : List Byte :=
  let number := halfBytes (halfOf s.fireNumber)
  match s.body with
  | .bus p ep o => byteOf 0 :: (number ++ [byteOf p.val] ++ halfBytes ep ++ o.body)
  | .silence p ep => byteOf 1 :: (number ++ [byteOf p.val] ++ halfBytes ep)
  | .line p ep l e => byteOf 2 :: (number ++ [byteOf p.val] ++ halfBytes ep ++ [byteOf l.val, byteOf e.code])
  | .cross x => byteOf 3 :: (number ++ [byteOf 0] ++ halfBytes 0 ++ [byteOf x.val])

def Tally.bytes (t : Tally) : List Byte :=
  [byteOf t.mode.code, byteOf t.sign.code, byteOf t.limit.code] ++ wordBytes (BitVec.ofInt 32 t.accumulator) ++
  wordBytes (BitVec.ofNat 32 t.contributions) ++ [flagByte t.overflow]

def Cond.dataMatch : Cond → Option DataMatch
  | .bus _ d => d
  | .line _ _ | .cross _ => none

def Trigger.quietLimit : Trigger → Option Nat
  | .onSilence n => some n
  | .onHit => none

/-- The bytes of an optional part, none when it is absent. -/
def optBytes {α : Type} (f : α → List Byte) : Option α → List Byte
  | none => []
  | some x => f x

/-- The record image whole, with every present part (R23, R188). What the GATE_OPEN span and the CROSS_PULSE line hold when
the action set lacks those actions is not given for an image sent: 0 is the model's choice (log 32). -/
def Record.image (r : Record) : List Byte :=
  let presence := flagByte r.side.cond.dataMatch.isSome + 2 * flagByte r.after.isSome +
    4 * flagByte r.side.trigger.quietLimit.isSome + 8 * flagByte r.tally.isSome + 16 * flagByte r.snapshot.isSome
  [presence, byteOf r.state.code, byteOf r.owner.val, byteOf r.guard.code, flagByte r.keep,
   byteOf r.side.cond.sourceCode, byteOf r.scope.code, byteOf r.scope.portByte, byteOf r.side.rank.val,
   byteOf r.side.trigger.code, byteOf r.goal, byteOf r.hits, flagByte r.repeats, r.side.actions.setByte] ++
  halfBytes (r.side.actions.gateOpen.getD 0) ++ [byteOf ((r.side.actions.crossPulse.map Fin.val).getD 0)] ++
  wordBytes r.placement ++ r.side.cond.bytes ++
  optBytes (fun d => wordBytes d.pattern ++ wordBytes d.mask) r.side.cond.dataMatch ++
  optBytes Handle.bytes r.after ++
  optBytes (fun n => [byteOf n, byteOf (n / 256), byteOf (n / 65536)]) r.side.trigger.quietLimit ++
  optBytes Tally.bytes r.tally ++ optBytes Snapshot.bytes r.snapshot

/-- The answer of LIST and FIND: a count and the entries (R189). -/
def listAnswer (l : List (Handle × RecState)) : List Byte :=
  byteOf l.length :: l.flatMap fun e => e.1.bytes ++ [byteOf e.2.code]

/-- The answer of TALLY (R65, R191): the mean is marked absent when there are no contributions. What the 4 mean bytes hold
then is not given: 0 is the model's choice (log 32). -/
def Tally.answer (t : Tally) : List Byte :=
  t.bytes ++ [flagByte (t.contributions ≠ 0)] ++
  wordBytes (if t.contributions = 0 then 0 else BitVec.ofInt 32 (roundedMean t.accumulator t.contributions))

/-- The answer of OPEN (R191). -/
def openAnswer (cls : Fin 4) (lease : Nat) (e : Enables) : List Byte :=
  byteOf cls.val :: (halfBytes (halfOf lease) ++ [e.byte])

/-- The POLL response (R178, R191). -/
def Pending.answer (q : Pending) : List Byte :=
  [byteOf q.fired.length, flagByte q.more] ++ q.fired.flatMap Handle.bytes ++ [byteOf q.portEvents.length] ++
  (q.portEvents.flatMap fun x => [byteOf x.1.val, byteOf x.2.code]) ++
  [flagByte q.revoked, flagByte q.overrun, q.lapsed.bitmap, flagByte q.linkError]

/-- The GATE response fields (R103, R191). What the 2 opener bytes hold with opener kind 0, absent, is not given: 0, 0 is
the model's choice (log 32). -/
def Gate.answer (g : Gate) : List Byte :=
  [flagByte g.isOpen] ++
  (match g.opener with
    | none => [byteOf 0, 0, 0]
    | some (.record h) => byteOf 1 :: h.bytes
    | some (.channel c) => [byteOf 2, byteOf c.val, 0]) ++
  halfBytes (halfOf g.span) ++ [flagByte g.gap]

/-- ASSERTED or ON is 1, RELEASED or OFF is 2 (R191). -/
def levelByte (on : Bool) : Byte := if on then 1 else 2

/-- The answer of DRIVE (R127). -/
def LinkController.levels (t : LinkController) : List Byte := [levelByte t.resetAsserted, levelByte t.powerOn]

/-- The claims in ascending channel order (R131). -/
def Arbiter.claimList (a : Arbiter) : List (ChanId × ClaimMode) :=
  allChans.filterMap fun c => a.claims[c].map fun m => (c, m)

def statusByte (v : Vector Bool 4) : Byte := flagByte v[0] + 2 * flagByte v[1] + 4 * flagByte v[2] + 8 * flagByte v[3]

/-- The PORTSTAT response (R130, R191). -/
def Port.answer (p : Port) : List Byte :=
  [byteOf p.tlc.seat.code] ++ halfBytes p.tlc.epoch ++
  [byteOf p.tlc.link.code, byteOf p.tlc.credits, statusByte p.tlc.status] ++ p.tlc.levels ++
  [flagByte p.tlc.violation, byteOf p.rc.run.code, p.rc.holds.bitmap, flagByte p.rc.boardHold] ++
  halfBytes (halfOf p.rc.budget) ++ [byteOf p.arb.claimList.length] ++
  (p.arb.claimList.flatMap fun x => [byteOf x.1.val, byteOf x.2.code]) ++ p.gate.answer

/-- A word's data bytes: as many as the width, least significant first. -/
def Width.dataBytes (w : Width) (d : Word) : List Byte := (wordBytes d).take w.bytes

/-- The READ, WRITE and REPLAY response (R190). -/
def RunningBlock.answer (b : RunningBlock) (code : Nat) : List Byte :=
  [byteOf b.wordsDone, byteOf code] ++ b.readData.flatMap b.block.width.dataBytes

def FailReason.status : FailReason → Status
  | .fault _ => .fault | .timeout => .timeout | .linkLost => .linkLost
/-- The fault code of a DROP response (R150, R190). What its byte holds for a reason other than FAULT is not given: 0 is the
model's choice (log 32). -/
def FailReason.code : FailReason → Nat
  | .fault c => c.val | .timeout => 0 | .linkLost => 0

/-- The DROP response (R150, R190); its span and fault code where they do not apply are the model's choice (log 32). -/
def Remainder.answer (r : Remainder) : List Byte :=
  [byteOf (directionCode r.block.direction), byteOf r.block.width.bytes, byteOf r.block.stepping.code] ++
  halfBytes (halfOf r.block.stepping.span) ++ [byteOf r.block.count] ++ wordBytes r.block.start ++
  [byteOf r.reason.status.code, byteOf r.reason.code] ++ halfBytes r.epoch

/-- The part name, "GWH68" and three bytes of 0 (R196). -/
def partName : List Byte := [0x47, 0x57, 0x48, 0x36, 0x38, 0, 0, 0]

/-- The PARTSTAT response (R196). -/
def Description.answer (d : Description) : List Byte :=
  partName ++ [0x41, byteOf d.status.code, byteOf d.nodesTaken, byteOf d.nodesSkipped, byteOf d.name.length] ++ d.name

end Sys2Proof.Machine
end

