-- ==== Sys2Proof/Machine/Table.lean ====
section
/-! DEFINITION. The Watch Table's operations: slots and handles (R1, R2), rights (R10), chains (R33, R34), the units'
copies and the change boundary (R31, R35), quiet timers (R50, R51). -/

namespace Sys2Proof.Machine

/-! ### Slots and handles -/

namespace WatchTable

def slotAt (t : WatchTable) (i : Nat) : Slot := t.slots.getD i { issue := 0, record := none }
def recordAt (t : WatchTable) (i : Nat) : Option Record := (t.slotAt i).record
def handleAt (t : WatchTable) (i : Nat) : Handle := { slot := i, issue := (t.slotAt i).issue }

/-- The record of slot `i` becomes `r`; the issue number stays (R1). -/
def setRecord (t : WatchTable) (i : Nat) (r : Record) : WatchTable :=
  { t with slots := t.slots.set i { issue := (t.slotAt i).issue, record := some r } }

/-- Slot `i` becomes FREE and its issue number increases by one, 255 being followed by 0 (R1). -/
def freeSlot (t : WatchTable) (i : Nat) : WatchTable :=
  { t with slots := t.slots.set i { issue := (t.slotAt i).issue + 1, record := none } }

/-- The record a handle names, when the handle is current (R2). -/
def resolve (t : WatchTable) (h : Handle) : Option Record :=
  if (t.slotAt h.slot).issue = h.issue then t.recordAt h.slot else none

/-- The numbers of the slots. -/
def indices (t : WatchTable) : List Nat := List.range t.slots.length

/-- The lowest-numbered FREE slot (R15). -/
def lowestFree (t : WatchTable) : Option Nat := t.indices.find? fun i => (t.recordAt i).isNone

/-- The slots whose records' after-links name `h` (R21). -/
def dependents (t : WatchTable) (h : Handle) : List Nat :=
  t.indices.filter fun i => match t.recordAt i with
    | some r => r.after = some h
    | none => false

end WatchTable

/-! ### Rights (R10) -/

def Record.mayRead (r : Record) (c : ChanId) : Bool := c = 0 || c = r.owner || r.guard ≠ .guardPrivate
def Record.mayChange (r : Record) (c : ChanId) : Bool := c = 0 || c = r.owner || r.guard = .guardOpen
def Record.mayRetire (r : Record) (c : ChanId) : Bool := c = 0 || c = r.owner

/-! ### Membership and order (R33, R34) -/

def Scope.covers : Scope → PortId → Bool
  | .one q, p => p = q
  | .all, _ => true
  | .allBut q, p => p ≠ q

/-- A record is in the chain of each port its scope covers, or in the cross list (R33). -/
def Record.memberOf (r : Record) : UnitId → Bool
  | .matchUnit p => !r.side.cond.isCross && r.scope.covers p
  | .crossLine => r.side.cond.isCross

def Record.units (r : Record) : List UnitId := allUnits.filter r.memberOf

/-- Rank, then placement number as unsigned values, then slot (R34). -/
def CopyEntry.before (a b : CopyEntry) : Bool :=
  if a.side.rank = b.side.rank then
    if a.placement = b.placement then a.slot < b.slot else a.placement.toNat < b.placement.toNat
  else a.side.rank < b.side.rank

def insertEntry (e : CopyEntry) : List CopyEntry → List CopyEntry
  | [] => [e]
  | f :: rest => if e.before f then e :: f :: rest else f :: insertEntry e rest

def Record.entry (r : Record) (i : Nat) : CopyEntry := { slot := i, placement := r.placement, side := r.side }

/-- The entry of slot `i` if its record concerns unit `u`. -/
def WatchTable.entryFor (t : WatchTable) (u : UnitId) (i : Nat) : Option CopyEntry :=
  match t.recordAt i with
  | some r => if r.memberOf u then some (r.entry i) else none
  | none => none

/-- The watch chain of a port, or the cross list, in order (R33, R34). -/
def WatchTable.chain (t : WatchTable) (u : UnitId) : List CopyEntry :=
  (t.indices.filterMap (t.entryFor u)).foldr insertEntry []

/-- Most members of a unit's chain or list (R33). -/
def unitRoom : UnitId → Nat
  | .matchUnit _ => Config.chainRoom
  | .crossLine => Config.crossRoom

/-! ### The units' views -/

namespace State

def view (s : State) : UnitId → RecordView
  | .matchUnit p => (s.port p).mu.view
  | .crossLine => s.cross.view

def setView (s : State) : UnitId → RecordView → State
  | .matchUnit p, v => s.setPort p { s.port p with mu := { (s.port p).mu with view := v } }
  | .crossLine, v => { s with cross := { s.cross with view := v } }

def setTable (s : State) (t : WatchTable) : State := { s with table := t }

end State

namespace RecordView

/-- The unit is between two events, so no event of it began before the changes it has yet to take (R31). -/
def between (v : RecordView) : RecordView := { v with begun := false }

/-- The unit has a match side to take before it begins another event (R31). -/
def blocked (v : RecordView) : Bool := !v.begun && v.tokens.any fun k => k.update.isSome

end RecordView

/-! ### Between events (R31, R35, R45) -/

def GateMsg.isHandOver : GateMsg → Bool
  | .handOver _ _ => true
  | .openGate _ _ _ | .closeGate _ => false

/-- The unit's last observation is handed on and not yet decided at the gate, so the unit takes no event (R45,
log 4). -/
def Port.matchBusy (q : Port) : Bool := q.gate.fromMatch.any GateMsg.isHandOver

namespace State

/-- The unit is in the middle of an event: only a Match Unit can be, see `Port.matchBusy` (R31). -/
def unitBusy (s : State) : UnitId → Bool
  | .matchUnit p => (s.port p).matchBusy
  | .crossLine => false

/-- An event waits at the unit (R37, R56). -/
def unitWaits (s : State) : UnitId → Bool
  | .matchUnit p => !(s.port p).mu.events.isEmpty
  | .crossLine => !s.cross.edges.isEmpty

/-- The unit is taking no event, so it takes a change at once (R31): no event of it is unfinished, and none waits that
could have begun. -/
def unitIdle (s : State) (u : UnitId) : Bool := !s.unitBusy u && (!s.unitWaits u || (s.view u).blocked)

end State

/-! ### Quiet timers (R50, R51, R53) -/

namespace MatchUnit

/-- The link and run-state parts of the running condition (R50). -/
def live (m : MatchUnit) : Bool := m.link = .locked && (m.run = .running || m.run = .stepping)

/-- A waiting expiry of the slot is no longer live (R53, R54). -/
def discardExpiry (slot : Nat) (l : List MatchEvent) : List MatchEvent :=
  l.map fun e => match e with
    | .quiet i b => if i = slot then .quiet i false else .quiet i b
    | .obs o ep => .obs o ep
    | .edge n d ep => .edge n d ep

/-- Stops the timer of a slot. -/
def stopQuiet (m : MatchUnit) (slot : Nat) : MatchUnit :=
  { m with timers := m.timers.filter (fun t => t.slot ≠ slot), events := discardExpiry slot m.events }

/-- Sets the timer of a slot running at `limit`. -/
def startQuiet (m : MatchUnit) (slot limit : Nat) : MatchUnit :=
  { m with timers := m.timers.filter (fun t => t.slot ≠ slot) ++ [{ slot := slot, left := limit }],
           events := discardExpiry slot m.events }

/-- The quiet limit of the port's copy of a slot's record (R51). -/
def copyLimit (m : MatchUnit) (slot : Nat) : Option Nat :=
  match m.view.copy.find? fun e => e.slot = slot with
  | some e => e.side.trigger.quietLimit
  | none => none

/-- The timer of a slot is not stopped (R52, R53). -/
def timing (m : MatchUnit) (slot : Nat) : Bool := m.timers.any fun t => t.slot = slot

end MatchUnit

/-- The port of an ON_SILENCE record: its scope is ONE p (R6). -/
def Record.silencePort (r : Record) : Option PortId :=
  match r.side.trigger, r.scope with
  | .onSilence _, .one p => some p
  | _, _ => none

namespace State

def setMatch (s : State) (p : PortId) (m : MatchUnit) : State := s.setPort p { s.port p with mu := m }

/-- Stops the quiet timer of a record that leaves ARMED (R50). -/
def stopQuiet (s : State) (i : Nat) (r : Record) : State :=
  match r.silencePort with
  | none => s
  | some p => s.setMatch p ((s.port p).mu.stopQuiet i)

/-- Sets the quiet timer of a record that is ARMED running at the full limit of the port's copy, if the rest of the
running condition holds; otherwise it is stopped (R50, R51). -/
def restartQuiet (s : State) (i : Nat) (r : Record) : State :=
  match r.silencePort with
  | none => s
  | some p =>
    let m := (s.port p).mu
    match m.live, m.copyLimit i with
    | true, some limit => s.setMatch p (m.startQuiet i limit)
    | _, _ => s.setMatch p (m.stopQuiet i)

/-! ### The change boundary (R31, R35) -/

/-- A unit takes a match-side change into its copy; a record whose quiet limit was named has its timer restarted,
under the running condition (R18, R35, R51). -/
def takeUpdate (s : State) (u : UnitId) (upd : CopyEntry × Bool) : State :=
  let v := s.view u
  let s1 := s.setView u { v with copy := insertEntry upd.1 (v.copy.filter fun e => e.slot ≠ upd.1.slot) }
  match upd.2, s1.table.recordAt upd.1.slot with
  | true, some r => if r.state = .armed then s1.restartQuiet upd.1.slot r else s1
  | _, _ => s1

/-- A unit's copy is brought up to date: every change it has not yet taken is taken, in order; what is left of each
is the unit's report (R35, log 5). -/
def bringUpToDate (s : State) (u : UnitId) : State :=
  let s1 := (s.view u).tokens.foldl (fun t k => match k.update with
    | some upd => t.takeUpdate u upd
    | none => t) s
  s1.setView u { s1.view u with tokens := (s.view u).tokens.map fun k => { k with update := none } }

/-- A unit's copy takes the membership and order of the table, at the moment of a membership change (R35). -/
def syncCopy (s : State) (u : UnitId) : State := s.setView u { s.view u with copy := s.table.chain u }

/-- The change `n` is the unit's to report. -/
def addToken (s : State) (u : UnitId) (n : Nat) (upd : Option (CopyEntry × Bool)) : State :=
  s.setView u { s.view u with tokens := (s.view u).tokens ++ [{ change := n, update := upd }] }

/-- The match side of change `n` comes to a unit: an idle unit takes it at once, and what is left is its report; a unit
with an event unfinished, or with one waiting that may have begun, takes it at its next boundary (R31, R35, log 5). -/
def offerUpdate (s : State) (u : UnitId) (n : Nat) (upd : CopyEntry × Bool) : State :=
  if s.unitIdle u then ((s.bringUpToDate u).takeUpdate u upd).addToken u n none
  else (s.setView u { s.view u with begun := !s.unitBusy u }).addToken u n (some upd)

/-- A change comes to a unit, with the match side it holds for the copy or with its report alone. -/
def meetChange (s : State) (u : UnitId) (n : Nat) : Option (CopyEntry × Bool) → State
  | some upd => s.offerUpdate u n upd
  | none => s.addToken u n none

/-- A change comes to each unit concerned, under the next change number (R31). -/
def announce (s : State) (us : List UnitId) (upd : Option (CopyEntry × Bool)) : State :=
  let n := s.table.nextChange
  let s1 := us.foldl (fun t u => t.meetChange u n upd) s
  s1.setTable { s1.table with nextChange := n + 1 }

/-- A count-side or membership change (R35): the units concerned are brought up to date, the table changes, and the
copies take its membership, in one moment; then the change waits for each unit's report. -/
def changeTable (s : State) (us : List UnitId) (t : WatchTable) : State :=
  let s1 := us.foldl bringUpToDate s
  let s2 := s1.setTable t
  (us.foldl syncCopy s2).announce us none

/-- No unit has the change left to take. -/
def changeDone (s : State) (n : Nat) : Bool :=
  allUnits.all fun u => (s.view u).tokens.all fun k => k.change ≠ n

/-- The channel whose request waits for a change. -/
def changeWaiter (s : State) (n : Nat) : Option (ChanId × List Byte) :=
  allChans.findSome? fun c => match (s.lane c).executing with
    | some { wait := .change m payload, .. } => if m = n then some (c, payload) else none
    | _ => none

/-- The response that waits for a change is handed over (R31). -/
def answerChange (s : State) (n : Nat) : State :=
  match s.changeWaiter n with
  | some (c, payload) => s.finish c .done payload
  | none => s

/-- The step of a teardown that a change was ends (R166). -/
def endRecordsStep (s : State) (n : Nat) : State :=
  match s.teardowns.current with
  | some (c, .changing m) =>
    if m = n then { s with teardowns := { s.teardowns with current := some (c, .ports allPorts allPorts) } } else s
  | _ => s

/-- Once a change is in effect everywhere, its response is handed over and the step of a teardown it was ends
(R31, R166). -/
def releaseChange (s : State) (n : Nat) : State :=
  if s.changeDone n then (s.answerChange n).endRecordsStep n else s

end State

end Sys2Proof.Machine
end

