-- ==== Sys2Proof/Machine/Match.lean ====
section
/-! DEFINITION. Matching observations (chapter 2): the tests, hits and fires, the dispatch of actions, the events of
the Match Units and the cross list walk. -/

namespace Sys2Proof.Machine

open Host

/-! ### The tests (R40, R41, R42) -/

def DirFilter.accepts : DirFilter → Direction → Bool
  | .either, _ => true
  | .read, d => d = .read
  | .write, d => d = .write

def WidthSet.accepts (w : WidthSet) : Width → Bool
  | .one => w.one
  | .two => w.two
  | .four => w.four

def InitiatorFilter.accepts : InitiatorFilter → Fin 16 → Bool
  | .any, _ => true
  | .only t, i => i = t
  | .allBut t, i => i ≠ t

def OriginFilter.accepts : OriginFilter → Origin → Bool
  | .boardAndDebug, _ => true
  | .boardOnly, o => o = .board

/-- Bits whose mask bit is 1 are not compared (R40). -/
def BusMatch.addressAccepts (m : BusMatch) (a : Word) : Bool := (a ^^^ m.base) &&& ~~~m.mask = 0

/-- Bits whose mask bit is 1 are compared; the bytes above the width are 0 (R41). -/
def DataMatch.accepts (d : DataMatch) (w : Width) (data : Word) : Bool := (w.low data ^^^ d.pattern) &&& d.mask = 0

/-- A bus match with its data match accepts an observation (R40). -/
def BusMatch.accepts (m : BusMatch) (d : Option DataMatch) (o : Observation) : Bool :=
  m.addressAccepts o.address && m.direction.accepts o.direction && m.widths.accepts o.width &&
  m.initiator.accepts o.initiator && m.origin.accepts o.origin && d.all fun x => x.accepts o.width o.data

def EdgeFilter.accepts : EdgeFilter → Edge → Bool
  | .either, _ => true
  | .rise, e => e = .rise
  | .fall, e => e = .fall

/-! ### Hits and fires (R43, R44) -/

/-- The event that makes a hit, as its unit took it. -/
inductive HitEvent where
  | obs (p : PortId) (o : Observation) (epoch : Half)
  | edge (p : PortId) (l : LineId) (e : Edge) (epoch : Half)
  | silence (p : PortId) (epoch : Half)
  | cross (x : CrossId)
  deriving DecidableEq, Repr

namespace HitEvent

/-- The unit that takes the event. -/
def takenBy : HitEvent → UnitId
  | .obs p _ _ | .edge p _ _ _ | .silence p _ => .matchUnit p
  | .cross _ => .crossLine

/-- The snapshot the event writes (R44). -/
def snap : HitEvent → SnapBody
  | .obs p o ep => .bus p ep o
  | .edge p l e ep => .line p ep l e
  | .silence p ep => .silence p ep
  | .cross x => .cross x

/-- The kind handed to a gate with an action (R96). -/
def kind : HitEvent → EventKind
  | .obs _ _ _ => .observation
  | .edge _ _ _ _ => .lineEdge
  | .silence _ _ => .quietExpiry
  | .cross _ => .crossEdge

def observation : HitEvent → Option Observation
  | .obs _ o _ => some o
  | .edge _ _ _ _ | .silence _ _ | .cross _ => none

end HitEvent

/-- The ports a fire's port actions concern (R46). -/
def actionPorts (ev : HitEvent) (scope : Scope) : List PortId :=
  match ev with
  | .obs p _ _ | .edge p _ _ _ | .silence p _ => [p]
  | .cross _ => allPorts.filter scope.covers

namespace Port

def pushFreeze (q : Port) (u : UnitId) (owner : ChanId) : Port :=
  { q with rc := { q.rc with fromUnits := q.rc.fromUnits ++ [.freeze (u = .crossLine) owner] } }

def pushGate (q : Port) (u : UnitId) (m : GateMsg) : Port :=
  match u with
  | .matchUnit _ => { q with gate := { q.gate with fromMatch := q.gate.fromMatch ++ [m] } }
  | .crossLine => { q with gate := { q.gate with fromCross := q.gate.fromCross ++ [m] } }

/-- The port actions of a fire are handed over, unless another channel holds the port SOLE (R47, R48). -/
def takeActions (q : Port) (ev : HitEvent) (a : Actions) (h : Handle) (owner : ChanId) : Port :=
  if q.foreignSole owner then q
  else
    let q1 := if a.freeze then q.pushFreeze ev.takenBy owner else q
    let q2 := match a.gateOpen with
      | some span => q1.pushGate ev.takenBy (.openGate span h ev.kind)
      | none => q1
    if a.gateClose then q2.pushGate ev.takenBy (.closeGate ev.kind) else q2

end Port

namespace State

/-- CROSS_PULSE goes to the Cross Line Unit from the Match Unit that fired the record (R47, R106). -/
def pushPulse (s : State) (u : UnitId) (x : CrossId) : State :=
  match u with
  | .matchUnit p => { s with cross := { s.cross with requests := s.cross.requests ++ [(p, x)] } }
  | .crossLine => s

/-- The dispatch of a fire's actions (R46 to R48). -/
def dispatch (s : State) (ev : HitEvent) (a : Actions) (h : Handle) (owner : ChanId) (ports : List PortId) : State :=
  let s1 := if a.signal then s.sendSignal ev.takenBy h owner else s
  let s2 := ports.foldl (fun t q => t.setPort q ((t.port q).takeActions ev a h owner)) s1
  match a.crossPulse with
  | some x => s2.pushPulse ev.takenBy x
  | none => s2

/-- A WAITING dependent becomes ARMED with hit count 0, and its quiet timer starts (R28, R51). -/
def armDependent (s : State) (j : Nat) : State :=
  match s.table.recordAt j with
  | some r =>
    if r.state = .waiting then
      let r1 := { r with state := .armed, hits := 0 }
      (s.setTable (s.table.setRecord j r1)).restartQuiet j r1
    else s
  | none => s

end State

/-- The fire number after one more fire (R44). -/
def Record.nextFire (r : Record) : Nat :=
  match r.snapshot with
  | some sn => satAdd 65535 sn.fireNumber 1
  | none => 1

/-- The record after a fire: snapshot written, then SPENT, or ARMED with hit count 0 (R44). -/
def Record.fired (r : Record) (ev : HitEvent) : Record :=
  let r1 := { r with snapshot := some { body := ev.snap, fireNumber := r.nextFire } }
  if r.repeats then { r1 with hits := 0 } else { r1 with state := .spent }

/-- The WAITING records whose after-links name `h` (R28). -/
def WatchTable.waitingAfter (t : WatchTable) (h : Handle) : List Nat :=
  (t.dependents h).filter fun j => (t.recordAt j).any fun r => r.state = .waiting

/-- The record after a hit below or at its goal, before any fire: one more hit, and the tally's contribution (R43). -/
def Record.counted (r : Record) (ev : HitEvent) : Record :=
  { r with hits := r.hits + 1, tally := r.tally.map fun t => t.contribute ev.observation }

namespace State

/-- The record of slot `i` fires with the action set of the unit's copy (R44); the slots of the dependents it armed
are returned. -/
def fire (s : State) (i : Nat) (r : Record) (a : Actions) (ev : HitEvent) : State × List Nat :=
  let h := s.table.handleAt i
  let armed := s.table.waitingAfter h
  let s1 := s.setTable (s.table.setRecord i (r.fired ev))
  let s2 := s1.dispatch ev a h r.owner (actionPorts ev r.scope)
  (armed.foldl armDependent s2, armed)

/-- A hit presented at slot `i` (R43): discarded unless the record is ARMED. -/
def hit (s : State) (e : CopyEntry) (ev : HitEvent) : State × List Nat :=
  match s.table.recordAt e.slot with
  | none => (s, [])
  | some r =>
    if r.state = .armed then
      let r1 := r.counted ev
      if r1.hits = r1.goal then s.fire e.slot r1 e.side.actions ev
      else (s.setTable (s.table.setRecord e.slot r1), [])
    else (s, [])

/-- The record of slot `i` is ARMED in the Watch Table. -/
def isArmed (s : State) (i : Nat) : Bool := (s.table.recordAt i).any fun r => r.state = .armed

/-! ### Walks (R39, R42, R56) -/

/-- One record met by an observation's walk (R39). -/
def meetObservation (s : State) (p : PortId) (o : Observation) (epoch : Half) (e : CopyEntry) : State × List Nat :=
  match e.side.cond, e.side.trigger with
  | .bus m d, .onHit => if m.accepts d o then s.hit e (.obs p o epoch) else (s, [])
  | .bus m d, .onSilence _ =>
    if m.accepts d o && (s.port p).mu.timing e.slot then
      match s.table.recordAt e.slot with
      | some r => (s.restartQuiet e.slot r, [])
      | none => (s, [])
    else (s, [])
  | .line _ _, _ => (s, [])
  | .cross _, _ => (s, [])

/-- One record met by a line edge's walk (R42). -/
def meetEdge (s : State) (p : PortId) (l : LineId) (d : Edge) (epoch : Half) (e : CopyEntry) : State × List Nat :=
  match e.side.cond with
  | .line l' f => if l' = l ∧ f.accepts d then s.hit e (.edge p l d epoch) else (s, [])
  | .bus _ _ => (s, [])
  | .cross _ => (s, [])

/-- One record met by a cross edge's walk (R56). -/
def meetCross (s : State) (x : CrossId) (e : CopyEntry) : State × List Nat :=
  match e.side.cond with
  | .cross x' => if x' = x then s.hit e (.cross x) else (s, [])
  | .bus _ _ => (s, [])
  | .line _ _ => (s, [])

/-- A walk of the unit's copy from first to last: a record that is not ARMED when it is met, or that this walk armed
(`marks`), is passed over (R39, R42, R56). -/
def walk (meet : State → CopyEntry → State × List Nat) : List CopyEntry → List Nat → State → State
  | [], _, s => s
  | e :: rest, marks, s =>
    if s.isArmed e.slot && !marks.contains e.slot then
      walk meet rest (marks ++ (meet s e).2) (meet s e).1
    else walk meet rest marks s

end State

/-! ### Events of a Match Unit -/

/-- The oldest waiting event of the port's Match Unit, when the unit is between events and has no match side to take
first (R31). -/
def Port.nextEvent (q : Port) : Option MatchEvent :=
  if q.matchBusy || q.mu.view.blocked then none else q.mu.events.head?

namespace State

/-- Takes the oldest waiting event out of the port's Match Unit. -/
def popEvent (s : State) (p : PortId) : State :=
  s.setMatch p { (s.port p).mu with events := (s.port p).mu.events.tail, view := (s.port p).mu.view.between }

/-- The hand-overs of a finished walk to Run Control and the Capture Gate; the credit follows the gate's decision
(R45, R101). -/
def handOn (s : State) (p : PortId) (o : Observation) (epoch : Half) : State :=
  let q := s.port p
  s.setPort p { q with rc := { q.rc with fromUnits := q.rc.fromUnits ++ [.taken] },
                       gate := { q.gate with fromMatch := q.gate.fromMatch ++ [.handOver o epoch] } }

/-- OBSERVATION: the Match Unit of port `p` takes an observation (R39, R45). -/
def observation (p : PortId) (s : State) : State :=
  match (s.port p).nextEvent with
  | some (.obs o epoch) =>
    (walk (fun t e => t.meetObservation p o epoch e) (s.port p).mu.view.copy [] (s.popEvent p)).handOn p o epoch
  | _ => s

/-- LINE_EDGE: the Match Unit of port `p` takes a line edge (R42). -/
def lineEdge (p : PortId) (s : State) : State :=
  match (s.port p).nextEvent with
  | some (.edge l d epoch) => walk (fun t e => t.meetEdge p l d epoch e) (s.port p).mu.view.copy [] (s.popEvent p)
  | _ => s

/-- QUIET_TIMER_ZERO: a running quiet timer reaches zero and its expiry waits (R53). -/
def quietTimerZero (p : PortId) (slot : Nat) (s : State) : State :=
  let m := (s.port p).mu
  if m.timers.any fun t => t.slot = slot && 0 < t.left then
    s.setMatch p { m with
      timers := m.timers.map fun t => if t.slot = slot then { t with left := 0 } else t,
      events := m.events ++ [.quiet slot true] }
  else s

/-- After a fire by silence: a REPEAT record's timer starts afresh, a ONCE record's timer stops (R53). -/
def afterSilence (s : State) (i : Nat) : State :=
  match s.table.recordAt i with
  | some r => if r.state = .armed then s.restartQuiet i r else s.stopQuiet i r
  | none => s

/-- QUIET_EXPIRY: a live expiry presents a hit on its record alone; a stale one is discarded (R53). -/
def quietExpiry (p : PortId) (s : State) : State :=
  match (s.port p).nextEvent with
  | some (.quiet i live) =>
    let s1 := s.popEvent p
    if live && s1.isArmed i then
      match (s1.port p).mu.view.copy.find? fun e => e.slot = i with
      | some e => ((s1.hit e (.silence p (s1.port p).tlc.epoch)).1).afterSilence i
      | none => s1
    else s1
  | _ => s

/-- Every quiet timer of the port stops, and the waiting expiries are no longer live (R50). -/
def stopAllQuiet (s : State) (p : PortId) : State :=
  let m := (s.port p).mu
  s.setMatch p { m with timers := [], events := m.events.map fun e => match e with
    | .quiet i _ => .quiet i false
    | .obs o ep => .obs o ep
    | .edge l d ep => .edge l d ep }

/-- Every ARMED ON_SILENCE record of the port has its timer set running (R51). -/
def startAllQuiet (s : State) (p : PortId) : State :=
  (s.port p).mu.view.copy.foldl (fun t e => match t.table.recordAt e.slot with
    | some r => if r.state = .armed && r.side.trigger.isSilence then t.restartQuiet e.slot r else t
    | none => t) s

/-- The quiet timers follow a change of what the unit was told: they stop when the condition ends, start when it
begins, and run on otherwise (R50, R51). -/
def told (s : State) (p : PortId) (m : MatchUnit) : State :=
  let before := (s.port p).mu.live
  let s1 := s.setMatch p m
  if before && !m.live then s1.stopAllQuiet p
  else if !before && m.live then s1.startAllQuiet p
  else s1

/-- RUN_STATE_REPORT: the Match Unit takes a change of run state, between events (R50, log 4). -/
def runStateReport (p : PortId) (s : State) : State :=
  let m := (s.port p).mu
  match (s.port p).matchBusy, m.runReports with
  | false, r :: rest => s.told p { m with run := r, runReports := rest, view := m.view.between }
  | _, _ => s

/-- LINK_STATE_REPORT: the Match Unit takes a change of link state, between events (R50, log 4). -/
def linkStateReport (p : PortId) (s : State) : State :=
  let m := (s.port p).mu
  match (s.port p).matchBusy, m.linkReports with
  | false, .link l :: rest => s.told p { m with link := l, linkReports := rest, view := m.view.between }
  | _, _ => s

/-- UNSEAT_AT_MATCH_UNIT: the unseat is a departure of the link from LOCKED (R114). -/
def unseatAtMatchUnit (p : PortId) (s : State) : State :=
  let m := (s.port p).mu
  match (s.port p).matchBusy, m.linkReports with
  | false, .unseat :: rest => s.told p { m with link := .down, linkReports := rest, view := m.view.between }
  | _, _ => s

/-- One of the units is in the middle of an event, so a change to the count side or the membership that concerns them
waits (R35, log 4). -/
def anyBusy (s : State) (us : List UnitId) : Bool := us.any s.unitBusy

/-- The unit takes what a change holds for its copy (R35). -/
def takeToken (s : State) (u : UnitId) (k : Token) : State :=
  match k.update with
  | some upd => s.takeUpdate u upd
  | none => s

/-- CHANGE_BOUNDARY: between two events a unit takes the oldest change it has not taken, and the response is released
once no unit has it left (R31, R35). -/
def changeBoundary (u : UnitId) (s : State) : State :=
  match s.unitBusy u, (s.view u).tokens with
  | true, _ => s
  | false, [] => s
  | false, k :: rest =>
    let s1 := s.takeToken u k
    (s1.setView u { s1.view u with tokens := rest, begun := false }).releaseChange k.change

/-- Takes the oldest waiting edge out of the Cross Line Unit. -/
def popEdge (s : State) : State :=
  { s with cross := { s.cross with edges := s.cross.edges.tail, view := s.cross.view.between } }

/-- CROSS_EDGE: the Cross Line Unit takes the oldest waiting falling edge by walking the cross list (R56), when it has no
match side to take first (R31). -/
def crossEdge (s : State) : State :=
  match s.cross.view.blocked, s.cross.edges with
  | false, x :: _ => walk (fun t e => t.meetCross x e) s.cross.view.copy [] s.popEdge
  | _, _ => s

end State

/-! ### Meanings -/

def execObservation (p : PortId) (s : State) : Outcome State Fault Refusal := .next (s.observation p)
def execLineEdge (p : PortId) (s : State) : Outcome State Fault Refusal := .next (s.lineEdge p)
def execQuietTimerZero (p : PortId) (slot : Nat) (s : State) : Outcome State Fault Refusal :=
  .next (s.quietTimerZero p slot)
def execQuietExpiry (p : PortId) (s : State) : Outcome State Fault Refusal := .next (s.quietExpiry p)
def execRunStateReport (p : PortId) (s : State) : Outcome State Fault Refusal := .next (s.runStateReport p)
def execLinkStateReport (p : PortId) (s : State) : Outcome State Fault Refusal := .next (s.linkStateReport p)
def execUnseatAtMatchUnit (p : PortId) (s : State) : Outcome State Fault Refusal := .next (s.unseatAtMatchUnit p)
def execChangeBoundary (u : UnitId) (s : State) : Outcome State Fault Refusal := .next (s.changeBoundary u)
def execCrossEdge (s : State) : Outcome State Fault Refusal := .next s.crossEdge

end Sys2Proof.Machine
end

