-- ==== Sys2Proof/Machine/Cross.lean ====
section
/-! DEFINITION. The cross lines (5.7): pulses driven by the part, and the edges its detectors see. -/

namespace Sys2Proof.Machine

open Host

namespace State

def crossLine (s : State) (x : CrossId) : CrossLine := s.cross.lines[x]
def setCrossLine (s : State) (x : CrossId) (l : CrossLine) : State :=
  { s with cross := { s.cross with lines := s.cross.lines.set x l } }

/-- CROSS_PULSE: the Cross Line Unit takes the oldest request, when it is of the Match Unit of port `p`: requests are taken
in the order the walks dispatched them (R46, log 3). One on a line being driven is merged (R106). -/
def crossPulse (p : PortId) (s : State) : State :=
  match s.cross.requests with
  | (sender, x) :: rest =>
    if sender = p then
      let s1 := { s with cross := { s.cross with requests := rest } }
      match (s1.crossLine x).driving with
      | none => s1.setCrossLine x { s1.crossLine x with driving := some Config.pulseLength }
      | some _ => s1
    else s
  | [] => s

/-- PULSE_TIMER_EXPIRY: the part releases the line (R106). -/
def pulseTimerExpiry (x : CrossId) (s : State) : State :=
  s.setCrossLine x { s.crossLine x with driving := none }

/-- CROSS_FALLING_EDGE: the filtered level falls, and the edge waits or is merged with one that waits (R56, R107). -/
def crossFallingEdge (x : CrossId) (s : State) : State :=
  if (s.crossLine x).high then
    let s1 := s.setCrossLine x { s.crossLine x with high := false }
    if s1.cross.edges.contains x then s1 else { s1 with cross := { s1.cross with edges := s1.cross.edges ++ [x] } }
  else s

/-- CROSS_RISING_EDGE: the filtered level rises; the edge is not handed on (R107). -/
def crossRisingEdge (x : CrossId) (s : State) : State :=
  s.setCrossLine x { s.crossLine x with high := true }

end State

/-! ### Meanings -/

def execCrossPulse (p : PortId) (s : State) : Outcome State Fault Refusal := .next (s.crossPulse p)
def execPulseTimerExpiry (x : CrossId) (s : State) : Outcome State Fault Refusal := .next (s.pulseTimerExpiry x)
def execCrossFallingEdge (x : CrossId) (s : State) : Outcome State Fault Refusal := .next (s.crossFallingEdge x)
def execCrossRisingEdge (x : CrossId) (s : State) : Outcome State Fault Refusal := .next (s.crossRisingEdge x)

end Sys2Proof.Machine
end

