-- ==== Sys2Proof/Machine/Bench.lean ====
section
/-! DEFINITION. The Bench Port (chapter 10): the levels of the bench link, receiving frames, the outstanding counts and channel queues, unknown kinds,
STARTING, sending responses. -/

namespace Sys2Proof.Machine

open Host

/-! ### The bench link (R179) -/

/-- The level of a direction of the link while it is idle, and of a good stop bit. -/
def idleLevel : Bool := true

/-- The bit rate in Mbit/s that the straps BRATE1 and BRATE0 select, low being `false`. -/
def benchRate (rate1 rate0 : Bool) : Nat :=
  match rate1, rate0 with
  | false, false => 1
  | false, true => 3
  | true, false => 6
  | true, true => 12

/-- The ten levels of a byte on the link: the start bit, the data bits least significant first, the stop bit. A byte of a
BENCH_FRAME stands for these levels on BRX (log 26). -/
def byteLevels (b : RxByte) : List Bool :=
  (!idleLevel) :: ((List.range 8).map b.value.getLsbD ++ [b.stopHigh])

/-- A frame as it is sent: whole, its bytes back to back, every stop bit high. -/
def sendBytes (bytes : List Byte) : List Bool := bytes.flatMap fun b => byteLevels { value := b, stopHigh := idleLevel }

/-- The byte that starts a frame (R180). -/
def startByte : Byte := 0xA5

/-- Bytes of a frame after its start byte, beside the payload: length, channel, tag, kind and check (R180). -/
def frameOverhead : Nat := 7

namespace State

def setReceiver (s : State) (r : Receiver) : State := { s with bench := { s.bench with receiver := r } }

/-- A frame that fails: LINK_ERROR for C0 (R181). -/
def frameFails (s : State) : State := s.sendAddition .linkError

/-- The arrival restarts a running lease timer at the full limit (R160). -/
def restartLease (s : State) (c : ChanId) : State :=
  let k := s.chan c
  if k.leaseTimer.isSome then s.setChan c { k with leaseTimer := k.leaseLimit } else s

/-- A good frame arrives (R182): the lease first, then the channel queue, or OVERRUN. -/
def arrive (s : State) (c : ChanId) (f : Frame) : State :=
  let s1 := s.restartLease c
  let l := s1.lane c
  if l.outstanding < Config.outstandingLimit then
    s1.setLane c { l with outstanding := l.outstanding + 1, queue := l.queue ++ [f] }
  else s1.sendAddition (.overrun c)

/-- A frame read to its end (R181): `got` holds its bytes after the start byte. -/
def endFrame (s : State) (got : List Byte) (stopsHigh : Bool) : State :=
  let body := got.take (got.length - 2)
  if stopsHigh && crc16 body = halfAt got (got.length - 2) then
    match readChan (byteAt got 2) with
    | some c => s.arrive c { tag := got.getD 3 0, kind := got.getD 4 0, payload := body.drop 5 }
    | none => s.frameFails
  else s.frameFails

/-- The receiver takes one byte (R181). -/
def receiveByte (s : State) (b : RxByte) : State :=
  match s.bench.receiver with
  | .hunting => if b.value = startByte then s.setReceiver (.reading [] b.stopHigh) else s
  | .reading got stops =>
    let got1 := got ++ [b.value]
    let stops1 := stops && b.stopHigh
    let len := (halfAt got1 0).toNat
    if got1.length < 2 then s.setReceiver (.reading got1 stops1)
    else if Config.payloadLimit < len then (s.setReceiver .hunting).frameFails
    else if got1.length < len + frameOverhead then s.setReceiver (.reading got1 stops1)
    else (s.setReceiver .hunting).endFrame got1 stops1

/-- BENCH_FRAME: bytes arrive back to back on BRX (R181, R182, log 26). -/
def benchFrame (bytes : List RxByte) (s : State) : State := bytes.foldl receiveByte s

/-- FRAME_GAP_TIMEOUT: more than 1 ms passes between two bytes of a frame (R181). -/
def frameGapTimeout (s : State) : State :=
  match s.bench.receiver with
  | .reading _ _ => (s.setReceiver .hunting).frameFails
  | .hunting => s

/-- UNKNOWN_KIND: a head frame whose kind is not a request kind is answered BAD (R183). -/
def unknownKind (c : ChanId) (s : State) : State :=
  match s.headFrame c with
  | some f => if requestKinds.contains f.kind then s else (s.popFrame c).answer c f .bad []
  | none => s

/-- STARTING: during the walk a frame is answered STARTING without being executed (R194). -/
def starting (c : ChanId) (s : State) : State :=
  match s.desc.walking, (s.lane c).queue with
  | true, f :: _ => (s.popFrame c).answer c f .starting []
  | _, _ => s

/-- RESPONSE_TRANSMIT: the response at the head of the output queue is sent, at the rate of the straps, and its place freed
(R179, R184). -/
def responseTransmit (s : State) : State :=
  match s.bench.output with
  | r :: rest =>
    let l := s.lane r.chan
    let s1 := s.setLane r.chan { l with outstanding := l.outstanding - 1 }
    let sent : SentFrame := { rate := benchRate s.bench.rate1 s.bench.rate0, levels := sendBytes r.frameBytes }
    { s1 with bench := { s1.bench with output := rest, sentFrames := s1.bench.sentFrames ++ [sent] } }
  | [] => s

end State

/-! ### Meanings -/

def execBenchFrame (bytes : List RxByte) (s : State) : Outcome State Fault Refusal := .next (s.benchFrame bytes)
def execFrameGapTimeout (s : State) : Outcome State Fault Refusal := .next s.frameGapTimeout
def execUnknownKind (c : ChanId) (s : State) : Outcome State Fault Refusal := .next (s.unknownKind c)
def execStarting (c : ChanId) (s : State) : Outcome State Fault Refusal := .next (s.starting c)
def execResponseTransmit (s : State) : Outcome State Fault Refusal := .next s.responseTransmit

end Sys2Proof.Machine
end

