-- ==== Sys2Proof/Machine/Gate.lean ====
section
/-! DEFINITION. Capture gates (chapter 5): opening and closing, the forwarding decision, the GATE request, closure by
the link, the seat and resets. -/

namespace Sys2Proof.Machine

open Host

namespace Gate

/-- The gate opens, or stays open, with a fresh window (R97). -/
def openWith (g : Gate) (span : Half) (o : Opener) : Gate :=
  { g with isOpen := true, span := span.toNat, opener := some o, gap := false, missed := 0, closingMark := false }

/-- A GATE_CLOSE: an OPEN gate closes with span 0, and the closing mark is set for an observation's walk (R98). -/
def closeBy (g : Gate) (kind : EventKind) : Gate :=
  if g.isOpen then { g with isOpen := false, span := 0, closingMark := kind = .observation } else g

/-- Closure by the link or the seat: opener, gap flag and missed count are kept (R104). -/
def closeOff (g : Gate) : Gate := { g with isOpen := false, span := 0, closingMark := false }

/-- Closure by a bench reset (R104). -/
def benchReset (g : Gate) : Gate := { g.closeOff with opener := none, gap := false, missed := 0 }

/-- The observation at the gate is to be forwarded (R99). -/
def forwards (g : Gate) : Bool := g.isOpen || g.closingMark

/-- The decision on an observation handed over with store-ready at `ready` (R99 to R102). -/
def decide (g : Gate) (p : PortId) (o : Observation) (epoch : Half) (ready : Bool) : Gate :=
  let g1 := { g with closingMark := false }
  if g.forwards then
    if ready then
      let left := if g.isOpen && 0 < g.span then g.span - 1 else g.span
      { g1 with sending := true, missed := 0, sent := g.sent ++ [captureRecord p epoch o g.missed], span := left,
                isOpen := g.isOpen && !(0 < g.span && left = 0) }
    else { g1 with gap := true, missed := satAdd 255 g.missed 1 }
  else g1

end Gate

namespace Port

def setGate (q : Port) (g : Gate) : Port := { q with gate := g }

/-- A GATE_OPEN action taken at the gate: discarded while the link is not LOCKED (R97). -/
def takeGateOpen (q : Port) (span : Half) (o : Opener) : Port :=
  if q.tlc.link = .locked then q.setGate (q.gate.openWith span o) else q

end Port

namespace State

/-- The waiting gate actions of one sender. -/
def gateInbox (g : Gate) (crossSender : Bool) : List GateMsg := if crossSender then g.fromCross else g.fromMatch

def dropGateInbox (g : Gate) (crossSender : Bool) : Gate :=
  if crossSender then { g with fromCross := g.fromCross.tail } else { g with fromMatch := g.fromMatch.tail }

/-- GATE_OPEN: the gate of port `p` takes the oldest event of its Match Unit, or of the Cross Line Unit, when it is a
GATE_OPEN action (R97). -/
def gateOpen (p : PortId) (crossSender : Bool) (s : State) : State :=
  let q := s.port p
  match gateInbox q.gate crossSender with
  | .openGate span h _ :: _ => s.setPort p ((q.setGate (dropGateInbox q.gate crossSender)).takeGateOpen span (.record h))
  | _ => s

/-- GATE_CLOSE: likewise for a GATE_CLOSE action (R98). -/
def gateClose (p : PortId) (crossSender : Bool) (s : State) : State :=
  let q := s.port p
  match gateInbox q.gate crossSender with
  | .closeGate kind :: _ => s.setPort p (q.setGate ((dropGateInbox q.gate crossSender).closeBy kind))
  | _ => s

/-- GATE_DECISION: the gate takes an observation's hand-over, while no record is being sent, and the credit is handed
back after the decision (R99, R101, R45). -/
def gateDecision (p : PortId) (ready : Bool) (s : State) : State :=
  let q := s.port p
  match q.gate.sending, q.gate.fromMatch with
  | false, .handOver o epoch :: rest =>
    s.setPort p { q with gate := { q.gate with fromMatch := rest }.decide p o epoch ready,
                         tlc := { q.tlc with creditReturns := q.tlc.creditReturns + 1 } }
  | _, _ => s

/-- END_OF_SENDING: the capture output is idle again (R101). -/
def endOfSending (p : PortId) (s : State) : State :=
  s.setPort p ((s.port p).setGate { (s.port p).gate with sending := false })

/-- UNSEAT_AT_GATE: the gate takes the unseat (R104). -/
def unseatAtGate (p : PortId) (s : State) : State :=
  let q := s.port p
  if 0 < q.gate.unseats then s.setPort p (q.setGate { q.gate.closeOff with unseats := q.gate.unseats - 1 }) else s

/-- GATE: a claimant opens the gate with a span, or closes it (R103). -/
def gateRequest (c : ChanId) (s : State) : State :=
  s.openRequest c kindGate fun f t =>
    match readGate f.payload with
    | none => t.answer c f .bad []
    | some (p, op) =>
      let q := t.port p
      if q.hasClaim c then
        match op with
        | some span =>
          if q.tlc.link = .locked then
            let g := q.gate.openWith span (.channel c)
            (t.setPort p (q.setGate g)).answer c f .done g.answer
          else t.answer c f .noLink []
        | none =>
          let g := q.gate.closeBy .lineEdge
          (t.setPort p (q.setGate g)).answer c f .done g.answer
      else t.answer c f .noClaim []

end State

/-! ### Meanings -/

def execGateOpen (p : PortId) (crossSender : Bool) (s : State) : Outcome State Fault Refusal :=
  .next (s.gateOpen p crossSender)
def execGateClose (p : PortId) (crossSender : Bool) (s : State) : Outcome State Fault Refusal :=
  .next (s.gateClose p crossSender)
def execGateDecision (p : PortId) (storeReady : Bool) (s : State) : Outcome State Fault Refusal :=
  .next (s.gateDecision p storeReady)
def execEndOfSending (p : PortId) (s : State) : Outcome State Fault Refusal := .next (s.endOfSending p)
def execUnseatAtGate (p : PortId) (s : State) : Outcome State Fault Refusal := .next (s.unseatAtGate p)
def execGate (c : ChanId) (s : State) : Outcome State Fault Refusal := .next (s.gateRequest c)

end Sys2Proof.Machine
end

