-- ==== Sys2Proof/Machine/RunControl.lean ====
section
/-! DEFINITION. Run control (chapter 4): run states, hold set, step budget, stop timer; HALT, RESUME and STEP; the
FREEZE action; the board's STOPPED frames; link, reset line and seat. -/

namespace Sys2Proof.Machine

open Host

/-- What an event of Run Control gives beside the port: the port event it raises, and the status it settles a waiting
HALT with (R78, R92). -/
structure RunOutcome where
  port : Port
  raised : Option (EventCode × ChanSet)
  settled : Option Status

namespace Port

def setRun (q : Port) (r : RunControl) : Port := { q with rc := r }

/-- The outcome of an event that raises and settles nothing. -/
def quietly (q : Port) : RunOutcome := { port := q, raised := none, settled := none }

/-- The run state changes: the Match Unit is told (R94); the stop timer runs only in STOPPING (R76); the budget is 0
outside STOPPING and STEPPING (R74); the resumer set is emptied on becoming OFFLINE (R92). -/
def enter (q : Port) (r : RunState) : Port :=
  { q with
    rc := { q.rc with
      run := r,
      stopTimer := if r = .stopping then q.rc.stopTimer else none,
      budget := if r = .stopping ∨ r = .stepping then q.rc.budget else 0,
      resumers := if r = .offline then ChanSet.empty else q.rc.resumers },
    mu := { q.mu with runReports := if q.rc.run = r then q.mu.runReports else q.mu.runReports ++ [r] } }

/-- STOP is sent from RUNNING, STEPPING or OFFLINE: the stop timer starts with no expiries, STOPPING (R75, R76). -/
def startStop (q : Port) : Port :=
  let q1 := (q.sendFrame .stop).enter .stopping
  q1.setRun { q1.rc with stopTimer := some q1.settings.stopLimit, expiries := 0 }

/-- A channel joins the hold set, which empties the resumer set; a member is not added again (R73, R92). -/
def addHold (q : Port) (c : ChanId) : Port :=
  if q.rc.holds.has c then q
  else q.setRun { q.rc with holds := q.rc.holds.insert c, resumers := ChanSet.empty }

/-- The board hold joins the hold set (R84, R92). -/
def addBoardHold (q : Port) : Port :=
  if q.rc.boardHold then q else q.setRun { q.rc with boardHold := true, resumers := ChanSet.empty }

/-- The effect of HALT and FREEZE on run state and budget (R77, R79). -/
def stopBoard (q : Port) : Port :=
  match q.rc.run with
  | .running => q.startStop
  | .stepping => (q.setRun { q.rc with budget := 0 }).startStop
  | .stopping => q.setRun { q.rc with budget := 0 }
  | .frozen => q
  | .unresponsive => q
  | .offline => q

/-- The hold set holds no entry. -/
def unheld (q : Port) : Bool := q.rc.holds.isEmpty && !q.rc.boardHold

/-- The entries of the hold set, board hold included. -/
def holdCount (q : Port) : Nat := q.rc.holds.size + (if q.rc.boardHold then 1 else 0)

/-- RUN is sent and the port becomes RUNNING with RESUMED for the claimants and the resumer set, which is then emptied
(R81, R84, R85, R92). -/
def resumeBoard (q : Port) : RunOutcome :=
  let q1 := (q.sendFrame .run).enter .running
  { port := q1.setRun { q1.rc with resumers := ChanSet.empty },
    raised := some (.resumed, q.claimants.union q.rc.resumers), settled := none }

/-- The hold set has become empty with `leavers` leaving it in this event (R81, R92). -/
def emptied (q : Port) (leavers : ChanSet) : RunOutcome :=
  let q1 := q.setRun { q.rc with resumers := leavers, budget := 0 }
  match q.rc.run with
  | .frozen => q1.resumeBoard
  | .stepping => q1.resumeBoard
  | .unresponsive => q1.resumeBoard
  | .stopping => q1.quietly
  | .offline => q1.quietly
  | .running => q1.quietly

/-- Entries leave the hold set: `leavers` and, when `board`, the board hold; if the set is emptied by it, R81 acts. -/
def removeHolds (q : Port) (leavers : ChanSet) (board : Bool) : RunOutcome :=
  let q1 := q.setRun { q.rc with
    holds := ChanSet.ofPred fun c => q.rc.holds.has c && !leavers.has c,
    boardHold := q.rc.boardHold && !board }
  if q1.unheld && !q.unheld then q1.emptied leavers else q1.quietly

/-- Removal of one channel's entry, if it is there (R80, R91). -/
def removeHold (q : Port) (c : ChanId) (board : Bool) : RunOutcome :=
  q.removeHolds (if q.rc.holds.has c then ChanSet.single c else ChanSet.empty) board

/-- The port goes OFFLINE: budget 0, stop timer cancelled (R87, R88, R90). -/
def goOffline (q : Port) : Port := q.enter .offline

/-- The board is reachable: link LOCKED and reset line released, as Run Control was told (4.8, log 7). -/
def reachable (q : Port) : Bool := q.rc.linkLocked && !q.rc.resetAsserted

/-- The recompute (R89). -/
def recompute (q : Port) : Port :=
  if q.unheld then (q.sendFrame .run).enter .running
  else (q.setRun { q.rc with budget := 0 }).startStop

/-- Where a HALT on an OFFLINE port, or a STEP, is answered (R77, R82). -/
def offlineStatus (q : Port) : Status := if q.rc.resetAsserted then .inReset else .noLink

/-- A STOPPED frame is taken (R84). -/
def takeStopped (q : Port) : RunOutcome :=
  match q.rc.run with
  | .stopping =>
    if q.unheld then q.resumeBoard
    else if 0 < q.rc.budget then ((q.sendFrame .run).enter .stepping).quietly
    else { port := q.enter .frozen, raised := some (.frozen, q.concerned), settled := some .done }
  | .unresponsive => { port := q.enter .frozen, raised := some (.frozen, q.concerned), settled := none }
  | .running => { port := q.addBoardHold.enter .frozen, raised := some (.selfStop, q.concerned), settled := some .done }
  | .stepping => { port := q.addBoardHold.enter .frozen, raised := some (.selfStop, q.concerned), settled := some .done }
  | .frozen => q.quietly
  | .offline => q.quietly

/-- An expiry of the stop timer (R85). -/
def takeStopExpiry (q : Port) : RunOutcome :=
  if q.rc.run = .stopping ∧ q.rc.stopTimer.isSome then
    if q.rc.expiries = 0 then
      let q1 := q.sendFrame .stop
      (q1.setRun { q1.rc with expiries := 1, stopTimer := some q1.settings.stopLimit }).quietly
    else if q.unheld then q.resumeBoard
    else { port := q.enter .unresponsive, raised := some (.unresponsive, q.concerned), settled := some .unresponsive }
  else q.quietly

/-- An observation taken is accounted (R83). -/
def takeObservation (q : Port) : Port :=
  if q.rc.run = .stepping then
    let q1 := q.setRun { q.rc with budget := q.rc.budget - 1 }
    if q1.rc.budget = 0 then q1.startStop else q1
  else q

/-- The bench reset at Run Control (R93); the hold removals that wait are those of requests the reset ends (log 18). -/
def runBenchReset (q : Port) : Port :=
  let q1 := q.setRun { q.rc with holds := ChanSet.empty, boardHold := false, budget := 0,
                                 resumers := ChanSet.empty, removals := [] }
  match q.rc.run with
  | .frozen => (q1.sendFrame .run).enter .running
  | .stepping => (q1.sendFrame .run).enter .running
  | .unresponsive => (q1.sendFrame .run).enter .running
  | .stopping => q1
  | .running => q1
  | .offline => q1

end Port

/-- A FREEZE action. -/
def UnitToRun.isFreeze : UnitToRun → Bool
  | .freeze _ _ => true
  | .taken => false

/-- A FREEZE action of the Cross Line Unit. -/
def UnitToRun.isCrossFreeze : UnitToRun → Bool
  | .freeze sender _ => sender
  | .taken => false

namespace State

/-- Raises a port event of a port's Run Control (R92). -/
def raiseRun (s : State) (p : PortId) : Option (EventCode × ChanSet) → State
  | some (k, cs) => s.sendEvent { port := p, block := .runControl, kind := k, chans := cs }
  | none => s

/-- The outcome of a Run Control event: the port as it stands, the event raised, the waiting HALTs answered. -/
def applyRun (s : State) (p : PortId) (o : RunOutcome) : State :=
  let s1 := (s.setPort p o.port).raiseRun p o.raised
  match o.settled with
  | some st => s1.settleHalts p st
  | none => s1

/-! ### Requests -/

/-- HALT (R77): answered at once, or when the port settles (R78). -/
def halt (c : ChanId) (s : State) : State :=
  s.openRequest c kindHalt fun f t =>
    match readPortPayload f.payload with
    | none => t.answer c f .bad []
    | some p =>
      let q := t.port p
      if q.hasClaim c then
        let t1 := t.setPort p (q.addHold c).stopBoard
        match q.rc.run with
        | .running => t1.wait c f (.settle p)
        | .stepping => t1.wait c f (.settle p)
        | .stopping => t1.wait c f (.settle p)
        | .frozen => t1.answer c f .done []
        | .unresponsive => t1.answer c f .unresponsive []
        | .offline => t1.answer c f q.offlineStatus []
      else t.answer c f .noClaim []

/-- The DONE payload of RESUME: the run state and the entries left (R80, R191). -/
def resumeAnswer (q : Port) : List Byte := [byteOf q.rc.run.code, byteOf q.holdCount]

/-- RESUME (R80). -/
def resume (c : ChanId) (s : State) : State :=
  s.openRequest c kindResume fun f t =>
    match readPortPayload f.payload with
    | none => t.answer c f .bad []
    | some p =>
      let q := t.port p
      let claimed := q.hasClaim c
      if q.rc.holds.has c || (q.rc.boardHold && claimed) then
        let o := q.removeHold c claimed
        (t.applyRun p o).answer c f .done (resumeAnswer o.port)
      else t.answer c f (if q.rc.boardHold then .noClaim else .notHeld) []

/-- STEP (R82). -/
def stepBoard (c : ChanId) (s : State) : State :=
  s.openRequest c kindStep fun f t =>
    match readStep f.payload with
    | none => t.answer c f .bad []
    | some (p, n) =>
      let q := t.port p
      let raise (k : Nat) : Port := q.setRun { q.rc with budget := satAdd Config.budgetLimit q.rc.budget k }
      match q.rc.run with
      | .running => t.answer c f .running []
      | .offline => t.answer c f q.offlineStatus []
      | .unresponsive => t.answer c f .unresponsive []
      | .frozen =>
        if q.rc.holds.has c then
          let q1 := ((q.setRun { q.rc with budget := n }).sendFrame .run).enter .stepping
          (t.setPort p q1).answer c f .done (halfBytes (halfOf q1.rc.budget))
        else t.answer c f .notHeld []
      | .stepping =>
        if q.rc.holds.has c then
          (t.setPort p (raise n)).answer c f .done (halfBytes (halfOf (raise n).rc.budget))
        else t.answer c f .notHeld []
      | .stopping =>
        if q.rc.holds.has c then
          (t.setPort p (raise n)).answer c f .done (halfBytes (halfOf (raise n).rc.budget))
        else t.answer c f .notHeld []

/-! ### Events -/

/-- FREEZE: Run Control of port `p` takes the oldest FREEZE action, when it is of the sender named: actions are taken in
the order their walks dispatched them (R46, R79). One of the Match Unit also waits for the reports its unit handed over
before it (log 3). -/
def freeze (p : PortId) (crossSender : Bool) (s : State) : State :=
  let q := s.port p
  match takeFirst (fun m => !crossSender || m.isFreeze) q.rc.fromUnits with
  | some (.freeze sender owner, rest) =>
    if sender = crossSender then
      let q1 := q.setRun { q.rc with fromUnits := rest }
      s.setPort p (if (s.chan owner).isOpen then (q1.addHold owner).stopBoard else q1)
    else s
  | some (.taken, _) => s
  | none => s

/-- OBSERVATION_TAKEN: Run Control takes the report of an observation taken (R83), after the FREEZE actions its Match
Unit handed over before it (R45). -/
def observationTaken (p : PortId) (s : State) : State :=
  let q := s.port p
  match takeFirst (fun m => !m.isCrossFreeze) q.rc.fromUnits with
  | some (.taken, rest) => s.setPort p (q.setRun { q.rc with fromUnits := rest }).takeObservation
  | some (.freeze _ _, _) => s
  | none => s

/-- Takes the oldest hand-over of the Target Link Controller, when it is `r`. -/
def takeReport (q : Port) (r : RunReport) : Option Port :=
  match q.rc.reports with
  | x :: rest => if x = r then some (q.setRun { q.rc with reports := rest }) else none
  | [] => none

/-- Takes the departure `r` from LOCKED, when only STOPPED frames were handed over before it; they are never taken
(R86, log 8). -/
def takeDeparture (q : Port) (r : RunReport) : Option Port :=
  match q.rc.reports.dropWhile (fun x => x = .stopped) with
  | x :: rest => if x = r then some (q.setRun { q.rc with reports := rest }) else none
  | [] => none

/-- STOPPED: Run Control takes a STOPPED frame (R84), in the order the Target Link Controller handed over its frames and
reports: one that was handed over before a change of the reset line is taken before it, one handed over after a lock is
taken after it (DEDUCED, log 3). -/
def stopped (p : PortId) (s : State) : State :=
  match takeReport (s.port p) .stopped with
  | some q => s.applyRun p q.takeStopped
  | none => s

/-- STOP_TIMER_EXPIRY (R85): an expiry found outside STOPPING was cancelled and is discarded (R76). -/
def stopTimerExpiry (p : PortId) (s : State) : State := s.applyRun p (s.port p).takeStopExpiry

/-- RESET_ASSERTED (R88). A STOPPED frame handed over before the change is taken before it (DEDUCED, log 3). -/
def resetAsserted (p : PortId) (s : State) : State :=
  match takeReport (s.port p) .resetAsserted with
  | some q =>
    let q1 := (q.setRun { q.rc with resetAsserted := true }).goOffline
    s.applyRun p { (q1.removeHolds ChanSet.empty true) with settled := some .inReset }
  | none => s

/-- RESET_RELEASED (R89). -/
def resetReleased (p : PortId) (s : State) : State :=
  match takeReport (s.port p) .resetReleased with
  | some q =>
    let q1 := q.setRun { q.rc with resetAsserted := false }
    s.setPort p (if q1.reachable then q1.recompute else q1)
  | none => s

/-- LINK_LOSS_AT_RUN_CONTROL (R87): a STOPPED handed over before the loss and not yet taken is never taken (R86). -/
def linkLossAtRunControl (p : PortId) (s : State) : State :=
  match takeDeparture (s.port p) .linkLost with
  | some q =>
    let q1 := (q.setRun { q.rc with linkLocked := false }).goOffline
    s.applyRun p { port := q1, raised := none, settled := some .noLink }
  | none => s

/-- LINK_LOCK_AT_RUN_CONTROL (R89). -/
def linkLockAtRunControl (p : PortId) (s : State) : State :=
  match takeReport (s.port p) .linkLocked with
  | some q =>
    let q1 := q.setRun { q.rc with linkLocked := true }
    s.setPort p (if q1.reachable then q1.recompute else q1)
  | none => s

/-- UNSEAT_AT_RUN_CONTROL (R90): it stands in place of a link loss (R114), so a STOPPED not yet taken is never taken
(log 8). -/
def unseatAtRunControl (p : PortId) (s : State) : State :=
  match takeDeparture (s.port p) .unseat with
  | some q =>
    let q1 := (q.setRun { q.rc with linkLocked := false, holds := ChanSet.empty, boardHold := false }).goOffline
    s.applyRun p { port := q1, raised := none, settled := some .absent }
  | none => s

/-- The part of a RELEASE that waited for a block is done; the RELEASE is answered when nothing more waits (R133). -/
def releaseStep (s : State) (c : ChanId) (runControl : Bool) : State :=
  match (s.lane c).executing with
  | some e =>
    match e.wait with
    | .release r l =>
      let r' := r && !runControl
      let l' := l && runControl
      if r' || l' then s.setLane c { s.lane c with executing := some { e with wait := .release r' l' } }
      else s.finish c .done []
    | .change _ _ | .settle _ | .access _ | .teardown => s
  | none => s

/-- HOLD_REMOVAL: the removal of a releasing channel's hold is taken as one event (R91, R133). -/
def holdRemoval (p : PortId) (s : State) : State :=
  let q := s.port p
  match q.rc.removals with
  | c :: rest => (s.applyRun p ((q.setRun { q.rc with removals := rest }).removeHold c false)).releaseStep c true
  | [] => s

end State

/-! ### Meanings -/

def execHalt (c : ChanId) (s : State) : Outcome State Fault Refusal := .next (s.halt c)
def execResume (c : ChanId) (s : State) : Outcome State Fault Refusal := .next (s.resume c)
def execStepBoard (c : ChanId) (s : State) : Outcome State Fault Refusal := .next (s.stepBoard c)
def execFreeze (p : PortId) (crossSender : Bool) (s : State) : Outcome State Fault Refusal :=
  .next (s.freeze p crossSender)
def execObservationTaken (p : PortId) (s : State) : Outcome State Fault Refusal := .next (s.observationTaken p)
def execStopped (p : PortId) (s : State) : Outcome State Fault Refusal := .next (s.stopped p)
def execStopTimerExpiry (p : PortId) (s : State) : Outcome State Fault Refusal := .next (s.stopTimerExpiry p)
def execResetAsserted (p : PortId) (s : State) : Outcome State Fault Refusal := .next (s.resetAsserted p)
def execResetReleased (p : PortId) (s : State) : Outcome State Fault Refusal := .next (s.resetReleased p)
def execLinkLossAtRunControl (p : PortId) (s : State) : Outcome State Fault Refusal := .next (s.linkLossAtRunControl p)
def execLinkLockAtRunControl (p : PortId) (s : State) : Outcome State Fault Refusal := .next (s.linkLockAtRunControl p)
def execUnseatAtRunControl (p : PortId) (s : State) : Outcome State Fault Refusal := .next (s.unseatAtRunControl p)
def execHoldRemoval (p : PortId) (s : State) : Outcome State Fault Refusal := .next (s.holdRemoval p)

end Sys2Proof.Machine
end

