-- ==== Sys2Proof/Machine/TargetLink.lean ====
section
/-! DEFINITION. Target links and fixture lines (chapter 6): seat sensing, link lock, frames, observation credit, status
lines, control lines, DRIVE and PORTSTAT. -/

namespace Sys2Proof.Machine

open Host

/-! ### Frames from the board (R119, R120) -/

/-- An OBS frame's fields, when every one lies among those listed; the bytes above the width are set to 0 (R120). -/
def checkedObs (o : RawObs) : Option Observation :=
  match o.direction, readWidth o.width, readSixteen o.initiator, o.origin with
  | some d, some w, some t, some og =>
    some { address := o.address, data := w.low o.data, direction := d, width := w, initiator := t, origin := og,
           sequence := o.sequence }
  | _, _, _, _ => none

/-- A REPLY frame's fields, when every one lies among those listed (R119). -/
def checkedReply (tag : Nat) (result : RawResult) (data : Word) : Option ReplyFrame :=
  if tag < 16 then
    match result with
    | .ok => some { tag := BitVec.ofNat 4 tag, faultCode := none, data := data }
    | .fault code => (readSixteen code).map fun k => { tag := BitVec.ofNat 4 tag, faultCode := some k, data := data }
    | .unlisted => none
  else none

/-! ### The outputs of the link (R115) -/

/-- Pn_CK, Pn_DO and Pn_FS are held low in DOWN, so that a board being inserted is not driven before it is seated, and
driven in HUNTING and LOCKED (R115, log 36). -/
def LinkController.outputs (t : LinkController) : LinkOutputs :=
  match t.link with
  | .down => { clock := .low, dataOut := .low, strobe := .low }
  | .hunting | .locked => { clock := .driven, dataOut := .driven, strobe := .driven }

namespace Port

def setLink (q : Port) (t : LinkController) : Port := { q with tlc := t }

/-- A hand-over to Run Control, the Match Unit and the Access Arbiter. -/
def reportRun (q : Port) (r : RunReport) : Port := q.setRun { q.rc with reports := q.rc.reports ++ [r] }
def reportMatch (q : Port) (r : LinkReport) : Port :=
  { q with mu := { q.mu with linkReports := q.mu.linkReports ++ [r] } }
def reportArbiter (q : Port) (r : ArbiterReport) : Port :=
  { q with arb := { q.arb with fromLink := q.arb.fromLink ++ [.report r] } }

/-- The board reset line takes a level; a change is reported to Run Control (R128). -/
def setResetLine (q : Port) (asserted : Bool) : Port :=
  if q.tlc.resetAsserted = asserted then q
  else (q.setLink { q.tlc with resetAsserted := asserted }).reportRun
    (if asserted then .resetAsserted else .resetReleased)

/-- The board power line takes a level; a change is not reported (R128). -/
def setPowerLine (q : Port) (on : Bool) : Port := q.setLink { q.tlc with powerOn := on }

/-- The two lines return to the port's safe levels (R126). -/
def toSafeLevels (q : Port) : Port :=
  (q.setResetLine q.settings.safeResetAsserted).setPowerLine q.settings.safePowerOn

/-- The credit total of the superframe header, r + c modulo 256 (R121). -/
def creditTotal (q : Port) : Byte := q.tlc.received + BitVec.ofNat 8 q.tlc.credits

/-- An OBS frame is taken (R122): counted, then accepted against a credit, or discarded with the violation flag set;
one with an unlisted field is counted only (R119). -/
def takeObs (q : Port) (o : RawObs) : Port :=
  let t := { q.tlc with received := q.tlc.received + 1 }
  match checkedObs o with
  | none => q.setLink t
  | some ob =>
    if 0 < t.credits then
      { q with tlc := { t with credits := t.credits - 1 },
               mu := { q.mu with events := q.mu.events ++ [.obs ob t.epoch] } }
    else q.setLink { t with violation := true }

/-- One frame of a good superframe is taken (R119). -/
def takeFrame (q : Port) (f : BoardFrame) : Port :=
  match f with
  | .obs o => q.takeObs o
  | .reply tag result data =>
    match checkedReply tag result data with
    | some r => { q with arb := { q.arb with fromLink := q.arb.fromLink ++ [.reply r] } }
    | none => q
  | .stopped => q.reportRun .stopped
  | .otherKind => q

/-- The header's sent count against r while LOCKED (R123). -/
def checkSentCount (q : Port) (sent : Byte) : Port :=
  let d := (sent - q.tlc.received).toNat
  if d = 0 then q
  else if d ≤ 8 then q.setLink { q.tlc with received := sent }
  else q.setLink { q.tlc with received := sent, violation := true }

/-- Good or bad, by the link state and the expectation (R116). -/
def judge (q : Port) (f : BoardSuperframe) : Bool :=
  f.checkAgrees && (match f.sync with
    | .atExpected => true
    | .elsewhere => q.tlc.link = .hunting && !q.tlc.expecting
    | .missing => false)

/-- The link locks (R117, R123): r becomes the board's sent count, and the lock is reported. -/
def lock (q : Port) (sent : Byte) : Port :=
  (((q.setLink { q.tlc with link := .locked, goodSync := 0, badSync := 0, expecting := true, received := sent }).reportRun
    .linkLocked).reportMatch (.link .locked)).reportArbiter .linkLocked

/-- The link is lost (R117): the gate closes in the same step, frames not yet sent are discarded, and the loss is
reported; the expectation is dropped (log 14). -/
def lose (q : Port) : Port :=
  ((((q.setLink { q.tlc with link := .hunting, goodSync := 0, badSync := 0, expecting := false, outgoing := [] }).setGate
    q.gate.closeOff).reportRun .linkLost).reportMatch (.link .hunting)).reportArbiter .linkLost

/-- The board reaches SEATED (R113). -/
def seatBoard (q : Port) : Port :=
  (q.setLink { q.tlc with seat := .seated, debounce := none, epoch := q.tlc.epoch + 1, link := .hunting, goodSync := 0,
                          badSync := 0, expecting := false }).reportMatch (.link .hunting)

/-- The unseat at the controller (R114): steps 1, 2, 4 and 5. -/
def unseat (q : Port) : Port :=
  let q1 := q.setLink { q.tlc with seat := .empty, debounce := none, link := .down, goodSync := 0, badSync := 0,
                                   expecting := false, outgoing := [] }
  let q2 := if q.tlc.link = .locked then q1.setGate q1.gate.closeOff else q1
  let q3 := ((q2.reportRun .unseat).reportMatch .unseat).reportArbiter .unseat
  (q3.setGate { q3.gate with unseats := q3.gate.unseats + 1 }).toSafeLevels

/-- An unseat of the port is on its way to the arbiter or to the gate (R114). The arbiter discards the remainders before
any new epoch is given (R148), and the gate finds itself CLOSED when it takes the unseat (R95): a new board is seated after
both have taken it (log 4). -/
def unseatWaits (q : Port) : Bool := .report .unseat ∈ q.arb.fromLink || 0 < q.gate.unseats

end Port

namespace State

/-- Raises a port event of a port's Target Link Controller (R129). -/
def raiseLink (s : State) (p : PortId) (k : EventCode) (cs : ChanSet) : State :=
  s.sendEvent { port := p, block := .linkController, kind := k, chans := cs }

/-- SEAT_CHANGE: the filtered seat level changes (R111, R112). It is not looked at during the walk (R110). -/
def seatChange (p : PortId) (high : Bool) (s : State) : State :=
  let q := s.port p
  if s.desc.walking || q.tlc.seatHigh = high then s
  else
    let t := { q.tlc with seatHigh := high }
    let t1 := match q.tlc.seat with
      | .empty => if high then { t with seat := .arriving, debounce := some q.settings.debounce } else t
      | .arriving => if high then t else { t with seat := .empty, debounce := none }
      | .seated => if high then t else { t with seat := .leaving, debounce := some q.settings.debounce }
      | .leaving => if high then { t with seat := .seated, debounce := none } else t
    s.setPort p (q.setLink t1)

/-- DEBOUNCE_EXPIRY (R112): ARRIVING becomes SEATED (R113), LEAVING is unseated (R114). A seating waits for an unseat that
is on its way to the arbiter or to the gate (R95, R148, log 4). -/
def debounceExpiry (p : PortId) (s : State) : State :=
  let q := s.port p
  match q.tlc.debounce, q.tlc.seat with
  | some _, .arriving =>
    if q.unseatWaits then s else (s.setPort p q.seatBoard).raiseLink p .seated q.claimants
  | some _, .leaving => (s.setPort p q.unseat).raiseLink p .unseated q.concerned
  | _, _ => s

/-- A filtered edge handed to the Match Unit: it waits, or withdraws a waiting edge of its line and is discarded with
it (R38, R125). A waiting edge that is withdrawn had not begun, nor had an event behind it (R31). -/
def waitEdge (m : MatchUnit) (l : LineId) (e : Edge) (epoch : Half) : MatchUnit :=
  let same (x : MatchEvent) : Bool := match x with
    | .edge l' _ _ => l' = l
    | .obs _ _ => false
    | .quiet _ _ => false
  if m.events.any same then
    { m with events := m.events.filter fun x => !same x,
             view := if m.events.head?.any same then m.view.between else m.view }
  else { m with events := m.events ++ [.edge l e epoch] }

/-- STATUS_EDGE: a filtered status level changes (R124), and the edge is handed on in SEATED and LEAVING (R125). -/
def statusEdge (p : PortId) (l : LineId) (high : Bool) (s : State) : State :=
  let q := s.port p
  if s.desc.walking || q.tlc.status[l] = high then s
  else
    let q1 := q.setLink { q.tlc with status := q.tlc.status.set l high }
    let e : Edge := if high then .rise else .fall
    match q.tlc.seat with
    | .seated => s.setPort p { q1 with mu := waitEdge q1.mu l e q.tlc.epoch }
    | .leaving => s.setPort p { q1 with mu := waitEdge q1.mu l e q.tlc.epoch }
    | .empty => s.setPort p q1
    | .arriving => s.setPort p q1

/-- BOARD_SUPERFRAME: a superframe period is judged, moves the counts and the link state, and has its frames taken
(R116, R117, R119, R123). -/
def boardSuperframe (p : PortId) (f : BoardSuperframe) (s : State) : State :=
  let q := s.port p
  match q.tlc.link, q.judge f with
  | .down, _ => s
  | .hunting, true =>
    if q.tlc.goodSync + 1 = Config.syncRun then (s.setPort p (q.lock f.sentCount)).raiseLink p .locked q.concerned
    else s.setPort p (q.setLink { q.tlc with goodSync := q.tlc.goodSync + 1, expecting := true })
  | .hunting, false => s.setPort p (q.setLink { q.tlc with goodSync := 0, expecting := false })
  | .locked, true =>
    let q1 := q.setLink { q.tlc with badSync := 0 }
    s.setPort p (f.frames.foldl Port.takeFrame (q1.checkSentCount f.sentCount))
  | .locked, false =>
    if q.tlc.badSync + 1 = Config.syncRun then (s.setPort p q.lose).raiseLink p .lost q.concerned
    else s.setPort p (q.setLink { q.tlc with badSync := q.tlc.badSync + 1 })

/-- OUTGOING_SUPERFRAME: while the link's outputs are driven, in HUNTING and LOCKED, a superframe is sent with the credit
total and as many of the frames handed over, in order, as have room; while they are held low nothing is sent (R115, R118,
log 12). -/
def outgoingSuperframe (p : PortId) (room : Nat) (s : State) : State :=
  let q := s.port p
  match q.tlc.outputs.dataOut with
  | .low => s
  | .driven => s.setPort p (q.setLink { q.tlc with
      outgoing := q.tlc.outgoing.drop room,
      sentFrames := q.tlc.sentFrames ++ [{ creditTotal := q.creditTotal, frames := q.tlc.outgoing.take room }] })

/-- CREDIT_RETURN: the controller takes the return of an observation's credit (R122). -/
def creditReturn (p : PortId) (s : State) : State :=
  let q := s.port p
  if 0 < q.tlc.creditReturns then
    s.setPort p (q.setLink { q.tlc with credits := q.tlc.credits + 1, creditReturns := q.tlc.creditReturns - 1 })
  else s

/-- SAFE_LEVELS: the controller takes the return of the lines to the safe levels that a RELEASE handed it (R126, R133). -/
def safeLevels (p : PortId) (s : State) : State :=
  let q := s.port p
  match q.tlc.safeRequests with
  | c :: rest => (s.setPort p (q.setLink { q.tlc with safeRequests := rest }).toSafeLevels).releaseStep c false
  | [] => s

/-- DRIVE (R127). -/
def drive (c : ChanId) (s : State) : State :=
  s.openRequest c kindDrive fun f t =>
    match readDrive f.payload with
    | none => t.answer c f .bad []
    | some r =>
      let q := t.port r.port
      if q.hasSole c then
        let q1 := (q.setResetLine (r.reset.getD q.tlc.resetAsserted)).setPowerLine (r.power.getD q.tlc.powerOn)
        (t.setPort r.port q1).answer c f .done q1.tlc.levels
      else t.answer c f .noClaim []

/-- PORTSTAT: the response, then the credit-violation flag is cleared (R130). -/
def portstat (c : ChanId) (s : State) : State :=
  s.openRequest c kindPortstat fun f t =>
    match readPortPayload f.payload with
    | none => t.answer c f .bad []
    | some p =>
      let q := t.port p
      (t.setPort p (q.setLink { q.tlc with violation := false })).answer c f .done q.answer

end State

/-! ### Meanings -/

def execSeatChange (p : PortId) (high : Bool) (s : State) : Outcome State Fault Refusal := .next (s.seatChange p high)
def execDebounceExpiry (p : PortId) (s : State) : Outcome State Fault Refusal := .next (s.debounceExpiry p)
def execStatusEdge (p : PortId) (l : LineId) (high : Bool) (s : State) : Outcome State Fault Refusal :=
  .next (s.statusEdge p l high)
def execBoardSuperframe (p : PortId) (f : BoardSuperframe) (s : State) : Outcome State Fault Refusal :=
  .next (s.boardSuperframe p f)
def execOutgoingSuperframe (p : PortId) (room : Nat) (s : State) : Outcome State Fault Refusal :=
  .next (s.outgoingSuperframe p room)
def execCreditReturn (p : PortId) (s : State) : Outcome State Fault Refusal := .next (s.creditReturn p)
def execSafeLevels (p : PortId) (s : State) : Outcome State Fault Refusal := .next (s.safeLevels p)
def execDrive (c : ChanId) (s : State) : Outcome State Fault Refusal := .next (s.drive c)
def execPortstat (c : ChanId) (s : State) : Outcome State Fault Refusal := .next (s.portstat c)

end Sys2Proof.Machine
end

