-- ==== Sys2Proof/Machine/Arbiter.lean ====
section
/-! DEFINITION. Target access and arbitration (chapter 7): claims, READ and WRITE blocks, the access queue, the choice
and grant, words and replies, parked remainders, link loss and unseat. -/

namespace Sys2Proof.Machine

open Host

/-! ### Addresses of a block's words (R135) -/

/-- The address of word `i` of a block. -/
def Block.wordAddress (b : Block) (i : Nat) : Word :=
  match b.stepping with
  | .increment => b.start + BitVec.ofNat 32 (i * b.width.bytes)
  | .fixed => b.start
  | .wrap s =>
    let base := b.start.toNat - b.start.toNat % s
    BitVec.ofNat 32 (base + (b.start.toNat - base + i * b.width.bytes) % s)

/-- The data of word `i` as it goes into the ACCESS frame: that of a WRITE (R118, R142); R118 and R142 give a READ's frame no
data, and its field is 0 by the model's choice (log 33). -/
def Block.wordData (b : Block) (i : Nat) : Word := b.data.getD i 0

/-- The block that continues from word `k` (R148). -/
def Block.fromWord (b : Block) (k : Nat) : Block :=
  { b with count := b.count - k, start := b.wordAddress k, data := b.data.drop k }

/-- A hand-over of the Target Link Controller that is a report, not a REPLY frame. -/
def ArbiterMsg.isReport : ArbiterMsg → Bool
  | .report _ => true
  | .reply _ => false

namespace Port

def setArb (q : Port) (a : Arbiter) : Port := { q with arb := a }

/-- A choice is due: the link is free and LOCKED and the queue is not empty. It is made before another entry joins the
queue (R141, R156, log 4). -/
def choiceDue (q : Port) : Bool := q.arb.use = .idle && q.arb.linkLocked && !q.arb.queue.isEmpty

/-- Sends word `i` of a running block: an ACCESS frame with the next tag, and the reply limit timer (R142). -/
def sendWord (q : Port) (b : RunningBlock) (i : Nat) : Port :=
  let w : FlightWord := { tag := q.arb.nextTag, index := i, address := b.block.wordAddress i, data := b.block.wordData i }
  let q1 := q.sendFrame (.access w.tag b.block.direction w.address b.block.width w.data)
  q1.setArb { q1.arb with use := .executing b w, nextTag := q.arb.nextTag + 1, replyTimer := some q.settings.replyLimit }

/-- The link becomes free (R141). -/
def freeLink (q : Port) : Port := q.setArb { q.arb with use := .idle, replyTimer := none }

/-- The unfinished part of a failed block is parked (R146, R148). -/
def park (q : Port) (b : RunningBlock) (reason : FailReason) : Port :=
  let r : Remainder := { block := b.block.fromWord b.wordsDone, reason := reason, epoch := b.epoch }
  q.setArb { q.arb with parked := q.arb.parked.set b.chan (some r) }

/-- A remainder returns to parking unchanged (R149). -/
def returnRemainder (q : Port) (c : ChanId) : Option Remainder → Port
  | some r => q.setArb { q.arb with parked := q.arb.parked.set c (some r) }
  | none => q

def discardRemainder (q : Port) (c : ChanId) : Port := q.setArb { q.arb with parked := q.arb.parked.set c none }

end Port

/-! ### The choice (R138, R139) -/

/-- Two times the class plus the lift (R138). -/
def standing (cls : ChanId → Fin 4) (lifts : ChanSet) (e : QueueEntry) : Nat :=
  2 * (cls e.chan).val + (if lifts.has e.chan then 1 else 0)

def QueueEntry.overdue (e : QueueEntry) : Bool := Config.overdueAge ≤ e.age

/-- The entry of lowest standing, the earliest of equals (R139). -/
def lowestStanding (cls : ChanId → Fin 4) (lifts : ChanSet) : List QueueEntry → Option QueueEntry
  | [] => none
  | e :: rest =>
    match lowestStanding cls lifts rest with
    | none => some e
    | some f => if standing cls lifts f < standing cls lifts e then some f else some e

/-- The overdue entry that joined earliest, or else the entry of lowest standing (R139). -/
def chooseEntry (cls : ChanId → Fin 4) (lifts : ChanSet) (queue : List QueueEntry) : Option QueueEntry :=
  match queue.find? QueueEntry.overdue with
  | some e => some e
  | none => lowestStanding cls lifts queue

/-- The queue without the entry of a channel; a queue holds at most one (R137). -/
def removeEntry (c : ChanId) (queue : List QueueEntry) : List QueueEntry := queue.filter fun e => e.chan ≠ c

namespace State

/-! ### Claims (R132, R133) -/

/-- The table of R132: the requester's mode after the request, or BUSY. -/
def claimResult (q : Port) (c : ChanId) (m : ClaimMode) : Option ClaimMode :=
  let others := allChans.any fun d => d ≠ c && q.hasClaim d
  match q.arb.claims[c], m with
  | none, .shared => if q.foreignSole c then none else some .shared
  | none, .sole => if others then none else some .sole
  | some .shared, .shared => some .shared
  | some .shared, .sole => if others then none else some .sole
  | some .sole, m' => some m'

/-- CLAIM (R132). -/
def claim (c : ChanId) (s : State) : State :=
  s.openRequest c kindClaim fun f t =>
    match readClaim f.payload with
    | none => t.answer c f .bad []
    | some (p, m) =>
      let q := t.port p
      match claimResult q c m with
      | some m' => (t.setPort p (q.setArb { q.arb with claims := q.arb.claims.set c (some m') })).answer c f .done
          [byteOf m'.code]
      | none => t.answer c f .busy []

/-- RELEASE (R133): the claim and the remainder leave; the hold removal goes to Run Control and, for SOLE, the
safe-level return to the Target Link Controller; the response waits for both. -/
def release (c : ChanId) (s : State) : State :=
  s.openRequest c kindRelease fun f t =>
    match readPortPayload f.payload with
    | none => t.answer c f .bad []
    | some p =>
      let q := t.port p
      if q.hasClaim c then
        let sole := q.hasSole c
        let q1 := (q.setArb { q.arb with claims := q.arb.claims.set c none }).discardRemainder c
        let q2 := q1.setRun { q1.rc with removals := q1.rc.removals ++ [c] }
        let q3 := if sole then q2.setLink { q2.tlc with safeRequests := q2.tlc.safeRequests ++ [c] } else q2
        (t.setPort p q3).wait c f (.release true sole)
      else t.answer c f .notHeld []

/-! ### READ and WRITE (R136) -/

/-- Checks 3 to 9 of R136, in order; `none` passes. -/
def accessRefusal (q : Port) (c : ChanId) (r : AccessRequest) : Option Status :=
  if !q.hasClaim c then some .noClaim
  else if q.arb.parked[c].isSome then some .parked
  else if q.tlc.seat = .empty ∨ q.tlc.seat = .arriving then some .absent
  else if !q.arb.linkLocked then some .noLink
  else if q.tlc.resetAsserted then some .inReset
  else if r.epochGuard.any fun g => g ≠ q.tlc.epoch then some .epoch
  else if r.block.haltedOnly && q.rc.run ≠ .frozen then some .running
  else none

/-- An entry joins the tail of the queue with age 0 (R137). -/
def joinQueue (q : Port) (e : QueueEntry) : Port := q.setArb { q.arb with queue := q.arb.queue ++ [e] }

/-- The port an access request names has a choice due, so its arbiter takes the request after it (log 4). -/
def accessBlocked (s : State) (p : Option PortId) : Bool := p.any fun x => (s.port x).choiceDue

/-- READ and WRITE share their checks and differ in the direction (R134, R136). -/
def access (dir : Direction) (kind : Byte) (c : ChanId) (s : State) : State :=
  if s.accessBlocked (((s.headFrame c).bind fun f => readAccess dir f.payload).map (·.port)) then s
  else
    s.openRequest c kind fun f t =>
      match readAccess dir f.payload with
      | none => t.answer c f .bad []
      | some r =>
        let q := t.port r.port
        match accessRefusal q c r with
        | some st => t.answer c f st []
        | none =>
          (t.setPort r.port (joinQueue q { chan := c, block := r.block, epochGuard := r.epochGuard,
                                           replayOf := none, age := 0 })).wait c f (.access r.port)

/-- READ (R136). -/
def read (c : ChanId) (s : State) : State := s.access .read kindRead c

/-- WRITE (R136). -/
def write (c : ChanId) (s : State) : State := s.access .write kindWrite c

/-- The checks of REPLAY on the remainder (R149); `none` passes. -/
def replayRefusal (q : Port) (r : Remainder) : Option Status :=
  if !q.arb.linkLocked then some .noLink
  else if q.tlc.resetAsserted then some .inReset
  else if r.block.haltedOnly && q.rc.run ≠ .frozen then some .running
  else none

/-- REPLAY (R149). One taken after an unseat finds no remainder and is answered NOT_HELD, as R149's checks give; that it is
not answered ABSENT, as the READ row that R156's last sentence names, is the model's choice (log 35). -/
def replay (c : ChanId) (s : State) : State :=
  if s.accessBlocked ((s.headFrame c).bind fun f => readPortPayload f.payload) then s
  else
    s.openRequest c kindReplay fun f t =>
      match readPortPayload f.payload with
      | none => t.answer c f .bad []
      | some p =>
        let q := t.port p
        match q.arb.parked[c] with
        | none => t.answer c f .notHeld []
        | some r =>
          match replayRefusal q r with
          | some st => t.answer c f st []
          | none =>
            (t.setPort p (joinQueue (q.discardRemainder c) { chan := c, block := r.block, epochGuard := none,
                                                             replayOf := some r, age := 0 })).wait c f (.access p)

/-- DROP (R150). -/
def drop (c : ChanId) (s : State) : State :=
  s.openRequest c kindDrop fun f t =>
    match readPortPayload f.payload with
    | none => t.answer c f .bad []
    | some p =>
      let q := t.port p
      match q.arb.parked[c] with
      | none => t.answer c f .notHeld []
      | some r => (t.setPort p (q.discardRemainder c)).answer c f .done r.answer

/-! ### Grant (R139, R140) -/

/-- The rechecks before the first word (R140). -/
def grantRefusal (q : Port) (e : QueueEntry) : Option Status :=
  if q.tlc.resetAsserted then some .inReset
  else if e.block.haltedOnly && q.rc.run ≠ .frozen then some .running
  else none

/-- The grant of an entry: it leaves the queue, its channel is lifted, the others age and lose their lifts, and the
first word is sent (R139, R142). -/
def grantEntry (q : Port) (e : QueueEntry) : Port :=
  let rest := removeEntry e.chan q.arb.queue
  let lifts := ChanSet.ofPred fun c => c = e.chan || (q.arb.lifts.has c && !rest.any fun x => x.chan = c)
  let q1 := q.setArb { q.arb with queue := rest.map fun x => { x with age := x.age + 1 }, lifts := lifts }
  q1.sendWord { chan := e.chan, block := e.block, wordsDone := 0, readData := [], epoch := q.tlc.epoch } 0

/-- GRANT: with the link free and the queue not empty, the chosen entry is granted, or fails the rechecks and leaves as
though it had never been granted (R139, R140). -/
def grant (p : PortId) (s : State) : State :=
  let q := s.port p
  if q.choiceDue then
    match chooseEntry (fun c => (s.chan c).cls) q.arb.lifts q.arb.queue with
    | none => s
    | some e =>
      match grantRefusal q e with
      | some st =>
        (s.setPort p ((q.setArb { q.arb with queue := removeEntry e.chan q.arb.queue }).returnRemainder e.chan
          e.replayOf)).finish e.chan st []
      | none => s.setPort p (grantEntry q e)
  else s

/-! ### Words (R143 to R147) -/

/-- The block in flight fails: it is answered with the words done, and its unfinished part is parked (R146). -/
def failBlock (s : State) (p : PortId) (b : RunningBlock) (reason : FailReason) : State :=
  (s.setPort p ((s.port p).park b reason).freeLink).finish b.chan reason.status (b.answer reason.code)

/-- A word completes (R143): the next word is sent, or the block ends successfully (R145). -/
def completeWord (s : State) (p : PortId) (b : RunningBlock) (data : Word) : State :=
  let b1 := { b with
    wordsDone := b.wordsDone + 1,
    readData := match b.block.direction with
      | .read => b.readData ++ [b.block.width.low data]
      | .write => b.readData }
  if b1.wordsDone < b1.block.count then s.setPort p ((s.port p).sendWord b1 b1.wordsDone)
  else (s.setPort p (s.port p).freeLink).finish b1.chan .done (b1.answer 0)

/-- REPLY: the arbiter takes a REPLY frame (R143), after every report the Target Link Controller handed over before it
(R117, R119, R156). -/
def reply (p : PortId) (s : State) : State :=
  match (s.port p).arb.fromLink with
  | [] => s
  | .report _ :: _ => s
  | .reply r :: rest =>
    let s1 := s.setPort p ((s.port p).setArb { (s.port p).arb with fromLink := rest })
    match (s1.port p).arb.use with
    | .idle => s1
    | .executing b w =>
      if r.tag = w.tag then
        match r.faultCode with
        | none => s1.completeWord p b r.data
        | some k => s1.failBlock p b (.fault k)
      else s1
    | .draining w => if r.tag = w.tag then s1.setPort p (s1.port p).freeLink else s1

/-- REPLY_LIMIT_EXPIRY: with a word in flight the word ends (R144). -/
def replyLimitExpiry (p : PortId) (s : State) : State :=
  match (s.port p).arb.replyTimer, (s.port p).arb.use with
  | some _, .executing b _ => s.failBlock p b .timeout
  | some _, .draining _ => s.setPort p (s.port p).freeLink
  | some _, .idle => s
  | none, _ => s

/-! ### Link and seat (R151, R152) -/

/-- Takes the oldest report of the Target Link Controller, when it is `r`. A loss or an unseat may be taken before REPLY
frames handed over before it, which are then discarded as they are taken (R156); a lock is taken after every frame and
report handed over before it (R117, R119, log 3). A report may come before a choice that is due, whose entries it then
meets in the queue (R156). -/
def takeArbiterReport (q : Port) (r : ArbiterReport) : Option Port :=
  match takeFirst (fun m => m.isReport || r = .linkLocked) q.arb.fromLink with
  | some (m, rest) => if m = .report r then some (q.setArb { q.arb with fromLink := rest }) else none
  | none => none

/-- What becomes of the word on the link at a loss (R151). -/
def loseBlock (s : State) (p : PortId) : LinkUse → State
  | .executing b _ => s.failBlock p b .linkLost
  | .draining _ => s.setPort p (s.port p).freeLink
  | .idle => s

/-- A queued entry is answered NO_LINK; the remainder of a REPLAY returns (R151). -/
def refuseEntry (p : PortId) (s : State) (e : QueueEntry) : State :=
  (s.setPort p ((s.port p).returnRemainder e.chan e.replayOf)).finish e.chan .noLink []

/-- The queue becomes empty. -/
def emptyQueue (s : State) (p : PortId) : State := s.setPort p ((s.port p).setArb { (s.port p).arb with queue := [] })

/-- LINK_LOSS_AT_ARBITER (R151). The rule orders the answers of the entries; that the LINK_LOST answer of the executing
block goes before them is the model's choice (log 34). -/
def linkLossAtArbiter (p : PortId) (s : State) : State :=
  match takeArbiterReport (s.port p) .linkLost with
  | none => s
  | some q =>
    let s1 := s.setPort p (q.setArb { q.arb with linkLocked := false })
    q.arb.queue.foldl (refuseEntry p) ((s1.loseBlock p q.arb.use).emptyQueue p)

/-- LINK_LOCK_AT_ARBITER (R151). -/
def linkLockAtArbiter (p : PortId) (s : State) : State :=
  match takeArbiterReport (s.port p) .linkLocked with
  | none => s
  | some q => s.setPort p (q.setArb { q.arb with linkLocked := true })

/-- What is answered of the block on the link at an unseat (R152). -/
def absentBlock (s : State) : LinkUse → State
  | .executing b _ => s.finish b.chan .absent (b.answer 0)
  | .draining _ => s
  | .idle => s

/-- UNSEAT_AT_ARBITER (R152). That the ABSENT answer of the executing block goes before those of the entries is the model's
choice (log 34). -/
def unseatAtArbiter (p : PortId) (s : State) : State :=
  match takeArbiterReport (s.port p) .unseat with
  | none => s
  | some q =>
    let s1 := s.setPort p ((q.setArb { q.arb with linkLocked := false, queue := [],
                                                  parked := Vector.replicate 8 none }).freeLink)
    q.arb.queue.foldl (fun t e => t.finish e.chan .absent []) (s1.absentBlock q.arb.use)

end State

/-! ### Meanings -/

def execClaim (c : ChanId) (s : State) : Outcome State Fault Refusal := .next (s.claim c)
def execRelease (c : ChanId) (s : State) : Outcome State Fault Refusal := .next (s.release c)
def execRead (c : ChanId) (s : State) : Outcome State Fault Refusal := .next (s.read c)
def execWrite (c : ChanId) (s : State) : Outcome State Fault Refusal := .next (s.write c)
def execReplay (c : ChanId) (s : State) : Outcome State Fault Refusal := .next (s.replay c)
def execDrop (c : ChanId) (s : State) : Outcome State Fault Refusal := .next (s.drop c)
def execGrant (p : PortId) (s : State) : Outcome State Fault Refusal := .next (s.grant p)
def execReply (p : PortId) (s : State) : Outcome State Fault Refusal := .next (s.reply p)
def execReplyLimitExpiry (p : PortId) (s : State) : Outcome State Fault Refusal := .next (s.replyLimitExpiry p)
def execLinkLossAtArbiter (p : PortId) (s : State) : Outcome State Fault Refusal := .next (s.linkLossAtArbiter p)
def execLinkLockAtArbiter (p : PortId) (s : State) : Outcome State Fault Refusal := .next (s.linkLockAtArbiter p)
def execUnseatAtArbiter (p : PortId) (s : State) : Outcome State Fault Refusal := .next (s.unseatAtArbiter p)

end Sys2Proof.Machine
end

