-- ==== Sys2Proof/Machine/Records.lean ====
section
/-! DEFINITION. The requests on watch records (1.5, 3.4, 3.5): PLACE, AMEND, SUSPEND, ARM, RETIRE, LOOKUP, LIST, FIND and
TALLY, and step 1 of a channel teardown (1.8). -/

namespace Sys2Proof.Machine

open Host

/-! ### Shared parts -/

/-- A record without its after-link; a WAITING one becomes SUSPENDED (R29). -/
def Record.cut (r : Record) : Record :=
  { r with after := none, state := if r.state = .waiting then .suspended else r.state }

namespace WatchTable

/-- The units that hold the record of any of the slots. -/
def unitsOf (t : WatchTable) (is : List Nat) : List UnitId :=
  allUnits.filter fun u => is.any fun i => (t.entryFor u i).isSome

/-- The records of the slots lose their after-links (R29). -/
def cutLinks (t : WatchTable) (is : List Nat) : WatchTable :=
  is.foldl (fun v j => match v.recordAt j with
    | some r => v.setRecord j r.cut
    | none => v) t

/-- Every record, with its handle, that channel `c` may read among the given slots, in their order (R10, R24). -/
def visible (t : WatchTable) (c : ChanId) (is : List Nat) : List (Handle × RecState) :=
  is.filterMap fun i => match t.recordAt i with
    | some r => if r.mayRead c then some (t.handleAt i, r.state) else none
    | none => none

/-- Every chain and list a record would join has room for one more (R13, R33). -/
def hasRoom (t : WatchTable) (r : Record) : Bool := r.units.all fun u => (t.chain u).length < unitRoom u

end WatchTable

/-- A field of the count side is named (R35). -/
def AmendRequest.namesCount (a : AmendRequest) : Bool :=
  a.goal.isSome || a.repeats.isSome || a.mode.isSome || a.load.isSome || a.newTally.isSome

/-- A field of the match side is named (R35). -/
def AmendRequest.namesMatch (a : AmendRequest) : Bool :=
  a.rank.isSome || a.bus.isSome || a.data.isSome || a.edge.isSome || a.actions.isSome || a.quiet.isSome

namespace State

/-- REVOKED for a record's owner when another channel changed it (R11). -/
def revoke (s : State) (owner by' : ChanId) : State := if owner = by' then s else s.sendAddition (.revoked owner)

/-- REVOKED for the owners, other than `by'`, of the records that lost an after-link (R11). -/
def revokeOwners (s : State) (is : List Nat) (by' : ChanId) : State :=
  is.foldl (fun u j => match u.table.recordAt j with
    | some r => u.revoke r.owner by'
    | none => u) s

/-- A request that names one record, after the CLOSED and BAD checks of R12: STALE, then DENIED, then `body`. -/
def onRecord (s : State) (c : ChanId) (f : Frame) (h : Handle) (may : Record → Bool)
    (body : Record → State) : State :=
  match s.table.resolve h with
  | none => s.answer c f .stale []
  | some r => if may r then body r else s.answer c f .denied []

/-! ### PLACE (R13, R15) -/

/-- The record a PLACE puts in the table (R15). -/
def newRecord (q : PlaceRequest) (c : ChanId) (number : Word) : Record :=
  { state := if q.armed then (if q.after.isSome then .waiting else .armed) else .suspended,
    owner := c, guard := q.guard, keep := q.keep, scope := q.scope, side := q.side, placement := number,
    goal := q.goal, hits := 0, repeats := q.repeats, after := q.after, tally := q.tally, snapshot := none }

/-- Checks 3 and 4 of R13. -/
def afterRefusal (t : WatchTable) (c : ChanId) : Option Handle → Option Status
  | none => none
  | some h => match t.resolve h with
    | none => some .stale
    | some r => if r.mayRead c then none else some .denied

/-- The place a new record takes: the lowest FREE slot, when there is room (check 5 of R13). -/
def placeSlot (t : WatchTable) (r : Record) : Option Nat := if t.hasRoom r then t.lowestFree else none

/-- The change a PLACE makes: the record stands in slot `i` and in its chains, and its quiet timer runs (R15). -/
def placeAt (s : State) (i : Nat) (r : Record) : State :=
  let s1 := s.changeTable r.units { s.table.setRecord i r with counter := s.table.counter + 1 }
  if r.state = .armed then s1.restartQuiet i r else s1

/-- PLACE (R13, R15); the change waits for the units concerned to end their events (R35). -/
def place (c : ChanId) (s : State) : State :=
  s.openRequest c kindPlace fun f t =>
    match readPlace f.payload with
    | none => t.answer c f .bad []
    | some q =>
      match afterRefusal t.table c q.after with
      | some st => t.answer c f st []
      | none =>
        let r := newRecord q c t.table.counter
        match placeSlot t.table r with
        | none => t.answer c f .full []
        | some i =>
          if t.anyBusy r.units then s
          else (t.placeAt i r).wait c f (.change t.table.nextChange (t.table.handleAt i).bytes)

/-! ### AMEND (R16 to R18, R68 to R70) -/

/-- The match side after the named fields took their values. -/
def amendSide (sd : MatchSide) (a : AmendRequest) : MatchSide :=
  { rank := a.rank.getD sd.rank,
    cond := match sd.cond with
      | .bus m d => .bus (a.bus.getD m) (a.data.getD d)
      | .line l e => .line l (a.edge.getD e)
      | .cross x => .cross x,
    trigger := match sd.trigger with
      | .onHit => .onHit
      | .onSilence n => .onSilence (a.quiet.getD n),
    actions := a.actions.getD sd.actions }

/-- The hit count brought within a new goal (R17). -/
def amendHits (r : Record) (goal : Nat) : Nat :=
  match r.state with
  | .spent => goal
  | .waiting => r.hits
  | .armed => if r.hits < goal then r.hits else goal - 1
  | .suspended => if r.hits < goal then r.hits else goal - 1

/-- A tally under an AMEND: the mode first (R69), then the load (R68). -/
def amendTally (t : Tally) (a : AmendRequest) : Tally :=
  let t1 := match a.mode with
    | some m => { t.clear with mode := m }
    | none => t
  match a.load with
  | some w => { t1 with accumulator := t1.sign.read w, overflow := false }
  | none => t1

/-- The record as it stands after the change. -/
def amended (r : Record) (a : AmendRequest) : Record :=
  { r with
    guard := a.guard.getD r.guard,
    keep := a.keep.getD r.keep,
    side := amendSide r.side a,
    goal := a.goal.getD r.goal,
    hits := match a.goal with
      | some g => amendHits r g
      | none => r.hits,
    repeats := a.repeats.getD r.repeats,
    tally := match a.newTally with
      | some k => some (Tally.start k.1 k.2.1 k.2.2)
      | none => r.tally.map fun t => amendTally t a }

/-- Each named field belongs to the record's kind (R16). -/
def amendFits (r : Record) (a : AmendRequest) : Bool :=
  !a.namesFixed &&
  (!(a.bus.isSome || a.data.isSome) || r.side.cond.isBus) &&
  (!a.edge.isSome || (match r.side.cond with
    | .line _ _ => true
    | .bus _ _ => false
    | .cross _ => false)) &&
  (!a.quiet.isSome || r.side.trigger.isSilence) &&
  (!(a.mode.isSome || a.load.isSome) || r.tally.isSome) &&
  (!a.newTally.isSome || (!r.side.cond.isCross && !r.side.trigger.isSilence && r.tally.isNone))

/-- The record after the change is valid by R14. -/
def amendValid (r : Record) (a : AmendRequest) : Bool :=
  amendFits r a &&
  (let r' := amended r a
   imageValid r'.scope r'.side.cond r'.side.trigger r'.goal r'.side.actions (r'.tally.map (·.mode)))

/-- What a unit's copy takes of an AMEND: the new match side, and whether the quiet limit was named. -/
def amendUpdate (i : Nat) (r' : Record) (a : AmendRequest) : Option (CopyEntry × Bool) :=
  if a.namesMatch then some (r'.entry i, a.quiet.isSome) else none

/-- The units take a match-side change at once. -/
def takeAtOnce (s : State) (us : List UnitId) : Option (CopyEntry × Bool) → State
  | some upd => us.foldl (fun t u => t.takeUpdate u upd) s
  | none => s

/-- The change an AMEND makes. With a count-side field named it is made at one moment, in which the units' copies are
brought up to date, its own match side included; match-side fields alone wait for each unit's own boundary (R31, R35,
log 5). -/
def amendAt (s : State) (i : Nat) (r : Record) (a : AmendRequest) : State :=
  let r' := amended r a
  if a.namesCount then
    let s1 := r.units.foldl bringUpToDate s
    ((s1.setTable (s1.table.setRecord i r')).takeAtOnce r.units (amendUpdate i r' a)).announce r.units none
  else (s.setTable (s.table.setRecord i r')).announce r.units (amendUpdate i r' a)

/-- AMEND (R16 to R18); a count-side change waits for the units concerned to end their events (R35). -/
def amend (c : ChanId) (s : State) : State :=
  s.openRequest c kindAmend fun f t =>
    match readAmend f.payload with
    | none => t.answer c f .bad []
    | some a =>
      t.onRecord c f a.handle (fun r => r.mayChange c) fun r =>
        if amendValid r a then
          if a.namesCount && t.anyBusy r.units then s
          else ((t.amendAt a.handle.slot r a).revoke r.owner c).wait c f (.change t.table.nextChange [])
        else t.answer c f .bad []

/-! ### SUSPEND and ARM (R19, R20) -/

/-- A state change of one record: the units up to date, the record written, its quiet timer restarted when it stands
ARMED and stopped otherwise (R19, R20, R50, R51). -/
def restate (s : State) (i : Nat) (r : Record) : State :=
  let s1 := s.changeTable r.units (s.table.setRecord i r)
  if r.state = .armed then s1.restartQuiet i r else s1.stopQuiet i r

/-- SUSPEND (R19); without a change of state it is answered at once (log 24), and a change waits for the units concerned
to end their events (R35). -/
def suspend (c : ChanId) (s : State) : State :=
  s.openRequest c kindSuspend fun f t =>
    match readHandlePayload f.payload with
    | none => t.answer c f .bad []
    | some h =>
      t.onRecord c f h (fun r => r.mayChange c) fun r =>
        let r' : Record := { r with state := .suspended }
        match r.state with
        | .armed =>
          if t.anyBusy r.units then s
          else ((t.restate h.slot r').revoke r.owner c).wait c f (.change t.table.nextChange [])
        | .waiting =>
          if t.anyBusy r.units then s
          else ((t.restate h.slot r').revoke r.owner c).wait c f (.change t.table.nextChange [])
        | .suspended => (t.revoke r.owner c).answer c f .done []
        | .spent => (t.revoke r.owner c).answer c f .done []

/-- The record after an ARM (R20). -/
def armed (r : Record) : Record :=
  { r with hits := 0, state := if r.after.isSome then .waiting else .armed }

/-- ARM (R20); the change waits for the units concerned to end their events (R35). -/
def arm (c : ChanId) (s : State) : State :=
  s.openRequest c kindArm fun f t =>
    match readHandlePayload f.payload with
    | none => t.answer c f .bad []
    | some h =>
      t.onRecord c f h (fun r => r.mayChange c) fun r =>
        if t.anyBusy r.units then s
        else ((t.restate h.slot (armed r)).revoke r.owner c).wait c f (.change t.table.nextChange [])

/-! ### RETIRE (R21, R29) -/

/-- The units a RETIRE concerns: those that hold the record or one of its dependents. -/
def retireUnits (t : WatchTable) (h : Handle) : List UnitId := t.unitsOf (h.slot :: t.dependents h)

/-- The change a RETIRE makes: the slot FREE, its quiet timer stopped, its dependents cut loose, REVOKED where R11 gives
it. The timer stops once the units are up to date, so that no change of the quiet limit restarts it (R18). -/
def retireAt (s : State) (h : Handle) (r : Record) (c : ChanId) : State :=
  let deps := s.table.dependents h
  let s1 := (s.changeTable (retireUnits s.table h) ((s.table.freeSlot h.slot).cutLinks deps)).stopQuiet h.slot r
  (s1.revoke r.owner c).revokeOwners deps c

/-- RETIRE (R21); the change waits for the units concerned to end their events (R35). -/
def retire (c : ChanId) (s : State) : State :=
  s.openRequest c kindRetire fun f t =>
    match readHandleFlag f.payload with
    | none => t.answer c f .bad []
    | some (h, force) =>
      t.onRecord c f h (fun r => r.mayRetire c) fun r =>
        if !force && !(t.table.dependents h).isEmpty then t.answer c f .inUse []
        else if t.anyBusy (retireUnits t.table h) then s
        else (t.retireAt h r c).wait c f (.change t.table.nextChange [])

/-! ### LOOKUP, LIST and FIND (R23 to R25, log 6) -/

/-- LOOKUP (R23): the answer reports the handle and, in the bytes of the record image, everything else (log 30). -/
def lookup (c : ChanId) (s : State) : State :=
  s.openRequest c kindLookup fun f t =>
    match readHandlePayload f.payload with
    | none => t.answer c f .bad []
    | some h => t.onRecord c f h (fun r => r.mayRead c) fun r => t.answer c f .done r.image (some h)

/-- The slots a selector names, in its order (R24). -/
def listed (t : WatchTable) : Selector → List Nat
  | .owner d => t.indices.filter fun i => (t.recordAt i).any fun r => r.owner = d
  | .port p => (t.chain (.matchUnit p)).map (·.slot)
  | .cross => (t.chain .crossLine).map (·.slot)

/-- LIST (R24). -/
def list (c : ChanId) (s : State) : State :=
  s.openRequest c kindList fun f t =>
    match readList f.payload with
    | none => t.answer c f .bad []
    | some sel => t.answer c f .done (listAnswer (t.table.visible c (listed t.table sel)))

/-- The record would accept the observation FIND describes (R25). -/
def Record.found (r : Record) (q : FindRequest) : Bool :=
  match r.side.cond with
  | .bus m d => m.accepts (if q.withData then d else none) q.obs
  | .line _ _ => false
  | .cross _ => false

/-- The slots of the records FIND reports, in chain order. -/
def foundSlots (t : WatchTable) (q : FindRequest) : List Nat :=
  ((t.chain (.matchUnit q.port)).map (·.slot)).filter fun i => (t.recordAt i).any fun r => Record.found r q

/-- FIND (R25). -/
def find (c : ChanId) (s : State) : State :=
  s.openRequest c kindFind fun f t =>
    match readFind f.payload with
    | none => t.answer c f .bad []
    | some q => t.answer c f .done (listAnswer (t.table.visible c (foundSlots t.table q)))

/-! ### TALLY (R65, R67) -/

/-- TALLY (R65, R67); a clear waits for the units concerned to end their events (R35). -/
def tally (c : ChanId) (s : State) : State :=
  s.openRequest c kindTally fun f t =>
    match readHandleFlag f.payload with
    | none => t.answer c f .bad []
    | some (h, clear) =>
      t.onRecord c f h (fun r => if clear then r.mayChange c else r.mayRead c) fun r =>
        match r.tally with
        | none => t.answer c f .bad []
        | some k =>
          if clear && t.anyBusy r.units then s
          else if clear then
            let t1 := t.changeTable r.units (t.table.setRecord h.slot { r with tally := some k.clear })
            (t1.revoke r.owner c).wait c f (.change t.table.nextChange k.answer)
          else t.answer c f .done k.answer

/-! ### Step 1 of a teardown (R30, R166) -/

/-- The slots of the records a channel owns. -/
def ownedSlots (t : WatchTable) (c : ChanId) : List Nat :=
  t.indices.filter fun i => (t.recordAt i).any fun r => r.owner = c

/-- The records that pass to C0 (R30). -/
def keptSlots (s : State) (c : ChanId) : List Nat :=
  if c ≠ 0 ∧ (s.chan 0).isOpen then (ownedSlots s.table c).filter fun i => (s.table.recordAt i).any fun r => r.keep
  else []

/-- The records that are retired (R30). -/
def freedSlots (s : State) (c : ChanId) : List Nat :=
  (ownedSlots s.table c).filter fun i => !(s.keptSlots c).contains i

/-- The owner of a record becomes C0. -/
def handOver (t : WatchTable) (i : Nat) : WatchTable :=
  match t.recordAt i with
  | some r => t.setRecord i { r with owner := 0 }
  | none => t

/-- The slots not freed whose after-links name a freed record (R30). -/
def cutSlots (t : WatchTable) (freed : List Nat) : List Nat :=
  (freed.flatMap fun i => t.dependents (t.handleAt i)).filter fun j => !freed.contains j

/-- The quiet timers of the records that stood in the freed slots of table `t` stop. -/
def stopFreed (s : State) (t : WatchTable) (freed : List Nat) : State :=
  freed.foldl (fun u i => match t.recordAt i with
    | some r => u.stopQuiet i r
    | none => u) s

/-- The units step 1 concerns: those that hold a record of the channel or one whose after-link it cuts. -/
def disposalUnits (s : State) (c : ChanId) : List UnitId :=
  s.table.unitsOf (ownedSlots s.table c ++ cutSlots s.table (s.freedSlots c))

/-- The one change of step 1 (R30); the timers stop once the units are up to date, as by RETIRE (R21). -/
def disposeRecords (s : State) (c : ChanId) : State :=
  let freed := s.freedSlots c
  let cuts := cutSlots s.table freed
  let t1 := (s.keptSlots c).foldl handOver s.table
  let t2 := freed.foldl WatchTable.freeSlot t1
  ((s.changeTable (s.disposalUnits c) (t2.cutLinks cuts)).stopFreed s.table freed).revokeOwners cuts c

/-- TEARDOWN_RECORDS: step 1 of the teardown in progress; a channel with no records passes through it (R165, R166), and
the change waits for the units concerned to end their events (R35). -/
def teardownRecords (s : State) : State :=
  match s.teardowns.current with
  | some (c, .records) =>
    if (ownedSlots s.table c).isEmpty then
      { s with teardowns := { s.teardowns with current := some (c, .ports allPorts allPorts) } }
    else if s.anyBusy (s.disposalUnits c) then s
    else
      { s.disposeRecords c with teardowns := { s.teardowns with current := some (c, .changing s.table.nextChange) } }
  | _ => s

end State

/-! ### Meanings -/

def execPlace (c : ChanId) (s : State) : Outcome State Fault Refusal := .next (s.place c)
def execAmend (c : ChanId) (s : State) : Outcome State Fault Refusal := .next (s.amend c)
def execSuspend (c : ChanId) (s : State) : Outcome State Fault Refusal := .next (s.suspend c)
def execArm (c : ChanId) (s : State) : Outcome State Fault Refusal := .next (s.arm c)
def execRetire (c : ChanId) (s : State) : Outcome State Fault Refusal := .next (s.retire c)
def execLookup (c : ChanId) (s : State) : Outcome State Fault Refusal := .next (s.lookup c)
def execList (c : ChanId) (s : State) : Outcome State Fault Refusal := .next (s.list c)
def execFind (c : ChanId) (s : State) : Outcome State Fault Refusal := .next (s.find c)
def execTally (c : ChanId) (s : State) : Outcome State Fault Refusal := .next (s.tally c)
def execTeardownRecords (s : State) : Outcome State Fault Refusal := .next s.teardownRecords

end Sys2Proof.Machine
end

