-- ==== Sys2Proof/Machine/Channels.lean ====
section
/-! DEFINITION. Agent channels and leases (chapter 8): OPEN, CLOSE, RENEW, the lease and its lapse, steps 2 and 3 of a
teardown. -/

namespace Sys2Proof.Machine

open Host

/-- A channel's entry while CLOSED: the values of R157, with the loaded maximum class and default lease kept. -/
def Channel.closed (k : Channel) : Channel :=
  { Channel.reset with maxClass := k.maxClass, defaultLease := k.defaultLease }

namespace State

/-- The pending set of a channel is emptied (R171). -/
def emptyPending (s : State) (c : ChanId) : State := s.setPending c Pending.empty

/-! ### Requests (R159, R161, R164) -/

/-- The lease limit an OPEN gives (R159). -/
def openLease (k : Channel) (q : OpenRequest) : Nat := q.lease.getD k.defaultLease

/-- The entry of a channel an OPEN opens (R159). -/
def openedChannel (k : Channel) (q : OpenRequest) : Channel :=
  { k with isOpen := true, teardown := none, cls := q.cls, leaseLimit := some (openLease k q),
           leaseTimer := some (openLease k q), enables := q.enables }

/-- OPEN (R159). What was handed to the Notice Unit for the channel while it was CLOSED is taken, and so lost, before the
channel opens (R171, R174, log 4). -/
def openChannel (c : ChanId) (s : State) : State :=
  s.request c kindOpen fun f t =>
    match readOpen f.payload with
    | none => t.answer c f .bad []
    | some q =>
      let k := t.chan c
      if k.isOpen then t.answer c f .busy []
      else if k.maxClass < q.cls then t.answer c f .denied []
      else if t.noticeWaits c then s
      else (((t.setChan c (openedChannel k q)).emptyPending c).reevaluate).answer c f .done
        (openAnswer q.cls (openLease k q) q.enables)

/-- A teardown begins, at once or after those before it (R165). -/
def beginTeardown (s : State) (c : ChanId) : State :=
  match s.teardowns.current with
  | none => { s with teardowns := { s.teardowns with current := some (c, .records) } }
  | some _ => { s with teardowns := { s.teardowns with queued := s.teardowns.queued ++ [c] } }

/-- CLOSE (R164): answered when the teardown ends. -/
def closeChannel (c : ChanId) (s : State) : State :=
  s.openRequest c kindClose fun f t =>
    if f.payload.isEmpty then
      ((t.setChan c { t.chan c with leaseTimer := none, teardown := some .closing }).wait c f .teardown).beginTeardown c
    else t.answer c f .bad []

/-- RENEW (R161). -/
def renew (c : ChanId) (s : State) : State :=
  s.openRequest c kindRenew fun f t =>
    if f.payload.isEmpty then t.answer c f .done (halfBytes (halfOf ((t.chan c).leaseLimit.getD 0)))
    else t.answer c f .bad []

/-! ### The lapse (R162, R163) -/

/-- The queued frames of a lapsing channel are discarded and their places freed; its executing request is marked to end
without a response (steps 2 and 3 of R163). -/
def lapseLane (l : Lane) : Lane :=
  { outstanding := l.outstanding - l.queue.length, queue := [],
    executing := l.executing.map fun e => { e with silent := true } }

/-- LEASE_EXPIRY: a running lease timer reaches zero and the channel lapses; an expiry of a stopped timer is discarded
(R162, R163). -/
def leaseExpiry (c : ChanId) (s : State) : State :=
  match (s.chan c).leaseTimer with
  | none => s
  | some _ =>
    let s1 := s.setChan c { s.chan c with leaseTimer := none, teardown := some .lapsing }
    let s2 := s1.setLane c (lapseLane (s1.lane c))
    let s3 := if c ≠ 0 ∧ (s2.chan 0).isOpen then s2.sendAddition (.lapsed c) else s2
    s3.beginTeardown c

/-! ### Step 2 of a teardown (R154, R91, R167) -/

/-- The request channel `c` executes ends without a response when it waits for `w` (R169). -/
def endWait (s : State) (c : ChanId) (w : Wait) : State :=
  match (s.lane c).executing with
  | some e => if e.wait = w then s.endSilently c else s
  | none => s

/-- What the teardown of a channel leaves of a port's arbiter (R154). -/
def arbiterTeardown (a : Arbiter) (c : ChanId) : Arbiter :=
  { a with
    claims := a.claims.set c none,
    queue := removeEntry c a.queue,
    lifts := a.lifts.erase c,
    use := match a.use with
      | .executing b w => if b.chan = c then .draining w else .executing b w
      | .draining w => .draining w
      | .idle => .idle,
    parked := a.parked.set c none }

/-- The port after the arbiter's step: with a SOLE claim leaving the list the lines return to safe levels (R126, R154, R165,
R167). -/
def portTeardown (q : Port) (c : ChanId) : Port :=
  let q1 := q.setArb (arbiterTeardown q.arb c)
  if q.hasSole c then q1.toSafeLevels else q1

/-- TEARDOWN_AT_ARBITER: step 2 at the arbiter of port `p` (R154), before or after a choice that is due (R156). -/
def teardownAtArbiter (p : PortId) (s : State) : State :=
  match s.teardowns.current with
  | some (c, .ports as rs) =>
    if as.contains p then
      let s1 := (s.setPort p (portTeardown (s.port p) c)).endWait c (.access p)
      { s1 with teardowns := { s1.teardowns with current := some (c, .ports (as.filter fun x => x ≠ p) rs) } }
    else s
  | _ => s

/-- A FREEZE that names the channel waits at the port's Run Control (R166, log 4). -/
def freezeWaits (q : Port) (c : ChanId) : Bool :=
  q.rc.fromUnits.contains (.freeze false c) || q.rc.fromUnits.contains (.freeze true c)

/-- The channel leaves the resumer set (R92). -/
def dropResumer (q : Port) (c : ChanId) : Port := q.setRun { q.rc with resumers := q.rc.resumers.erase c }

/-- TEARDOWN_AT_RUN_CONTROL: step 2 at the Run Control of port `p` (R91). -/
def teardownAtRunControl (p : PortId) (s : State) : State :=
  match s.teardowns.current with
  | some (c, .ports as rs) =>
    if rs.contains p && !freezeWaits (s.port p) c then
      let s1 := s.applyRun p ((s.port p).removeHold c false)
      let s2 := (s1.setPort p (dropResumer (s1.port p) c)).endWait c (.settle p)
      { s2 with teardowns := { s2.teardowns with current := some (c, .ports as (rs.filter fun x => x ≠ p)) } }
    else s
  | _ => s

/-! ### Step 3 of a teardown (R168) -/

/-- The teardown that became due first begins (R168). -/
def nextTeardown (s : State) : State :=
  match s.teardowns.queued with
  | d :: rest => { s with teardowns := { current := some (d, .records), queued := rest } }
  | [] => { s with teardowns := { current := none, queued := [] } }

/-- A CLOSE is answered when its teardown ends; a lapse gives no response (R168). -/
def answerClose (s : State) (c : ChanId) : Option TeardownCause → State
  | some .closing => s.finish c .done []
  | some .lapsing => s
  | none => s

/-- TEARDOWN_CLOSE: step 3 (R168), after what was handed to the Notice Unit for the channel (R163, R166, R167, log 4). -/
def teardownClose (s : State) : State :=
  match s.teardowns.current with
  | some (c, .ports [] []) =>
    if s.noticeWaits c then s
    else
      let s1 := ((s.setChan c (s.chan c).closed).emptyPending c).reevaluate
      (s1.answerClose c (s.chan c).teardown).nextTeardown
  | _ => s

end State

/-! ### Meanings -/

def execOpenChannel (c : ChanId) (s : State) : Outcome State Fault Refusal := .next (s.openChannel c)
def execCloseChannel (c : ChanId) (s : State) : Outcome State Fault Refusal := .next (s.closeChannel c)
def execRenew (c : ChanId) (s : State) : Outcome State Fault Refusal := .next (s.renew c)
def execLeaseExpiry (c : ChanId) (s : State) : Outcome State Fault Refusal := .next (s.leaseExpiry c)
def execTeardownAtArbiter (p : PortId) (s : State) : Outcome State Fault Refusal := .next (s.teardownAtArbiter p)
def execTeardownAtRunControl (p : PortId) (s : State) : Outcome State Fault Refusal :=
  .next (s.teardownAtRunControl p)
def execTeardownClose (s : State) : Outcome State Fault Refusal := .next s.teardownClose

end Sys2Proof.Machine
end

