-- ==== Sys2Proof/Machine/Notices.lean ====
section
/-! DEFINITION. The Notice Unit (chapter 9): the additions it takes, POLL and NOTICES. -/

namespace Sys2Proof.Machine

open Host

/-- An addition changes its member (R174). -/
def Pending.add (q : Pending) : Addition → Pending
  | .revoked _ => { q with revoked := true }
  | .overrun _ => { q with overrun := true }
  | .lapsed c => { q with lapsed := q.lapsed.insert c }
  | .linkError => { q with linkError := true }

/-- The block an addition comes from (R174). -/
def Addition.source : Addition → NoticeSource
  | .revoked _ => .watchTable
  | .overrun _ => .benchPort
  | .lapsed _ => .channelTable
  | .linkError => .benchPort

/-- A port event joins the set of a channel (R173). -/
def Pending.addEvent (q : Pending) (p : PortId) (k : EventCode) : Pending :=
  { q with portEvents := addPair (p, k) q.portEvents }

namespace State

/-- A change of one pending set, made when the channel is OPEN and dropped when it is CLOSED (R171). -/
def addTo (s : State) (c : ChanId) (f : Pending → Pending) : State :=
  if (s.chan c).isOpen then s.setPending c (f (s.pendingOf c)) else s

/-- A port event joins the set of each OPEN channel it names (R173). -/
def addEvents (s : State) (m : PortEventMsg) : State :=
  allChans.foldl (fun (t : State) c => if m.chans.has c then t.addTo c fun q => q.addEvent m.port m.kind else t) s

/-- SIGNAL: the Notice Unit takes the oldest SIGNAL action of unit `u` (R172). -/
def signal (u : UnitId) (s : State) : State :=
  match takeFirst (fun x : UnitId × Handle × ChanId => x.1 = u) s.notice.signals with
  | some ((_, h, owner), rest) =>
    (({ s with notice := { s.notice with signals := rest } }).addTo owner fun q => q.addFired h).reevaluate
  | none => s

/-- PORT_EVENT: the Notice Unit takes the oldest port event of one block of a port (R173). -/
def portEvent (p : PortId) (b : PortBlock) (s : State) : State :=
  match takeFirst (fun m : PortEventMsg => m.port = p && m.block = b) s.notice.events with
  | some (m, rest) =>
    (({ s with notice := { s.notice with events := rest } }).addEvents m).reevaluate
  | none => s

/-- NOTICE_ADDITION: the Notice Unit takes the oldest addition of one block (R174). -/
def noticeAddition (src : NoticeSource) (s : State) : State :=
  match takeFirst (fun a : Addition => a.source = src) s.notice.additions with
  | some (a, rest) =>
    (({ s with notice := { s.notice with additions := rest } }).addTo a.target fun q => q.add a).reevaluate
  | none => s

/-- POLL: the response is the whole pending set, which is emptied in the same step (R178). -/
def poll (c : ChanId) (s : State) : State :=
  s.openRequest c kindPoll fun f t =>
    if f.payload.isEmpty then
      (t.setPending c Pending.empty).reevaluate.answer c f .done (t.pendingOf c).answer
    else t.answer c f .bad []

/-- NOTICES: the enables are replaced (R176). -/
def notices (c : ChanId) (s : State) : State :=
  s.openRequest c kindNotices fun f t =>
    match readNotices f.payload with
    | none => t.answer c f .bad []
    | some e => (t.setChan c { t.chan c with enables := e }).reevaluate.answer c f .done [e.byte]

end State

/-! ### Meanings -/

def execSignal (u : UnitId) (s : State) : Outcome State Fault Refusal := .next (s.signal u)
def execPortEvent (p : PortId) (b : PortBlock) (s : State) : Outcome State Fault Refusal := .next (s.portEvent p b)
def execNoticeAddition (src : NoticeSource) (s : State) : Outcome State Fault Refusal := .next (s.noticeAddition src)
def execPoll (c : ChanId) (s : State) : Outcome State Fault Refusal := .next (s.poll c)
def execNotices (c : ChanId) (s : State) : Outcome State Fault Refusal := .next (s.notices c)

end Sys2Proof.Machine
end

