-- ==== Sys2Proof/Machine/Description.lean ====
section
/-! DEFINITION. The fixture description and start-up (chapter 11): the walk, pin reset, RESETBENCH and PARTSTAT. -/

namespace Sys2Proof.Machine

open Host

/-! ### The memory (R192, log 11) -/

/-- The byte at an address; an address that is not listed is unacknowledged, and so is one past 65535, where a read does not
wrap (log 29). -/
def memByte (m : List (Nat × Byte)) (a : Nat) : Option Byte :=
  if a < 65536 then (m.find? fun x => x.1 = a).map Prod.snd else none

/-- `n` bytes from an address, when every one is acknowledged. -/
def memBytes (m : List (Nat × Byte)) : Nat → Nat → Option (List Byte)
  | _, 0 => some []
  | a, n + 1 =>
    match memByte m a, memBytes m (a + 1) n with
    | some b, some rest => some (b :: rest)
    | _, _ => none

/-- The marker of the header (R192). -/
def marker : List Byte := [0x47, 0x57, 0x46, 0x44]

/-- Where a pointer leads: to the node at an address, to the end of the list, or nowhere (R192). -/
inductive Pointer where
  | node (a : Nat) | listEnd | bad
  deriving DecidableEq, Repr

/-- A next pointer of the node at address `at'` (R192). -/
def nextPointer (at' : Nat) (v : Half) : Pointer :=
  let base := v.toNat - v.toNat % 4
  match v.toNat % 4 with
  | 0 => .node base
  | 2 => .node ((at' + base) % 65536)
  | 3 => .listEnd
  | _ => .bad

/-- The first-node pointer may be of kind 00 only (R192). -/
def firstPointer (v : Half) : Pointer := if v.toNat % 4 = 0 then .node v.toNat else .bad

/-! ### Nodes (R192) -/

/-- A node as read whole. -/
structure Node where
  id : Nat
  next : Half
  body : List Byte
  check : Half
  deriving DecidableEq, Repr

/-- The node at an address, when every byte of it is acknowledged. -/
def readNode (m : List (Nat × Byte)) (a : Nat) : Option Node :=
  match memBytes m a 5 with
  | none => none
  | some h =>
    let size := byteAt h 4
    match memBytes m (a + 5) (size + 2) with
    | none => none
    | some b => some { id := (halfAt h 0).toNat, next := halfAt h 2, body := b.take size, check := halfAt b size }

def readFilter (n : Nat) : Option StatusFilter :=
  match n with | 0 => some .none | 1 => some .us2 | 2 => some .us200 | 3 => some .ms20 | _ => none

/-- 1 ASSERTED or ON, 2 RELEASED or OFF (R192). -/
def readSafe (n : Nat) : Option Bool := match n with | 1 => some true | 2 => some false | _ => none

/-- A number from `lo` to `hi`. -/
def inRange (lo hi n : Nat) : Option Nat := if lo ≤ n ∧ n ≤ hi then some n else none

/-- What a good node sets. -/
inductive Setting where
  | port (p : PortId) (s : PortSettings)
  | channel (c : ChanId) (maxClass : Fin 4) (lease : Nat)
  | ident (name : List Byte)
  deriving DecidableEq, Repr

/-- A PORT body (R192). -/
def readPortBody (b : List Byte) : Option Setting :=
  match readPort (byteAt b 0), inRange 1 255 (byteAt b 1), readFilter (byteAt b 2), readFilter (byteAt b 3),
      readFilter (byteAt b 4), readFilter (byteAt b 5), readSafe (byteAt b 6), readSafe (byteAt b 7),
      inRange 1 650 (halfAt b 8).toNat, inRange 1 255 (byteAt b 10) with
  | some p, some db, some f0, some f1, some f2, some f3, some r, some w, some rl, some sl =>
    some (.port p { debounce := db, filters := #v[f0, f1, f2, f3], safeResetAsserted := r, safePowerOn := w,
                    replyLimit := rl, stopLimit := sl })
  | _, _, _, _, _, _, _, _, _, _ => none

/-- A CHANNEL body (R192). -/
def readChannelBody (b : List Byte) : Option Setting :=
  match readChan (byteAt b 0), readFour (byteAt b 1), inRange 100 60000 (halfAt b 2).toNat with
  | some c, some k, some l => some (.channel c k l)
  | _, _, _ => none

/-- The setting of a good node; none for a node that is not good or of unknown ID (R192). -/
def Node.setting (n : Node) : Option Setting :=
  if n.check = crc16 n.body then
    match n.id with
    | 0x0101 => if n.body.length = 11 then readPortBody n.body else none
    | 0x0102 => if n.body.length = 4 then readChannelBody n.body else none
    | 0x0103 => if 1 ≤ n.body.length ∧ n.body.length ≤ 32 then some (.ident n.body) else none
    | _ => none
  else none

/-! ### The walk (R193) -/

/-- What a walk has found so far; `nodes` are the addresses of the nodes whose reading was begun, in order. -/
structure Walk where
  nodes : List Nat
  taken : Nat
  skipped : Nat
  settings : List Setting
  deriving DecidableEq, Repr

/-- A walk that has begun no node. -/
def Walk.start : Walk := { nodes := [], taken := 0, skipped := 0, settings := [] }

/-- The node at an address is taken: it sets, or it is skipped. -/
def Walk.take (w : Walk) (a : Nat) : Option Setting → Walk
  | some x => { nodes := w.nodes ++ [a], taken := w.taken + 1, skipped := w.skipped, settings := w.settings ++ [x] }
  | none => { nodes := w.nodes ++ [a], taken := w.taken + 1, skipped := w.skipped + 1, settings := w.settings }

/-- The read of the description memory at an address (R192): the device at 0x50 is sent the 16-bit address, most
significant byte first, before it returns its bytes. -/
def memoryRead (a : Nat) : BusRead :=
  { device := 0x50, sent := [(halfOf a).extractLsb' 8 8, (halfOf a).extractLsb' 0 8] }

/-- The reads of a walk: the header at address 0, then one for each node begun; that a header and a node are one read each
is the model's choice (log 11). -/
def Walk.reads (w : Walk) : List BusRead := (0 :: w.nodes).map memoryRead

/-- The walk from a node, with `fuel` nodes still to be taken at most; true when it reached the end of the list. -/
def walkFrom (m : List (Nat × Byte)) : Nat → Nat → Walk → Walk × Bool
  | 0, _, w => (w, false)
  | fuel + 1, a, w =>
    match readNode m a with
    | none => (w.take a none, false)
    | some n =>
      let w1 := w.take a n.setting
      match nextPointer a n.next with
      | .listEnd => (w1, true)
      | .node b => walkFrom m fuel b w1
      | .bad => (w1, false)

/-- The walk of a description whose header was read: LOADED or PARTIAL (R193). -/
def walkList (m : List (Nat × Byte)) (first : Half) : Walk × DescStatus :=
  match firstPointer first with
  | .node a =>
    let r := walkFrom m Config.nodeLimit a Walk.start
    (r.1, if r.2 && r.1.skipped = 0 then .loaded else .partlyLoaded)
  | .listEnd => (Walk.start, .partlyLoaded)
  | .bad => (Walk.start, .partlyLoaded)

/-- The status of a free code (log 10). -/
def statusOfCode (k : Fin 4) : DescStatus :=
  match k.val with | 0 => .loaded | 1 => .partlyLoaded | 2 => .defective | _ => .absent

/-- The whole walk (R193). A header of which byte 0 is acknowledged and a byte after it is not ends with the free status
`partly` and no node read (log 10). -/
def walkDescription (m : List (Nat × Byte)) (partly : DescStatus) : Walk × DescStatus :=
  match memByte m 0 with
  | none => (Walk.start, .absent)
  | some _ =>
    match memBytes m 0 4 with
    | none => (Walk.start, partly)
    | some k =>
      if k = marker then
        match memBytes m 4 2 with
        | none => (Walk.start, partly)
        | some v => walkList m (halfAt v 0)
      else (Walk.start, .defective)

namespace State

/-! ### The end of the walk (R194) -/

/-- One setting takes effect. -/
def applySetting (s : State) : Setting → State
  | .port p x => s.setPort p { s.port p with settings := x }
  | .channel c k l => s.setChan c { s.chan c with maxClass := k, defaultLease := l }
  | .ident n => { s with desc := { s.desc with name := n } }

/-- A port at the end of the walk: levels from its pins, ARRIVING when its seat pin is high, lines at the safe levels
(R110, R124, R126). -/
def portAtWalkEnd (q : Port) (pins : PinLevels) : Port :=
  (q.setLink { q.tlc with
    seatHigh := pins.seat,
    seat := if pins.seat then .arriving else .empty,
    debounce := if pins.seat then some q.settings.debounce else none,
    status := pins.status }).toSafeLevels

/-- WALK_END: the settings are applied in one event and frames are executed from then on (R193, R194). Cross edges detected
during the walk met the empty cross list and count nothing (R107). -/
def walkEnd (memory : List (Nat × Byte)) (pins : Vector PinLevels 6) (s : State) : State :=
  if s.desc.walking then
    let r := walkDescription memory (statusOfCode (Config.headerStatus s.fresh))
    let s1 := r.1.settings.foldl applySetting s
    let s2 := allPorts.foldl (fun t p => t.setPort p (portAtWalkEnd (t.port p) pins[p])) s1
    { s2 with fresh := s2.fresh + 1,
              cross := { s2.cross with edges := [] },
              desc := { s2.desc with walking := false, status := r.2, nodesTaken := r.1.taken,
                                     nodesSkipped := r.1.skipped, reads := r.1.reads } }
  else s

/-- PIN_RESET: every value of a pin reset, the straps sampled, the walk beginning (R179, R194). The commands that wait
and the counter of the free values are the model's own and go on. -/
def pinReset (rate1 rate0 : Bool) (s : State) : State :=
  { State.reset with
    pending := s.pending, fresh := s.fresh,
    bench := { Bench.reset with rate1 := rate1, rate0 := rate0 } }

/-! ### The bench reset (R195) -/

/-- Every record FREE with its issue increased; FREE slots keep theirs (R32). -/
def resetTable (t : WatchTable) : WatchTable :=
  { t with counter := 0, slots := t.slots.map fun x =>
      if x.record.isSome then { issue := x.issue + 1, record := none } else x }

/-- The Match Unit: copy and changes gone, timers stopped, waiting events kept with no live expiry (R36). -/
def resetMatch (m : MatchUnit) : MatchUnit :=
  { m with view := RecordView.reset, timers := [], events := m.events.map fun e => match e with
      | .quiet i _ => .quiet i false
      | .obs o ep => .obs o ep
      | .edge l d ep => .edge l d ep }

/-- The arbiter (R155): a word in flight drains. -/
def resetArbiter (a : Arbiter) : Arbiter :=
  { a with
    claims := Vector.replicate 8 none, queue := [], lifts := ChanSet.empty,
    use := match a.use with
      | .executing _ w => .draining w
      | .draining w => .draining w
      | .idle => .idle,
    parked := Vector.replicate 8 none }

/-- The blocks of a port (R36, R93, R104, R155, R126). -/
def resetPort (q : Port) : Port :=
  let q1 := q.runBenchReset
  let q2 := { q1 with mu := resetMatch q1.mu, gate := q1.gate.benchReset, arb := resetArbiter q1.arb }
  (q2.setLink { q2.tlc with safeRequests := [] }).toSafeLevels

/-- A channel queue and its executing request end without a response, their places freed (R195). -/
def resetLane (l : Lane) : Lane :=
  { outstanding := l.outstanding - l.queue.length - (if l.executing.isSome then 1 else 0), queue := [],
    executing := none }

/-- The bench reset, taken by every block as one event (R195, log 20). -/
def benchReset (s : State) : State :=
  { s with
    table := resetTable s.table,
    ports := mapPorts resetPort s.ports,
    cross := { s.cross with view := RecordView.reset },
    chans := mapEight Channel.closed s.chans,
    teardowns := { current := none, queued := [] },
    bench := { s.bench with lanes := mapEight resetLane s.bench.lanes },
    notice := { s.notice with pending := Vector.replicate 8 Pending.empty, attn := false } }

/-- An action, the report of an observation or a notice has been handed over and not yet taken by its block, or an
observation waits undecided at its gate. What was dispatched before the reset reached its block before it (R46, R166, log 4,
log 18). The reset changes the membership of every chain (R36), so it comes when every unit is between events, and a unit
whose observation waits at the gate is not (R35, R45). A record that is being sent holds back nothing by itself (R101). -/
def resetWaits (s : State) : Bool :=
  allPorts.any (fun p => !(s.port p).rc.fromUnits.isEmpty ||
    !(s.port p).gate.fromMatch.isEmpty || !(s.port p).gate.fromCross.isEmpty) ||
  !s.cross.requests.isEmpty || !s.notice.signals.isEmpty || !s.notice.events.isEmpty || !s.notice.additions.isEmpty

/-- RESETBENCH (R195). -/
def resetbench (c : ChanId) (s : State) : State :=
  s.openRequest c kindResetbench fun f t =>
    if f.payload.isEmpty then
      if c ≠ 0 then t.answer c f .denied []
      else if t.resetWaits then s
      else t.benchReset.answer c f .done []
    else t.answer c f .bad []

/-- PARTSTAT (R196). -/
def partstat (c : ChanId) (s : State) : State :=
  s.openRequest c kindPartstat fun f t =>
    if f.payload.isEmpty then t.answer c f .done t.desc.answer else t.answer c f .bad []

end State

/-! ### Meanings -/

def execPinReset (rate1 rate0 : Bool) (s : State) : Outcome State Fault Refusal := .next (s.pinReset rate1 rate0)
def execWalkEnd (memory : List (Nat × Byte)) (pins : Vector PinLevels 6) (s : State) : Outcome State Fault Refusal :=
  .next (s.walkEnd memory pins)
def execResetbench (c : ChanId) (s : State) : Outcome State Fault Refusal := .next (s.resetbench c)
def execPartstat (c : ChanId) (s : State) : Outcome State Fault Refusal := .next (s.partstat c)

end Sys2Proof.Machine
end

