-- ==== Sys2Proof/Machine/Dispatch.lean ====
section
/-! DEFINITION. The dispatch: one arm per command, each one direct call of the command's meaning. -/

namespace Sys2Proof.Machine

open Host

def exec (i : Instr) (s : State) : Host.Outcome State Fault Refusal :=
  match i with
  | .benchFrame bytes => Sys2Proof.Machine.execBenchFrame bytes s
  | .frameGapTimeout => Sys2Proof.Machine.execFrameGapTimeout s
  | .unknownKind c => Sys2Proof.Machine.execUnknownKind c s
  | .starting c => Sys2Proof.Machine.execStarting c s
  | .responseTransmit => Sys2Proof.Machine.execResponseTransmit s
  | .openChannel c => Sys2Proof.Machine.execOpenChannel c s
  | .closeChannel c => Sys2Proof.Machine.execCloseChannel c s
  | .renew c => Sys2Proof.Machine.execRenew c s
  | .poll c => Sys2Proof.Machine.execPoll c s
  | .notices c => Sys2Proof.Machine.execNotices c s
  | .claim c => Sys2Proof.Machine.execClaim c s
  | .release c => Sys2Proof.Machine.execRelease c s
  | .halt c => Sys2Proof.Machine.execHalt c s
  | .resume c => Sys2Proof.Machine.execResume c s
  | .stepBoard c => Sys2Proof.Machine.execStepBoard c s
  | .drive c => Sys2Proof.Machine.execDrive c s
  | .gate c => Sys2Proof.Machine.execGate c s
  | .portstat c => Sys2Proof.Machine.execPortstat c s
  | .read c => Sys2Proof.Machine.execRead c s
  | .write c => Sys2Proof.Machine.execWrite c s
  | .replay c => Sys2Proof.Machine.execReplay c s
  | .drop c => Sys2Proof.Machine.execDrop c s
  | .place c => Sys2Proof.Machine.execPlace c s
  | .amend c => Sys2Proof.Machine.execAmend c s
  | .suspend c => Sys2Proof.Machine.execSuspend c s
  | .arm c => Sys2Proof.Machine.execArm c s
  | .retire c => Sys2Proof.Machine.execRetire c s
  | .lookup c => Sys2Proof.Machine.execLookup c s
  | .list c => Sys2Proof.Machine.execList c s
  | .find c => Sys2Proof.Machine.execFind c s
  | .tally c => Sys2Proof.Machine.execTally c s
  | .partstat c => Sys2Proof.Machine.execPartstat c s
  | .resetbench c => Sys2Proof.Machine.execResetbench c s
  | .leaseExpiry c => Sys2Proof.Machine.execLeaseExpiry c s
  | .teardownRecords => Sys2Proof.Machine.execTeardownRecords s
  | .teardownAtArbiter p => Sys2Proof.Machine.execTeardownAtArbiter p s
  | .teardownAtRunControl p => Sys2Proof.Machine.execTeardownAtRunControl p s
  | .teardownClose => Sys2Proof.Machine.execTeardownClose s
  | .changeBoundary u => Sys2Proof.Machine.execChangeBoundary u s
  | .observation p => Sys2Proof.Machine.execObservation p s
  | .lineEdge p => Sys2Proof.Machine.execLineEdge p s
  | .quietTimerZero p slot => Sys2Proof.Machine.execQuietTimerZero p slot s
  | .quietExpiry p => Sys2Proof.Machine.execQuietExpiry p s
  | .runStateReport p => Sys2Proof.Machine.execRunStateReport p s
  | .linkStateReport p => Sys2Proof.Machine.execLinkStateReport p s
  | .unseatAtMatchUnit p => Sys2Proof.Machine.execUnseatAtMatchUnit p s
  | .signal u => Sys2Proof.Machine.execSignal u s
  | .freeze p crossSender => Sys2Proof.Machine.execFreeze p crossSender s
  | .observationTaken p => Sys2Proof.Machine.execObservationTaken p s
  | .gateOpen p crossSender => Sys2Proof.Machine.execGateOpen p crossSender s
  | .gateClose p crossSender => Sys2Proof.Machine.execGateClose p crossSender s
  | .gateDecision p storeReady => Sys2Proof.Machine.execGateDecision p storeReady s
  | .endOfSending p => Sys2Proof.Machine.execEndOfSending p s
  | .unseatAtGate p => Sys2Proof.Machine.execUnseatAtGate p s
  | .creditReturn p => Sys2Proof.Machine.execCreditReturn p s
  | .crossPulse p => Sys2Proof.Machine.execCrossPulse p s
  | .pulseTimerExpiry x => Sys2Proof.Machine.execPulseTimerExpiry x s
  | .crossFallingEdge x => Sys2Proof.Machine.execCrossFallingEdge x s
  | .crossEdge => Sys2Proof.Machine.execCrossEdge s
  | .seatChange p high => Sys2Proof.Machine.execSeatChange p high s
  | .debounceExpiry p => Sys2Proof.Machine.execDebounceExpiry p s
  | .statusEdge p l high => Sys2Proof.Machine.execStatusEdge p l high s
  | .boardSuperframe p f => Sys2Proof.Machine.execBoardSuperframe p f s
  | .outgoingSuperframe p room => Sys2Proof.Machine.execOutgoingSuperframe p room s
  | .stopped p => Sys2Proof.Machine.execStopped p s
  | .stopTimerExpiry p => Sys2Proof.Machine.execStopTimerExpiry p s
  | .resetAsserted p => Sys2Proof.Machine.execResetAsserted p s
  | .resetReleased p => Sys2Proof.Machine.execResetReleased p s
  | .linkLossAtRunControl p => Sys2Proof.Machine.execLinkLossAtRunControl p s
  | .linkLockAtRunControl p => Sys2Proof.Machine.execLinkLockAtRunControl p s
  | .unseatAtRunControl p => Sys2Proof.Machine.execUnseatAtRunControl p s
  | .holdRemoval p => Sys2Proof.Machine.execHoldRemoval p s
  | .safeLevels p => Sys2Proof.Machine.execSafeLevels p s
  | .grant p => Sys2Proof.Machine.execGrant p s
  | .reply p => Sys2Proof.Machine.execReply p s
  | .replyLimitExpiry p => Sys2Proof.Machine.execReplyLimitExpiry p s
  | .linkLossAtArbiter p => Sys2Proof.Machine.execLinkLossAtArbiter p s
  | .linkLockAtArbiter p => Sys2Proof.Machine.execLinkLockAtArbiter p s
  | .unseatAtArbiter p => Sys2Proof.Machine.execUnseatAtArbiter p s
  | .portEvent p b => Sys2Proof.Machine.execPortEvent p b s
  | .noticeAddition src => Sys2Proof.Machine.execNoticeAddition src s
  | .pinReset brate1 brate0 => Sys2Proof.Machine.execPinReset brate1 brate0 s
  | .walkEnd memory pins => Sys2Proof.Machine.execWalkEnd memory pins s
  | .crossRisingEdge x => Sys2Proof.Machine.execCrossRisingEdge x s

end Sys2Proof.Machine
end

