-- ==== Sys2Proof/Machine/Step.lean ====
section
/-! DEFINITION. One step: the command at the front of the queue is taken; on an empty queue the part idles. -/

namespace Sys2Proof.Machine

open Host

/-- The command at the front of the queue runs on the state with the rest of the queue; without one the part idles
(log 1). -/
def step (s : State) : Host.Outcome State Fault Refusal :=
  match s.pending with
  | [] => .next s
  | c :: rest => exec c { s with pending := rest }

/-- The command a word spells put at the front of the queue; no row of the table gives bits, so no word spells one and
the state is unchanged (log 23). -/
def State.withFetchWord (s : State) (nbits w : Nat) : State :=
  match decodeTableWord nbits w with
  | some c => { s with pending := c :: s.pending }
  | none => s

end Sys2Proof.Machine
end

