-- ==== Sys2Proof/Safety.lean ====
section
/-! DEFINITION. What a state of the part keeps to: the invariants of the channels, the frames, the credits, the claims,
the records, run control, seats and gates, the teardowns and the attention line; the words the statements are written with. -/

namespace Sys2Proof.Machine

open Host

/-! ### The attention line (R177) -/

/-- An OPEN channel has a non-empty member in a group of its own enables, enable by enable (R175, R177). -/
def State.AttentionDue (s : State) : Prop :=
  ∃ c : ChanId, (s.chan c).isOpen = true ∧
    let e := (s.chan c).enables
    let q := s.pendingOf c
    ((e.fired = true ∧ (q.fired ≠ [] ∨ q.more = true)) ∨
      (e.portEvents = true ∧ q.portEvents ≠ []) ∨
      (e.revokedOverrun = true ∧ (q.revoked = true ∨ q.overrun = true)) ∨
      (e.lapsedLinkError = true ∧ ((∃ d : ChanId, q.lapsed[d] = true) ∨ q.linkError = true)))

/-- ATTN is low exactly while an OPEN channel has a non-empty member in a group of its enables. -/
def AttentionHolds (s : State) : Prop := s.notice.attn = true ↔ s.AttentionDue

/-! ### Frames (R182, R184) -/

/-- The responses of a channel in the output queue. -/
def State.responsesOf (s : State) (c : ChanId) : Nat := s.bench.output.countP fun r => r.chan = c

/-- The outstanding frames of a channel are those that wait, the one that is executing and the responses not yet sent;
they are at most 4. -/
def FramesHold (s : State) : Prop :=
  ∀ c : ChanId,
    (s.lane c).outstanding =
      (s.lane c).queue.length + (if (s.lane c).executing.isSome then 1 else 0) + s.responsesOf c ∧
    (s.lane c).outstanding ≤ Config.outstandingLimit

/-! ### Observation credit (R121, R122, R45) -/

def MatchEvent.isObs : MatchEvent → Bool
  | .obs _ _ => true
  | .edge _ _ _ => false
  | .quiet _ _ => false

/-- The credits of a port, wherever they are: at the controller, with an observation that waits at the Match Unit or at
the gate, or on their way back. -/
def Port.creditsEverywhere (q : Port) : Nat :=
  q.tlc.credits + q.mu.events.countP MatchEvent.isObs + q.gate.fromMatch.countP GateMsg.isHandOver + q.tlc.creditReturns

/-- No credit is lost or made. -/
def CreditsHold (s : State) : Prop := ∀ p : PortId, (s.port p).creditsEverywhere = Config.creditLimit

/-! ### Claims (R131, R132) -/

/-- A SOLE claim stands alone. -/
def Port.claimsHold (q : Port) : Prop := ∀ c d : ChanId, q.hasSole c = true → q.hasClaim d = true → c = d

def ClaimsHold (s : State) : Prop := ∀ p : PortId, (s.port p).claimsHold

/-! ### Run control (R74, R76) -/

/-- The budget is 0 outside STOPPING and STEPPING, and never above its limit; the stop timer runs in STOPPING only. -/
def RunControl.holdsTo (r : RunControl) : Prop :=
  (r.run ≠ .stopping → r.run ≠ .stepping → r.budget = 0) ∧ r.budget ≤ Config.budgetLimit ∧
  (r.stopTimer.isSome = true → r.run = .stopping)

def RunControlHolds (s : State) : Prop := ∀ p : PortId, (s.port p).rc.holdsTo

/-! ### Seat, link and gate (R95, R110, R115) -/

/-- A board is counted as present. -/
def SeatState.present : SeatState → Bool
  | .seated => true
  | .leaving => true
  | .empty => false
  | .arriving => false

/-- The link is DOWN exactly without a board; the debounce timer runs in ARRIVING and LEAVING only; an OPEN gate has a
LOCKED link; a CLOSED gate has span 0; an unseat that waits at the gate is taken before another board is SEATED, and so finds
the gate CLOSED (R95). -/
def Port.seatHolds (q : Port) : Prop :=
  (q.tlc.link = .down ↔ q.tlc.seat.present = false) ∧
  (q.tlc.debounce.isSome = true → q.tlc.seat = .arriving ∨ q.tlc.seat = .leaving) ∧
  (q.gate.isOpen = true → q.tlc.link = .locked) ∧
  (q.gate.isOpen = false → q.gate.span = 0) ∧
  (0 < q.gate.unseats → q.tlc.seat.present = false)

/-- Every port keeps to it, and every port is EMPTY during the description walk (R194). -/
def SeatsHold (s : State) : Prop :=
  ∀ p : PortId, (s.port p).seatHolds ∧ (s.desc.walking = true → (s.port p).tlc.seat = .empty)

/-! ### Records (R1, R6, R9) -/

/-- The goal is 1 to 255; the hit count goes with the state. -/
def Record.countHolds (r : Record) : Prop :=
  1 ≤ r.goal ∧ r.goal ≤ 255 ∧
  (match r.state with
    | .armed => r.hits < r.goal
    | .suspended => r.hits < r.goal
    | .waiting => r.hits = 0
    | .spent => r.hits = r.goal)

/-- There are 96 slots and every record in them keeps to it. -/
def RecordsHold (s : State) : Prop :=
  s.table.slots.length = Config.slotCount ∧
  ∀ i r, s.table.recordAt i = some r → r.countHolds

/-! ### Tallies (R59, R64) -/

/-- The accumulator lies in the range of the sign, the contributions count in its own. -/
def Tally.holdsTo (t : Tally) : Prop :=
  t.sign.low ≤ t.accumulator ∧ t.accumulator ≤ t.sign.high ∧ t.contributions ≤ 4294967295

def TalliesHold (s : State) : Prop :=
  ∀ i r t, s.table.recordAt i = some r → r.tally = some t → t.holdsTo

/-! ### Chains (R33) -/

/-- No chain holds more than 40 records, and the cross list no more than 24. -/
def ChainsHold (s : State) : Prop := ∀ u : UnitId, (s.table.chain u).length ≤ unitRoom u

/-! ### Channels and teardowns (R157, R165) -/

/-- A CLOSED channel holds nothing in its entry; a channel in teardown has no lease timer. -/
def Channel.holdsTo (k : Channel) : Prop :=
  (k.isOpen = false → k.cls = 0 ∧ k.leaseLimit = none ∧ k.leaseTimer = none ∧ k.enables = Enables.empty ∧
    k.teardown = none) ∧
  (k.teardown.isSome = true → k.leaseTimer = none)

def ChannelsHold (s : State) : Prop := ∀ c : ChanId, (s.chan c).holdsTo

/-- The channels whose teardown is in progress or waits, in order. -/
def State.teardownOrder (s : State) : List ChanId := (s.teardowns.current.map Prod.fst).toList ++ s.teardowns.queued

/-- Each channel in teardown stands in the order once, is OPEN, and no other channel stands in it. -/
def TeardownsHold (s : State) : Prop :=
  s.teardownOrder.Nodup ∧
  (∀ c : ChanId, c ∈ s.teardownOrder ↔ (s.chan c).teardown.isSome = true) ∧
  (∀ c : ChanId, (s.chan c).teardown.isSome = true → (s.chan c).isOpen = true) ∧
  (s.teardowns.current = none → s.teardowns.queued = [])

/-- Every record is owned by an OPEN channel (R4), and from the end of step 1 of a teardown on none is owned by the
channel torn down (R166). -/
def OwnersHold (s : State) : Prop :=
  (∀ i r, s.table.recordAt i = some r → (s.chan r.owner).isOpen = true) ∧
  (∀ c stage, s.teardowns.current = some (c, stage) → stage ≠ .records →
    ∀ i r, s.table.recordAt i = some r → r.owner ≠ c)

/-! ### Pending sets (R171, R178) -/

/-- The place of a pair (port, kind) in the answer of a POLL: ascending ports, and for each the kinds in the order of R178. -/
def eventPlace (x : PortId × EventCode) : Nat :=
  8 * x.1.val + match x.2 with
    | .seated => 0
    | .unseated => 1
    | .locked => 2
    | .lost => 3
    | .frozen => 4
    | .resumed => 5
    | .selfStop => 6
    | .unresponsive => 7

/-- Each pair stands once, in the order of R178. -/
def InEventOrder (l : List (PortId × EventCode)) : Prop := l.Pairwise fun a b => eventPlace a < eventPlace b

/-- FIRED holds each handle once and 16 at most; the pairs stand in order; LAPSED and LINK_ERROR are used by C0 only. -/
def Pending.holdsTo (c : ChanId) (q : Pending) : Prop :=
  q.fired.Nodup ∧ q.fired.length ≤ Config.firedLimit ∧ InEventOrder q.portEvents ∧
  (c ≠ 0 → (∀ d : ChanId, q.lapsed.has d = false) ∧ q.linkError = false)

/-- Every pending set keeps to it, and that of a CLOSED channel is empty. -/
def PendingsHold (s : State) : Prop :=
  ∀ c : ChanId, (s.pendingOf c).holdsTo c ∧ ((s.chan c).isOpen = false → s.pendingOf c = Pending.empty)

/-! ### Words of the statements -/

/-- Frame `f` of kind `kind` is the next thing channel `c` executes: the walk is over, the request before it has ended,
no teardown of the channel is in progress and the frame heads the queue (R158, R183, R194). -/
structure State.AtHead (s : State) (c : ChanId) (kind : Byte) (f : Frame) : Prop where
  walked : s.desc.walking = false
  ended : (s.lane c).executing = none
  settled : (s.chan c).teardown = none
  head : (s.lane c).queue.head? = some f
  kind : f.kind = kind

/-- The same on an OPEN channel, whose checks go on past CLOSED (R158). -/
structure State.Ready (s : State) (c : ChanId) (kind : Byte) (f : Frame) : Prop extends s.AtHead c kind f where
  opened : (s.chan c).isOpen = true

/-- Command `i` takes frame `f` of channel `c`, hands over its response, with the handle it reports if it is LOOKUP's, and
changes nothing else. -/
def AnswersOnly (i : Instr) (s : State) (c : ChanId) (f : Frame) (st : Status) (payload : List Byte)
    (handle : Option Handle := none) : Prop :=
  exec i s = .next ((s.popFrame c).answer c f st payload handle)

/-- The unit's last observation waits at the gate, so the unit is in the middle of its event (R45, log 4). -/
def State.InEvent (s : State) (u : UnitId) : Prop :=
  ∃ p, u = .matchUnit p ∧ ∃ m ∈ (s.port p).gate.fromMatch, m.isHandOver = true

/-- The unit has a match side to take and no event that began before it, so it takes no event before it (R31, log 5). -/
def RecordView.ChangeFirst (v : RecordView) : Prop := v.begun = false ∧ ∃ k ∈ v.tokens, k.update ≠ none

/-- No event waits at the unit (R37, R56). -/
def State.NoEvent (s : State) : UnitId → Prop
  | .matchUnit p => (s.port p).mu.events = []
  | .crossLine => s.cross.edges = []

/-- The unit is taking no event and takes a change at once (R31): its last event is over, and none waits that could have
begun (log 5). -/
def State.Idle (s : State) (u : UnitId) : Prop := ¬ s.InEvent u ∧ (s.NoEvent u ∨ (s.view u).ChangeFirst)

/-- The view of a unit concerned by change `n` that is made at one moment: the chain it then has, what it had not taken left
as reports to be made, and the change itself to report (R31, R35). -/
def RecordView.after (v : RecordView) (copy : List CopyEntry) (n : Nat) : RecordView :=
  { v with copy := copy,
           tokens := v.tokens.map (fun k => { k with update := none }) ++ [{ change := n, update := none }] }

/-- An entry takes its place in a copy, in order, for the entry its slot had (R34, R35). -/
def putEntry (e : CopyEntry) (copy : List CopyEntry) : List CopyEntry := insertEntry e (copy.filter fun x => x.slot ≠ e.slot)

/-- The copy of a unit with every change it has not yet taken (R35). -/
def RecordView.upToDate (v : RecordView) : List CopyEntry :=
  v.tokens.foldl (fun copy k => match k.update with
    | some x => putEntry x.1 copy
    | none => copy) v.copy

/-- The quiet timers of slot `i` that run or have reached zero at port `p`. -/
def State.quietOf (s : State) (p : PortId) (i : Nat) : List QuietTimer := (s.port p).mu.timers.filter fun x => x.slot = i

/-- The quiet timer of slot `i` at port `p` is stopped and no live expiry of it waits (R50, R53). -/
def State.QuietStopped (s : State) (p : PortId) (i : Nat) : Prop := s.quietOf p i = [] ∧ .quiet i true ∉ (s.port p).mu.events

/-- The quiet timer of slot `i` at port `p` has `limit` left and no live expiry of it waits (R51, R53). -/
def State.QuietAt (s : State) (p : PortId) (i limit : Nat) : Prop :=
  s.quietOf p i = [{ slot := i, left := limit }] ∧ .quiet i true ∉ (s.port p).mu.events

/-- The timers of a Match Unit stay but for those of the slots named, and so do the events that wait there: an expiry of a
slot named may be live no longer (R50, R53). -/
structure MatchUnit.QuietKept (named : Nat → Prop) (m n : MatchUnit) : Prop where
  timers : ∀ i, ¬ named i → n.timers.filter (fun x => x.slot = i) = m.timers.filter (fun x => x.slot = i)
  events : List.Forall₂ (fun x y => y = x ∨ ∃ i, named i ∧ x = .quiet i true ∧ y = .quiet i false) m.events n.events

/-- The same at every port. -/
def State.QuietKept (named : PortId → Nat → Prop) (s t : State) : Prop :=
  ∀ p, (s.port p).mu.QuietKept (named p) (t.port p).mu

/-- The record of slot `i` is scoped to port `p` alone, the one port where its quiet timer can run (R6). -/
def State.ScopedAt (s : State) (p : PortId) (i : Nat) : Prop := ∃ r, s.table.recordAt i = some r ∧ r.scope = .one p

/-- The record of slot `i` is an ARMED silence record of port `p`, whose quiet timer runs there under the running condition
(R6, R50). -/
def State.TimedAt (s : State) (p : PortId) (i : Nat) : Prop :=
  ∃ r n, s.table.recordAt i = some r ∧ r.state = .armed ∧ r.side.trigger = .onSilence n ∧ r.scope = .one p

/-- Unit `u` has a change of the quiet limit of slot `i` still to take, which restarts the timer at port `p` (R18). -/
def State.Retimes (s : State) (u : UnitId) (p : PortId) (i : Nat) : Prop :=
  (∃ k ∈ (s.view u).tokens, ∃ e, k.update = some (e, true) ∧ e.slot = i) ∧ s.TimedAt p i

/-- The last change of the quiet limit of slot `i` that the Match Unit of port `p` has still to take gives it `limit`. -/
def State.RetimedTo (s : State) (p : PortId) (i limit : Nat) : Prop :=
  s.TimedAt p i ∧ ∃ before k after e, (s.view (.matchUnit p)).tokens = before ++ k :: after ∧ k.update = some (e, true) ∧
    e.slot = i ∧ e.side.trigger = .onSilence limit ∧ ∀ x ∈ after, ∀ y, x.update = some (y, true) → y.slot ≠ i

/-- The quiet timer of slot `i` at port `p` is set running at `limit`, or stopped without the running condition (R50, R51). -/
def State.QuietSet (s t : State) (p : PortId) (i limit : Nat) : Prop :=
  ((s.port p).mu.live = true → t.QuietAt p i limit) ∧ ((s.port p).mu.live = false → t.QuietStopped p i)

/-- The quiet timers after a change to the records that the units `takes` take at once and that names itself the timers `own`:
those that a change which these units had still to take names are restarted at its limit, and every other one stays (R18). -/
structure State.QuietAfter (own : PortId → Nat → Prop) (takes : UnitId → Prop) (s t : State) : Prop where
  kept : s.QuietKept (fun p i => own p i ∨ ∃ u, takes u ∧ s.Retimes u p i) t
  retimed : ∀ p i limit, takes (.matchUnit p) → ¬ own p i → (∀ u, u ≠ .matchUnit p → ¬ s.Retimes u p i) →
    s.RetimedTo p i limit → s.QuietSet t p i limit

/-- A SIGNAL, a port event or an addition for channel `c` waits at the Notice Unit (R172 to R174). -/
def State.NoticeFor (s : State) (c : ChanId) : Prop :=
  (∃ x ∈ s.notice.signals, x.2.2 = c) ∨ (∃ m ∈ s.notice.events, m.chans.has c = true) ∨
  (∃ a ∈ s.notice.additions, a = .revoked c ∨ a = .overrun c ∨ (c = 0 ∧ (a = .linkError ∨ ∃ d, a = .lapsed d)))

/-- The conditions of R14 between the fields of a record. -/
def ImageHolds (scope : Scope) (cond : Cond) (trigger : Trigger) (goal : Nat) (a : Actions) (mode : Option TallyMode) : Prop :=
  1 ≤ goal ∧ goal ≤ 255 ∧
  (∀ n, trigger = .onSilence n → (∃ m d, cond = .bus m d) ∧ (∃ p, scope = .one p) ∧ goal = 1 ∧ mode = none) ∧
  ¬ (a.gateOpen ≠ none ∧ a.gateClose = true) ∧
  (∀ x, cond = .cross x → a.crossPulse = none ∧ mode = none) ∧
  (∀ l e, cond = .line l e → mode = none ∨ mode = some .count)

/-- Where part `k` of a record image begins: data match, after-link, quiet limit, tally, end (R188). -/
def partAt (image : List Byte) (k : Nat) : Nat :=
  let has (i : Nat) : Bool := (byteAt image 0).testBit i
  34 + (if 0 < k ∧ has 0 then 8 else 0) + (if 1 < k ∧ has 1 then 2 else 0) + (if 2 < k ∧ has 2 then 3 else 0) +
    (if 3 < k ∧ has 3 then 12 else 0)

/-- An image of the PLACE form: no snapshot, and the length its presence bits give (R185, R188). -/
def ImageShaped (image : List Byte) : Prop := byteAt image 0 < 16 ∧ image.length = partAt image 4

/-- The bytes 13 to 16 of an image hold an action set with its span and line (R187, R188). -/
def ActionsAt (image : List Byte) (a : Actions) : Prop :=
  byteAt image 13 = (if a.signal then 1 else 0) + (if a.freeze then 2 else 0) + (if a.gateOpen = none then 0 else 4) +
    (if a.gateClose then 8 else 0) + (if a.crossPulse = none then 0 else 16) ∧
  (∀ span, a.gateOpen = some span → halfAt image 14 = span) ∧ (∀ x, a.crossPulse = some x → byteAt image 16 = x.val)

/-- The bytes 21 to 33 of an image hold a bus match (R187, R188); the initiator under ANY is not looked at (log 17). -/
def BusAt (image : List Byte) (m : BusMatch) : Prop :=
  wordAt image 21 = m.base ∧ wordAt image 25 = m.mask ∧
  byteAt image 29 = (match m.direction with
    | .read => 0
    | .write => 1
    | .either => 2) ∧
  (m.widths.one = true ∨ m.widths.two = true ∨ m.widths.four = true) ∧
  byteAt image 30 = (if m.widths.one then 1 else 0) + (if m.widths.two then 2 else 0) + (if m.widths.four then 4 else 0) ∧
  (match m.initiator with
    | .any => byteAt image 31 = 0
    | .only t => byteAt image 31 = 1 ∧ byteAt image 32 = t.val
    | .allBut t => byteAt image 31 = 2 ∧ byteAt image 32 = t.val) ∧
  byteAt image 33 = (match m.origin with
    | .boardOnly => 0
    | .boardAndDebug => 1)

/-- The edge of a line match (R187). -/
def EdgeAt (image : List Byte) (e : EdgeFilter) : Prop :=
  byteAt image 22 = (match e with
    | .rise => 0
    | .fall => 1
    | .either => 2)

/-- The data match of an image (R188). -/
def DataAt (image : List Byte) (d : DataMatch) : Prop := wordAt image 34 = d.pattern ∧ wordAt image 38 = d.mask

/-- The quiet limit of an image, 1 to 16,777,215 (R6, R188). -/
def QuietLimitAt (image : List Byte) (n : Nat) : Prop :=
  let o := partAt image 2
  (byteAt image 0).testBit 2 = true ∧ 1 ≤ n ∧ n = byteAt image o + 256 * byteAt image (o + 1) + 65536 * byteAt image (o + 2)

/-- The mode, sign and limit of the tally part of an image (R187, R188). -/
def ModeAt (image : List Byte) (m : TallyMode) : Prop :=
  (byteAt image 0).testBit 3 = true ∧ byteAt image (partAt image 3) = (match m with
    | .count => 0
    | .sum => 1)
def TallyAt (image : List Byte) (m : TallyMode) (sg : TallySign) (l : TallyLimit) : Prop :=
  ModeAt image m ∧
  byteAt image (partAt image 3 + 1) = (match sg with
    | .unsigned => 0
    | .signed => 1) ∧
  byteAt image (partAt image 3 + 2) = (match l with
    | .wrap => 0
    | .saturate => 1)

/-- The guard and the keep flag of an image (R187, R188). -/
def GuardAt (image : List Byte) (g : Guard) : Prop :=
  byteAt image 3 = (match g with
    | .guardOpen => 0
    | .guardReadable => 1
    | .guardPrivate => 2)

/-- A flag byte (R187). -/
def FlagAt (image : List Byte) (i : Nat) (f : Bool) : Prop := byteAt image i = if f then 1 else 0

/-- What a mask bit names is read, and what it does not name is not (R188). -/
def Named {α : Type} (bit : Bool) (o : Option α) (holds : α → Prop) : Prop :=
  (bit = false → o = none) ∧ (bit = true → ∃ x, o = some x ∧ holds x)

/-- A number as 2 bytes and as 4 bytes, least significant first (R180). -/
def twoBytes (n : Nat) : List Byte := [BitVec.ofNat 8 n, BitVec.ofNat 8 (n / 256)]
def fourBytes (n : Nat) : List Byte :=
  [BitVec.ofNat 8 n, BitVec.ofNat 8 (n / 256), BitVec.ofNat 8 (n / 65536), BitVec.ofNat 8 (n / 16777216)]

/-- The bytes of a request frame (R180). -/
def requestBytes (c : ChanId) (tag kind : Byte) (payload : List Byte) : List Byte :=
  let body := halfBytes (halfOf payload.length) ++ [byteOf c.val, tag, kind] ++ payload
  0xA5 :: (body ++ halfBytes (crc16 body))

/-- The channel and the kind of the frame a request command takes (R186). -/
def requestOf : Instr → Option (ChanId × Byte)
  | .openChannel c => some (c, kindOpen)
  | .closeChannel c => some (c, kindClose)
  | .renew c => some (c, kindRenew)
  | .poll c => some (c, kindPoll)
  | .notices c => some (c, kindNotices)
  | .claim c => some (c, kindClaim)
  | .release c => some (c, kindRelease)
  | .halt c => some (c, kindHalt)
  | .resume c => some (c, kindResume)
  | .stepBoard c => some (c, kindStep)
  | .drive c => some (c, kindDrive)
  | .gate c => some (c, kindGate)
  | .portstat c => some (c, kindPortstat)
  | .read c => some (c, kindRead)
  | .write c => some (c, kindWrite)
  | .replay c => some (c, kindReplay)
  | .drop c => some (c, kindDrop)
  | .place c => some (c, kindPlace)
  | .amend c => some (c, kindAmend)
  | .suspend c => some (c, kindSuspend)
  | .arm c => some (c, kindArm)
  | .retire c => some (c, kindRetire)
  | .lookup c => some (c, kindLookup)
  | .list c => some (c, kindList)
  | .find c => some (c, kindFind)
  | .tally c => some (c, kindTally)
  | .partstat c => some (c, kindPartstat)
  | .resetbench c => some (c, kindResetbench)
  | _ => none

/-! ### What matching and what a change to the records leave as they were -/

/-- Matching leaves of a port everything but its Match Unit's copy and timers and the hand-overs that wait at Run
Control and at the gate; it neither takes nor adds an observation. -/
structure Port.MatchedTo (q r : Port) : Prop where
  settings : r.settings = q.settings
  tlc : r.tlc = q.tlc
  arb : r.arb = q.arb
  rc : r.rc = { q.rc with fromUnits := r.rc.fromUnits }
  gate : r.gate = { q.gate with fromMatch := r.gate.fromMatch, fromCross := r.gate.fromCross }
  observations : r.mu.events.countP MatchEvent.isObs = q.mu.events.countP MatchEvent.isObs
  handOvers : r.gate.fromMatch.countP GateMsg.isHandOver = q.gate.fromMatch.countP GateMsg.isHandOver

/-- Matching leaves the bench port, the channels, the pending sets and the attention line as they were, and each port
but for what `Port.MatchedTo` names. It may change the table, the copies and what waits at the Notice Unit. -/
structure State.MatchedTo (s t : State) : Prop where
  pending : t.pending = s.pending
  bench : t.bench = s.bench
  chans : t.chans = s.chans
  teardowns : t.teardowns = s.teardowns
  desc : t.desc = s.desc
  fresh : t.fresh = s.fresh
  sets : t.notice.pending = s.notice.pending
  attn : t.notice.attn = s.notice.attn
  ports : ∀ p, (s.port p).MatchedTo (t.port p)

/-- A waiting event as it is once its quiet timer has been stopped or restarted (R53). -/
def MatchEvent.stale : MatchEvent → MatchEvent
  | .quiet i _ => .quiet i false
  | .obs o ep => .obs o ep
  | .edge l d ep => .edge l d ep

/-- A change to the records leaves everything but the table, the units' views and quiet timers, the additions that wait at
the Notice Unit, and a waiting expiry that it leaves no longer live. -/
structure State.RecordsOnly (s t : State) : Prop where
  pending : t.pending = s.pending
  bench : t.bench = s.bench
  chans : t.chans = s.chans
  teardowns : t.teardowns = s.teardowns
  desc : t.desc = s.desc
  fresh : t.fresh = s.fresh
  notice : t.notice = { s.notice with additions := t.notice.additions }
  cross : t.cross = { s.cross with view := t.cross.view }
  ports : ∀ p, t.port p = { s.port p with mu := { (s.port p).mu with
    view := (t.port p).mu.view, events := (t.port p).mu.events, timers := (t.port p).mu.timers } }
  events : ∀ p, List.Forall₂ (fun x y => y = x ∨ y = x.stale) (s.port p).mu.events (t.port p).mu.events

end Sys2Proof.Machine
end

