-- ==== Sys2Proof/Certificates/Slice0/Obligations.lean ====
section
/-! DEFINITION. The statements for the provers: what a step is, what each command does, the rules of the shared
operations, and the invariants every step keeps. -/

open Sys2Proof Sys2Proof.Machine Host

/-! ### The step, the pin reset -/

/-- The command at the front of the queue runs on the state with the rest of the queue; an empty queue idles (log 1). -/
def Obligations.StepRunsTheFrontCommand : Prop :=
  ∀ s : State,
    (∀ i rest, s.pending = i :: rest → step s = exec i { s with pending := rest }) ∧
    (s.pending = [] → step s = .next s)

/-- R194, R179: a pin reset puts every value of `State.reset` and samples the straps; the queue of commands and the counter
of the free values are the model's own and go on (log 1, log 9). `State.reset` holds the values the chapters give for a pin
reset: of the records (R32), the units, where no event waits and no timer runs (R36), Run Control (R72), the gates with an
idle capture output (R95), the cross lines (R106), the seats with the filtered level low and no debounce timer (R110), the
epoch (R113), the links with both sync counts 0 and their outputs held low (R115), the credits (R121), the control lines
(R126, R194), the arbiters (R131, R137, R138, R141, R142, R148), the channels and their teardowns (R157), the pending sets
(R171), ATTN (R177), the receiver (R181), the frames and the output queue (R182, R184), and the settings and the name
(R193). -/
def Obligations.PinResetPutsEveryResetValue : Prop :=
  (∀ (rate1 rate0 : Bool) (s : State),
     exec (.pinReset rate1 rate0) s = .next
       { State.reset with
         pending := s.pending, fresh := s.fresh,
         bench := { Bench.reset with rate1 := rate1, rate0 := rate0 } }) ∧
  (State.reset.table.slots = List.replicate 96 { issue := 0, record := none } ∧ State.reset.table.counter = 0 ∧
   (∀ c : ChanId,
     (State.reset.chan c).isOpen = false ∧ (State.reset.chan c).teardown = none ∧ (State.reset.chan c).cls = 0 ∧
     (State.reset.chan c).leaseLimit = none ∧ (State.reset.chan c).leaseTimer = none ∧
     (State.reset.chan c).enables = { fired := false, portEvents := false, revokedOverrun := false,
                                      lapsedLinkError := false } ∧
     (State.reset.chan c).maxClass = 3 ∧ (State.reset.chan c).defaultLease = 2000 ∧
     (State.reset.lane c).outstanding = 0 ∧ (State.reset.lane c).queue = [] ∧ (State.reset.lane c).executing = none ∧
     State.reset.pendingOf c = { fired := [], more := false, portEvents := [], revoked := false, overrun := false,
                                 lapsed := Vector.replicate 8 false, linkError := false }) ∧
   State.reset.teardowns = { current := none, queued := [] } ∧
   (∀ p : PortId,
     (State.reset.port p).settings = { debounce := 20, filters := #v[.us2, .us2, .us2, .us2], safeResetAsserted := true,
                                       safePowerOn := false, replyLimit := 20, stopLimit := 5 } ∧
     ((State.reset.port p).mu.view.copy = [] ∧ (State.reset.port p).mu.events = [] ∧
       (State.reset.port p).mu.timers = []) ∧
     ((State.reset.port p).rc.run = .offline ∧ (∀ c, (State.reset.port p).rc.holds.has c = false) ∧
       (∀ c, (State.reset.port p).rc.resumers.has c = false) ∧ (State.reset.port p).rc.stopTimer = none ∧
       (State.reset.port p).rc.boardHold = false ∧ (State.reset.port p).rc.budget = 0) ∧
     ((State.reset.port p).gate.isOpen = false ∧ (State.reset.port p).gate.opener = none ∧
       (State.reset.port p).gate.span = 0 ∧ (State.reset.port p).gate.gap = false ∧
       (State.reset.port p).gate.missed = 0 ∧ (State.reset.port p).gate.closingMark = false ∧
       (State.reset.port p).gate.sending = false) ∧
     ((State.reset.port p).tlc.seat = .empty ∧ (State.reset.port p).tlc.seatHigh = false ∧
       (State.reset.port p).tlc.debounce = none ∧ (State.reset.port p).tlc.epoch = 0 ∧
       (State.reset.port p).tlc.link = .down ∧ (State.reset.port p).tlc.goodSync = 0 ∧
       (State.reset.port p).tlc.badSync = 0 ∧ (State.reset.port p).tlc.credits = 8 ∧
       (State.reset.port p).tlc.received = 0 ∧ (State.reset.port p).tlc.violation = false ∧
       (State.reset.port p).tlc.resetAsserted = true ∧ (State.reset.port p).tlc.powerOn = false ∧
       (State.reset.port p).tlc.outputs = { clock := .low, dataOut := .low, strobe := .low }) ∧
     ((∀ c : ChanId, (State.reset.port p).hasClaim c = false ∧ (State.reset.port p).arb.parked[c] = none ∧
         (State.reset.port p).arb.lifts.has c = false) ∧
       (State.reset.port p).arb.queue = [] ∧ (State.reset.port p).arb.use = .idle ∧
       (State.reset.port p).arb.nextTag = 0)) ∧
   (∀ x : CrossId, (State.reset.crossLine x).driving = none) ∧
   (∀ u, State.reset.table.chain u = []) ∧ State.reset.cross.view.copy = [] ∧ State.reset.cross.edges = [] ∧
   State.reset.bench.receiver = .hunting ∧ State.reset.bench.output = [] ∧
   State.reset.notice.attn = false ∧ State.reset.desc.walking = true ∧ State.reset.desc.name = [])

/-! ### The bench port -/

/-- R180, R182, R160: a frame whose bytes are those of a request, every stop bit high, restarts a running lease and joins its
channel's queue; at 4 outstanding frames it is discarded and OVERRUN is raised. R180: the check, bit by bit. -/
def Obligations.GoodFrameJoinsItsQueue : Prop :=
  (let bit (x : Half) : Half := if x.msb then (x <<< 1) ^^^ 0x1021 else x <<< 1
   crc16 [] = 0xFFFF ∧ ∀ (l : List Byte) (b : Byte), crc16 (l ++ [b]) =
     bit (bit (bit (bit (bit (bit (bit (bit (crc16 l ^^^ (b.setWidth 16 <<< 8)))))))))) ∧
  (∀ n, byteOf n = BitVec.ofNat 8 n ∧ halfBytes (halfOf n) = twoBytes n) ∧
  ∀ (c : ChanId) (tag kind : Byte) (payload : List Byte) (s : State),
    payload.length ≤ Config.payloadLimit → s.bench.receiver = .hunting →
    let i := Instr.benchFrame ((requestBytes c tag kind payload).map fun b => { value := b, stopHigh := true })
    let t := if (s.chan c).leaseTimer.isSome
      then s.setChan c { s.chan c with leaseTimer := (s.chan c).leaseLimit } else s
    ((s.lane c).outstanding < 4 →
      exec i s = .next (t.setLane c { s.lane c with
        outstanding := (s.lane c).outstanding + 1,
        queue := (s.lane c).queue ++ [{ tag := tag, kind := kind, payload := payload }] })) ∧
    (4 ≤ (s.lane c).outstanding → exec i s = .next (t.sendAddition (.overrun c)))

/-- R181: a frame with a wrong check, a channel above 7 or a length above 1024, and a frame with a gap, are discarded with
LINK_ERROR, and so is one with a low stop bit, whose check fails (R179); a byte other than the start byte is not looked at while HUNTING. A gap found
outside a frame changes nothing (the model's choice, log 1). -/
def Obligations.FailedFrameRaisesLinkError : Prop :=
  ∀ s : State,
    (s.bench.receiver = .hunting → ∀ (start : RxByte) (got : List RxByte), start.value = 0xA5 →
      let bytes := got.map (·.value)
      (halfAt bytes 0).toNat ≤ 1024 → got.length = (halfAt bytes 0).toNat + 7 →
      (start.stopHigh = false ∨ (∃ b ∈ got, b.stopHigh = false) ∨ 8 ≤ byteAt bytes 2 ∨
        crc16 (bytes.take (bytes.length - 2)) ≠ halfAt bytes (bytes.length - 2)) →
      exec (.benchFrame (start :: got)) s = .next (s.sendAddition .linkError)) ∧
    (s.bench.receiver = .hunting → ∀ start lo hi : RxByte, start.value = 0xA5 →
      1024 < (halfAt [lo.value, hi.value] 0).toNat →
      exec (.benchFrame [start, lo, hi]) s = .next (s.sendAddition .linkError)) ∧
    (s.bench.receiver = .hunting → ∀ b : RxByte, b.value ≠ 0xA5 → exec (.benchFrame [b]) s = .next s) ∧
    (∀ got stops, s.bench.receiver = .reading got stops →
      exec .frameGapTimeout s = .next ((s.setReceiver .hunting).sendAddition .linkError)) ∧
    (s.bench.receiver = .hunting → exec .frameGapTimeout s = .next s)

/-- R183, R184: a request leaves its queue as it is executed, and its response is handed to the output queue at once or
waits (the handle of a LOOKUP's stands in a field of the model's own, log 30). R183, R194: a head frame of no request kind
(R186) is answered BAD; during the walk every head frame is answered STARTING. R158: a CLOSED channel is answered CLOSED on
every request kind but OPEN. The model's choice (log 4): a READ, WRITE or REPLAY for a port with a choice due waits for that
choice. The model's choice (log 1, log 19): a request command whose channel has no frame of its kind to execute changes
nothing. -/
def Obligations.ChecksBeforeARequestRuns : Prop :=
  (∀ (c : ChanId) (f : Frame) (s : State),
     s.popFrame c = s.setLane c { s.lane c with queue := (s.lane c).queue.tail } ∧
     (∀ st payload handle, s.answer c f st payload handle = { s with bench := { s.bench with
       output := s.bench.output ++
         [{ chan := c, tag := f.tag, status := st, payload := payload, handle := handle }] } }) ∧
     ∀ w, s.wait c f w = s.setLane c { s.lane c with
       executing := some { tag := f.tag, kind := f.kind, wait := w, silent := false } }) ∧
  (requestKinds = [0x01, 0x02, 0x03, 0x04, 0x05, 0x10, 0x11, 0x12, 0x13, 0x14, 0x15, 0x16, 0x17, 0x20, 0x21, 0x22, 0x23,
     0x30, 0x31, 0x32, 0x33, 0x34, 0x35, 0x36, 0x37, 0x38, 0x40, 0x41] ∧
   requestKinds = [kindOpen, kindClose, kindRenew, kindPoll, kindNotices, kindClaim, kindRelease, kindHalt, kindResume,
     kindStep, kindDrive, kindGate, kindPortstat, kindRead, kindWrite, kindReplay, kindDrop, kindPlace, kindAmend,
     kindSuspend, kindArm, kindRetire, kindLookup, kindList, kindFind, kindTally, kindPartstat, kindResetbench]) ∧
  ((∀ (c : ChanId) (f : Frame) (s : State), s.AtHead c f.kind f →
     (f.kind ∉ requestKinds → AnswersOnly (.unknownKind c) s c f .bad []) ∧
     (f.kind ∈ requestKinds → exec (.unknownKind c) s = .next s)) ∧
   (∀ (c : ChanId) (f : Frame) (rest : List Frame) (s : State),
     s.desc.walking = true → (s.lane c).queue = f :: rest → AnswersOnly (.starting c) s c f .starting [])) ∧
  (∀ (i : Instr) (c : ChanId) (kind : Byte) (f : Frame) (s : State),
     requestOf i = some (c, kind) → kind ≠ kindOpen → s.AtHead c kind f → (s.chan c).isOpen = false →
     (kind = kindRead ∨ kind = kindWrite ∨ kind = kindReplay → ∀ p, (s.port p).choiceDue = false) →
     AnswersOnly i s c f .closed []) ∧
  (∀ (i : Instr) (c : ChanId) (kind : Byte) (f : Frame) (p : PortId) (s : State),
     requestOf i = some (c, kind) → s.AtHead c kind f → (s.port p).choiceDue = true →
     ((∃ r, kind = kindRead ∧ readAccess .read f.payload = some r ∧ r.port = p) ∨
       (∃ r, kind = kindWrite ∧ readAccess .write f.payload = some r ∧ r.port = p) ∨
       (kind = kindReplay ∧ readPortPayload f.payload = some p)) →
     exec i s = .next s) ∧
  (∀ (i : Instr) (c : ChanId) (kind : Byte) (s : State),
     requestOf i = some (c, kind) → (∀ f, ¬ s.AtHead c kind f) → exec i s = .next s)

/-- R184: the response at the head of the output queue leaves as one frame and its place is freed. R179: the rate that the
straps select, and the levels of the line: idle high, a start bit, the data bits least significant first, a stop bit, the bytes
of a frame back to back. R186: the status codes. The model's choice: a frame leaves as one event (log 19), a received byte is
given by its value and its stop bit (log 26), the handle a LOOKUP reports is in none of the bytes (log 30), and without a
response nothing happens (log 1). -/
def Obligations.TransmitterSendsTheOldestResponse : Prop :=
  (([.done, .bad, .denied, .stale, .full, .busy, .inUse, .notHeld, .noClaim, .absent, .noLink, .inReset, .running, .parked,
     .timeout, .fault, .linkLost, .unresponsive, .epoch, .closed, .starting] : List Status).map Status.code = List.range 21) ∧
  (idleLevel = true ∧ ∀ b : RxByte, byteLevels b = [false, b.value.getLsbD 0, b.value.getLsbD 1, b.value.getLsbD 2,
    b.value.getLsbD 3, b.value.getLsbD 4, b.value.getLsbD 5, b.value.getLsbD 6, b.value.getLsbD 7, b.stopHigh]) ∧
  ∀ s : State,
    (∀ (r : Response) (rest : List Response), s.bench.output = r :: rest →
      exec .responseTransmit s = .next { s with
        bench := { s.bench with
          lanes := s.bench.lanes.set r.chan { s.lane r.chan with outstanding := (s.lane r.chan).outstanding - 1 },
          output := rest,
          sentFrames := s.bench.sentFrames ++ [{
            rate := match s.bench.rate1, s.bench.rate0 with
              | false, false => 1
              | false, true => 3
              | true, false => 6
              | true, true => 12
            levels := (requestBytes r.chan r.tag (byteOf r.status.code) r.payload).flatMap fun b =>
              byteLevels { value := b, stopHigh := true } }] } }) ∧
    (s.bench.output = [] → exec .responseTransmit s = .next s)

/-! ### Channels, leases and notices -/

/-- R159: OPEN is answered BAD, BUSY or DENIED in that order; otherwise the channel opens with the class, the lease and
the enables asked for, its lease timer starts, its pending set is empty and the attention line follows (R177, O51). The model's
choice (log 4): it opens once the Notice Unit has taken what was handed over for the channel before (R171, R174). R185,
R191: the 5 bytes of its payload. -/
def Obligations.OpenOpensTheChannel : Prop :=
  (∀ (b : List Byte) (q : OpenRequest), readOpen b = some q ↔
    ∃ cls present low high enables : Byte, b = [cls, present, low, high, enables] ∧ cls.toNat = q.cls.val ∧
      ((present = 0 ∧ q.lease = none) ∨
        (present = 1 ∧ q.lease = some (low.toNat + 256 * high.toNat) ∧ 100 ≤ low.toNat + 256 * high.toNat ∧
          low.toNat + 256 * high.toNat ≤ 60000)) ∧
      enables.toNat < 16 ∧
      q.enables = { fired := enables.getLsbD 0, portEvents := enables.getLsbD 1,
                    revokedOverrun := enables.getLsbD 2, lapsedLinkError := enables.getLsbD 3 }) ∧
  Pending.empty = { fired := [], more := false, portEvents := [], revoked := false, overrun := false,
                    lapsed := Vector.replicate 8 false, linkError := false } ∧
  ∀ (c : ChanId) (f : Frame) (s : State), s.AtHead c kindOpen f →
    (readOpen f.payload = none → AnswersOnly (.openChannel c) s c f .bad []) ∧
    (∀ q, readOpen f.payload = some q →
      ((s.chan c).isOpen = true → AnswersOnly (.openChannel c) s c f .busy []) ∧
      ((s.chan c).isOpen = false → (s.chan c).maxClass < q.cls → AnswersOnly (.openChannel c) s c f .denied []) ∧
      ((s.chan c).isOpen = false → q.cls ≤ (s.chan c).maxClass → s.NoticeFor c → exec (.openChannel c) s = .next s) ∧
      ((s.chan c).isOpen = false → q.cls ≤ (s.chan c).maxClass → ¬ s.NoticeFor c →
        let lease := q.lease.getD (s.chan c).defaultLease
        exec (.openChannel c) s = .next
          (((((s.popFrame c).setChan c
            { s.chan c with isOpen := true, cls := q.cls, leaseLimit := some lease, leaseTimer := some lease,
                            enables := q.enables }).setPending c Pending.empty).reevaluate).answer c f .done
            (byteOf q.cls.val :: halfBytes (halfOf lease) ++ [q.enables.byte]))))

/-- R161, R176, R178, R196: RENEW gives the lease limit and changes nothing; NOTICES replaces the enables and the attention
line follows; POLL gives the whole pending set and empties it in the same step; PARTSTAT gives the part, its description and
its name and changes nothing. R191: the bytes of the enables and of a pending set, whose port events are sent as they stand, in
the order of R178 (O51, O57). -/
def Obligations.RenewNoticesPollAndPartstatAnswer : Prop :=
  (∀ (b : List Byte) (e : Enables), readNotices b = some e ↔ ∃ x : Byte, b = [x] ∧ x.toNat < 16 ∧
    e = { fired := x.getLsbD 0, portEvents := x.getLsbD 1, revokedOverrun := x.getLsbD 2,
          lapsedLinkError := x.getLsbD 3 }) ∧
  (∀ e : Enables, e.byte.toNat = (if e.fired then 1 else 0) + (if e.portEvents then 2 else 0) +
    (if e.revokedOverrun then 4 else 0) + (if e.lapsedLinkError then 8 else 0)) ∧
  (∀ q : Pending, ∃ lapsed : Byte, (∀ c : ChanId, lapsed.getLsbD c.val = q.lapsed[c]) ∧
    q.answer =
      [BitVec.ofNat 8 q.fired.length, if q.more then 1 else 0] ++
      (q.fired.flatMap fun h => [BitVec.ofNat 8 h.slot, h.issue]) ++ [BitVec.ofNat 8 q.portEvents.length] ++
      (q.portEvents.flatMap fun x => [BitVec.ofNat 8 x.1.val, match x.2 with
        | .seated => 0
        | .unseated => 1
        | .locked => 2
        | .lost => 3
        | .frozen => 4
        | .resumed => 5
        | .selfStop => 6
        | .unresponsive => 7]) ++
      [if q.revoked then 1 else 0, if q.overrun then 1 else 0, lapsed, if q.linkError then 1 else 0]) ∧
  (([.loaded, .partlyLoaded, .defective, .absent] : List DescStatus).map DescStatus.code = [0, 1, 2, 3]) ∧
  ∀ (c : ChanId) (f : Frame) (s : State),
    (s.Ready c kindRenew f →
      (f.payload ≠ [] → AnswersOnly (.renew c) s c f .bad []) ∧
      (f.payload = [] → AnswersOnly (.renew c) s c f .done (halfBytes (halfOf ((s.chan c).leaseLimit.getD 0))))) ∧
    (s.Ready c kindNotices f →
      (readNotices f.payload = none → AnswersOnly (.notices c) s c f .bad []) ∧
      (∀ e, readNotices f.payload = some e →
        exec (.notices c) s = .next
          ((((s.popFrame c).setChan c { s.chan c with enables := e }).reevaluate).answer c f .done [e.byte]))) ∧
    (s.Ready c kindPoll f →
      (f.payload ≠ [] → AnswersOnly (.poll c) s c f .bad []) ∧
      (f.payload = [] →
        exec (.poll c) s = .next
          ((((s.popFrame c).setPending c Pending.empty).reevaluate).answer c f .done (s.pendingOf c).answer))) ∧
    (s.Ready c kindPartstat f →
      (f.payload ≠ [] → AnswersOnly (.partstat c) s c f .bad []) ∧
      (f.payload = [] → AnswersOnly (.partstat c) s c f .done
        ([0x47, 0x57, 0x48, 0x36, 0x38, 0, 0, 0, 0x41, byteOf s.desc.status.code, byteOf s.desc.nodesTaken,
          byteOf s.desc.nodesSkipped, byteOf s.desc.name.length] ++ s.desc.name)))

/-- R164, R165: CLOSE stops the lease and begins a teardown of the channel, at once or behind those before it; it is
answered when the teardown ends. R162, R163, R165: a running lease timer that expires lapses the channel: its queued
frames are discarded, its executing request is marked to end without a response, LAPSED is raised for an OPEN C0, and
its teardown begins. An expiry of a timer that does not run changes nothing (the model's choice, log 1). -/
def Obligations.CloseAndLeaseExpiryBeginATeardown : Prop :=
  (∀ (c : ChanId) (f : Frame) (s : State), s.Ready c kindClose f →
     (f.payload ≠ [] → AnswersOnly (.closeChannel c) s c f .bad []) ∧
     (f.payload = [] →
       let t := ((s.popFrame c).setChan c { s.chan c with leaseTimer := none, teardown := some .closing }).wait c f
         .teardown
       (s.teardowns.current = none → exec (.closeChannel c) s = .next
         { t with teardowns := { s.teardowns with current := some (c, .records) } }) ∧
       (s.teardowns.current ≠ none → exec (.closeChannel c) s = .next
         { t with teardowns := { s.teardowns with queued := s.teardowns.queued ++ [c] } }))) ∧
  (∀ (c : ChanId) (s : State),
     ((s.chan c).leaseTimer = none → exec (.leaseExpiry c) s = .next s) ∧
     ((s.chan c).leaseTimer ≠ none →
       let t := (s.setChan c { s.chan c with leaseTimer := none, teardown := some .lapsing }).setLane c
         { outstanding := (s.lane c).outstanding - (s.lane c).queue.length, queue := [],
           executing := (s.lane c).executing.map fun e => { e with silent := true } }
       let u := if c ≠ 0 ∧ (s.chan 0).isOpen = true then t.sendAddition (.lapsed c) else t
       (s.teardowns.current = none → exec (.leaseExpiry c) s = .next
         { u with teardowns := { s.teardowns with current := some (c, .records) } }) ∧
       (s.teardowns.current ≠ none → exec (.leaseExpiry c) s = .next
         { u with teardowns := { s.teardowns with queued := s.teardowns.queued ++ [c] } })))

/-- R30, R166, R1, R29: step 1 of a teardown. A channel without records passes through it. Otherwise, as one change, its
kept records pass to an OPEN C0, the others are freed with their issue number increased, and every record whose
after-link names a freed one loses it; every other slot stays, and nothing else changes. R21, R50, R18, R11: the quiet timers
of the freed records stop, those that a change not yet taken names are restarted as it is taken, and every other one stays;
the owners of the records cut loose, and only they, get REVOKED; that C0 is one of them for a
record just handed to it is DEDUCED (log 21). R31, R35: the units concerned take the change at once, and it waits while one of
them is in the middle of an event (log 4, log 5). -/
def Obligations.RecordsStepOfATeardown : Prop :=
  ∀ (c : ChanId) (s : State), s.teardowns.current = some (c, .records) →
    ((∀ i r, s.table.recordAt i = some r → r.owner ≠ c) →
      exec .teardownRecords s = .next
        { s with teardowns := { s.teardowns with current := some (c, .ports allPorts allPorts) } }) ∧
    (let passes (x : Record) : Prop := c ≠ 0 ∧ (s.chan 0).isOpen = true ∧ x.keep = true
     let loses (r : Record) : Prop := ∃ h j x, r.after = some h ∧ s.table.recordAt j = some x ∧ x.owner = c ∧
       ¬ passes x ∧ s.table.handleAt j = h
     let cut (r : Record) : Record :=
       { r with after := none, state := if r.state = .waiting then .suspended else r.state }
     let concerned (u : UnitId) : Prop := ∃ i r, s.table.recordAt i = some r ∧ r.memberOf u = true ∧
       (r.owner = c ∨ loses r)
     ((∃ i r, s.table.recordAt i = some r ∧ r.owner = c) → (∃ u, concerned u ∧ s.InEvent u) →
       exec .teardownRecords s = .next s) ∧
     ((∃ i r, s.table.recordAt i = some r ∧ r.owner = c) → (∀ u, concerned u → ¬ s.InEvent u) →
       ∃ t l, exec .teardownRecords s = .next t ∧
         ({ s with teardowns := { s.teardowns with current := some (c, .changing s.table.nextChange) } } :
           State).RecordsOnly t ∧
         s.QuietAfter (fun p i => ∃ r, s.table.recordAt i = some r ∧ r.owner = c ∧ ¬ passes r ∧ r.scope = .one p)
           concerned t ∧
         t.notice.additions = s.notice.additions ++ l ∧
         (∀ a, a ∈ l ↔ ∃ i r, s.table.recordAt i = some r ∧ loses r ∧
           ((r.owner ≠ c ∧ a = .revoked r.owner) ∨ (r.owner = c ∧ passes r ∧ a = .revoked 0))) ∧
         t.table.counter = s.table.counter ∧ t.table.nextChange = s.table.nextChange + 1 ∧
         t.table.slots.length = s.table.slots.length ∧
         (∀ i, s.table.recordAt i = none → t.table.slotAt i = s.table.slotAt i) ∧
         (∀ i r, s.table.recordAt i = some r →
           let stays (x : Record) : Prop := t.table.slotAt i = { issue := (s.table.slotAt i).issue, record := some x }
           (r.owner = c → ¬ passes r →
             t.table.slotAt i = { issue := (s.table.slotAt i).issue + 1, record := none } ∧
             (∀ n p, r.side.trigger = .onSilence n → r.scope = .one p → t.QuietStopped p i)) ∧
           (r.owner = c → passes r → ¬ loses r → stays { r with owner := 0 }) ∧
           (r.owner = c → passes r → loses r → stays (cut { r with owner := 0 })) ∧
           (r.owner ≠ c → ¬ loses r → stays r) ∧
           (r.owner ≠ c → loses r → stays (cut r))) ∧
         (∀ u, concerned u → t.view u = (s.view u).after (t.table.chain u) s.table.nextChange) ∧
         (∀ u, ¬ concerned u → t.view u = s.view u)))

/-- R154, R126, R167: at step 2 of a teardown the arbiter of a port drops the channel's claim, entry, lift and remainder, a
word of its block in flight drains, the lines of a SOLE holder return to the port's safe levels in the same step, and its
waiting access ends without a response; R156: it may come before a choice that is due and after it. R91, R92, R166: Run Control takes the channel's hold out of the port's hold set
as one event and the channel out of the resumer set, and its waiting HALT ends without a response; a FREEZE that names
the channel is taken first (log 4). -/
def Obligations.PortStepsOfATeardown : Prop :=
  (∀ (p : PortId) (c : ChanId) (as rs : List PortId) (s : State),
     s.teardowns.current = some (c, .ports as rs) → p ∈ as →
     let q := s.port p
     let a : Arbiter := { q.arb with
       claims := q.arb.claims.set c none, queue := q.arb.queue.filter fun e => e.chan ≠ c,
       lifts := q.arb.lifts.set c false, parked := q.arb.parked.set c none,
       use := match q.arb.use with
         | .executing b w => if b.chan = c then .draining w else .executing b w
         | u => u }
     let q1 : Port := { q with arb := a }
     let t := (s.setPort p (if q.hasSole c then q1.toSafeLevels else q1)).endWait c (.access p)
     exec (.teardownAtArbiter p) s = .next
       { t with teardowns := { s.teardowns with current := some (c, .ports (as.filter fun x => x ≠ p) rs) } }) ∧
  (∀ (p : PortId) (c : ChanId) (as rs : List PortId) (s : State),
     s.teardowns.current = some (c, .ports as rs) → p ∈ rs →
     (∃ sender, UnitToRun.freeze sender c ∈ (s.port p).rc.fromUnits) → exec (.teardownAtRunControl p) s = .next s) ∧
  (∀ (p : PortId) (c : ChanId) (as rs : List PortId) (s : State),
     s.teardowns.current = some (c, .ports as rs) → p ∈ rs →
     (∀ sender, UnitToRun.freeze sender c ∉ (s.port p).rc.fromUnits) →
     let t := s.applyRun p ((s.port p).removeHold c false)
     let q := t.port p
     let u := (t.setPort p { q with rc := { q.rc with resumers := q.rc.resumers.set c false } }).endWait c (.settle p)
     exec (.teardownAtRunControl p) s = .next
       { u with teardowns := { s.teardowns with current := some (c, .ports as (rs.filter fun x => x ≠ p)) } })

/-- R168: when every block has taken step 2 and the Notice Unit has taken what was handed over for the channel (R163, R166,
R167, log 4), the channel becomes CLOSED with its pending set empty, a CLOSE is answered, and the teardown that became
due next begins. -/
def Obligations.LastStepOfATeardownClosesTheChannel : Prop :=
  ∀ (c : ChanId) (s : State), s.teardowns.current = some (c, .ports [] []) →
    (s.NoticeFor c → exec .teardownClose s = .next s) ∧
    (¬ s.NoticeFor c →
    let t := ((s.setChan c { Channel.reset with
        maxClass := (s.chan c).maxClass, defaultLease := (s.chan c).defaultLease }).setPending c
        Pending.empty).reevaluate
    let u := if (s.chan c).teardown = some .closing then t.finish c .done [] else t
    (s.teardowns.queued = [] → exec .teardownClose s = .next
      { u with teardowns := { current := none, queued := [] } }) ∧
    (∀ d rest, s.teardowns.queued = d :: rest → exec .teardownClose s = .next
      { u with teardowns := { current := some (d, .records), queued := rest } }))

/-! ### Claims and access -/

/-- R132: CLAIM by the table of the requester's claim, the mode asked and the other claims. The bytes of its payload are
those R191 lists. -/
def Obligations.ClaimFollowsItsTable : Prop :=
  (∀ (b : List Byte) (p : PortId) (m : ClaimMode), readClaim b = some (p, m) ↔
    b = [BitVec.ofNat 8 p.val, match m with
      | .shared => 0
      | .sole => 1]) ∧
  (∀ (q : Port) (c : ChanId), (q.hasClaim c = true ↔ q.arb.claims[c] ≠ none) ∧
    (q.hasSole c = true ↔ q.arb.claims[c] = some .sole)) ∧
  ∀ (c : ChanId) (f : Frame) (s : State),
    (s.AtHead c kindClaim f → (s.chan c).isOpen = false → AnswersOnly (.claim c) s c f .closed []) ∧
    (s.Ready c kindClaim f →
    (readClaim f.payload = none → AnswersOnly (.claim c) s c f .bad []) ∧
    (∀ p m, readClaim f.payload = some (p, m) →
      let q := s.port p
      let others := ∃ d, d ≠ c ∧ q.hasClaim d = true
      let otherSole := ∃ d, d ≠ c ∧ q.hasSole d = true
      let done (m' : ClaimMode) : Prop := exec (.claim c) s = .next
        (((s.popFrame c).setPort p { q with arb := { q.arb with claims := q.arb.claims.set c (some m') } }).answer c f
          .done [match m' with
            | .shared => 0
            | .sole => 1])
      let busy : Prop := AnswersOnly (.claim c) s c f .busy []
      (q.arb.claims[c] = none → m = .shared → (otherSole → busy) ∧ (¬ otherSole → done .shared)) ∧
      (q.arb.claims[c] = none → m = .sole → (others → busy) ∧ (¬ others → done .sole)) ∧
      (q.arb.claims[c] = some .shared → m = .shared → done .shared) ∧
      (q.arb.claims[c] = some .shared → m = .sole → (others → busy) ∧ (¬ others → done .sole)) ∧
      (q.arb.claims[c] = some .sole → done m)))

/-- R133, R126: RELEASE ends the claim and the remainder, hands the removal of the hold to Run Control and, for a SOLE
claim, the safe-level return to the Target Link Controller, and waits for both; the two blocks take them. That the removal
and the return wait in lists of their own until their blocks take them is DEDUCED (log 3, log 25). -/
def Obligations.ReleaseEndsTheClaimAndItsHold : Prop :=
  (∀ (c : ChanId) (f : Frame) (s : State), s.Ready c kindRelease f →
    (readPortPayload f.payload = none → AnswersOnly (.release c) s c f .bad []) ∧
    (∀ p, readPortPayload f.payload = some p →
      let q := s.port p
      (q.hasClaim c = false → AnswersOnly (.release c) s c f .notHeld []) ∧
      (q.hasClaim c = true → exec (.release c) s = .next
        (((s.popFrame c).setPort p { q with
          arb := { q.arb with claims := q.arb.claims.set c none, parked := q.arb.parked.set c none },
          rc := { q.rc with removals := q.rc.removals ++ [c] },
          tlc := if q.hasSole c then { q.tlc with safeRequests := q.tlc.safeRequests ++ [c] } else q.tlc }).wait c f
          (.release true (q.hasSole c)))))) ∧
  (∀ (p : PortId) (c : ChanId) (rest : List ChanId) (s : State), (s.port p).rc.removals = c :: rest →
    let q : Port := { s.port p with rc := { (s.port p).rc with removals := rest } }
    let t := s.applyRun p (q.removeHold c false)
    (∀ e, (t.lane c).executing = some e → e.wait = .release true false →
      exec (.holdRemoval p) s = .next (t.finish c .done [])) ∧
    (∀ e, (t.lane c).executing = some e → e.wait = .release true true →
      exec (.holdRemoval p) s = .next
        (t.setLane c { t.lane c with executing := some { e with wait := .release false true } })) ∧
    ((∀ e r l, (t.lane c).executing = some e → e.wait ≠ .release r l) → exec (.holdRemoval p) s = .next t)) ∧
  (∀ (p : PortId) (c : ChanId) (rest : List ChanId) (s : State), (s.port p).tlc.safeRequests = c :: rest →
    let t := s.setPort p ({ s.port p with tlc := { (s.port p).tlc with safeRequests := rest } } : Port).toSafeLevels
    (∀ e, (t.lane c).executing = some e → e.wait = .release false true →
      exec (.safeLevels p) s = .next (t.finish c .done [])) ∧
    (∀ e, (t.lane c).executing = some e → e.wait = .release true true →
      exec (.safeLevels p) s = .next
        (t.setLane c { t.lane c with executing := some { e with wait := .release true false } })) ∧
    ((∀ e r l, (t.lane c).executing = some e → e.wait ≠ .release r l) → exec (.safeLevels p) s = .next t))

/-- R136, R137: READ and WRITE are refused by the first check that fails, and join the tail of the port's queue with age
0 otherwise; with a choice due at the port they wait for it (log 4). R134, R185, R190: the bytes of their payload. -/
def Obligations.ReadAndWriteJoinTheQueue : Prop :=
  (∀ (dir : Direction) (b : List Byte) (r : AccessRequest), readAccess dir b = some r ↔
    let size := r.block.width.bytes
    14 ≤ b.length ∧ r.block.direction = dir ∧ byteAt b 0 = r.port.val ∧ byteAt b 1 = size ∧
    byteAt b 2 = r.block.count ∧ 1 ≤ r.block.count ∧ r.block.count ≤ 64 ∧ wordAt b 3 = r.block.start ∧
    ((byteAt b 7 = 0 ∧ r.block.stepping = .increment) ∨ (byteAt b 7 = 1 ∧ r.block.stepping = .fixed) ∨
      (byteAt b 7 = 2 ∧ r.block.stepping = .wrap (halfAt b 8).toNat ∧ r.block.start.toNat % size = 0 ∧
        ∃ k, 3 ≤ k ∧ k ≤ 12 ∧ (halfAt b 8).toNat = 2 ^ k)) ∧
    ((byteAt b 10 = 0 ∧ r.epochGuard = none) ∨ (byteAt b 10 = 1 ∧ r.epochGuard = some (halfAt b 11))) ∧
    FlagAt b 13 r.block.haltedOnly ∧
    (dir = .read → b.length = 14 ∧ r.block.data = []) ∧
    (dir = .write → b.length = 14 + r.block.count * size ∧ r.block.data.length = r.block.count ∧
      ∀ k, k < r.block.count → (r.block.data.getD k 0).toNat = (match r.block.width with
        | .one => byteAt b (14 + k)
        | .two => byteAt b (14 + 2 * k) + 256 * byteAt b (15 + 2 * k)
        | .four => byteAt b (14 + 4 * k) + 256 * byteAt b (15 + 4 * k) + 65536 * byteAt b (16 + 4 * k) +
            16777216 * byteAt b (17 + 4 * k)))) ∧
  ∀ (i : Instr) (dir : Direction) (kind : Byte) (c : ChanId) (f : Frame) (s : State),
    ((i = .read c ∧ dir = .read ∧ kind = kindRead) ∨ (i = .write c ∧ dir = .write ∧ kind = kindWrite)) →
    s.Ready c kind f →
    (readAccess dir f.payload = none → AnswersOnly i s c f .bad []) ∧
    (∀ r, readAccess dir f.payload = some r → (s.port r.port).choiceDue = true → exec i s = .next s) ∧
    (∀ r, readAccess dir f.payload = some r → (s.port r.port).choiceDue = false →
      let q := s.port r.port
      let claim := q.hasClaim c = true
      let clear := q.arb.parked[c] = none
      let seated := q.tlc.seat = .seated ∨ q.tlc.seat = .leaving
      let locked := q.arb.linkLocked = true
      let released := q.tlc.resetAsserted = false
      let sameEpoch := ∀ g, r.epochGuard = some g → g = q.tlc.epoch
      let mayRun := r.block.haltedOnly = true → q.rc.run = .frozen
      (¬ claim → AnswersOnly i s c f .noClaim []) ∧
      (claim → ¬ clear → AnswersOnly i s c f .parked []) ∧
      (claim → clear → ¬ seated → AnswersOnly i s c f .absent []) ∧
      (claim → clear → seated → ¬ locked → AnswersOnly i s c f .noLink []) ∧
      (claim → clear → seated → locked → ¬ released → AnswersOnly i s c f .inReset []) ∧
      (claim → clear → seated → locked → released → ¬ sameEpoch → AnswersOnly i s c f .epoch []) ∧
      (claim → clear → seated → locked → released → sameEpoch → ¬ mayRun → AnswersOnly i s c f .running []) ∧
      (claim → clear → seated → locked → released → sameEpoch → mayRun → exec i s = .next
        (((s.popFrame c).setPort r.port { q with arb := { q.arb with queue := q.arb.queue ++
          [{ chan := c, block := r.block, epochGuard := r.epochGuard, replayOf := none, age := 0 }] } }).wait c f
          (.access r.port))))

/-- R149, R150: REPLAY takes the parked remainder out and queues it as a block, and with a choice due at the port waits for
it (log 4); DROP discards it and reports it. R190: the bytes of DROP's answer; its span without WRAP and its fault code
without FAULT are the model's choice (log 32). That a REPLAY taken after an unseat, which finds no remainder, is answered
NOT_HELD and not ABSENT is the model's choice between R149 and R156 (log 35). -/
def Obligations.ReplayAndDropTakeTheRemainder : Prop :=
  (∀ (b : List Byte) (p : PortId), readPortPayload b = some p ↔ b = [BitVec.ofNat 8 p.val]) ∧
  (∀ r : Remainder, r.answer =
    [match r.block.direction with
      | .read => 0
      | .write => 1, BitVec.ofNat 8 r.block.width.bytes] ++
    (match r.block.stepping with
      | .increment => 0 :: twoBytes 0
      | .fixed => 1 :: twoBytes 0
      | .wrap span => 2 :: twoBytes span) ++
    [BitVec.ofNat 8 r.block.count] ++ fourBytes r.block.start.toNat ++
    (match r.reason with
      | .timeout => [14, 0]
      | .fault code => [15, BitVec.ofNat 8 code.val]
      | .linkLost => [16, 0]) ++ twoBytes r.epoch.toNat) ∧
  (∀ (c : ChanId) (f : Frame) (s : State), s.Ready c kindReplay f →
    (readPortPayload f.payload = none → AnswersOnly (.replay c) s c f .bad []) ∧
    (∀ p, readPortPayload f.payload = some p → (s.port p).choiceDue = true → exec (.replay c) s = .next s) ∧
    (∀ p, readPortPayload f.payload = some p → (s.port p).choiceDue = false →
      let q := s.port p
      (q.arb.parked[c] = none → AnswersOnly (.replay c) s c f .notHeld []) ∧
      (∀ r, q.arb.parked[c] = some r →
        (q.arb.linkLocked = false → AnswersOnly (.replay c) s c f .noLink []) ∧
        (q.arb.linkLocked = true → q.tlc.resetAsserted = true → AnswersOnly (.replay c) s c f .inReset []) ∧
        (q.arb.linkLocked = true → q.tlc.resetAsserted = false → r.block.haltedOnly = true → q.rc.run ≠ .frozen →
          AnswersOnly (.replay c) s c f .running []) ∧
        (q.arb.linkLocked = true → q.tlc.resetAsserted = false → (r.block.haltedOnly = true → q.rc.run = .frozen) →
          exec (.replay c) s = .next
            (((s.popFrame c).setPort p { q with arb := { q.arb with parked := q.arb.parked.set c none, queue :=
              q.arb.queue ++ [{ chan := c, block := r.block, epochGuard := none, replayOf := some r, age := 0 }] } }).wait
              c f (.access p)))))) ∧
  (∀ (c : ChanId) (f : Frame) (s : State), s.Ready c kindDrop f →
    (readPortPayload f.payload = none → AnswersOnly (.drop c) s c f .bad []) ∧
    (∀ p, readPortPayload f.payload = some p →
      let q := s.port p
      (q.arb.parked[c] = none → AnswersOnly (.drop c) s c f .notHeld []) ∧
      (∀ r, q.arb.parked[c] = some r → exec (.drop c) s = .next
        (((s.popFrame c).setPort p { q with arb := { q.arb with parked := q.arb.parked.set c none } }).answer c f .done
          r.answer))))

/-- R138, R139: an overdue entry that joined earliest is chosen; without one, an entry of the lowest standing, the
earliest of equals. R139, R140, R142: with the link free and an entry chosen, a failed recheck removes the entry as
though it had never been granted; otherwise it leaves the queue with its channel lifted, the others age and lose
their lifts, and its first word goes out with the next tag and the reply limit timer running. The model's choice: the data field
of a READ's frame is 0 (log 33), and without a choice due nothing happens (log 1). -/
def Obligations.GrantChoosesAndSendsTheFirstWord : Prop :=
  (∀ (cls : ChanId → Fin 4) (lifts : ChanSet) (before after : List QueueEntry) (e : QueueEntry),
     let stand (x : QueueEntry) : Nat := 2 * (cls x.chan).val + (if lifts[x.chan] then 1 else 0)
     (6 ≤ e.age → (∀ x ∈ before, x.age < 6) → chooseEntry cls lifts (before ++ e :: after) = some e) ∧
     ((∀ x ∈ before ++ e :: after, x.age < 6) → (∀ x ∈ before, stand e < stand x) → (∀ x ∈ after, stand e ≤ stand x) →
       chooseEntry cls lifts (before ++ e :: after) = some e)) ∧
  (∀ q : Port, q.choiceDue = true ↔ q.arb.use = .idle ∧ q.arb.linkLocked = true ∧ q.arb.queue ≠ []) ∧
  (∀ (p : PortId) (s : State),
     ((s.port p).choiceDue = false → exec (.grant p) s = .next s) ∧
     (∀ e, (s.port p).arb.use = .idle → (s.port p).arb.linkLocked = true →
       chooseEntry (fun c => (s.chan c).cls) (s.port p).arb.lifts (s.port p).arb.queue = some e →
       let q := s.port p
       let rest := q.arb.queue.filter fun x => x.chan ≠ e.chan
       let gone (st : Status) : State :=
         (s.setPort p { q with arb := { q.arb with queue := rest, parked := match e.replayOf with
           | some r => q.arb.parked.set e.chan (some r)
           | none => q.arb.parked } }).finish e.chan st []
       (q.tlc.resetAsserted = true → exec (.grant p) s = .next (gone .inReset)) ∧
       (q.tlc.resetAsserted = false → e.block.haltedOnly = true → q.rc.run ≠ .frozen →
         exec (.grant p) s = .next (gone .running)) ∧
       (q.tlc.resetAsserted = false → (e.block.haltedOnly = true → q.rc.run = .frozen) →
         let b : RunningBlock := { chan := e.chan, block := e.block, wordsDone := 0, readData := [], epoch := q.tlc.epoch }
         let w : FlightWord := { tag := q.arb.nextTag, index := 0, address := e.block.wordAddress 0,
                                 data := e.block.data.getD 0 0 }
         exec (.grant p) s = .next (s.setPort p
           { q with
             tlc := if q.tlc.link = .locked then { q.tlc with outgoing := q.tlc.outgoing ++
               [.access w.tag e.block.direction w.address e.block.width w.data] } else q.tlc,
             arb := { q.arb with
               queue := rest.map fun x => { x with age := x.age + 1 },
               lifts := ChanSet.ofPred fun c => c = e.chan || (q.arb.lifts[c] && !rest.any fun x => x.chan = c),
               use := .executing b w, nextTag := q.arb.nextTag + 1, replyTimer := some q.settings.replyLimit } }))))

/-- R135: the address of word i under each stepping, and the same addresses for the block that continues from word k. -/
def Obligations.WordAddressesFollowTheStepping : Prop :=
  (Width.one.bytes = 1 ∧ Width.two.bytes = 2 ∧ Width.four.bytes = 4) ∧
  ∀ (b : Block) (i k : Nat),
    (b.stepping = .increment → b.wordAddress i = b.start + BitVec.ofNat 32 (i * b.width.bytes)) ∧
    (b.stepping = .fixed → b.wordAddress i = b.start) ∧
    (∀ s, b.stepping = .wrap s →
      b.wordAddress i = BitVec.ofNat 32 (b.start.toNat / s * s + (b.start.toNat - b.start.toNat / s * s +
        i * b.width.bytes) % s)) ∧
    ((∀ s, b.stepping = .wrap s → ∃ n, 3 ≤ n ∧ n ≤ 12 ∧ s = 2 ^ n) →
      (b.fromWord k).wordAddress i = b.wordAddress (k + i) ∧ (b.fromWord k).data.getD i 0 = b.data.getD (k + i) 0 ∧
      (b.fromWord k).count = b.count - k)

/-- R143, R145, R146, R148: a REPLY with the tag of the word in flight completes the word; the next word goes out or
the block is answered DONE; a FAULT ends the block and parks its unfinished part; a draining word frees the link;
another tag is discarded. R142: a word goes out with the next tag, its address and data, and the reply limit timer
starts. R190: the bytes of the block's answer. R144: with a word in flight the reply limit ends the word: the block is
answered TIMEOUT and parked, or the draining link becomes free. R117, R119: a REPLY handed over after a report is taken after
it. With no REPLY handed over, or a report before it, a REPLY changes nothing, and neither does an expiry of a timer that does
not run (log 1); the data field of a READ's frame is 0 (the model's choice, log 33). -/
def Obligations.RepliesAndTheReplyLimitEndTheWord : Prop :=
  (∀ (q : Port) (b : RunningBlock) (i : Nat),
     let w : FlightWord := { tag := q.arb.nextTag, index := i, address := b.block.wordAddress i,
                             data := b.block.data.getD i 0 }
     q.sendWord b i = { q with
       tlc := if q.tlc.link = .locked then { q.tlc with outgoing := q.tlc.outgoing ++
         [.access w.tag b.block.direction w.address b.block.width w.data] } else q.tlc,
       arb := { q.arb with use := .executing b w, nextTag := q.arb.nextTag + 1,
                           replyTimer := some q.settings.replyLimit } }) ∧
  (∀ (b : RunningBlock) (code : Nat), b.answer code =
     [BitVec.ofNat 8 b.wordsDone, BitVec.ofNat 8 code] ++ b.readData.flatMap fun d => match b.block.width with
       | .one => [BitVec.ofNat 8 d.toNat]
       | .two => twoBytes d.toNat
       | .four => fourBytes d.toNat) ∧
  (∀ (p : PortId) (s : State), (∀ r rest, (s.port p).arb.fromLink ≠ .reply r :: rest) → exec (.reply p) s = .next s) ∧
  (∀ (p : PortId) (r : ReplyFrame) (rest : List ArbiterMsg) (s : State), (s.port p).arb.fromLink = .reply r :: rest →
     let q : Port := { s.port p with arb := { (s.port p).arb with fromLink := rest } }
     (∀ b w, q.arb.use = .executing b w → r.tag = w.tag → r.faultCode = none →
       let b1 : RunningBlock := { b with
         wordsDone := b.wordsDone + 1,
         readData := match b.block.direction with
           | .read => b.readData ++ [b.block.width.low r.data]
           | .write => b.readData }
       (b1.wordsDone < b.block.count → exec (.reply p) s = .next (s.setPort p (q.sendWord b1 b1.wordsDone))) ∧
       (b.block.count ≤ b1.wordsDone → exec (.reply p) s = .next
         ((s.setPort p { q with arb := { q.arb with use := .idle, replyTimer := none } }).finish b.chan .done
           (b1.answer 0)))) ∧
     (∀ b w code, q.arb.use = .executing b w → r.tag = w.tag → r.faultCode = some code →
       let r' : Remainder := { block := b.block.fromWord b.wordsDone, reason := .fault code, epoch := b.epoch }
       let a : Arbiter :=
         { q.arb with use := .idle, replyTimer := none, parked := q.arb.parked.set b.chan (some r') }
       exec (.reply p) s = .next ((s.setPort p { q with arb := a }).finish b.chan .fault (b.answer code.val))) ∧
     (∀ w, q.arb.use = .draining w → r.tag = w.tag → exec (.reply p) s = .next
       (s.setPort p { q with arb := { q.arb with use := .idle, replyTimer := none } })) ∧
     (q.arb.use = .idle → exec (.reply p) s = .next (s.setPort p q)) ∧
     (∀ b w, q.arb.use = .executing b w ∨ q.arb.use = .draining w → r.tag ≠ w.tag →
       exec (.reply p) s = .next (s.setPort p q))) ∧
  (∀ (p : PortId) (s : State),
     let q := s.port p
     (∀ b w, q.arb.replyTimer ≠ none → q.arb.use = .executing b w →
       let r' : Remainder := { block := b.block.fromWord b.wordsDone, reason := .timeout, epoch := b.epoch }
       let a : Arbiter :=
         { q.arb with use := .idle, replyTimer := none, parked := q.arb.parked.set b.chan (some r') }
       exec (.replyLimitExpiry p) s = .next
         ((s.setPort p { q with arb := a }).finish b.chan .timeout (b.answer 0))) ∧
     (∀ w, q.arb.replyTimer ≠ none → q.arb.use = .draining w → exec (.replyLimitExpiry p) s = .next
       (s.setPort p { q with arb := { q.arb with use := .idle, replyTimer := none } })) ∧
     (q.arb.replyTimer = none ∨ q.arb.use = .idle → exec (.replyLimitExpiry p) s = .next s))

/-- R151, R152: at the arbiter a lock is recorded; a loss fails the word in flight with LINK_LOST, parks its block and
answers every waiting entry NO_LINK, a REPLAY's remainder returning; an unseat discards the remainders and answers the
block and every entry ABSENT. R156: a report may come before a choice that is due, whose entries it then meets in the
queue, and a loss or an unseat may come before REPLY frames handed over before it, which stay; a lock comes after every frame
and report before it (R117, R119, log 3). A report that is not there, or comes too early, changes nothing (log 1). The entries
are answered in queue order; that the block is answered before them is the model's choice (log 34). -/
def Obligations.LinkAndSeatReportsAtTheArbiter : Prop :=
  ∀ (p : PortId) (frames : List ReplyFrame) (rest : List ArbiterMsg) (s : State),
    let inbox := (s.port p).arb.fromLink
    let q : Port := { s.port p with arb := { (s.port p).arb with fromLink := frames.map .reply ++ rest } }
    ((∀ l, inbox ≠ .report .linkLocked :: l) → exec (.linkLockAtArbiter p) s = .next s) ∧
    ((∀ (fs : List ReplyFrame) l, inbox ≠ fs.map .reply ++ .report .linkLost :: l) →
      exec (.linkLossAtArbiter p) s = .next s) ∧
    ((∀ (fs : List ReplyFrame) l, inbox ≠ fs.map .reply ++ .report .unseat :: l) →
      exec (.unseatAtArbiter p) s = .next s) ∧
    (inbox = .report .linkLocked :: rest → exec (.linkLockAtArbiter p) s = .next
      (s.setPort p { s.port p with arb := { (s.port p).arb with fromLink := rest, linkLocked := true } })) ∧
    (inbox = frames.map .reply ++ .report .linkLost :: rest →
      let lost : Arbiter := { q.arb with linkLocked := false }
      let left (b : RunningBlock) : Remainder :=
        { block := b.block.fromWord b.wordsDone, reason := .linkLost, epoch := b.epoch }
      let t : State := match q.arb.use with
        | .executing b _ =>
          (s.setPort p { q with arb := { lost with
            use := .idle, replyTimer := none,
            parked := q.arb.parked.set b.chan (some (left b)) } }).finish b.chan .linkLost (b.answer 0)
        | .draining _ => s.setPort p { q with arb := { lost with use := .idle, replyTimer := none } }
        | .idle => s.setPort p { q with arb := lost }
      let u := t.setPort p { t.port p with arb := { (t.port p).arb with queue := [] } }
      let parkedAgain (v : State) (e : QueueEntry) : Vector (Option Remainder) 8 := match e.replayOf with
        | some r => (v.port p).arb.parked.set e.chan (some r)
        | none => (v.port p).arb.parked
      exec (.linkLossAtArbiter p) s = .next (q.arb.queue.foldl (fun v e =>
        (v.setPort p { v.port p with arb := { (v.port p).arb with parked := parkedAgain v e } }).finish e.chan
          .noLink []) u)) ∧
    (inbox = frames.map .reply ++ .report .unseat :: rest →
      let t := s.setPort p { q with arb := { q.arb with
        linkLocked := false, queue := [], parked := Vector.replicate 8 none, use := .idle, replyTimer := none } }
      let u : State := match q.arb.use with
        | .executing b _ => t.finish b.chan .absent (b.answer 0)
        | .draining _ => t
        | .idle => t
      exec (.unseatAtArbiter p) s = .next (q.arb.queue.foldl (fun v e => v.finish e.chan .absent []) u))

/-! ### Run control -/

/-- R72 to R76, R81, R92, R94: what entering a run state, sending STOP, sending RUN, joining the hold set and leaving it
do to a port. R80, R91: one channel leaves it only where it stands in it. R81, R92: an outcome of Run Control puts the port as
it stands, raises its event for the channels named, so RESUMED when the last hold goes, and settles the waiting HALTs. R92,
R129: the channels with a claim, and those with a claim or a hold. That the resumer set of an OFFLINE port takes the leavers
is the model's choice (DEDUCED, log 22). -/
def Obligations.StopRunAndHoldOperations : Prop :=
  (∀ (a b : ChanSet) (c d : ChanId) (f : ChanId → Bool),
    a.has c = a[c] ∧ ChanSet.empty.has c = false ∧ (ChanSet.single d).has c = decide (c = d) ∧
    (a.insert d).has c = (decide (c = d) || a.has c) ∧ (a.union b).has c = (a.has c || b.has c) ∧
    (ChanSet.ofPred f).has c = f c) ∧
  (∀ (p : PortId) (o : RunOutcome) (s : State),
    let t := match o.raised with
      | some (kind, chans) => (s.setPort p o.port).sendEvent { port := p, block := .runControl, kind := kind, chans := chans }
      | none => s.setPort p o.port
    s.applyRun p o = match o.settled with
      | some st => t.settleHalts p st
      | none => t) ∧
  ∀ q : Port,
    (∀ c, q.claimants.has c = q.hasClaim c ∧ q.concerned.has c = (q.hasClaim c || q.rc.holds.has c)) ∧
    (∀ (c : ChanId) (board : Bool),
      (q.rc.holds.has c = true → q.removeHold c board = q.removeHolds (ChanSet.single c) board) ∧
      (q.rc.holds.has c = false → q.removeHold c board = q.removeHolds ChanSet.empty board)) ∧
    (q.unheld = true ↔ (∀ c, q.rc.holds.has c = false) ∧ q.rc.boardHold = false) ∧
    (∀ r, q.enter r = { q with
      rc := { q.rc with
        run := r, stopTimer := if r = .stopping then q.rc.stopTimer else none,
        budget := if r = .stopping ∨ r = .stepping then q.rc.budget else 0,
        resumers := if r = .offline then ChanSet.empty else q.rc.resumers },
      mu := { q.mu with runReports := if q.rc.run = r then q.mu.runReports else q.mu.runReports ++ [r] } }) ∧
    (q.startStop = { (q.sendFrame .stop).enter .stopping with
      rc := { ((q.sendFrame .stop).enter .stopping).rc with
        stopTimer := some q.settings.stopLimit, expiries := 0 } }) ∧
    (q.resumeBoard.port = { (q.sendFrame .run).enter .running with
      rc := { ((q.sendFrame .run).enter .running).rc with resumers := ChanSet.empty } } ∧
      q.resumeBoard.raised = some (.resumed, q.claimants.union q.rc.resumers) ∧ q.resumeBoard.settled = none) ∧
    (∀ c, q.addHold c = if q.rc.holds.has c then q else { q with
      rc := { q.rc with holds := q.rc.holds.insert c, resumers := ChanSet.empty } }) ∧
    (∀ (leavers : ChanSet) (board : Bool),
      let q1 : Port := { q with rc := { q.rc with
        holds := ChanSet.ofPred fun c => q.rc.holds.has c && !leavers.has c,
        boardHold := q.rc.boardHold && !board } }
      let q2 : Port := { q1 with rc := { q1.rc with resumers := leavers, budget := 0 } }
      (q1.unheld = false ∨ q.unheld = true →
        q.removeHolds leavers board = { port := q1, raised := none, settled := none }) ∧
      (q1.unheld = true → q.unheld = false →
        (q.rc.run = .frozen ∨ q.rc.run = .stepping ∨ q.rc.run = .unresponsive →
          q.removeHolds leavers board = q2.resumeBoard) ∧
        (q.rc.run = .stopping ∨ q.rc.run = .offline ∨ q.rc.run = .running →
          q.removeHolds leavers board = { port := q2, raised := none, settled := none })))

/-- R163, R169, R182, R184: a request that ends hands over its response, or, marked to end without one, frees its outstanding
place, and so does one that its teardown ends; where nothing executes nothing ends. R78: settling a port answers every HALT
that waits for it, each once, a marked one without response, and changes no other channel and no other block; the order of
several responses is a free value (the model's choice, log 9), and the statement holds for every order. -/
def Obligations.SettlingAnswersEveryWaitingHalt : Prop :=
  (∀ (c : ChanId) (st : Status) (payload : List Byte) (s : State),
    ((s.lane c).executing = none → s.finish c st payload = s) ∧
    (∀ e, (s.lane c).executing = some e → e.silent = false → s.finish c st payload = { s with bench := { s.bench with
      lanes := s.bench.lanes.set c { s.lane c with executing := none },
      output := s.bench.output ++ [{ chan := c, tag := e.tag, status := st, payload := payload }] } }) ∧
    (∀ e, (s.lane c).executing = some e → e.silent = true → s.finish c st payload =
      s.setLane c { s.lane c with executing := none, outstanding := (s.lane c).outstanding - 1 })) ∧
  (∀ (c : ChanId) (w : Wait) (s : State),
    ((∀ e, (s.lane c).executing = some e → e.wait ≠ w) → s.endWait c w = s) ∧
    (∀ e, (s.lane c).executing = some e → e.wait = w → s.endWait c w =
      s.setLane c { s.lane c with executing := none, outstanding := (s.lane c).outstanding - 1 })) ∧
  ∀ (p : PortId) (st : Status) (s : State),
    let t := s.settleHalts p st
    let waits (c : ChanId) : Prop := ∃ e, (s.lane c).executing = some e ∧ e.wait = .settle p
    (∀ c e, (s.lane c).executing = some e → e.wait = .settle p → t.lane c = { s.lane c with
      executing := none,
      outstanding := if e.silent then (s.lane c).outstanding - 1 else (s.lane c).outstanding }) ∧
    (∀ c, ¬ waits c → t.lane c = s.lane c) ∧
    (∃ l, t.bench.output = s.bench.output ++ l ∧
      (∀ r, r ∈ l ↔ ∃ e, (s.lane r.chan).executing = some e ∧ e.wait = .settle p ∧ e.silent = false ∧
        r = { chan := r.chan, tag := e.tag, status := st, payload := [] }) ∧
      (l.map (·.chan)).Nodup) ∧
    t.ports = s.ports ∧ t.chans = s.chans ∧ t.table = s.table ∧ t.cross = s.cross ∧ t.notice = s.notice ∧
    t.desc = s.desc ∧ t.teardowns = s.teardowns ∧ t.pending = s.pending

/-- R77, R78: HALT of a claimant adds its hold and acts by the run state; it waits for the port to settle from RUNNING,
STEPPING and STOPPING and is answered at once in the others. That an OFFLINE port answers by the reset line as last
reported to Run Control is DEDUCED (log 7). -/
def Obligations.HaltHoldsAndStopsTheBoard : Prop :=
  ∀ (c : ChanId) (f : Frame) (s : State),
    (s.AtHead c kindHalt f → (s.chan c).isOpen = false → AnswersOnly (.halt c) s c f .closed []) ∧
    (s.Ready c kindHalt f →
    (readPortPayload f.payload = none → AnswersOnly (.halt c) s c f .bad []) ∧
    (∀ p, readPortPayload f.payload = some p →
      let q := (s.port p).addHold c
      let t := s.popFrame c
      let cleared : Port := { q with rc := { q.rc with budget := 0 } }
      ((s.port p).hasClaim c = false → AnswersOnly (.halt c) s c f .noClaim []) ∧
      ((s.port p).hasClaim c = true →
        ((s.port p).rc.run = .running →
          exec (.halt c) s = .next ((t.setPort p q.startStop).wait c f (.settle p))) ∧
        ((s.port p).rc.run = .stepping →
          exec (.halt c) s = .next ((t.setPort p cleared.startStop).wait c f (.settle p))) ∧
        ((s.port p).rc.run = .stopping →
          exec (.halt c) s = .next ((t.setPort p cleared).wait c f (.settle p))) ∧
        ((s.port p).rc.run = .frozen → exec (.halt c) s = .next ((t.setPort p q).answer c f .done [])) ∧
        ((s.port p).rc.run = .unresponsive →
          exec (.halt c) s = .next ((t.setPort p q).answer c f .unresponsive [])) ∧
        ((s.port p).rc.run = .offline → exec (.halt c) s = .next
          ((t.setPort p q).answer c f (if (s.port p).rc.resetAsserted then .inReset else .noLink) [])))))

/-- R80: RESUME takes the requester's entry, and with a claim the board hold, out of the hold set; it is answered with
the run state and the entries left. -/
def Obligations.ResumeLeavesTheHoldSet : Prop :=
  ∀ (c : ChanId) (f : Frame) (s : State),
    (s.AtHead c kindResume f → (s.chan c).isOpen = false → AnswersOnly (.resume c) s c f .closed []) ∧
    (s.Ready c kindResume f →
    (readPortPayload f.payload = none → AnswersOnly (.resume c) s c f .bad []) ∧
    (∀ p, readPortPayload f.payload = some p →
      let q := s.port p
      let done (leavers : ChanSet) (board : Bool) : Prop :=
        let o := q.removeHolds leavers board
        let left := ((List.finRange 8).filter fun d => o.port.rc.holds.has d).length +
          (if o.port.rc.boardHold then 1 else 0)
        exec (.resume c) s = .next (((s.popFrame c).applyRun p o).answer c f .done
          [match o.port.rc.run with
            | .running => 0
            | .stopping => 1
            | .frozen => 2
            | .stepping => 3
            | .unresponsive => 4
            | .offline => 5, BitVec.ofNat 8 left])
      (q.rc.holds.has c = true → done (ChanSet.single c) (q.rc.boardHold && q.hasClaim c)) ∧
      (q.rc.holds.has c = false → q.rc.boardHold = true → q.hasClaim c = true → done ChanSet.empty true) ∧
      (q.rc.holds.has c = false → q.rc.boardHold = true → q.hasClaim c = false →
        AnswersOnly (.resume c) s c f .noClaim []) ∧
      (q.rc.holds.has c = false → q.rc.boardHold = false → AnswersOnly (.resume c) s c f .notHeld [])))

/-- R82: STEP by the run state and the requester's hold; R191: the bytes of its payload, whose count is from 1 on. That an OFFLINE port answers by the reset line as last reported to
Run Control is DEDUCED (log 7). -/
def Obligations.StepRunsAHeldBoard : Prop :=
  (∀ (b : List Byte) (p : PortId) (n : Nat), readStep b = some (p, n) ↔
    ∃ low high : Byte, b = [BitVec.ofNat 8 p.val, low, high] ∧ n = low.toNat + 256 * high.toNat ∧ 1 ≤ n) ∧
  ∀ (c : ChanId) (f : Frame) (s : State),
    (s.AtHead c kindStep f → (s.chan c).isOpen = false → AnswersOnly (.stepBoard c) s c f .closed []) ∧
    (s.Ready c kindStep f →
    (readStep f.payload = none → AnswersOnly (.stepBoard c) s c f .bad []) ∧
    (∀ p n, readStep f.payload = some (p, n) →
      let q := s.port p
      let t := s.popFrame c
      let raised : Nat := if q.rc.budget + n ≤ 65535 then q.rc.budget + n else 65535
      (q.rc.run = .running → AnswersOnly (.stepBoard c) s c f .running []) ∧
      (q.rc.run = .offline →
        AnswersOnly (.stepBoard c) s c f (if q.rc.resetAsserted then .inReset else .noLink) []) ∧
      (q.rc.run = .unresponsive → AnswersOnly (.stepBoard c) s c f .unresponsive []) ∧
      (q.rc.run = .frozen ∨ q.rc.run = .stepping ∨ q.rc.run = .stopping → q.rc.holds.has c = false →
        AnswersOnly (.stepBoard c) s c f .notHeld []) ∧
      (q.rc.run = .frozen → q.rc.holds.has c = true → exec (.stepBoard c) s = .next
        ((t.setPort p ((({ q with rc := { q.rc with budget := n } } : Port).sendFrame .run).enter .stepping)).answer c f
          .done (halfBytes (halfOf n)))) ∧
      (q.rc.run = .stepping ∨ q.rc.run = .stopping → q.rc.holds.has c = true → exec (.stepBoard c) s = .next
        ((t.setPort p { q with rc := { q.rc with budget := raised } }).answer c f .done (halfBytes (halfOf raised))))))

/-- R79, R83: a FREEZE action taken holds and stops the board for an OPEN owner and is dropped for a CLOSED one; the
report of an observation taken lowers the budget of a STEPPING port, and the last one stops the board. R46: FREEZE
actions are taken in the order dispatched, of either sender; R45: a report comes after the FREEZE actions of its unit
before it (log 3). Without one in its turn nothing happens (the model's choice, log 1). -/
def Obligations.FreezeAndObservationReports : Prop :=
  ∀ (p : PortId) (s : State),
    let q := s.port p
    let act (r : Port) (owner : ChanId) : State :=
      if (s.chan owner).isOpen then
        let h := r.addHold owner
        let cleared : Port := { h with rc := { h.rc with budget := 0 } }
        s.setPort p (match q.rc.run with
          | .running => h.startStop
          | .stepping => cleared.startStop
          | .stopping => cleared
          | .frozen => h
          | .unresponsive => h
          | .offline => h)
      else s.setPort p r
    let isFreeze (m : UnitToRun) : Prop := ∃ sender owner, m = .freeze sender owner
    let isCross (m : UnitToRun) : Prop := ∃ owner, m = .freeze true owner
    (∀ owner rest, q.rc.fromUnits = .freeze false owner :: rest →
      exec (.freeze p false) s = .next (act { q with rc := { q.rc with fromUnits := rest } } owner)) ∧
    ((∀ owner rest, q.rc.fromUnits ≠ .freeze false owner :: rest) → exec (.freeze p false) s = .next s) ∧
    (∀ owner before after, q.rc.fromUnits = before ++ .freeze true owner :: after → (∀ m ∈ before, ¬ isFreeze m) →
      exec (.freeze p true) s = .next (act { q with rc := { q.rc with fromUnits := before ++ after } } owner)) ∧
    (∀ owner before after, q.rc.fromUnits = before ++ .freeze false owner :: after → (∀ m ∈ before, ¬ isFreeze m) →
      exec (.freeze p true) s = .next s) ∧
    ((∀ m ∈ q.rc.fromUnits, ¬ isFreeze m) → exec (.freeze p true) s = .next s) ∧
    (∀ owner before after, q.rc.fromUnits = before ++ .freeze false owner :: after → (∀ m ∈ before, isCross m) →
      exec (.observationTaken p) s = .next s) ∧
    ((∀ m ∈ q.rc.fromUnits, isCross m) → exec (.observationTaken p) s = .next s) ∧
    (∀ before after, q.rc.fromUnits = before ++ .taken :: after → (∀ m ∈ before, isCross m) →
      let taken : Port := { q with rc := { q.rc with fromUnits := before ++ after } }
      let less : Port := { q with rc := { q.rc with fromUnits := before ++ after, budget := q.rc.budget - 1 } }
      (q.rc.run ≠ .stepping → exec (.observationTaken p) s = .next (s.setPort p taken)) ∧
      (q.rc.run = .stepping → 1 < q.rc.budget → exec (.observationTaken p) s = .next (s.setPort p less)) ∧
      (q.rc.run = .stepping → q.rc.budget ≤ 1 → exec (.observationTaken p) s = .next (s.setPort p less.startStop)))

/-- R84: a STOPPED frame by the run state, the hold set and the budget. R85, R76: the first expiry of the stop timer
sends STOP again; the second gives UNRESPONSIVE, or RUNNING when the hold set is empty. An expiry of a timer that
does not run, or outside STOPPING, is discarded. STOPPED frames and reports are taken in the one order handed over
(DEDUCED, log 3), and without a STOPPED frame in its turn nothing happens (the model's choice, log 1). -/
def Obligations.StoppedAndTheStopTimerAct : Prop :=
  (∀ (p : PortId) (s : State),
     ((s.port p).rc.reports.head? ≠ some .stopped → exec (.stopped p) s = .next s) ∧
     (∀ rest, (s.port p).rc.reports = .stopped :: rest →
       let q : Port := { s.port p with rc := { (s.port p).rc with reports := rest } }
       let raise (t : State) (k : EventCode) (cs : ChanSet) : State :=
         t.sendEvent { port := p, block := .runControl, kind := k, chans := cs }
       let selfStopped : Port := if q.rc.boardHold then q else
         { q with rc := { q.rc with boardHold := true, resumers := ChanSet.empty } }
       (q.rc.run = .stopping → q.unheld = true → exec (.stopped p) s = .next
         (raise (s.setPort p q.resumeBoard.port) .resumed (q.claimants.union q.rc.resumers))) ∧
       (q.rc.run = .stopping → q.unheld = false → 0 < q.rc.budget → exec (.stopped p) s = .next
         (s.setPort p ((q.sendFrame .run).enter .stepping))) ∧
       (q.rc.run = .stopping → q.unheld = false → q.rc.budget = 0 → exec (.stopped p) s = .next
         ((raise (s.setPort p (q.enter .frozen)) .frozen q.concerned).settleHalts p .done)) ∧
       (q.rc.run = .unresponsive → exec (.stopped p) s = .next
         (raise (s.setPort p (q.enter .frozen)) .frozen q.concerned)) ∧
       (q.rc.run = .running ∨ q.rc.run = .stepping → exec (.stopped p) s = .next
         ((raise (s.setPort p (selfStopped.enter .frozen)) .selfStop q.concerned).settleHalts p .done)) ∧
       (q.rc.run = .frozen ∨ q.rc.run = .offline → exec (.stopped p) s = .next (s.setPort p q)))) ∧
  (∀ (p : PortId) (s : State),
     let q := s.port p
     (q.rc.run ≠ .stopping ∨ q.rc.stopTimer = none → exec (.stopTimerExpiry p) s = .next (s.setPort p q)) ∧
     (q.rc.run = .stopping → q.rc.stopTimer ≠ none →
       (q.rc.expiries = 0 → exec (.stopTimerExpiry p) s = .next (s.setPort p { q.sendFrame .stop with
         rc := { q.rc with expiries := 1, stopTimer := some q.settings.stopLimit } })) ∧
       (q.rc.expiries ≠ 0 → q.unheld = true → exec (.stopTimerExpiry p) s = .next
         ((s.setPort p q.resumeBoard.port).sendEvent
           { port := p, block := .runControl, kind := .resumed, chans := q.claimants.union q.rc.resumers })) ∧
       (q.rc.expiries ≠ 0 → q.unheld = false → exec (.stopTimerExpiry p) s = .next
         (((s.setPort p (q.enter .unresponsive)).sendEvent
           { port := p, block := .runControl, kind := .unresponsive, chans := q.concerned }).settleHalts p
           .unresponsive))))

/-- R87 to R90: at Run Control a link loss, an assertion of the reset line and an unseat make the port OFFLINE and answer
a waiting HALT; a lock and a release of the line recompute the run state once the board is reachable, as last reported
(log 7). R86: a STOPPED frame handed over before a loss and not yet taken is never taken; so at an unseat (log 8). -/
def Obligations.LinkResetAndSeatReportsAtRunControl : Prop :=
  ∀ (p : PortId) (n : Nat) (rest : List RunReport) (s : State),
    let q : Port := { s.port p with rc := { (s.port p).rc with reports := rest } }
    let again (r : Port) : Port :=
      if r.unheld then (r.sendFrame .run).enter .running
      else ({ r with rc := { r.rc with budget := 0 } } : Port).startStop
    ((s.port p).rc.reports = List.replicate n .stopped ++ .linkLost :: rest → exec (.linkLossAtRunControl p) s = .next
      ((s.setPort p (({ q with rc := { q.rc with linkLocked := false } } : Port).enter .offline)).settleHalts p
        .noLink)) ∧
    ((s.port p).rc.reports = .resetAsserted :: rest → exec (.resetAsserted p) s = .next
      ((s.setPort p ((({ q with rc := { q.rc with resetAsserted := true } } : Port).enter .offline).removeHolds
        ChanSet.empty true).port).settleHalts p .inReset)) ∧
    ((s.port p).rc.reports = List.replicate n .stopped ++ .unseat :: rest → exec (.unseatAtRunControl p) s = .next
      ((s.setPort p (({ q with rc := { q.rc with
        linkLocked := false, holds := ChanSet.empty, boardHold := false } } : Port).enter .offline)).settleHalts
        p .absent)) ∧
    ((s.port p).rc.reports = .linkLocked :: rest →
      let r : Port := { q with rc := { q.rc with linkLocked := true } }
      exec (.linkLockAtRunControl p) s = .next (s.setPort p (if q.rc.resetAsserted = false then again r else r))) ∧
    ((s.port p).rc.reports = .resetReleased :: rest →
      let r : Port := { q with rc := { q.rc with resetAsserted := false } }
      exec (.resetReleased p) s = .next (s.setPort p (if q.rc.linkLocked = true then again r else r)))

/-! ### Target links and fixture lines -/

/-- R127, R128, R130: DRIVE by a SOLE holder sets the lines it names, a change of the reset line being reported to Run
Control; PORTSTAT gives the port's values and clears the credit-violation flag. R126: the return to safe levels sets
both lines, with the same report. R191: the bytes of DRIVE's payload and of PORTSTAT's answer, the gate's as GATE gives
them. -/
def Obligations.DriveSafeLevelsAndPortstat : Prop :=
  (∀ (b : List Byte) (r : DriveRequest), readDrive b = some r ↔
    let code (x : Option Bool) : Byte := match x with
      | none => 0
      | some true => 1
      | some false => 2
    b = [BitVec.ofNat 8 r.port.val, code r.reset, code r.power] ∧ (r.reset ≠ none ∨ r.power ≠ none)) ∧
  (∀ q : Port, ∃ holds status : Byte, (∀ c : ChanId, holds.getLsbD c.val = q.rc.holds[c]) ∧
    (∀ l : LineId, status.getLsbD l.val = q.tlc.status[l]) ∧ status.toNat < 16 ∧
    ∃ claims : List (ChanId × ClaimMode),
      (∀ c m, (c, m) ∈ claims ↔ q.arb.claims[c] = some m) ∧ (claims.map (·.1)).Pairwise (· < ·) ∧
      q.answer =
        ([match q.tlc.seat with
          | .empty => 0
          | .arriving => 1
          | .seated => 2
          | .leaving => 3] : List Byte) ++ twoBytes q.tlc.epoch.toNat ++
        [match q.tlc.link with
          | .down => 0
          | .hunting => 1
          | .locked => 2, BitVec.ofNat 8 q.tlc.credits, status, if q.tlc.resetAsserted then 1 else 2,
         if q.tlc.powerOn then 1 else 2, if q.tlc.violation then 1 else 0,
         match q.rc.run with
          | .running => 0
          | .stopping => 1
          | .frozen => 2
          | .stepping => 3
          | .unresponsive => 4
          | .offline => 5, holds, if q.rc.boardHold then 1 else 0] ++ twoBytes q.rc.budget ++
        [BitVec.ofNat 8 claims.length] ++
        (claims.flatMap fun x => [BitVec.ofNat 8 x.1.val, match x.2 with
          | .shared => 0
          | .sole => 1]) ++ q.gate.answer) ∧
  ((∀ (c : ChanId) (f : Frame) (s : State), s.Ready c kindDrive f →
     (readDrive f.payload = none → AnswersOnly (.drive c) s c f .bad []) ∧
     (∀ r, readDrive f.payload = some r →
       let q := s.port r.port
       let reset := r.reset.getD q.tlc.resetAsserted
       let power := r.power.getD q.tlc.powerOn
       (q.hasSole c = false → AnswersOnly (.drive c) s c f .noClaim []) ∧
       (q.hasSole c = true → exec (.drive c) s = .next
         (((s.popFrame c).setPort r.port { q with
           tlc := { q.tlc with resetAsserted := reset, powerOn := power },
           rc := { q.rc with reports := if q.tlc.resetAsserted = reset then q.rc.reports else
             q.rc.reports ++ [if reset then .resetAsserted else .resetReleased] } }).answer c f .done
           [if reset then 1 else 2, if power then 1 else 2])))) ∧
   (∀ (c : ChanId) (f : Frame) (s : State), s.Ready c kindPortstat f →
     (readPortPayload f.payload = none → AnswersOnly (.portstat c) s c f .bad []) ∧
     (∀ p, readPortPayload f.payload = some p → exec (.portstat c) s = .next
       (((s.popFrame c).setPort p { s.port p with tlc := { (s.port p).tlc with violation := false } }).answer c f .done
         (s.port p).answer)))) ∧
  (∀ q : Port,
     q.toSafeLevels.tlc = { q.tlc with resetAsserted := q.settings.safeResetAsserted, powerOn := q.settings.safePowerOn } ∧
     q.toSafeLevels.rc.reports =
       (if q.tlc.resetAsserted = q.settings.safeResetAsserted then q.rc.reports
         else q.rc.reports ++ [if q.settings.safeResetAsserted then .resetAsserted else .resetReleased]) ∧
     q.toSafeLevels = { q with tlc := q.toSafeLevels.tlc, rc := { q.rc with reports := q.toSafeLevels.rc.reports } })

/-- R112: the seat states under a change of the filtered level. A level that does not change, and any level during the
walk, is not looked at (R110, R194). R112, R113, R114: an expiry of a running debounce timer seats a board that
arrives, with a new epoch, and unseats one that leaves; any other expiry is discarded. That a seating and an unseat
leave no superframe expected is the model's choice (log 14). A level that is reported as it was, and an expiry of a
timer that does not run, change nothing (log 1). R148: an unseat on its way to the arbiter discards the remainders before
any new epoch is given; R95: one on its way to the gate finds it CLOSED. So the expiry that seats a board waits for both
(log 4). -/
def Obligations.SeatStatesFollowTheTable : Prop :=
  (∀ (p : PortId) (high : Bool) (s : State),
     let q := s.port p
     let seat (x : SeatState) (timer : Option Nat) : State :=
       s.setPort p { q with tlc := { q.tlc with seatHigh := high, seat := x, debounce := timer } }
     (s.desc.walking = true ∨ q.tlc.seatHigh = high → exec (.seatChange p high) s = .next s) ∧
     (s.desc.walking = false → q.tlc.seatHigh ≠ high →
       (q.tlc.seat = .empty → high = true →
         exec (.seatChange p high) s = .next (seat .arriving (some q.settings.debounce))) ∧
       (q.tlc.seat = .arriving → high = false → exec (.seatChange p high) s = .next (seat .empty none)) ∧
       (q.tlc.seat = .seated → high = false →
         exec (.seatChange p high) s = .next (seat .leaving (some q.settings.debounce))) ∧
       (q.tlc.seat = .leaving → high = true → exec (.seatChange p high) s = .next (seat .seated none)))) ∧
  (∀ (p : PortId) (s : State),
     let q := s.port p
     (q.tlc.debounce ≠ none → q.tlc.seat = .arriving → (.report .unseat ∈ q.arb.fromLink ∨ 0 < q.gate.unseats) →
       exec (.debounceExpiry p) s = .next s) ∧
     (q.tlc.debounce ≠ none → q.tlc.seat = .arriving → .report .unseat ∉ q.arb.fromLink → q.gate.unseats = 0 →
       exec (.debounceExpiry p) s = .next
       ((s.setPort p { q with
         tlc := { q.tlc with seat := .seated, debounce := none, epoch := q.tlc.epoch + 1, link := .hunting,
                             goodSync := 0, badSync := 0, expecting := false },
         mu := { q.mu with linkReports := q.mu.linkReports ++ [.link .hunting] } }).sendEvent
         { port := p, block := .linkController, kind := .seated, chans := q.claimants })) ∧
     (q.tlc.debounce ≠ none → q.tlc.seat = .leaving → exec (.debounceExpiry p) s = .next
       ((s.setPort p ({ q with
         tlc := { q.tlc with seat := .empty, debounce := none, link := .down, goodSync := 0, badSync := 0,
                             expecting := false, outgoing := [] },
         gate := { (if q.tlc.link = .locked then
             { q.gate with isOpen := false, span := 0, closingMark := false } else q.gate) with
           unseats := q.gate.unseats + 1 },
         rc := { q.rc with reports := q.rc.reports ++ [.unseat] },
         mu := { q.mu with linkReports := q.mu.linkReports ++ [.unseat] },
         arb := { q.arb with fromLink := q.arb.fromLink ++ [.report .unseat] } } : Port).toSafeLevels).sendEvent
         { port := p, block := .linkController, kind := .unseated, chans := q.concerned })) ∧
     (q.tlc.debounce = none ∨ q.tlc.seat = .empty ∨ q.tlc.seat = .seated → exec (.debounceExpiry p) s = .next s))

/-- R124, R125, R38: a change of a filtered status level is handed on in SEATED and LEAVING, stamped with the epoch,
where it waits or withdraws a waiting edge of its line; in EMPTY and ARRIVING only the level changes. A level that is
reported as it was changes nothing (the model's choice, log 1), and so does any change during the walk (R194). R31: with
the oldest event withdrawn, no event of the unit has begun (DEDUCED, log 5). -/
def Obligations.StatusEdgesWaitOrWithdraw : Prop :=
  ∀ (p : PortId) (l : LineId) (high : Bool) (s : State),
    let q := s.port p
    let q1 : Port := { q with tlc := { q.tlc with status := q.tlc.status.set l high } }
    let sameLine (x : MatchEvent) : Prop := ∃ e ep, x = .edge l e ep
    (s.desc.walking = true ∨ q.tlc.status[l] = high → exec (.statusEdge p l high) s = .next s) ∧
    (s.desc.walking = false → q.tlc.status[l] ≠ high →
      (q.tlc.seat = .empty ∨ q.tlc.seat = .arriving → exec (.statusEdge p l high) s = .next (s.setPort p q1)) ∧
      (q.tlc.seat = .seated ∨ q.tlc.seat = .leaving → (∀ x ∈ q.mu.events, ¬ sameLine x) →
        exec (.statusEdge p l high) s = .next (s.setPort p { q1 with mu := { q.mu with
          events := q.mu.events ++ [.edge l (if high then .rise else .fall) q.tlc.epoch] } })) ∧
      (q.tlc.seat = .seated ∨ q.tlc.seat = .leaving → (∃ x ∈ q.mu.events, sameLine x) →
        ∃ other : MatchEvent → Bool, (∀ x, other x = true ↔ ¬ sameLine x) ∧
          exec (.statusEdge p l high) s = .next (s.setPort p { q1 with mu := { q.mu with
            events := q.mu.events.filter other,
            view := if q.mu.events.head?.any fun x => !other x then { q.mu.view with begun := false }
              else q.mu.view } })))

/-- R116, R117, R123: a superframe is judged, moves the good and bad counts, locks the link at the third good one in a row
and loses it at the third bad one; a good one on a LOCKED link has its sent count checked and its frames taken. That a loss
leaves no superframe expected is the model's choice (log 14). -/
def Obligations.SuperframesMoveTheLink : Prop :=
  ∀ (p : PortId) (f : BoardSuperframe) (s : State),
    let q := s.port p
    let good : Prop := f.checkAgrees = true ∧
      (f.sync = .atExpected ∨ (f.sync = .elsewhere ∧ q.tlc.link = .hunting ∧ q.tlc.expecting = false))
    (q.tlc.link = .down → exec (.boardSuperframe p f) s = .next s) ∧
    (q.tlc.link = .hunting → good → q.tlc.goodSync + 1 ≠ 3 → exec (.boardSuperframe p f) s = .next
      (s.setPort p { q with tlc := { q.tlc with goodSync := q.tlc.goodSync + 1, expecting := true } })) ∧
    (q.tlc.link = .hunting → good → q.tlc.goodSync + 1 = 3 → exec (.boardSuperframe p f) s = .next
      ((s.setPort p { q with
        tlc := { q.tlc with link := .locked, goodSync := 0, badSync := 0, expecting := true, received := f.sentCount },
        rc := { q.rc with reports := q.rc.reports ++ [.linkLocked] },
        mu := { q.mu with linkReports := q.mu.linkReports ++ [.link .locked] },
        arb := { q.arb with fromLink := q.arb.fromLink ++ [.report .linkLocked] } }).sendEvent
        { port := p, block := .linkController, kind := .locked, chans := q.concerned })) ∧
    (q.tlc.link = .hunting → ¬ good → exec (.boardSuperframe p f) s = .next
      (s.setPort p { q with tlc := { q.tlc with goodSync := 0, expecting := false } })) ∧
    (q.tlc.link = .locked → good →
      let d := (f.sentCount - q.tlc.received).toNat
      let q1 : Port := { q with tlc := { q.tlc with
        badSync := 0, received := f.sentCount, violation := q.tlc.violation || decide (8 < d) } }
      exec (.boardSuperframe p f) s = .next (s.setPort p (f.frames.foldl Port.takeFrame q1))) ∧
    (q.tlc.link = .locked → ¬ good → q.tlc.badSync + 1 ≠ 3 → exec (.boardSuperframe p f) s = .next
      (s.setPort p { q with tlc := { q.tlc with badSync := q.tlc.badSync + 1 } })) ∧
    (q.tlc.link = .locked → ¬ good → q.tlc.badSync + 1 = 3 → exec (.boardSuperframe p f) s = .next
      ((s.setPort p { q with
        tlc := { q.tlc with link := .hunting, goodSync := 0, badSync := 0, expecting := false, outgoing := [] },
        gate := { q.gate with isOpen := false, span := 0, closingMark := false },
        rc := { q.rc with reports := q.rc.reports ++ [.linkLost] },
        mu := { q.mu with linkReports := q.mu.linkReports ++ [.link .hunting] },
        arb := { q.arb with fromLink := q.arb.fromLink ++ [.report .linkLost] } }).sendEvent
        { port := p, block := .linkController, kind := .lost, chans := q.concerned }))

/-- R119, R120, R122: an OBS frame is counted, and waits at the Match Unit against a credit or sets the credit-violation
flag; one with an unlisted field is counted only. A REPLY waits at the arbiter, a STOPPED at Run Control. R115,
R118, R121, R122: in HUNTING and LOCKED a superframe leaves with the credit total and the oldest frames that have
room; a frame handed over waits while LOCKED and is discarded otherwise; a returned credit is counted. A REPLY with an
unlisted tag, result or fault code is discarded. R115: Pn_CK, Pn_DO and Pn_FS are held low in DOWN, and so before a board is
SEATED, and nothing is sent then; they are driven in HUNTING and LOCKED. That a driven output has no level of its own in the
model is the model's choice (log 36), and so is that a superframe with the link DOWN, or a return that was not handed over,
changes nothing (log 1). -/
def Obligations.FramesAndCreditsOfTheLink : Prop :=
  (∀ q : Port,
     (∀ o ob, checkedObs o = some ob → 0 < q.tlc.credits → q.takeFrame (.obs o) = { q with
       tlc := { q.tlc with received := q.tlc.received + 1, credits := q.tlc.credits - 1 },
       mu := { q.mu with events := q.mu.events ++ [.obs ob q.tlc.epoch] } }) ∧
     (∀ o ob, checkedObs o = some ob → q.tlc.credits = 0 → q.takeFrame (.obs o) = { q with
       tlc := { q.tlc with received := q.tlc.received + 1, violation := true } }) ∧
     (∀ o, checkedObs o = none → q.takeFrame (.obs o) = { q with
       tlc := { q.tlc with received := q.tlc.received + 1 } }) ∧
     (∀ o ob, checkedObs o = some ob ↔ (∃ d w og, ∃ h : o.initiator < 16, o.direction = some d ∧
       o.width = w.bytes ∧ o.origin = some og ∧
       ob = { address := o.address, data := w.low o.data, direction := d, width := w, initiator := ⟨o.initiator, h⟩,
              origin := og, sequence := o.sequence })) ∧
     (∀ tag res data r, checkedReply tag res data = some r ↔ tag < 16 ∧ r.tag.toNat = tag ∧ r.data = data ∧
       ((res = .ok ∧ r.faultCode = none) ∨ ∃ code : Fin 16, res = .fault code.val ∧ r.faultCode = some code)) ∧
     (∀ tag res data r, checkedReply tag res data = some r →
       q.takeFrame (.reply tag res data) = { q with arb := { q.arb with fromLink := q.arb.fromLink ++ [.reply r] } }) ∧
     (∀ tag res data, checkedReply tag res data = none → q.takeFrame (.reply tag res data) = q) ∧
     q.takeFrame .stopped = { q with rc := { q.rc with reports := q.rc.reports ++ [.stopped] } } ∧
     q.takeFrame .otherKind = q) ∧
  (∀ q : Port,
     (q.tlc.link = .down → q.tlc.outputs = { clock := .low, dataOut := .low, strobe := .low }) ∧
     (q.tlc.link ≠ .down → q.tlc.outputs = { clock := .driven, dataOut := .driven, strobe := .driven }) ∧
     (q.seatHolds → q.tlc.seat = .empty ∨ q.tlc.seat = .arriving →
       q.tlc.outputs = { clock := .low, dataOut := .low, strobe := .low })) ∧
  ((∀ (p : PortId) (room : Nat) (s : State),
     let q := s.port p
     (q.tlc.link = .down → exec (.outgoingSuperframe p room) s = .next s) ∧
     (q.tlc.link ≠ .down → exec (.outgoingSuperframe p room) s = .next (s.setPort p { q with tlc := { q.tlc with
       outgoing := q.tlc.outgoing.drop room,
       sentFrames := q.tlc.sentFrames ++ [{ creditTotal := q.tlc.received + BitVec.ofNat 8 q.tlc.credits,
                                            frames := q.tlc.outgoing.take room }] } }))) ∧
   (∀ (q : Port) (f : LinkFrame),
     (q.tlc.link = .locked → q.sendFrame f = { q with tlc := { q.tlc with outgoing := q.tlc.outgoing ++ [f] } }) ∧
     (q.tlc.link ≠ .locked → q.sendFrame f = q)) ∧
   (∀ (p : PortId) (s : State),
     let q := s.port p
     (q.tlc.creditReturns = 0 → exec (.creditReturn p) s = .next s) ∧
     (0 < q.tlc.creditReturns → exec (.creditReturn p) s = .next (s.setPort p { q with tlc := { q.tlc with
       credits := q.tlc.credits + 1, creditReturns := q.tlc.creditReturns - 1 } }))))

/-! ### Capture gates -/

/-- R103: GATE OPEN by a claimant of a port with a LOCKED link opens the gate as GATE_OPEN does, with the channel as
opener; GATE CLOSE closes an OPEN gate and leaves a CLOSED one; both report the gate. R185, R191: the bytes of GATE's
payload and answer; the opener bytes of an absent opener are the model's choice (log 32). -/
def Obligations.GateRequestOpensAndCloses : Prop :=
  (∀ (b : List Byte) (p : PortId) (op : Option Half), readGate b = some (p, op) ↔
    ∃ low high : Byte, (b = [BitVec.ofNat 8 p.val, 0, low, high] ∧ op = some (high ++ low)) ∨
      (b = [BitVec.ofNat 8 p.val, 1, low, high] ∧ op = none)) ∧
  (∀ g : Gate, g.answer =
    [if g.isOpen then 1 else 0] ++
    (match g.opener with
      | none => [0, 0, 0]
      | some (.record h) => [1, BitVec.ofNat 8 h.slot, h.issue]
      | some (.channel c) => [2, BitVec.ofNat 8 c.val, 0]) ++
    twoBytes g.span ++ [if g.gap then 1 else 0]) ∧
  ∀ (c : ChanId) (f : Frame) (s : State),
    (s.AtHead c kindGate f → (s.chan c).isOpen = false → AnswersOnly (.gate c) s c f .closed []) ∧
    (s.Ready c kindGate f →
    (readGate f.payload = none → AnswersOnly (.gate c) s c f .bad []) ∧
    (∀ p op, readGate f.payload = some (p, op) →
      let q := s.port p
      let done (g : Gate) : Prop := exec (.gate c) s = .next
        (((s.popFrame c).setPort p { q with gate := g }).answer c f .done g.answer)
      (q.hasClaim c = false → AnswersOnly (.gate c) s c f .noClaim []) ∧
      (∀ span, op = some span → q.hasClaim c = true →
        (q.tlc.link ≠ .locked → AnswersOnly (.gate c) s c f .noLink []) ∧
        (q.tlc.link = .locked → done { q.gate with
          isOpen := true, span := span.toNat, opener := some (.channel c), gap := false, missed := 0,
          closingMark := false })) ∧
      (op = none → q.hasClaim c = true →
        (q.gate.isOpen = true → done { q.gate with isOpen := false, span := 0, closingMark := false }) ∧
        (q.gate.isOpen = false → done q.gate))))

/-- R97, R98, R104: GATE_OPEN from either sender opens the gate with a fresh window while the link is LOCKED and is
discarded otherwise; GATE_CLOSE closes an OPEN gate, with the closing mark for an observation's walk, and changes nothing
on a CLOSED one; an unseat closes the gate. -/
def Obligations.GateActionsOpenAndClose : Prop :=
  ∀ (p : PortId) (cross : Bool) (s : State),
    let q := s.port p
    let inbox := if cross then q.gate.fromCross else q.gate.fromMatch
    (∀ span h kind rest, inbox = .openGate span h kind :: rest →
      let g : Gate := if cross then { q.gate with fromCross := rest } else { q.gate with fromMatch := rest }
      (q.tlc.link = .locked → exec (.gateOpen p cross) s = .next (s.setPort p { q with gate := { g with
        isOpen := true, span := span.toNat, opener := some (.record h), gap := false, missed := 0,
        closingMark := false } })) ∧
      (q.tlc.link ≠ .locked → exec (.gateOpen p cross) s = .next (s.setPort p { q with gate := g }))) ∧
    (∀ kind rest, inbox = .closeGate kind :: rest →
      let g : Gate := if cross then { q.gate with fromCross := rest } else { q.gate with fromMatch := rest }
      (q.gate.isOpen = true → exec (.gateClose p cross) s = .next (s.setPort p { q with gate := { g with
        isOpen := false, span := 0, closingMark := decide (kind = .observation) } })) ∧
      (q.gate.isOpen = false → exec (.gateClose p cross) s = .next (s.setPort p { q with gate := g }))) ∧
    (0 < q.gate.unseats → exec (.unseatAtGate p) s = .next (s.setPort p { q with gate := { q.gate with
      isOpen := false, span := 0, closingMark := false, unseats := q.gate.unseats - 1 } }))

/-- R99 to R102, R45: the decision on an observation handed over: let go, sent as a capture record with the missed count,
or missed; a sent one lowers a counting span, whose last closes the gate; the credit is handed back. No hand-over is taken
while a record is being sent. R189: the 18 bytes of a capture record. -/
def Obligations.GateDecidesEachObservation : Prop :=
  (∀ (p : PortId) (epoch : Half) (o : Observation) (missed : Nat), captureRecord p epoch o missed =
    [BitVec.ofNat 8 p.val] ++ twoBytes epoch.toNat ++ twoBytes o.sequence.toNat ++ fourBytes o.address.toNat ++
    fourBytes o.data.toNat ++
    [match o.direction with
      | .read => 0
      | .write => 1, BitVec.ofNat 8 o.width.bytes, BitVec.ofNat 8 o.initiator.val,
     match o.origin with
      | .board => 0
      | .debug => 1, BitVec.ofNat 8 missed]) ∧
  ∀ (p : PortId) (ready : Bool) (s : State),
    let q := s.port p
    (q.gate.sending = true → exec (.gateDecision p ready) s = .next s) ∧
    (exec (.endOfSending p) s = .next (s.setPort p { q with gate := { q.gate with sending := false } })) ∧
    (∀ o epoch rest, q.gate.sending = false → q.gate.fromMatch = .handOver o epoch :: rest →
      let g : Gate := { q.gate with fromMatch := rest, closingMark := false }
      let sent : Gate := { g with sending := true, missed := 0,
                                  sent := q.gate.sent ++ [captureRecord p epoch o q.gate.missed] }
      let done (x : Gate) : Prop := exec (.gateDecision p ready) s = .next (s.setPort p { q with
        gate := x, tlc := { q.tlc with creditReturns := q.tlc.creditReturns + 1 } })
      (q.gate.isOpen = false → q.gate.closingMark = false → done g) ∧
      (q.gate.isOpen = true ∨ q.gate.closingMark = true → ready = false →
        done { g with gap := true, missed := if q.gate.missed + 1 ≤ 255 then q.gate.missed + 1 else 255 }) ∧
      (q.gate.isOpen = false → q.gate.closingMark = true → ready = true → done sent) ∧
      (q.gate.isOpen = true → q.gate.span = 0 → ready = true → done sent) ∧
      (q.gate.isOpen = true → 1 < q.gate.span → ready = true → done { sent with span := q.gate.span - 1 }) ∧
      (q.gate.isOpen = true → q.gate.span = 1 → ready = true → done { sent with span := 0, isOpen := false }))

/-! ### Watch records -/

/-- R2: a handle names the record of its slot when the slot is not FREE and the issue numbers agree. R10: the rights to read it.
R33: the room of a chain. R13, R15, R3, R31, R51: PLACE is answered STALE, DENIED or FULL by the first check that fails; otherwise the record
stands in the lowest-numbered FREE slot under the next placement number and in the chain of every unit it concerns, a
running silence record has its timer at the full limit, every other timer stays but for those that a change not yet taken
names (R18), and the response waits for the change. R35: it is made with the
units concerned between events, and waits for that (log 4, log 5). R14, R185, R187, R188: the bytes of an image and its
validity; the model's choice: a set bit above the snapshot's is refused (log 16), the initiator number under ANY is not
read (log 17), and an after handle whose slot is above 95 is refused (log 28). -/
def Obligations.PlaceStoresTheRecord : Prop :=
  (∀ (b : List Byte) (i : Nat), byteAt b i = (b.getD i 0).toNat ∧
    (halfAt b i).toNat = byteAt b i + 256 * byteAt b (i + 1) ∧
    (wordAt b i).toNat = byteAt b i + 256 * byteAt b (i + 1) + 65536 * byteAt b (i + 2) +
      16777216 * byteAt b (i + 3)) ∧
  (∀ (w : WatchTable) (h : Handle) (r : Record), w.resolve h = some r ↔
    ∃ x, w.slots[h.slot]? = some x ∧ x.record = some r ∧ x.issue = h.issue) ∧
  (∀ (w : WatchTable) (i : Nat), (∀ x, w.slots[i]? = some x → w.slotAt i = x) ∧
    (w.slots.length ≤ i → w.slotAt i = { issue := 0, record := none }) ∧ w.recordAt i = (w.slotAt i).record ∧
    w.handleAt i = { slot := i, issue := (w.slotAt i).issue } ∧
    ∀ r, w.setRecord i r = { w with slots := w.slots.set i { issue := (w.slotAt i).issue, record := some r } }) ∧
  (∀ (r : Record) (c : ChanId), r.mayRead c = true ↔ c = 0 ∨ c = r.owner ∨ r.guard ≠ .guardPrivate) ∧
  (∀ p, unitRoom (.matchUnit p) = 40) ∧ unitRoom .crossLine = 24 ∧
  (∀ (b : List Byte) (q : PlaceRequest), readPlace b = some q ↔
    let has (k : Nat) : Bool := (byteAt b 0).testBit k
    ImageShaped b ∧ byteAt b 1 = (if q.armed then 3 else 1) ∧ GuardAt b q.guard ∧ FlagAt b 4 q.keep ∧
    (match q.side.cond with
      | .bus m d => byteAt b 5 = 0 ∧ BusAt b m ∧ (has 0 = false → d = none) ∧
          (has 0 = true → ∃ x, d = some x ∧ DataAt b x)
      | .line l e => byteAt b 5 = 1 ∧ byteAt b 21 = l.val ∧ EdgeAt b e ∧ has 0 = false
      | .cross x => byteAt b 5 = 2 ∧ byteAt b 21 = x.val ∧ has 0 = false) ∧
    (match q.scope with
      | .one p => byteAt b 6 = 0 ∧ byteAt b 7 = p.val
      | .all => byteAt b 6 = 1
      | .allBut p => byteAt b 6 = 2 ∧ byteAt b 7 = p.val) ∧
    byteAt b 8 = q.side.rank.val ∧
    (match q.side.trigger with
      | .onHit => byteAt b 9 = 0 ∧ has 2 = false
      | .onSilence n => byteAt b 9 = 1 ∧ QuietLimitAt b n) ∧
    byteAt b 10 = q.goal ∧ FlagAt b 12 q.repeats ∧ ActionsAt b q.side.actions ∧
    (has 1 = false → q.after = none) ∧
    (has 1 = true → ∃ h, q.after = some h ∧ h.slot = byteAt b (partAt b 1) ∧ h.slot < 96 ∧
      h.issue = b.getD (partAt b 1 + 1) 0) ∧
    (has 3 = false → q.tally = none) ∧
    (has 3 = true → ∃ m sg l, TallyAt b m sg l ∧ q.tally = some { mode := m, sign := sg, limit := l, accumulator := 0,
                                                                  contributions := 0, overflow := false }) ∧
    ImageHolds q.scope q.side.cond q.side.trigger q.goal q.side.actions (q.tally.map (·.mode))) ∧
  ∀ (c : ChanId) (f : Frame) (s : State), s.Ready c kindPlace f →
    (readPlace f.payload = none → AnswersOnly (.place c) s c f .bad []) ∧
    (∀ q, readPlace f.payload = some q →
      let r : Record :=
        { state := if q.armed then (if q.after.isSome then .waiting else .armed) else .suspended,
          owner := c, guard := q.guard, keep := q.keep, scope := q.scope, side := q.side,
          placement := s.table.counter, goal := q.goal, hits := 0, repeats := q.repeats, after := q.after,
          tally := q.tally, snapshot := none }
      let linked : Prop := ∀ h, q.after = some h → ∃ x, s.table.resolve h = some x ∧ x.mayRead c = true
      let room : Prop := ∀ u, r.memberOf u = true → (s.table.chain u).length < unitRoom u
      (∀ h, q.after = some h → s.table.resolve h = none → AnswersOnly (.place c) s c f .stale []) ∧
      (∀ h x, q.after = some h → s.table.resolve h = some x → x.mayRead c = false →
        AnswersOnly (.place c) s c f .denied []) ∧
      (linked → ¬ room → AnswersOnly (.place c) s c f .full []) ∧
      (linked → (∀ i, i < s.table.slots.length → s.table.recordAt i ≠ none) →
        AnswersOnly (.place c) s c f .full []) ∧
      (∀ i, linked → room → i < s.table.slots.length → s.table.recordAt i = none →
        (∀ j, j < i → s.table.recordAt j ≠ none) →
        ((∃ u, r.memberOf u = true ∧ s.InEvent u) → exec (.place c) s = .next s) ∧
        ((∀ u, r.memberOf u = true → ¬ s.InEvent u) →
        ∃ t, exec (.place c) s = .next (t.wait c f (.change s.table.nextChange (s.table.handleAt i).bytes)) ∧
          (s.popFrame c).RecordsOnly t ∧ t.notice = s.notice ∧
          s.QuietAfter (fun p j => j = i ∧ r.scope = .one p) (fun u => r.memberOf u = true) t ∧
          t.table = { s.table.setRecord i r with
            counter := s.table.counter + 1, nextChange := s.table.nextChange + 1 } ∧
          (∀ u, r.memberOf u = true → t.view u = (s.view u).after (t.table.chain u) s.table.nextChange) ∧
          (∀ u, r.memberOf u = false → t.view u = s.view u) ∧
          (∀ p limit, r.state = .armed → r.side.trigger = .onSilence limit → r.scope = .one p →
            r.side.cond.isCross = false →
            ((s.port p).mu.live = true → t.QuietAt p i limit) ∧
            ((s.port p).mu.live = false → t.QuietStopped p i)))))

/-- R16, R17, R18, R68 to R70, R11: AMEND is all or nothing. A record that passes the checks takes the named fields, its
hit count is brought within a new goal, and its tally takes the mode first and the load second; another channel's change
raises REVOKED for the owner; the response waits for the change. R31, R35: with match-side fields alone a unit that is taking
no event has the new match side at once, and any other has it to take at its own boundary, an event that waits then being
one that may have begun; with a count-side field everything changes at one moment, the copies brought up to date with it, and
waits while a unit concerned is in the middle of an event (log 4, log 5). R18: the timers that a quiet limit taken at once
names are restarted, and every other one stays. R10: the rights to change a record. R16, R14: when an AMEND is valid. R188: the bytes of
its payload. The model's choice: a named part must be in the image (log 16), the initiator number under ANY is not read
(log 17), a handle whose slot is above 95 is refused (log 28), and an AMEND of guard or keep alone waits for the units'
reports (log 24). -/
def Obligations.AmendChangesTheNamedFields : Prop :=
  (∀ (b : List Byte) (a : AmendRequest), readAmend b = some a ↔
    let image := b.drop 4
    let bit (k : Nat) : Bool := (halfAt b 2).toNat.testBit k
    38 ≤ b.length ∧ ImageShaped image ∧ a.handle = { slot := byteAt b 0, issue := b.getD 1 0 } ∧ a.handle.slot < 96 ∧
    Named (bit 0) a.guard (GuardAt image) ∧ Named (bit 1) a.keep (FlagAt image 4) ∧
    Named (bit 2) a.rank (fun x => byteAt image 8 = x.val) ∧
    Named (bit 3) a.goal (fun x => 1 ≤ x ∧ byteAt image 10 = x) ∧ Named (bit 4) a.repeats (FlagAt image 12) ∧
    Named (bit 5) a.actions (ActionsAt image) ∧ Named (bit 6) a.bus (BusAt image) ∧
    Named (bit 7) a.data (fun x => ((byteAt image 0).testBit 0 = false → x = none) ∧
      ((byteAt image 0).testBit 0 = true → ∃ d, x = some d ∧ DataAt image d)) ∧
    Named (bit 8) a.edge (EdgeAt image) ∧ Named (bit 9) a.quiet (QuietLimitAt image) ∧
    Named (bit 10) a.mode (ModeAt image) ∧
    Named (bit 11) a.load (fun x => (byteAt image 0).testBit 3 = true ∧ x = wordAt image (partAt image 3 + 3)) ∧
    Named (bit 12) a.newTally (fun x => TallyAt image x.1 x.2.1 x.2.2) ∧
    a.namesFixed = (bit 13 || bit 14 || bit 15)) ∧
  (∀ (r : Record) (a : AmendRequest), State.amendValid r a = true ↔
    let r' := State.amended r a
    a.namesFixed = false ∧
    (a.bus ≠ none ∨ a.data ≠ none → ∃ m d, r.side.cond = .bus m d) ∧
    (a.edge ≠ none → ∃ l e, r.side.cond = .line l e) ∧
    (a.quiet ≠ none → ∃ n, r.side.trigger = .onSilence n) ∧
    (a.mode ≠ none ∨ a.load ≠ none → r.tally ≠ none) ∧
    (a.newTally ≠ none → r.tally = none ∧ r.side.trigger = .onHit ∧ ∀ x, r.side.cond ≠ .cross x) ∧
    ImageHolds r'.scope r'.side.cond r'.side.trigger r'.goal r'.side.actions (r'.tally.map (·.mode))) ∧
  (∀ (r : Record) (c : ChanId), r.mayChange c = true ↔ c = 0 ∨ c = r.owner ∨ r.guard = .guardOpen) ∧
  (∀ w : Word, TallySign.unsigned.read w = w.toNat ∧ TallySign.signed.read w = w.toInt) ∧
  (∀ (c : ChanId) (f : Frame) (s : State), s.Ready c kindAmend f →
    (readAmend f.payload = none → AnswersOnly (.amend c) s c f .bad []) ∧
    (∀ a, readAmend f.payload = some a →
      (s.table.resolve a.handle = none → AnswersOnly (.amend c) s c f .stale []) ∧
      (∀ r, s.table.resolve a.handle = some r →
        (r.mayChange c = false → AnswersOnly (.amend c) s c f .denied []) ∧
        (r.mayChange c = true → State.amendValid r a = false → AnswersOnly (.amend c) s c f .bad []) ∧
        (r.mayChange c = true → State.amendValid r a = true →
          let n := s.table.nextChange
          let i := a.handle.slot
          let r' := State.amended r a
          let entry : CopyEntry := { slot := i, placement := r'.placement, side := r'.side }
          let count : Prop := a.goal ≠ none ∨ a.repeats ≠ none ∨ a.mode ≠ none ∨ a.load ≠ none ∨ a.newTally ≠ none
          let sides : Prop := a.rank ≠ none ∨ a.bus ≠ none ∨ a.data ≠ none ∨ a.edge ≠ none ∨ a.actions ≠ none ∨
            a.quiet ≠ none
          (count → (∃ u, r.memberOf u = true ∧ s.InEvent u) → exec (.amend c) s = .next s) ∧
          ((count → ∀ u, r.memberOf u = true → ¬ s.InEvent u) →
            ∃ t, exec (.amend c) s = .next (t.wait c f (.change n [])) ∧ (s.popFrame c).RecordsOnly t ∧
              (let takes (u : UnitId) : Prop := r.memberOf u = true ∧ (count ∨ (sides ∧ s.Idle u))
               s.QuietAfter (fun p j => a.quiet ≠ none ∧ j = i ∧ r.scope = .one p ∧ ∃ u, takes u) takes t) ∧
              t.table = { s.table.setRecord i r' with nextChange := n + 1 } ∧
              t.notice.additions = s.notice.additions ++ (if r.owner = c then [] else [.revoked r.owner]) ∧
              (∀ u, r.memberOf u = true →
                (¬ count → sides → s.Idle u → t.view u = (s.view u).after (putEntry entry (s.view u).upToDate) n) ∧
                (¬ count → sides → s.InEvent u → t.view u = { s.view u with begun := false, tokens := (s.view u).tokens ++
                  [{ change := n, update := some (entry, a.quiet.isSome) }] }) ∧
                (¬ count → sides → ¬ s.InEvent u → ¬ s.Idle u → t.view u = { s.view u with
                  begun := true, tokens := (s.view u).tokens ++
                    [{ change := n, update := some (entry, a.quiet.isSome) }] }) ∧
                (¬ count → ¬ sides → t.view u = { s.view u with tokens := (s.view u).tokens ++
                  [{ change := n, update := none }] }) ∧
                (count → sides → t.view u = (s.view u).after (putEntry entry (s.view u).upToDate) n) ∧
                (count → ¬ sides → t.view u = (s.view u).after (s.view u).upToDate n)) ∧
              (∀ u, r.memberOf u = false → t.view u = s.view u) ∧
              (∀ p old limit, (count ∨ s.Idle (.matchUnit p)) → a.quiet = some limit → r.state = .armed → r.side.trigger = .onSilence old →
                r.scope = .one p → r.side.cond.isCross = false →
                ((s.port p).mu.live = true → t.QuietAt p i limit) ∧
                ((s.port p).mu.live = false → t.QuietStopped p i))))))) ∧
  (∀ (r : Record) (a : AmendRequest),
    let r' := State.amended r a
    r' = { r with guard := a.guard.getD r.guard, keep := a.keep.getD r.keep, goal := a.goal.getD r.goal,
                  repeats := a.repeats.getD r.repeats, side := r'.side, hits := r'.hits, tally := r'.tally } ∧
    r'.side.rank = a.rank.getD r.side.rank ∧ r'.side.actions = a.actions.getD r.side.actions ∧
    (∀ m d, r.side.cond = .bus m d → r'.side.cond = .bus (a.bus.getD m) (a.data.getD d)) ∧
    (∀ l e, r.side.cond = .line l e → r'.side.cond = .line l (a.edge.getD e)) ∧
    (∀ x, r.side.cond = .cross x → r'.side.cond = .cross x) ∧
    (∀ n, r.side.trigger = .onSilence n → r'.side.trigger = .onSilence (a.quiet.getD n)) ∧
    (r.side.trigger = .onHit → r'.side.trigger = .onHit) ∧
    (a.goal = none → r'.hits = r.hits) ∧
    (∀ g, a.goal = some g →
      (r.state = .spent → r'.hits = g) ∧ (r.state = .waiting → r'.hits = r.hits) ∧
      (r.state = .armed ∨ r.state = .suspended → r'.hits = if r.hits < g then r.hits else g - 1)) ∧
    (∀ k, a.newTally = some k → r'.tally = some { mode := k.1, sign := k.2.1, limit := k.2.2, accumulator := 0,
                                                  contributions := 0, overflow := false }) ∧
    (a.newTally = none → r.tally = none → r'.tally = none) ∧
    (∀ t, a.newTally = none → r.tally = some t → a.mode = none → a.load = none → r'.tally = some t) ∧
    (∀ t m, a.newTally = none → r.tally = some t → a.mode = some m → a.load = none →
      r'.tally = some { t with mode := m, accumulator := 0, contributions := 0, overflow := false }) ∧
    (∀ t w, a.newTally = none → r.tally = some t → a.mode = none → a.load = some w →
      r'.tally = some { t with accumulator := t.sign.read w, overflow := false }) ∧
    (∀ t m w, a.newTally = none → r.tally = some t → a.mode = some m → a.load = some w →
      r'.tally = some { t with mode := m, accumulator := t.sign.read w, contributions := 0, overflow := false }))

/-- R19, R20, R11, R35: SUSPEND sets an ARMED or WAITING record SUSPENDED; ARM sets the hit count to 0 and the record
WAITING with an after-link and ARMED without one; each is one change of the table, made with the units concerned between
events and up to date, and waits for that (log 4, log 5). R50, R51: the quiet timer of a silence record stops as it leaves
ARMED and is set running at the full limit as it is armed under the running condition; every other timer stays but for those
that a change not yet taken names (R18). A SUSPEND that changes no state is
answered at once (the model's choice, log 24). R180, R191: the bytes of a payload of one handle; that a slot above 95 is
refused is the model's choice (log 28). -/
def Obligations.SuspendAndArmChangeTheState : Prop :=
  (∀ (b : List Byte) (h : Handle), readHandlePayload b = some h ↔ h.slot < 96 ∧ b = [BitVec.ofNat 8 h.slot, h.issue]) ∧
  ∀ (i : Instr) (kind : Byte) (c : ChanId) (f : Frame) (s : State),
    ((i = .suspend c ∧ kind = kindSuspend) ∨ (i = .arm c ∧ kind = kindArm)) → s.Ready c kind f →
    (readHandlePayload f.payload = none → AnswersOnly i s c f .bad []) ∧
    (∀ h, readHandlePayload f.payload = some h →
      (s.table.resolve h = none → AnswersOnly i s c f .stale []) ∧
      (∀ r, s.table.resolve h = some r →
        let revoked : List Addition := if r.owner = c then [] else [.revoked r.owner]
        let r' : Record := if kind = kindArm
          then { r with hits := 0, state := if r.after.isSome then .waiting else .armed }
          else { r with state := .suspended }
        (r.mayChange c = false → AnswersOnly i s c f .denied []) ∧
        (r.mayChange c = true → kind = kindSuspend → r.state = .suspended ∨ r.state = .spent →
          exec i s = .next ({ (s.popFrame c) with notice := { s.notice with
            additions := s.notice.additions ++ revoked } }.answer c f .done [])) ∧
        (r.mayChange c = true → (kind = kindSuspend → r.state = .armed ∨ r.state = .waiting) →
          (∃ u, r.memberOf u = true ∧ s.InEvent u) → exec i s = .next s) ∧
        (r.mayChange c = true → (kind = kindSuspend → r.state = .armed ∨ r.state = .waiting) →
          (∀ u, r.memberOf u = true → ¬ s.InEvent u) →
          ∃ t, exec i s = .next (t.wait c f (.change s.table.nextChange [])) ∧ (s.popFrame c).RecordsOnly t ∧
            s.QuietAfter (fun p j => j = h.slot ∧ r.scope = .one p) (fun u => r.memberOf u = true) t ∧
            t.table = { s.table.setRecord h.slot r' with nextChange := s.table.nextChange + 1 } ∧
            t.notice.additions = s.notice.additions ++ revoked ∧
            (∀ u, r.memberOf u = true → t.view u = (s.view u).after (t.table.chain u) s.table.nextChange) ∧
            (∀ u, r.memberOf u = false → t.view u = s.view u) ∧
            (∀ p limit, r.side.trigger = .onSilence limit → r.scope = .one p → r.side.cond.isCross = false →
              (r'.state = .armed → (s.port p).mu.live = true → t.QuietAt p h.slot limit) ∧
              (r'.state ≠ .armed ∨ (s.port p).mu.live = false → t.QuietStopped p h.slot)))))

/-- R21, R29, R1, R11: RETIRE is answered IN_USE when the record has a dependent and force is not set; otherwise its slot
is FREE with the issue number increased, its quiet timer stops, its dependents lose their after-links, the others stay,
and REVOKED is raised for the other owners and nothing else. R31, R35: the units concerned take the change at once, and it
waits while one of them is in the middle of an event (log 4, log 5). Every other quiet timer stays but for those that a change
not yet taken names (R18). R187, R191: the bytes of a payload of a handle and a flag; that a slot above 95 is refused is the model's choice (log 28). -/
def Obligations.RetireFreesTheSlot : Prop :=
  (∀ (b : List Byte) (h : Handle) (flag : Bool), readHandleFlag b = some (h, flag) ↔
    h.slot < 96 ∧ b = [BitVec.ofNat 8 h.slot, h.issue, if flag then 1 else 0]) ∧
  ∀ (c : ChanId) (f : Frame) (s : State), s.Ready c kindRetire f →
    (readHandleFlag f.payload = none → AnswersOnly (.retire c) s c f .bad []) ∧
    (∀ h force, readHandleFlag f.payload = some (h, force) →
      (s.table.resolve h = none → AnswersOnly (.retire c) s c f .stale []) ∧
      (∀ r, s.table.resolve h = some r →
        let inUse : Prop := ∃ j x, s.table.recordAt j = some x ∧ x.after = some h
        (c ≠ 0 → c ≠ r.owner → AnswersOnly (.retire c) s c f .denied []) ∧
        (c = 0 ∨ c = r.owner → force = false → inUse → AnswersOnly (.retire c) s c f .inUse []) ∧
        let concerned (u : UnitId) : Prop := r.memberOf u = true ∨
          ∃ j x, s.table.recordAt j = some x ∧ x.after = some h ∧ x.memberOf u = true
        (c = 0 ∨ c = r.owner → (force = false → ¬ inUse) → (∃ u, concerned u ∧ s.InEvent u) →
          exec (.retire c) s = .next s) ∧
        (c = 0 ∨ c = r.owner → (force = false → ¬ inUse) → (∀ u, concerned u → ¬ s.InEvent u) →
          ∃ t l, exec (.retire c) s = .next (t.wait c f (.change s.table.nextChange [])) ∧
            (s.popFrame c).RecordsOnly t ∧
            s.QuietAfter (fun p j => j = h.slot ∧ r.scope = .one p) concerned t ∧
            t.table.slotAt h.slot = { issue := h.issue + 1, record := none } ∧
            (∀ j x, j ≠ h.slot → s.table.recordAt j = some x →
              let free : Record :=
                { x with after := none, state := if x.state = .waiting then .suspended else x.state }
              (x.after = some h → t.table.slotAt j = { issue := (s.table.slotAt j).issue, record := some free }) ∧
              (x.after ≠ some h → t.table.slotAt j = s.table.slotAt j)) ∧
            (∀ j, s.table.recordAt j = none → t.table.slotAt j = s.table.slotAt j) ∧
            t.table.counter = s.table.counter ∧ t.table.nextChange = s.table.nextChange + 1 ∧
            (∀ u, concerned u → t.view u = (s.view u).after (t.table.chain u) s.table.nextChange) ∧
            (∀ u, ¬ concerned u → t.view u = s.view u) ∧
            (∀ n p, r.side.trigger = .onSilence n → r.scope = .one p → t.QuietStopped p h.slot) ∧
            t.notice.additions = s.notice.additions ++ l ∧
            (∀ a, a ∈ l ↔ (r.owner ≠ c ∧ a = .revoked r.owner) ∨
              ∃ j x, j ≠ h.slot ∧ s.table.recordAt j = some x ∧ x.after = some h ∧ x.owner ≠ c ∧ a = .revoked x.owner))))

/-- R10, R23, R24, R25, R65, R67: LOOKUP gives the handle and the image of a record the channel may read; LIST and FIND give
the visible records of their slots; TALLY gives the tally part, and with the clear flag clears it as one change, which waits
for the units concerned to end their events (R35, log 4, log 5). That they report the Watch Table's own version is DEDUCED
(log 6), and so is that the handle LOOKUP reports stands beside the bytes of its answer (log 30). R187 to R189, R191: the
bytes of the payloads of LIST and FIND (a FIND's board sequence is not read and stands as 0) and of the four answers; what
they hold for an absent action or mean is the model's choice (log 32), and so is the initiator under ANY (log 17). -/
def Obligations.RecordsAreReported : Prop :=
  (∀ (b : List Byte) (sel : Selector), readList b = some sel ↔ match sel with
    | .owner d => b = [0, BitVec.ofNat 8 d.val]
    | .port p => b = [1, BitVec.ofNat 8 p.val]
    | .cross => ∃ x, b = [2, x]) ∧
  (∀ (b : List Byte) (q : FindRequest), readFind b = some q ↔
    b.length = 18 ∧ byteAt b 0 = q.port.val ∧ q.obs.address = wordAt b 5 ∧
    q.obs.data.toNat = (wordAt b 9).toNat % 2 ^ (8 * q.obs.width.bytes) ∧
    byteAt b 13 = (match q.obs.direction with
      | .read => 0
      | .write => 1) ∧
    byteAt b 14 = q.obs.width.bytes ∧ byteAt b 15 = q.obs.initiator.val ∧
    byteAt b 16 = (match q.obs.origin with
      | .board => 0
      | .debug => 1) ∧
    FlagAt b 17 q.withData ∧ q.obs.sequence = 0) ∧
  (∀ r : Record, ∃ scopePort initiator : Byte,
    (r.scope = .all → scopePort = 0) ∧ (∀ p, r.scope = .one p ∨ r.scope = .allBut p → scopePort.toNat = p.val) ∧
    (∀ m d, r.side.cond = .bus m d → (m.initiator = .any → initiator = 0) ∧
      ∀ t, m.initiator = .only t ∨ m.initiator = .allBut t → initiator.toNat = t.val) ∧
    let part (b : Bool) (n : Byte) : Byte := if b then n else 0
    let a := r.side.actions
    r.image =
      [part r.side.cond.dataMatch.isSome 1 + part r.after.isSome 2 + part r.side.trigger.quietLimit.isSome 4 +
         part r.tally.isSome 8 + part r.snapshot.isSome 16,
       match r.state with
        | .suspended => 1
        | .waiting => 2
        | .armed => 3
        | .spent => 4, BitVec.ofNat 8 r.owner.val,
       match r.guard with
        | .guardOpen => 0
        | .guardReadable => 1
        | .guardPrivate => 2, part r.keep 1,
       match r.side.cond with
        | .bus _ _ => 0
        | .line _ _ => 1
        | .cross _ => 2,
       match r.scope with
        | .one _ => 0
        | .all => 1
        | .allBut _ => 2, scopePort, BitVec.ofNat 8 r.side.rank.val,
       match r.side.trigger with
        | .onHit => 0
        | .onSilence _ => 1, BitVec.ofNat 8 r.goal, BitVec.ofNat 8 r.hits, part r.repeats 1,
       part a.signal 1 + part a.freeze 2 + part a.gateOpen.isSome 4 + part a.gateClose 8 + part a.crossPulse.isSome 16] ++
      (match a.gateOpen with
        | some span => twoBytes span.toNat
        | none => [0, 0]) ++
      [match a.crossPulse with
        | some x => BitVec.ofNat 8 x.val
        | none => 0] ++ fourBytes r.placement.toNat ++
      (match r.side.cond with
        | .bus m _ => fourBytes m.base.toNat ++ fourBytes m.mask.toNat ++
            [match m.direction with
              | .read => 0
              | .write => 1
              | .either => 2, part m.widths.one 1 + part m.widths.two 2 + part m.widths.four 4,
             match m.initiator with
              | .any => 0
              | .only _ => 1
              | .allBut _ => 2, initiator,
             match m.origin with
              | .boardOnly => 0
              | .boardAndDebug => 1]
        | .line l e => [BitVec.ofNat 8 l.val, match e with
            | .rise => 0
            | .fall => 1
            | .either => 2] ++ List.replicate 11 0
        | .cross x => [BitVec.ofNat 8 x.val] ++ List.replicate 12 0) ++
      (match r.side.cond with
        | .bus _ (some d) => fourBytes d.pattern.toNat ++ fourBytes d.mask.toNat
        | _ => []) ++
      (match r.after with
        | some h => [BitVec.ofNat 8 h.slot, h.issue]
        | none => []) ++
      (match r.side.trigger with
        | .onSilence n => (fourBytes n).take 3
        | .onHit => []) ++
      (match r.tally with
        | some t => t.bytes
        | none => []) ++
      (match r.snapshot with
        | some x => x.bytes
        | none => [])) ∧
  (∀ t : Tally, t.bytes =
    ([match t.mode with
      | .count => 0
      | .sum => 1,
     match t.sign with
      | .unsigned => 0
      | .signed => 1,
     match t.limit with
      | .wrap => 0
      | .saturate => 1] : List Byte) ++ fourBytes (t.accumulator % 4294967296).toNat ++ fourBytes t.contributions ++
    [if t.overflow then 1 else 0] ∧
    t.answer = t.bytes ++ (if t.contributions = 0 then [0, 0, 0, 0, 0]
      else 1 :: fourBytes (roundedMean t.accumulator t.contributions % 4294967296).toNat)) ∧
  (∀ (n : Nat) (p : PortId) (ep : Half) (o : Observation) (l : LineId) (e : Edge) (x : CrossId),
    ({ body := .bus p ep o, fireNumber := n } : Snapshot).bytes =
      0 :: twoBytes n ++ [BitVec.ofNat 8 p.val] ++ twoBytes ep.toNat ++ ((captureRecord p ep o 0).drop 3).take 14 ∧
    ({ body := .silence p ep, fireNumber := n } : Snapshot).bytes =
      1 :: twoBytes n ++ [BitVec.ofNat 8 p.val] ++ twoBytes ep.toNat ∧
    ({ body := .line p ep l e, fireNumber := n } : Snapshot).bytes =
      2 :: twoBytes n ++ [BitVec.ofNat 8 p.val] ++ twoBytes ep.toNat ++ [BitVec.ofNat 8 l.val, match e with
        | .rise => 0
        | .fall => 1] ∧
    ({ body := .cross x, fireNumber := n } : Snapshot).bytes =
      3 :: twoBytes n ++ [0, 0, 0] ++ [BitVec.ofNat 8 x.val]) ∧
  (∀ l : List (Handle × RecState), listAnswer l =
    [BitVec.ofNat 8 l.length] ++ l.flatMap fun x => [BitVec.ofNat 8 x.1.slot, x.1.issue, match x.2 with
      | .suspended => 1
      | .waiting => 2
      | .armed => 3
      | .spent => 4]) ∧
  (∀ (c : ChanId) (f : Frame) (s : State), s.Ready c kindLookup f →
    (readHandlePayload f.payload = none → AnswersOnly (.lookup c) s c f .bad []) ∧
    (∀ h, readHandlePayload f.payload = some h →
      (s.table.resolve h = none → AnswersOnly (.lookup c) s c f .stale []) ∧
      (∀ r, s.table.resolve h = some r →
        (c ≠ 0 → c ≠ r.owner → r.guard = .guardPrivate → AnswersOnly (.lookup c) s c f .denied []) ∧
        (c = 0 ∨ c = r.owner ∨ r.guard ≠ .guardPrivate → AnswersOnly (.lookup c) s c f .done r.image (some h))))) ∧
  (∀ (c : ChanId) (f : Frame) (s : State),
    let given (slots : List Nat) : List Byte := listAnswer (slots.filterMap fun i => match s.table.recordAt i with
      | some r => if c = 0 ∨ c = r.owner ∨ r.guard ≠ .guardPrivate then some (s.table.handleAt i, r.state) else none
      | none => none)
    (s.Ready c kindList f →
      (readList f.payload = none → AnswersOnly (.list c) s c f .bad []) ∧
      (∀ d, readList f.payload = some (.owner d) → AnswersOnly (.list c) s c f .done
        (given ((List.range s.table.slots.length).filter fun i => (s.table.recordAt i).any fun r => r.owner = d))) ∧
      (∀ p, readList f.payload = some (.port p) → AnswersOnly (.list c) s c f .done
        (given ((s.table.chain (.matchUnit p)).map (·.slot)))) ∧
      (readList f.payload = some .cross → AnswersOnly (.list c) s c f .done
        (given ((s.table.chain .crossLine).map (·.slot))))) ∧
    (s.Ready c kindFind f →
      (readFind f.payload = none → AnswersOnly (.find c) s c f .bad []) ∧
      (∀ q, readFind f.payload = some q → AnswersOnly (.find c) s c f .done
        (given (((s.table.chain (.matchUnit q.port)).map (·.slot)).filter fun i => (s.table.recordAt i).any fun r =>
          match r.side.cond with
          | .bus m d => m.accepts (if q.withData then d else none) q.obs
          | _ => false))))) ∧
  (∀ (c : ChanId) (f : Frame) (s : State), s.Ready c kindTally f →
    (readHandleFlag f.payload = none → AnswersOnly (.tally c) s c f .bad []) ∧
    (∀ h clear, readHandleFlag f.payload = some (h, clear) →
      (s.table.resolve h = none → AnswersOnly (.tally c) s c f .stale []) ∧
      (∀ r, s.table.resolve h = some r →
        let may : Prop := c = 0 ∨ c = r.owner ∨ r.guard = .guardOpen ∨ (clear = false ∧ r.guard = .guardReadable)
        (¬ may → AnswersOnly (.tally c) s c f .denied []) ∧
        (may → r.tally = none → AnswersOnly (.tally c) s c f .bad []) ∧
        (∀ k, may → r.tally = some k → clear = false → AnswersOnly (.tally c) s c f .done k.answer) ∧
        (∀ k, may → r.tally = some k → clear = true → (∃ u, r.memberOf u = true ∧ s.InEvent u) →
          exec (.tally c) s = .next s) ∧
        (∀ k, may → r.tally = some k → clear = true → (∀ u, r.memberOf u = true → ¬ s.InEvent u) →
          ∃ t, exec (.tally c) s = .next (t.wait c f (.change s.table.nextChange k.answer)) ∧
            (s.popFrame c).RecordsOnly t ∧ s.QuietAfter (fun _ _ => False) (fun u => r.memberOf u = true) t ∧
            t.table = { s.table.setRecord h.slot { r with tally := some { k with
              accumulator := 0, contributions := 0, overflow := false } } with
              nextChange := s.table.nextChange + 1 } ∧
            t.notice.additions = s.notice.additions ++ (if r.owner = c then [] else [.revoked r.owner]) ∧
            (∀ u, r.memberOf u = true → t.view u = (s.view u).after (t.table.chain u) s.table.nextChange) ∧
            (∀ u, r.memberOf u = false → t.view u = s.view u)))))

/-- R33: a record of source BUS or LINE is a member at each port its scope covers, one of source CROSS at the Cross Line Unit,
and at no other. R33, R34: a chain or the cross list holds exactly the records that concern its unit, in the order of rank, placement
number and slot. -/
def Obligations.ChainsHoldTheirRecordsInOrder : Prop :=
  (∀ r : Record,
    (∀ p, r.memberOf (.matchUnit p) = true ↔
      ((∃ m d, r.side.cond = .bus m d) ∨ ∃ l e, r.side.cond = .line l e) ∧
      (r.scope = .one p ∨ r.scope = .all ∨ ∃ p', r.scope = .allBut p' ∧ p ≠ p')) ∧
    (r.memberOf .crossLine = true ↔ ∃ x, r.side.cond = .cross x)) ∧
  ∀ (t : WatchTable) (u : UnitId),
    (∀ e, e ∈ t.chain u ↔ ∃ i r, t.recordAt i = some r ∧ r.memberOf u = true ∧
      e = { slot := i, placement := r.placement, side := r.side }) ∧
    (t.chain u).Pairwise fun a b => a.side.rank < b.side.rank ∨ (a.side.rank = b.side.rank ∧
      (a.placement.toNat < b.placement.toNat ∨ (a.placement = b.placement ∧ a.slot < b.slot)))

/-! ### Matching -/

/-- R40, R41, R42: when a bus match with its data match accepts an observation, and a line match an edge; the data bytes
above the width are taken as 0. -/
def Obligations.AcceptanceComparesEveryField : Prop :=
  (∀ (m : BusMatch) (d : Option DataMatch) (o : Observation),
    m.accepts d o = true ↔
      (∀ i, i < 32 → m.mask.getLsbD i = false → o.address.getLsbD i = m.base.getLsbD i) ∧
      (m.direction = .either ∨ (m.direction = .read ∧ o.direction = .read) ∨
        (m.direction = .write ∧ o.direction = .write)) ∧
      ((o.width = .one ∧ m.widths.one = true) ∨ (o.width = .two ∧ m.widths.two = true) ∨
        (o.width = .four ∧ m.widths.four = true)) ∧
      (m.initiator = .any ∨ m.initiator = .only o.initiator ∨ ∃ t, m.initiator = .allBut t ∧ o.initiator ≠ t) ∧
      (m.origin = .boardAndDebug ∨ (m.origin = .boardOnly ∧ o.origin = .board)) ∧
      (∀ x, d = some x → ∀ i, i < 32 → x.mask.getLsbD i = true →
        (decide (i < 8 * o.width.bytes) && o.data.getLsbD i) = x.pattern.getLsbD i)) ∧
  (∀ (f : EdgeFilter) (e : Edge),
    f.accepts e = true ↔ f = .either ∨ (f = .rise ∧ e = .rise) ∨ (f = .fall ∧ e = .fall))

/-- R61 to R64: a tally's contribution, its contributions count and its accumulator under both limits. R66: the mean is the
nearest whole number, the even one of two that are equally near. -/
def Obligations.TalliesTakeContributions : Prop :=
  (∀ (t : Tally) (o : Option Observation),
    let k := t.contribution o
    let u := t.contribute o
    let low : Int := if t.sign = .unsigned then 0 else -2147483648
    let high : Int := if t.sign = .unsigned then 4294967295 else 2147483647
    (t.mode = .count → k = 1) ∧
    (∀ ob, t.mode = .sum → o = some ob →
      let n := ob.data.toNat % 2 ^ (8 * ob.width.bytes)
      (t.sign = .unsigned → k = n) ∧
      (t.sign = .signed → n < 2 ^ (8 * ob.width.bytes - 1) → k = n) ∧
      (t.sign = .signed → 2 ^ (8 * ob.width.bytes - 1) ≤ n → k = (n : Int) - 2 ^ (8 * ob.width.bytes))) ∧
    u.mode = t.mode ∧ u.sign = t.sign ∧ u.limit = t.limit ∧
    (t.contributions < 4294967295 → u.contributions = t.contributions + 1) ∧
    (t.contributions = 4294967295 → u.contributions = 4294967295) ∧
    (t.limit = .saturate → t.overflow = true → u.accumulator = t.accumulator ∧ u.overflow = true) ∧
    ((t.limit = .saturate → t.overflow = false) →
      (low ≤ t.accumulator + k → t.accumulator + k ≤ high →
        u.accumulator = t.accumulator + k ∧ u.overflow = t.overflow) ∧
      (high < t.accumulator + k → u.overflow = true ∧
        u.accumulator = if t.limit = .wrap then t.accumulator + k - 4294967296 else high) ∧
      (t.accumulator + k < low → u.overflow = true ∧
        u.accumulator = if t.limit = .wrap then t.accumulator + k + 4294967296 else low))) ∧
  (∀ (a : Int) (n : Nat), 0 < n →
    let twice := 2 * (a - roundedMean a n * n)
    twice ≤ n ∧ -(n : Int) ≤ twice ∧ (twice = n ∨ twice = -(n : Int) → roundedMean a n % 2 = 0))

/-- R43, R44, R28: a hit on a record that is not ARMED is discarded; otherwise it counts, the tally takes it, and at the
goal the record fires: snapshot and fire number, SPENT or ARMED again, and its WAITING dependents ARMED with hit count 0
and marked; every other slot stays as it was. R28, R51, R58: the quiet timer of an ON_SILENCE dependent it arms is set
running at the full limit of its port's copy under the running condition, and is stopped otherwise; every other timer, the
copies, the changes the units have to take and the events that wait stay. -/
def Obligations.HitsCountAndFire : Prop :=
  (∀ (p : PortId) (o : Observation) (l : LineId) (d : Edge) (ep : Half) (x : CrossId),
    (HitEvent.obs p o ep).snap = .bus p ep o ∧ (HitEvent.edge p l d ep).snap = .line p ep l d ∧
    (HitEvent.silence p ep).snap = .silence p ep ∧ (HitEvent.cross x).snap = .cross x ∧
    (HitEvent.obs p o ep).observation = some o ∧ (HitEvent.edge p l d ep).observation = none ∧
    (HitEvent.silence p ep).observation = none ∧ (HitEvent.cross x).observation = none) ∧
  ∀ (e : CopyEntry) (ev : HitEvent) (s : State),
    ((∀ r, s.table.recordAt e.slot = some r → r.state ≠ .armed) → s.hit e ev = (s, [])) ∧
    (∀ r, s.table.recordAt e.slot = some r → r.state = .armed →
      let counted : Record := { r with hits := r.hits + 1, tally := r.tally.map fun k => k.contribute ev.observation }
      (r.hits + 1 ≠ r.goal → s.hit e ev = (s.setTable (s.table.setRecord e.slot counted), [])) ∧
      (r.hits + 1 = r.goal →
        let t := (s.hit e ev).1
        let armed := (s.hit e ev).2
        let number := match r.snapshot with
          | some x => if x.fireNumber + 1 ≤ 65535 then x.fireNumber + 1 else 65535
          | none => 1
        let h := s.table.handleAt e.slot
        s.MatchedTo t ∧
        (∀ p, (t.port p).mu = { (s.port p).mu with events := (t.port p).mu.events, timers := (t.port p).mu.timers }) ∧
        t.cross = { s.cross with requests := t.cross.requests } ∧ s.QuietKept (fun p j => j ∈ armed ∧ s.ScopedAt p j) t ∧
        t.table.slotAt e.slot = { issue := h.issue, record := some { counted with
          snapshot := some { body := ev.snap, fireNumber := number },
          state := if r.repeats then .armed else .spent, hits := if r.repeats then 0 else r.goal } } ∧
        (∀ j x, j ≠ e.slot → s.table.recordAt j = some x → x.state = .waiting → x.after = some h →
          let ready : Record := { x with state := .armed, hits := 0 }
          j ∈ armed ∧ t.table.slotAt j = { issue := (s.table.slotAt j).issue, record := some ready } ∧
          ∀ p n, x.side.trigger = .onSilence n → x.scope = .one p →
            (∀ f before after limit, (s.port p).mu.live = true → (s.port p).mu.view.copy = before ++ f :: after →
              f.slot = j → (∀ y ∈ before, y.slot ≠ j) → f.side.trigger = .onSilence limit → t.QuietAt p j limit) ∧
            ((s.port p).mu.live = false → t.QuietStopped p j)) ∧
        (∀ j x, j ≠ e.slot → s.table.recordAt j = some x → x.state ≠ .waiting ∨ x.after ≠ some h →
          j ∉ armed ∧ t.table.slotAt j = s.table.slotAt j) ∧
        (∀ j, s.table.recordAt j = none → j ∉ armed ∧ t.table.slotAt j = s.table.slotAt j) ∧
        t.table.counter = s.table.counter ∧ t.table.nextChange = s.table.nextChange))

/-- R46 to R48: what a fire hands over: a SIGNAL with the handle and the owner, a cross pulse unless the Cross Line Unit took
the hit, and on each port concerned, unless another channel holds it SOLE, a FREEZE for the owner and the gate actions in
order, each behind what was handed over before; nothing else is handed over. -/
def Obligations.FiresDispatchTheirActions : Prop :=
  (∀ (p : PortId) (o : Observation) (l : LineId) (d : Edge) (ep : Half) (x : CrossId),
    ((HitEvent.obs p o ep).takenBy = .matchUnit p ∧ (HitEvent.obs p o ep).kind = .observation) ∧
    ((HitEvent.edge p l d ep).takenBy = .matchUnit p ∧ (HitEvent.edge p l d ep).kind = .lineEdge) ∧
    ((HitEvent.silence p ep).takenBy = .matchUnit p ∧ (HitEvent.silence p ep).kind = .quietExpiry) ∧
    ((HitEvent.cross x).takenBy = .crossLine ∧ (HitEvent.cross x).kind = .crossEdge)) ∧
  ∀ (e : CopyEntry) (ev : HitEvent) (s : State) (r : Record),
    s.table.recordAt e.slot = some r → r.state = .armed → r.hits + 1 = r.goal →
    let t := (s.hit e ev).1
    let a := e.side.actions
    let h := s.table.handleAt e.slot
    let concerned (p : PortId) : Prop := match ev with
      | .obs p' _ _ => p = p'
      | .edge p' _ _ _ => p = p'
      | .silence p' _ => p = p'
      | .cross _ => r.scope = .all ∨ r.scope = .one p ∨ ∃ p', r.scope = .allBut p' ∧ p ≠ p'
    let gates : List GateMsg := (match a.gateOpen with
      | some span => [.openGate span h ev.kind]
      | none => []) ++ (if a.gateClose then [.closeGate ev.kind] else [])
    t.notice = { s.notice with signals :=
      s.notice.signals ++ (if a.signal then [(ev.takenBy, h, r.owner)] else []) } ∧
    (∀ p, ev.takenBy = .matchUnit p → t.cross = { s.cross with requests :=
      s.cross.requests ++ (match a.crossPulse with
        | some x => [(p, x)]
        | none => []) }) ∧
    (ev.takenBy = .crossLine → t.cross = s.cross) ∧
    (∀ p, ¬ concerned p ∨ (∃ d, d ≠ r.owner ∧ (s.port p).hasSole d = true) →
      (t.port p).rc = (s.port p).rc ∧ (t.port p).gate = (s.port p).gate) ∧
    (∀ p, concerned p → (∀ d, d ≠ r.owner → (s.port p).hasSole d = false) →
      (ev.takenBy = .matchUnit p →
        (t.port p).rc = { (s.port p).rc with fromUnits :=
          (s.port p).rc.fromUnits ++ (if a.freeze then [.freeze false r.owner] else []) } ∧
        (t.port p).gate = { (s.port p).gate with fromMatch := (s.port p).gate.fromMatch ++ gates }) ∧
      (ev.takenBy = .crossLine →
        (t.port p).rc = { (s.port p).rc with fromUnits :=
          (s.port p).rc.fromUnits ++ (if a.freeze then [.freeze true r.owner] else []) } ∧
        (t.port p).gate = { (s.port p).gate with fromCross := (s.port p).gate.fromCross ++ gates }))

/-- R39, R42, R45, R56, R52: a Match Unit and the Cross Line Unit take their oldest event by walking their copy from first to
last; a record met is treated by its source, trigger and state, and one this walk armed is passed over; an observation is
handed on after its walk. While its last observation waits at the gate a Match Unit takes nothing (log 4). R31: nor does a
unit with a match side to take before its next event, and after an event that it took it has the match sides it has not
taken to take first (log 5). Without such an event nothing happens (log 1). -/
def Obligations.WalksMeetTheArmedRecordsInOrder : Prop :=
  (∀ (meet : State → CopyEntry → State × List Nat) (e : CopyEntry) (rest : List CopyEntry) (marks : List Nat) (s : State),
    let meets : Prop := (∃ r, s.table.recordAt e.slot = some r ∧ r.state = .armed) ∧ e.slot ∉ marks
    State.walk meet [] marks s = s ∧
    (meets → State.walk meet (e :: rest) marks s = State.walk meet rest (marks ++ (meet s e).2) (meet s e).1) ∧
    (¬ meets → State.walk meet (e :: rest) marks s = State.walk meet rest marks s)) ∧
  (∀ (s : State) (p : PortId) (o : Observation) (ep : Half) (l : LineId) (d : Edge) (x : CrossId) (e : CopyEntry),
    (∀ m k, e.side.cond = .bus m k → m.accepts k o = true →
      (e.side.trigger = .onHit → s.meetObservation p o ep e = s.hit e (.obs p o ep)) ∧
      (∀ n r, e.side.trigger = .onSilence n → s.table.recordAt e.slot = some r →
        ((∃ y ∈ (s.port p).mu.timers, y.slot = e.slot) → s.meetObservation p o ep e = (s.restartQuiet e.slot r, [])) ∧
        ((∀ y ∈ (s.port p).mu.timers, y.slot ≠ e.slot) → s.meetObservation p o ep e = (s, [])))) ∧
    (∀ m k, e.side.cond = .bus m k → m.accepts k o = false → s.meetObservation p o ep e = (s, [])) ∧
    ((∀ m k, e.side.cond ≠ .bus m k) → s.meetObservation p o ep e = (s, [])) ∧
    (∀ f, e.side.cond = .line l f → f.accepts d = true → s.meetEdge p l d ep e = s.hit e (.edge p l d ep)) ∧
    ((∀ f, e.side.cond = .line l f → f.accepts d = false) → s.meetEdge p l d ep e = (s, [])) ∧
    (e.side.cond = .cross x → s.meetCross x e = s.hit e (.cross x)) ∧
    (e.side.cond ≠ .cross x → s.meetCross x e = (s, []))) ∧
  (∀ (p : PortId) (s : State),
    let q := s.port p
    let busy : Prop := (∃ m ∈ q.gate.fromMatch, m.isHandOver = true) ∨ q.mu.view.ChangeFirst
    let start (rest : List MatchEvent) : State := s.setPort p { q with mu := { q.mu with
      events := rest, view := { q.mu.view with begun := false } } }
    (∀ o ep rest, ¬ busy → q.mu.events = .obs o ep :: rest →
      let t := State.walk (fun t e => t.meetObservation p o ep e) q.mu.view.copy [] (start rest)
      (start rest).MatchedTo t ∧
      exec (.observation p) s = .next (t.setPort p { t.port p with
        rc := { (t.port p).rc with fromUnits := (t.port p).rc.fromUnits ++ [.taken] },
        gate := { (t.port p).gate with fromMatch := (t.port p).gate.fromMatch ++ [.handOver o ep] } })) ∧
    (∀ l d ep rest, ¬ busy → q.mu.events = .edge l d ep :: rest →
      let t := State.walk (fun t e => t.meetEdge p l d ep e) q.mu.view.copy [] (start rest)
      (start rest).MatchedTo t ∧ exec (.lineEdge p) s = .next t) ∧
    (busy ∨ (∀ o ep, q.mu.events.head? ≠ some (.obs o ep)) → exec (.observation p) s = .next s) ∧
    (busy ∨ (∀ l d ep, q.mu.events.head? ≠ some (.edge l d ep)) → exec (.lineEdge p) s = .next s)) ∧
  (∀ s : State,
    (∀ x rest, ¬ s.cross.view.ChangeFirst → s.cross.edges = x :: rest →
      let start : State := { s with cross := { s.cross with
        edges := rest, view := { s.cross.view with begun := false } } }
      let t := State.walk (fun t e => t.meetCross x e) s.cross.view.copy [] start
      start.MatchedTo t ∧ exec .crossEdge s = .next t) ∧
    (s.cross.edges = [] ∨ s.cross.view.ChangeFirst → exec .crossEdge s = .next s))

/-- R50, R51, R53: when the running condition's link and run-state parts hold; what starting and stopping a quiet timer
do; a timer that reaches zero leaves an expiry; a live expiry presents a hit on its record alone, after which the timer of a
record still ARMED starts afresh, and a stale one is discarded. While its last observation waits at the gate (log 4), or with
a match side to take first (R31, log 5), a Match Unit takes no expiry; without an expiry in its turn, or a timer that runs,
nothing happens (log 1). -/
def Obligations.QuietTimersRunAndExpire : Prop :=
  (∀ m : MatchUnit, m.live = true ↔ m.link = .locked ∧ (m.run = .running ∨ m.run = .stepping)) ∧
  (∀ (m : MatchUnit) (i n : Nat), m.copyLimit i = some n ↔ ∃ before e after, m.view.copy = before ++ e :: after ∧
    e.slot = i ∧ (∀ x ∈ before, x.slot ≠ i) ∧ e.side.trigger = .onSilence n) ∧
  (∀ (s : State) (i limit : Nat) (r : Record) (p : PortId), r.side.trigger = .onSilence limit → r.scope = .one p →
    let m := (s.port p).mu
    let others := m.timers.filter fun x => decide (x.slot ≠ i)
    let stale := m.events.map fun x => if x = .quiet i true then .quiet i false else x
    s.stopQuiet i r = s.setMatch p { m with timers := others, events := stale } ∧
    (∀ n, m.live = true → m.copyLimit i = some n →
      s.restartQuiet i r = s.setMatch p { m with timers := others ++ [{ slot := i, left := n }], events := stale }) ∧
    (m.live = false ∨ m.copyLimit i = none → s.restartQuiet i r = s.stopQuiet i r)) ∧
  (∀ (p : PortId) (i : Nat) (s : State),
    let m := (s.port p).mu
    let runs : Prop := ∃ x ∈ m.timers, x.slot = i ∧ 0 < x.left
    (runs → exec (.quietTimerZero p i) s = .next (s.setMatch p { m with
      timers := m.timers.map fun x => if x.slot = i then { slot := i, left := 0 } else x,
      events := m.events ++ [.quiet i true] })) ∧
    (¬ runs → exec (.quietTimerZero p i) s = .next s)) ∧
  (∀ (p : PortId) (s : State),
    let q := s.port p
    let busy : Prop := (∃ m ∈ q.gate.fromMatch, m.isHandOver = true) ∨ q.mu.view.ChangeFirst
    (∀ i live rest, ¬ busy → q.mu.events = .quiet i live :: rest →
      let t := s.setMatch p { q.mu with events := rest, view := { q.mu.view with begun := false } }
      let armed : Prop := ∃ r, s.table.recordAt i = some r ∧ r.state = .armed
      (live = false ∨ ¬ armed ∨ (∀ e ∈ q.mu.view.copy, e.slot ≠ i) → exec (.quietExpiry p) s = .next t) ∧
      (∀ e before after, live = true → armed → q.mu.view.copy = before ++ e :: after → e.slot = i →
        (∀ x ∈ before, x.slot ≠ i) →
        let u := (t.hit e (.silence p q.tlc.epoch)).1
        ∃ r, u.table.recordAt i = some r ∧
          (r.state = .armed → exec (.quietExpiry p) s = .next (u.restartQuiet i r)) ∧
          (r.state ≠ .armed → exec (.quietExpiry p) s = .next (u.stopQuiet i r)))) ∧
    (busy ∨ (∀ i live, q.mu.events.head? ≠ some (.quiet i live)) → exec (.quietExpiry p) s = .next s))

/-- R50, R51, R114: a Match Unit takes a report of a run state, of a link state or of an unseat; the quiet timers run
on while the condition stays as it was, all stop when it ends, and those of the ARMED silence records start when it
begins. A report is taken between two events of the unit (log 4), so no event of it has begun (R31, log 5). -/
def Obligations.ReportsStopAndStartQuietTimers : Prop :=
  ∀ (p : PortId) (i : Instr) (m' : MatchUnit) (s : State),
    let m := (s.port p).mu
    ((∃ r rest, i = .runStateReport p ∧ m.runReports = r :: rest ∧ m' = { m with run := r, runReports := rest, view := { m.view with begun := false } }) ∨
      (∃ l rest, i = .linkStateReport p ∧ m.linkReports = .link l :: rest ∧
        m' = { m with link := l, linkReports := rest, view := { m.view with begun := false } }) ∨
      (∃ rest, i = .unseatAtMatchUnit p ∧ m.linkReports = .unseat :: rest ∧
        m' = { m with link := .down, linkReports := rest, view := { m.view with begun := false } })) →
    (∀ x ∈ (s.port p).gate.fromMatch, x.isHandOver = false) →
    (m.live = m'.live → exec i s = .next (s.setMatch p m')) ∧
    (m.live = true → m'.live = false → exec i s = .next (s.setMatch p { m' with
      timers := [], events := m'.events.map fun x => match x with
        | .quiet n _ => .quiet n false
        | .obs o ep => .obs o ep
        | .edge l d ep => .edge l d ep })) ∧
    (m.live = false → m'.live = true →
      let silent (t : State) (e : CopyEntry) (r : Record) : Prop :=
        t.table.recordAt e.slot = some r ∧ r.state = .armed ∧ r.side.trigger.isSilence = true
      ∃ start : State → CopyEntry → State,
        exec i s = .next (m'.view.copy.foldl start (s.setMatch p m')) ∧
        (∀ t e r, silent t e r → start t e = t.restartQuiet e.slot r) ∧
        (∀ t e, (∀ r, ¬ silent t e r) → start t e = t))

/-- R31, R35, R166, R51, R18: between two events a unit takes the oldest change it has not taken, its match side standing in the
copy in order from then on, and no event of it has begun; the timer whose quiet limit it names is restarted and every other one
stays; the response is handed over, or step 1 of a teardown ends, once no
unit has the change left (log 5). While its last observation waits at the gate a Match Unit takes no change (log 4); without a change to take
nothing happens (log 1). -/
def Obligations.ChangeBoundaryTakesTheOldestChange : Prop :=
  ∀ (u : UnitId) (s : State),
    let busy : Prop := ∃ p, u = .matchUnit p ∧ ∃ m ∈ (s.port p).gate.fromMatch, m.isHandOver = true
    (busy ∨ (s.view u).tokens = [] → exec (.changeBoundary u) s = .next s) ∧
    (∀ k rest, ¬ busy → (s.view u).tokens = k :: rest → ∃ t,
      s.RecordsOnly t ∧ s.QuietKept (fun p j => ∃ e, k.update = some (e, true) ∧ j = e.slot ∧ s.TimedAt p j) t ∧
      t.table = s.table ∧ t.notice = s.notice ∧ (t.view u).tokens = rest ∧ (t.view u).begun = false ∧
      (∀ v, v ≠ u → t.view v = s.view v) ∧
      (k.update = none → (t.view u).copy = (s.view u).copy) ∧
      (∀ e quiet, k.update = some (e, quiet) →
        (∀ x, x ∈ (t.view u).copy ↔ x = e ∨ (x ∈ (s.view u).copy ∧ x.slot ≠ e.slot)) ∧
        ((s.view u).copy.Pairwise (fun a b => a.before b = true) →
          (t.view u).copy.Pairwise fun a b => a.before b = true) ∧
        (∀ r p n limit, quiet = true → u = .matchUnit p → s.table.recordAt e.slot = some r → r.state = .armed →
          r.side.trigger = .onSilence limit → r.scope = .one p → e.side.trigger = .onSilence n →
          s.QuietSet t p e.slot n)) ∧
      let left : Prop := ∃ v, ∃ x ∈ (t.view v).tokens, x.change = k.change
      let waits (c : ChanId) : Prop := ∃ e pl, (s.lane c).executing = some e ∧ e.wait = .change k.change pl
      let steps : Prop := ∃ c, s.teardowns.current = some (c, .changing k.change)
      (left → exec (.changeBoundary u) s = .next t) ∧
      (¬ left → (∀ c, ¬ waits c) → ¬ steps → exec (.changeBoundary u) s = .next t) ∧
      (∀ c e pl, ¬ left → (s.lane c).executing = some e → e.wait = .change k.change pl → (∀ d, d ≠ c → ¬ waits d) →
        ¬ steps → exec (.changeBoundary u) s = .next (t.finish c .done pl)) ∧
      (∀ c, ¬ left → (∀ d, ¬ waits d) → s.teardowns.current = some (c, .changing k.change) →
        exec (.changeBoundary u) s = .next
          { t with teardowns := { s.teardowns with current := some (c, .ports allPorts allPorts) } }))

/-! ### Notices and cross lines -/

/-- R175, R177: an OPEN channel with a non-empty member in a group of its own enables, and no other, asserts the attention line.
R171 to R174, R177: the Notice Unit takes the oldest SIGNAL of a unit, the oldest port event of a block and the oldest
addition of a block; each changes the member its rule names in an OPEN channel's set and is discarded for a CLOSED one, and the
attention line follows. R178: the pairs of the port events stand in ascending port order and, per port, in the order SEATED to
UNRESPONSIVE, each once. -/
def Obligations.NoticeUnitTakesAdditions : Prop :=
  (∀ s : State, (s.reevaluate.notice.attn = true ↔ s.AttentionDue) ∧
    s.reevaluate = { s with notice := { s.notice with attn := s.reevaluate.notice.attn } }) ∧
  (∀ s : State,
    (∀ m, s.sendEvent m = { s with notice := { s.notice with events := s.notice.events ++ [m] } }) ∧
    (∀ a, s.sendAddition a = { s with notice := { s.notice with additions := s.notice.additions ++ [a] } })) ∧
  (∀ (u : UnitId) (h : Handle) (c : ChanId) (before after : List (UnitId × Handle × ChanId)) (s : State),
    s.notice.signals = before ++ (u, h, c) :: after → (∀ x ∈ before, x.1 ≠ u) →
    let t : State := { s with notice := { s.notice with signals := before ++ after } }
    let q := s.pendingOf c
    let q' : Pending :=
      if h ∈ q.fired then q
      else if q.fired.length < 16 then { q with fired := q.fired ++ [h] }
      else { q with more := true }
    exec (.signal u) s = .next (if (s.chan c).isOpen then t.setPending c q' else t).reevaluate) ∧
  (∀ (p : PortId) (b : PortBlock) (m : PortEventMsg) (before after : List PortEventMsg) (s : State),
    s.notice.events = before ++ m :: after → m.port = p → m.block = b →
    (∀ x ∈ before, ¬ (x.port = p ∧ x.block = b)) →
    ∃ t, exec (.portEvent p b) s = .next t ∧ (t.notice.attn = true ↔ t.AttentionDue) ∧
      t = { s with notice := { s.notice with
        pending := t.notice.pending, attn := t.notice.attn, events := before ++ after } } ∧
      (∀ c, m.chans.has c = false ∨ (s.chan c).isOpen = false → t.pendingOf c = s.pendingOf c) ∧
      (∀ c, m.chans.has c = true → (s.chan c).isOpen = true →
        t.pendingOf c = { s.pendingOf c with portEvents := (t.pendingOf c).portEvents } ∧
        (t.pendingOf c).portEvents.Nodup ∧ InEventOrder (t.pendingOf c).portEvents ∧
        ∀ x, x ∈ (t.pendingOf c).portEvents ↔ x = (p, m.kind) ∨ x ∈ (s.pendingOf c).portEvents)) ∧
  (∀ (a : Addition) (src : NoticeSource) (c : ChanId) (add : Pending → Pending) (before after : List Addition) (s : State),
    s.notice.additions = before ++ a :: after →
    ((a = .revoked c ∧ src = .watchTable ∧ add = fun q => { q with revoked := true }) ∨
      (a = .overrun c ∧ src = .benchPort ∧ add = fun q => { q with overrun := true }) ∨
      (∃ d, a = .lapsed d ∧ src = .channelTable ∧ c = 0 ∧ add = fun q => { q with lapsed := q.lapsed.insert d }) ∨
      (a = .linkError ∧ src = .benchPort ∧ c = 0 ∧ add = fun q => { q with linkError := true })) →
    (∀ x ∈ before, x.source ≠ src) →
    let t : State := { s with notice := { s.notice with additions := before ++ after } }
    exec (.noticeAddition src) s = .next
      (if (s.chan c).isOpen then t.setPending c (add (s.pendingOf c)) else t).reevaluate) ∧
  (∀ a : Addition, (a.source = .watchTable ↔ ∃ c, a = .revoked c) ∧ (a.source = .channelTable ↔ ∃ c, a = .lapsed c) ∧
    (a.source = .benchPort ↔ a = .linkError ∨ ∃ c, a = .overrun c))

/-- R46, R106, R107, R56: pulse requests are taken in the order dispatched (log 3); one drives an IDLE line for 1 us
and is merged on a DRIVING one; the timer releases the line; a falling filtered level leaves one waiting edge, and a
rising one leaves none. Without a request of the Match Unit named in its turn nothing happens, nor at a falling level
that was low (log 1). -/
def Obligations.CrossLinesPulseAndDetect : Prop :=
  (∀ (p : PortId) (x : CrossId) (rest : List (PortId × CrossId)) (s : State), s.cross.requests = (p, x) :: rest →
    let c : CrossUnit := { s.cross with requests := rest }
    (s.cross.lines[x].driving = none → exec (.crossPulse p) s = .next { s with cross := { c with
      lines := s.cross.lines.set x { s.cross.lines[x] with driving := some 1 } } }) ∧
    (s.cross.lines[x].driving ≠ none → exec (.crossPulse p) s = .next { s with cross := c })) ∧
  (∀ (p : PortId) (s : State), (∀ x rest, s.cross.requests ≠ (p, x) :: rest) → exec (.crossPulse p) s = .next s) ∧
  (∀ (x : CrossId) (s : State),
    let line (l : CrossLine) (edges : List CrossId) : State :=
      { s with cross := { s.cross with lines := s.cross.lines.set x l, edges := edges } }
    let l := s.cross.lines[x]
    exec (.pulseTimerExpiry x) s = .next (line { l with driving := none } s.cross.edges) ∧
    exec (.crossRisingEdge x) s = .next (line { l with high := true } s.cross.edges) ∧
    (l.high = true → x ∉ s.cross.edges →
      exec (.crossFallingEdge x) s = .next (line { l with high := false } (s.cross.edges ++ [x]))) ∧
    (l.high = true → x ∈ s.cross.edges →
      exec (.crossFallingEdge x) s = .next (line { l with high := false } s.cross.edges)) ∧
    (l.high = false → exec (.crossFallingEdge x) s = .next s))

/-! ### The bench reset and the description -/

/-- R195, R32, R36, R93, R104, R126, R155, R170, R171: a RESETBENCH of C0 resets every block and is answered DONE; from
another channel it is DENIED. It waits until every action, every report of an observation taken and every notice handed over has
been taken by its block (R46, R166, log 4, log 18), and until every observation at a gate is decided, since a unit is between
events only then (R35, R45); a record that is being sent does not hold it back (R101). That all blocks take it in one step is
DEDUCED (log 20), and so is what else that waits stays and what is dropped (log 18). -/
def Obligations.ResetbenchResetsEveryBlock : Prop :=
  (∀ (c : ChanId) (f : Frame) (s : State), s.Ready c kindResetbench f →
    (f.payload ≠ [] → AnswersOnly (.resetbench c) s c f .bad []) ∧
    (f.payload = [] → c ≠ 0 → AnswersOnly (.resetbench c) s c f .denied [])) ∧
  (∀ (f : Frame) (s : State), s.Ready 0 kindResetbench f → f.payload = [] →
    let taken : Prop := (∀ p, (s.port p).rc.fromUnits = [] ∧ (s.port p).gate.fromMatch = [] ∧
      (s.port p).gate.fromCross = []) ∧ s.cross.requests = [] ∧ s.notice.signals = [] ∧ s.notice.events = [] ∧
      s.notice.additions = []
    (¬ taken → exec (.resetbench 0) s = .next s) ∧
    (taken → ∃ t, exec (.resetbench 0) s = .next t ∧
      t.pending = s.pending ∧ t.desc = s.desc ∧ t.fresh = s.fresh ∧ t.notice.attn = false ∧
      t.notice.signals = [] ∧ t.notice.events = [] ∧ t.notice.additions = [] ∧
      t.teardowns = { current := none, queued := [] } ∧
      t.table.counter = 0 ∧ t.table.slots.length = s.table.slots.length ∧
      (∀ i, t.table.slotAt i = { issue := if s.table.recordAt i = none then (s.table.slotAt i).issue
          else (s.table.slotAt i).issue + 1, record := none }) ∧
      t.cross = { s.cross with view := { copy := [], tokens := [], begun := false } } ∧
      t.bench.output = s.bench.output ++ [{ chan := 0, tag := f.tag, status := .done, payload := [] }] ∧
      t.bench.receiver = s.bench.receiver ∧ t.bench.sentFrames = s.bench.sentFrames ∧
      (∀ c : ChanId, t.pendingOf c = Pending.empty ∧
        t.chan c = { Channel.reset with maxClass := (s.chan c).maxClass, defaultLease := (s.chan c).defaultLease } ∧
        (t.lane c).queue = [] ∧ (t.lane c).executing = none ∧
        (t.lane c).outstanding = (s.lane c).outstanding - ((s.lane c).queue.length - (if c = 0 then 1 else 0)) -
          (if (s.lane c).executing.isSome then 1 else 0)) ∧
      (∀ p : PortId,
        let q := s.port p
        let runs : Prop := q.rc.run = .frozen ∨ q.rc.run = .stepping ∨ q.rc.run = .unresponsive
        (t.port p).settings = q.settings ∧
        (t.port p).gate = { q.gate with
          isOpen := false, span := 0, closingMark := false, opener := none, gap := false, missed := 0 } ∧
        (t.port p).arb = { q.arb with
          claims := Vector.replicate 8 none, queue := [], lifts := ChanSet.empty, parked := Vector.replicate 8 none,
          use := match q.arb.use with
            | .executing _ w => .draining w
            | .draining w => .draining w
            | .idle => .idle } ∧
        (t.port p).mu = { q.mu with
          view := { copy := [], tokens := [], begun := false }, timers := [],
          events := q.mu.events.map fun x => match x with
            | .quiet n _ => .quiet n false
            | .obs o ep => .obs o ep
            | .edge l d ep => .edge l d ep,
          runReports := if runs then q.mu.runReports ++ [.running] else q.mu.runReports } ∧
        (t.port p).rc = { q.rc with
          run := if runs then .running else q.rc.run, stopTimer := if runs then none else q.rc.stopTimer,
          holds := ChanSet.empty, boardHold := false, budget := 0, resumers := ChanSet.empty, removals := [],
          reports := if q.tlc.resetAsserted = q.settings.safeResetAsserted then q.rc.reports
            else q.rc.reports ++ [if q.settings.safeResetAsserted then .resetAsserted else .resetReleased] } ∧
        (t.port p).tlc = { q.tlc with
          resetAsserted := q.settings.safeResetAsserted, powerOn := q.settings.safePowerOn, safeRequests := [],
          outgoing := if runs ∧ q.tlc.link = .locked then q.tlc.outgoing ++ [.run] else q.tlc.outgoing })))

/-- R193, R192: what a walk of the description finds: ABSENT, DEFECTIVE, PARTIAL or LOADED, the settings of the good nodes in
their order, and at most 64 nodes. A header cut short leaves the status free (the model's choice, log 10). R192: a node's
fields, the sizes and bodies of the known nodes, of which one of another size sets nothing, and the reads sent to the device at 0x50, the address most significant byte
first; that the header and each node begun are one read each is the model's choice (log 11). The byte at an address is that of
the first pair the operand lists there, and none where it lists none; that a read past address 65535 does not wrap but finds
no further byte is the model's choice (log 29). -/
def Obligations.DescriptionWalkFindsItsNodes : Prop :=
  (∀ (m : List (Nat × Byte)) (partly : DescStatus),
    let r := walkDescription m partly
    let nothing : Walk := { nodes := [], taken := 0, skipped := 0, settings := [] }
    (memByte m 0 = none → r = (nothing, .absent)) ∧
    (∀ k, memBytes m 0 4 = some k → k ≠ [0x47, 0x57, 0x46, 0x44] → r = (nothing, .defective)) ∧
    (∀ b, memByte m 0 = some b → memBytes m 0 4 = none → r = (nothing, partly)) ∧
    (memBytes m 0 4 = some [0x47, 0x57, 0x46, 0x44] → memBytes m 4 2 = none → r = (nothing, partly)) ∧
    (∀ v, memBytes m 0 4 = some [0x47, 0x57, 0x46, 0x44] → memBytes m 4 2 = some v →
      ((halfAt v 0).toNat % 4 ≠ 0 → r = (nothing, .partlyLoaded)) ∧
      ((halfAt v 0).toNat % 4 = 0 →
        let w := walkFrom m 64 (halfAt v 0).toNat nothing
        r = (w.1, if w.2 = true ∧ w.1.skipped = 0 then .loaded else .partlyLoaded))) ∧
    r.1.taken ≤ 64 ∧ r.1.settings.length + r.1.skipped = r.1.taken ∧ r.1.nodes.length = r.1.taken) ∧
  (∀ (m : List (Nat × Byte)) (fuel a : Nat) (w : Walk),
    let skip : Walk := { w with nodes := w.nodes ++ [a], taken := w.taken + 1, skipped := w.skipped + 1 }
    let take (x : Option Setting) : Walk := match x with
      | some y => { w with nodes := w.nodes ++ [a], taken := w.taken + 1, settings := w.settings ++ [y] }
      | none => skip
    walkFrom m 0 a w = (w, false) ∧
    (readNode m a = none → walkFrom m (fuel + 1) a w = (skip, false)) ∧
    (∀ n, readNode m a = some n →
      (n.next.toNat % 4 = 3 → walkFrom m (fuel + 1) a w = (take n.setting, true)) ∧
      (n.next.toNat % 4 = 0 → walkFrom m (fuel + 1) a w = walkFrom m fuel n.next.toNat (take n.setting)) ∧
      (n.next.toNat % 4 = 2 → walkFrom m (fuel + 1) a w =
        walkFrom m fuel ((a + (n.next.toNat - 2)) % 65536) (take n.setting)) ∧
      (n.next.toNat % 4 = 1 → walkFrom m (fuel + 1) a w = (take n.setting, false)))) ∧
  (∀ w : Walk, w.reads = (0 :: w.nodes).map fun a =>
    { device := 0x50, sent := [BitVec.ofNat 8 (a / 256), BitVec.ofNat 8 a] }) ∧
  (∀ (m : List (Nat × Byte)) (a : Nat) (n : Node), readNode m a = some n ↔
    ∃ bytes, memBytes m a (n.body.length + 7) = some bytes ∧ n.id = (halfAt bytes 0).toNat ∧ n.next = halfAt bytes 2 ∧
      byteAt bytes 4 = n.body.length ∧ n.body = (bytes.drop 5).take n.body.length ∧
      n.check = halfAt bytes (n.body.length + 5)) ∧
  (∀ (m : List (Nat × Byte)) (a n : Nat) (bytes : List Byte), memBytes m a n = some bytes ↔
    bytes.length = n ∧ ∀ i, i < n → memByte m (a + i) = some (bytes.getD i 0)) ∧
  (∀ (m : List (Nat × Byte)) (a : Nat),
    (∀ b, memByte m a = some b ↔
      a < 65536 ∧ ∃ before after, m = before ++ (a, b) :: after ∧ ∀ x ∈ before, x.1 ≠ a) ∧
    (memByte m a = none ↔ 65536 ≤ a ∨ ∀ x ∈ m, x.1 ≠ a)) ∧
  (∀ (b : List Byte) (x : Setting), readPortBody b = some x ↔ ∃ (p : PortId) (s : PortSettings), x = .port p s ∧
    let filter (f : StatusFilter) : Nat := match f with
      | .none => 0
      | .us2 => 1
      | .us200 => 2
      | .ms20 => 3
    byteAt b 0 = p.val ∧ byteAt b 1 = s.debounce ∧ 1 ≤ s.debounce ∧
    (∀ l : LineId, byteAt b (2 + l.val) = filter s.filters[l]) ∧ byteAt b 6 = (if s.safeResetAsserted then 1 else 2) ∧
    byteAt b 7 = (if s.safePowerOn then 1 else 2) ∧ (halfAt b 8).toNat = s.replyLimit ∧ 1 ≤ s.replyLimit ∧
    s.replyLimit ≤ 650 ∧ byteAt b 10 = s.stopLimit ∧ 1 ≤ s.stopLimit) ∧
  (∀ (b : List Byte) (x : Setting), readChannelBody b = some x ↔ ∃ (c : ChanId) (cls : Fin 4) (lease : Nat),
    x = .channel c cls lease ∧ byteAt b 0 = c.val ∧ byteAt b 1 = cls.val ∧ (halfAt b 2).toNat = lease ∧ 100 ≤ lease ∧
    lease ≤ 60000) ∧
  (∀ n : Node,
    (n.check ≠ crc16 n.body ∨ (n.id ≠ 0x0101 ∧ n.id ≠ 0x0102 ∧ n.id ≠ 0x0103) → n.setting = none) ∧
    (n.check = crc16 n.body → n.id = 0x0101 → n.body.length = 11 → n.setting = readPortBody n.body) ∧
    (n.check = crc16 n.body → n.id = 0x0102 → n.body.length = 4 → n.setting = readChannelBody n.body) ∧
    (n.check = crc16 n.body → n.id = 0x0103 → 1 ≤ n.body.length → n.body.length ≤ 32 →
      n.setting = some (.ident n.body)) ∧
    ((n.id = 0x0101 ∧ n.body.length ≠ 11) ∨ (n.id = 0x0102 ∧ n.body.length ≠ 4) ∨
      (n.id = 0x0103 ∧ (n.body.length = 0 ∨ 32 < n.body.length)) → n.setting = none))

/-- R193, R194, R110, R112, R124, R126: at the end of the walk the settings take effect in order, each port's filtered levels
come from its pins, a port with its seat level high is ARRIVING, its lines move to its safe levels, and frames are executed
from then on; R107: cross edges detected during the walk count nothing. The status of a header cut short is a free value
(log 10), and the reads of the walk are recorded at its end (log 11). Outside the walk nothing happens (log 1). -/
def Obligations.WalkEndAppliesTheDescription : Prop :=
  ∀ (memory : List (Nat × Byte)) (pins : Vector PinLevels 6) (s : State),
    (s.desc.walking = false → exec (.walkEnd memory pins) s = .next s) ∧
    (s.desc.walking = true → ∃ t partly, exec (.walkEnd memory pins) s = .next t ∧
      let r := walkDescription memory partly
      let portSet (p : PortId) : Option PortSettings := r.1.settings.reverse.findSome? fun x => match x with
        | .port p' y => if p' = p then some y else none
        | _ => none
      let chanSet (c : ChanId) : Option (Fin 4 × Nat) := r.1.settings.reverse.findSome? fun x => match x with
        | .channel c' k l => if c' = c then some (k, l) else none
        | _ => none
      let nameSet : Option (List Byte) := r.1.settings.reverse.findSome? fun x => match x with
        | .ident n => some n
        | _ => none
      t.pending = s.pending ∧ t.bench = s.bench ∧ t.teardowns = s.teardowns ∧ t.table = s.table ∧
      t.cross = { s.cross with edges := [] } ∧ t.notice = s.notice ∧
      t.desc = { walking := false, status := r.2, nodesTaken := r.1.taken, nodesSkipped := r.1.skipped,
                 name := nameSet.getD s.desc.name, reads := r.1.reads } ∧
      (∀ c : ChanId, t.chan c = match chanSet c with
        | some (k, l) => { s.chan c with maxClass := k, defaultLease := l }
        | none => s.chan c) ∧
      (∀ p : PortId,
        let set := (portSet p).getD (s.port p).settings
        t.port p = ({ s.port p with
          settings := set,
          tlc := { (s.port p).tlc with
            seatHigh := pins[p].seat, seat := if pins[p].seat then .arriving else .empty,
            debounce := if pins[p].seat then some set.debounce else none, status := pins[p].status } } :
          Port).toSafeLevels))

/-! ### Invariants -/

/-- The invariants hold after a pin reset. -/
def Obligations.InvariantsHoldAtReset : Prop :=
  AttentionHolds State.reset ∧ PendingsHold State.reset ∧ FramesHold State.reset ∧ CreditsHold State.reset ∧ ClaimsHold State.reset ∧
  RunControlHolds State.reset ∧ SeatsHold State.reset ∧ RecordsHold State.reset ∧ TalliesHold State.reset ∧
  ChainsHold State.reset ∧ ChannelsHold State.reset ∧ TeardownsHold State.reset ∧ OwnersHold State.reset

/-- R177, R171, R178, R182, R184: whatever command a step takes, ATTN stays low exactly while an OPEN channel has a non-empty
enabled member; each pending set keeps its handles once and at most 16, its port events in the order a POLL sends them, and
LAPSED and LINK_ERROR for C0 only, and a CLOSED channel's is empty; and the outstanding frames of each channel stay those that
wait, execute or await sending, at most 4. -/
def Obligations.StepKeepsAttentionAndFrames : Prop :=
  ∀ s t : State, step s = .next t →
    (AttentionHolds s → AttentionHolds t) ∧ (PendingsHold s → PendingsHold t) ∧ (FramesHold s → FramesHold t)

/-- R121, R131, R74, R76, R95, R110, R115: whatever command a step takes, no credit of a port is lost or made, a SOLE claim
stands alone, the step budget and the stop timer go with the run state, link, debounce timer and gate go with the seat, and no
unseat waits at a gate while a board is SEATED or LEAVING, so that it finds the gate CLOSED. -/
def Obligations.StepKeepsThePorts : Prop :=
  ∀ s t : State, step s = .next t →
    (CreditsHold s → CreditsHold t) ∧ (ClaimsHold s → ClaimsHold t) ∧ (RunControlHolds s → RunControlHolds t) ∧
    (SeatsHold s → SeatsHold t)

/-- R1, R6, R9, R59, R64, R33: whatever command a step takes, there are 96 slots, each record's hit count goes with its state
and goal, each tally stays in its range, and no chain passes its room. -/
def Obligations.StepKeepsTheRecords : Prop :=
  ∀ s t : State, step s = .next t →
    (RecordsHold s → RecordsHold t) ∧ (TalliesHold s → TalliesHold t) ∧ (ChainsHold s → ChainsHold t)

/-- R157, R165, R4, R166: whatever command a step takes, a CLOSED channel holds nothing, the teardowns are those of OPEN
channels, each once, and every record is owned by an OPEN channel, from the end of step 1 of a teardown on not by the channel
torn down. -/
def Obligations.StepKeepsChannelsAndTeardowns : Prop :=
  ∀ s t : State, step s = .next t →
    (ChannelsHold s → ChannelsHold t) ∧ (ChannelsHold s → TeardownsHold s → TeardownsHold t) ∧
    (ChannelsHold s → TeardownsHold s → OwnersHold s → OwnersHold t)
end

