-- ==== Sys2Proof/Laws/State.lean ====
section
/-! SUPPORT. What each named update of State leaves as it was, one lemma per field, and what it writes. Everything that
reads a part of the state after an update is said here once, so that no proof unfolds an update. -/

namespace Sys2Proof.Machine.State

variable (s : State)

/-! ### Fields an update leaves as they were -/

@[simp] theorem setPort_pending (p : PortId) (x : Port) : (s.setPort p x).pending = s.pending := rfl
@[simp] theorem setPort_bench (p : PortId) (x : Port) : (s.setPort p x).bench = s.bench := rfl
@[simp] theorem setPort_chans (p : PortId) (x : Port) : (s.setPort p x).chans = s.chans := rfl
@[simp] theorem setPort_teardowns (p : PortId) (x : Port) : (s.setPort p x).teardowns = s.teardowns := rfl
@[simp] theorem setPort_table (p : PortId) (x : Port) : (s.setPort p x).table = s.table := rfl
@[simp] theorem setPort_cross (p : PortId) (x : Port) : (s.setPort p x).cross = s.cross := rfl
@[simp] theorem setPort_notice (p : PortId) (x : Port) : (s.setPort p x).notice = s.notice := rfl
@[simp] theorem setPort_desc (p : PortId) (x : Port) : (s.setPort p x).desc = s.desc := rfl
@[simp] theorem setPort_fresh (p : PortId) (x : Port) : (s.setPort p x).fresh = s.fresh := rfl

@[simp] theorem setChan_pending (c : ChanId) (x : Channel) : (s.setChan c x).pending = s.pending := rfl
@[simp] theorem setChan_bench (c : ChanId) (x : Channel) : (s.setChan c x).bench = s.bench := rfl
@[simp] theorem setChan_teardowns (c : ChanId) (x : Channel) : (s.setChan c x).teardowns = s.teardowns := rfl
@[simp] theorem setChan_table (c : ChanId) (x : Channel) : (s.setChan c x).table = s.table := rfl
@[simp] theorem setChan_ports (c : ChanId) (x : Channel) : (s.setChan c x).ports = s.ports := rfl
@[simp] theorem setChan_cross (c : ChanId) (x : Channel) : (s.setChan c x).cross = s.cross := rfl
@[simp] theorem setChan_notice (c : ChanId) (x : Channel) : (s.setChan c x).notice = s.notice := rfl
@[simp] theorem setChan_desc (c : ChanId) (x : Channel) : (s.setChan c x).desc = s.desc := rfl
@[simp] theorem setChan_fresh (c : ChanId) (x : Channel) : (s.setChan c x).fresh = s.fresh := rfl

@[simp] theorem setLane_pending (c : ChanId) (x : Lane) : (s.setLane c x).pending = s.pending := rfl
@[simp] theorem setLane_chans (c : ChanId) (x : Lane) : (s.setLane c x).chans = s.chans := rfl
@[simp] theorem setLane_teardowns (c : ChanId) (x : Lane) : (s.setLane c x).teardowns = s.teardowns := rfl
@[simp] theorem setLane_table (c : ChanId) (x : Lane) : (s.setLane c x).table = s.table := rfl
@[simp] theorem setLane_ports (c : ChanId) (x : Lane) : (s.setLane c x).ports = s.ports := rfl
@[simp] theorem setLane_cross (c : ChanId) (x : Lane) : (s.setLane c x).cross = s.cross := rfl
@[simp] theorem setLane_notice (c : ChanId) (x : Lane) : (s.setLane c x).notice = s.notice := rfl
@[simp] theorem setLane_desc (c : ChanId) (x : Lane) : (s.setLane c x).desc = s.desc := rfl
@[simp] theorem setLane_fresh (c : ChanId) (x : Lane) : (s.setLane c x).fresh = s.fresh := rfl

@[simp] theorem setPending_pending (c : ChanId) (x : Pending) : (s.setPending c x).pending = s.pending := rfl
@[simp] theorem setPending_bench (c : ChanId) (x : Pending) : (s.setPending c x).bench = s.bench := rfl
@[simp] theorem setPending_chans (c : ChanId) (x : Pending) : (s.setPending c x).chans = s.chans := rfl
@[simp] theorem setPending_teardowns (c : ChanId) (x : Pending) : (s.setPending c x).teardowns = s.teardowns := rfl
@[simp] theorem setPending_table (c : ChanId) (x : Pending) : (s.setPending c x).table = s.table := rfl
@[simp] theorem setPending_ports (c : ChanId) (x : Pending) : (s.setPending c x).ports = s.ports := rfl
@[simp] theorem setPending_cross (c : ChanId) (x : Pending) : (s.setPending c x).cross = s.cross := rfl
@[simp] theorem setPending_desc (c : ChanId) (x : Pending) : (s.setPending c x).desc = s.desc := rfl
@[simp] theorem setPending_fresh (c : ChanId) (x : Pending) : (s.setPending c x).fresh = s.fresh := rfl

@[simp] theorem setTable_pending (t : WatchTable) : (s.setTable t).pending = s.pending := rfl
@[simp] theorem setTable_bench (t : WatchTable) : (s.setTable t).bench = s.bench := rfl
@[simp] theorem setTable_chans (t : WatchTable) : (s.setTable t).chans = s.chans := rfl
@[simp] theorem setTable_teardowns (t : WatchTable) : (s.setTable t).teardowns = s.teardowns := rfl
@[simp] theorem setTable_ports (t : WatchTable) : (s.setTable t).ports = s.ports := rfl
@[simp] theorem setTable_cross (t : WatchTable) : (s.setTable t).cross = s.cross := rfl
@[simp] theorem setTable_notice (t : WatchTable) : (s.setTable t).notice = s.notice := rfl
@[simp] theorem setTable_desc (t : WatchTable) : (s.setTable t).desc = s.desc := rfl
@[simp] theorem setTable_fresh (t : WatchTable) : (s.setTable t).fresh = s.fresh := rfl

@[simp] theorem respond_pending (c : ChanId) (tag : Byte) (st : Status) (pl : List Byte) (h : Option Handle) : (s.respond c tag st pl h).pending = s.pending := rfl
@[simp] theorem respond_chans (c : ChanId) (tag : Byte) (st : Status) (pl : List Byte) (h : Option Handle) : (s.respond c tag st pl h).chans = s.chans := rfl
@[simp] theorem respond_teardowns (c : ChanId) (tag : Byte) (st : Status) (pl : List Byte) (h : Option Handle) : (s.respond c tag st pl h).teardowns = s.teardowns := rfl
@[simp] theorem respond_table (c : ChanId) (tag : Byte) (st : Status) (pl : List Byte) (h : Option Handle) : (s.respond c tag st pl h).table = s.table := rfl
@[simp] theorem respond_ports (c : ChanId) (tag : Byte) (st : Status) (pl : List Byte) (h : Option Handle) : (s.respond c tag st pl h).ports = s.ports := rfl
@[simp] theorem respond_cross (c : ChanId) (tag : Byte) (st : Status) (pl : List Byte) (h : Option Handle) : (s.respond c tag st pl h).cross = s.cross := rfl
@[simp] theorem respond_notice (c : ChanId) (tag : Byte) (st : Status) (pl : List Byte) (h : Option Handle) : (s.respond c tag st pl h).notice = s.notice := rfl
@[simp] theorem respond_desc (c : ChanId) (tag : Byte) (st : Status) (pl : List Byte) (h : Option Handle) : (s.respond c tag st pl h).desc = s.desc := rfl
@[simp] theorem respond_fresh (c : ChanId) (tag : Byte) (st : Status) (pl : List Byte) (h : Option Handle) : (s.respond c tag st pl h).fresh = s.fresh := rfl

@[simp] theorem sendSignal_pending (u : UnitId) (h : Handle) (c : ChanId) : (s.sendSignal u h c).pending = s.pending := rfl
@[simp] theorem sendSignal_bench (u : UnitId) (h : Handle) (c : ChanId) : (s.sendSignal u h c).bench = s.bench := rfl
@[simp] theorem sendSignal_chans (u : UnitId) (h : Handle) (c : ChanId) : (s.sendSignal u h c).chans = s.chans := rfl
@[simp] theorem sendSignal_teardowns (u : UnitId) (h : Handle) (c : ChanId) : (s.sendSignal u h c).teardowns = s.teardowns := rfl
@[simp] theorem sendSignal_table (u : UnitId) (h : Handle) (c : ChanId) : (s.sendSignal u h c).table = s.table := rfl
@[simp] theorem sendSignal_ports (u : UnitId) (h : Handle) (c : ChanId) : (s.sendSignal u h c).ports = s.ports := rfl
@[simp] theorem sendSignal_cross (u : UnitId) (h : Handle) (c : ChanId) : (s.sendSignal u h c).cross = s.cross := rfl
@[simp] theorem sendSignal_desc (u : UnitId) (h : Handle) (c : ChanId) : (s.sendSignal u h c).desc = s.desc := rfl
@[simp] theorem sendSignal_fresh (u : UnitId) (h : Handle) (c : ChanId) : (s.sendSignal u h c).fresh = s.fresh := rfl

@[simp] theorem sendEvent_pending (m : PortEventMsg) : (s.sendEvent m).pending = s.pending := rfl
@[simp] theorem sendEvent_bench (m : PortEventMsg) : (s.sendEvent m).bench = s.bench := rfl
@[simp] theorem sendEvent_chans (m : PortEventMsg) : (s.sendEvent m).chans = s.chans := rfl
@[simp] theorem sendEvent_teardowns (m : PortEventMsg) : (s.sendEvent m).teardowns = s.teardowns := rfl
@[simp] theorem sendEvent_table (m : PortEventMsg) : (s.sendEvent m).table = s.table := rfl
@[simp] theorem sendEvent_ports (m : PortEventMsg) : (s.sendEvent m).ports = s.ports := rfl
@[simp] theorem sendEvent_cross (m : PortEventMsg) : (s.sendEvent m).cross = s.cross := rfl
@[simp] theorem sendEvent_desc (m : PortEventMsg) : (s.sendEvent m).desc = s.desc := rfl
@[simp] theorem sendEvent_fresh (m : PortEventMsg) : (s.sendEvent m).fresh = s.fresh := rfl

@[simp] theorem sendAddition_pending (a : Addition) : (s.sendAddition a).pending = s.pending := rfl
@[simp] theorem sendAddition_bench (a : Addition) : (s.sendAddition a).bench = s.bench := rfl
@[simp] theorem sendAddition_chans (a : Addition) : (s.sendAddition a).chans = s.chans := rfl
@[simp] theorem sendAddition_teardowns (a : Addition) : (s.sendAddition a).teardowns = s.teardowns := rfl
@[simp] theorem sendAddition_table (a : Addition) : (s.sendAddition a).table = s.table := rfl
@[simp] theorem sendAddition_ports (a : Addition) : (s.sendAddition a).ports = s.ports := rfl
@[simp] theorem sendAddition_cross (a : Addition) : (s.sendAddition a).cross = s.cross := rfl
@[simp] theorem sendAddition_desc (a : Addition) : (s.sendAddition a).desc = s.desc := rfl
@[simp] theorem sendAddition_fresh (a : Addition) : (s.sendAddition a).fresh = s.fresh := rfl

@[simp] theorem setReceiver_pending (r : Receiver) : (s.setReceiver r).pending = s.pending := rfl
@[simp] theorem setReceiver_chans (r : Receiver) : (s.setReceiver r).chans = s.chans := rfl
@[simp] theorem setReceiver_teardowns (r : Receiver) : (s.setReceiver r).teardowns = s.teardowns := rfl
@[simp] theorem setReceiver_table (r : Receiver) : (s.setReceiver r).table = s.table := rfl
@[simp] theorem setReceiver_ports (r : Receiver) : (s.setReceiver r).ports = s.ports := rfl
@[simp] theorem setReceiver_cross (r : Receiver) : (s.setReceiver r).cross = s.cross := rfl
@[simp] theorem setReceiver_notice (r : Receiver) : (s.setReceiver r).notice = s.notice := rfl
@[simp] theorem setReceiver_desc (r : Receiver) : (s.setReceiver r).desc = s.desc := rfl
@[simp] theorem setReceiver_fresh (r : Receiver) : (s.setReceiver r).fresh = s.fresh := rfl

@[simp] theorem setCrossLine_pending (x : CrossId) (l : CrossLine) : (s.setCrossLine x l).pending = s.pending := rfl
@[simp] theorem setCrossLine_bench (x : CrossId) (l : CrossLine) : (s.setCrossLine x l).bench = s.bench := rfl
@[simp] theorem setCrossLine_chans (x : CrossId) (l : CrossLine) : (s.setCrossLine x l).chans = s.chans := rfl
@[simp] theorem setCrossLine_teardowns (x : CrossId) (l : CrossLine) : (s.setCrossLine x l).teardowns = s.teardowns := rfl
@[simp] theorem setCrossLine_table (x : CrossId) (l : CrossLine) : (s.setCrossLine x l).table = s.table := rfl
@[simp] theorem setCrossLine_ports (x : CrossId) (l : CrossLine) : (s.setCrossLine x l).ports = s.ports := rfl
@[simp] theorem setCrossLine_notice (x : CrossId) (l : CrossLine) : (s.setCrossLine x l).notice = s.notice := rfl
@[simp] theorem setCrossLine_desc (x : CrossId) (l : CrossLine) : (s.setCrossLine x l).desc = s.desc := rfl
@[simp] theorem setCrossLine_fresh (x : CrossId) (l : CrossLine) : (s.setCrossLine x l).fresh = s.fresh := rfl

@[simp] theorem reevaluate_pending : (s.reevaluate).pending = s.pending := rfl
@[simp] theorem reevaluate_bench : (s.reevaluate).bench = s.bench := rfl
@[simp] theorem reevaluate_chans : (s.reevaluate).chans = s.chans := rfl
@[simp] theorem reevaluate_teardowns : (s.reevaluate).teardowns = s.teardowns := rfl
@[simp] theorem reevaluate_table : (s.reevaluate).table = s.table := rfl
@[simp] theorem reevaluate_ports : (s.reevaluate).ports = s.ports := rfl
@[simp] theorem reevaluate_cross : (s.reevaluate).cross = s.cross := rfl
@[simp] theorem reevaluate_desc : (s.reevaluate).desc = s.desc := rfl
@[simp] theorem reevaluate_fresh : (s.reevaluate).fresh = s.fresh := rfl

/-! ### Parts of the bench port and the Notice Unit -/

@[simp] theorem setLane_output (c : ChanId) (x : Lane) : (s.setLane c x).bench.output = s.bench.output := rfl
@[simp] theorem setLane_receiver (c : ChanId) (x : Lane) : (s.setLane c x).bench.receiver = s.bench.receiver := rfl
@[simp] theorem setLane_sentFrames (c : ChanId) (x : Lane) : (s.setLane c x).bench.sentFrames = s.bench.sentFrames := rfl
@[simp] theorem setLane_lanes (c : ChanId) (x : Lane) : (s.setLane c x).bench.lanes = s.bench.lanes.set c x := rfl
@[simp] theorem respond_output (c : ChanId) (tag : Byte) (st : Status) (pl : List Byte) (h : Option Handle) :
    (s.respond c tag st pl h).bench.output =
      s.bench.output ++ [{ chan := c, tag := tag, status := st, payload := pl, handle := h }] := rfl
@[simp] theorem respond_lanes (c : ChanId) (tag : Byte) (st : Status) (pl : List Byte) (h : Option Handle) :
    (s.respond c tag st pl h).bench.lanes = s.bench.lanes := rfl
@[simp] theorem respond_receiver (c : ChanId) (tag : Byte) (st : Status) (pl : List Byte) (h : Option Handle) :
    (s.respond c tag st pl h).bench.receiver = s.bench.receiver := rfl
@[simp] theorem setPending_attn (c : ChanId) (x : Pending) : (s.setPending c x).notice.attn = s.notice.attn := rfl
@[simp] theorem sendSignal_attn (u : UnitId) (h : Handle) (c : ChanId) :
    (s.sendSignal u h c).notice.attn = s.notice.attn := rfl
@[simp] theorem sendEvent_attn (m : PortEventMsg) : (s.sendEvent m).notice.attn = s.notice.attn := rfl
@[simp] theorem sendAddition_attn (a : Addition) : (s.sendAddition a).notice.attn = s.notice.attn := rfl
@[simp] theorem sendSignal_sets (u : UnitId) (h : Handle) (c : ChanId) :
    (s.sendSignal u h c).notice.pending = s.notice.pending := rfl
@[simp] theorem sendEvent_sets (m : PortEventMsg) : (s.sendEvent m).notice.pending = s.notice.pending := rfl
@[simp] theorem sendAddition_sets (a : Addition) : (s.sendAddition a).notice.pending = s.notice.pending := rfl
@[simp] theorem reevaluate_sets : s.reevaluate.notice.pending = s.notice.pending := rfl
@[simp] theorem reevaluate_attn : s.reevaluate.notice.attn = s.attentionCondition := rfl

/-! ### Reading what was written -/

@[simp] theorem setTable_table (t : WatchTable) : (s.setTable t).table = t := rfl
@[simp] theorem port_setPort_same (p : PortId) (x : Port) : (s.setPort p x).port p = x := by
  simp [port, setPort]
@[simp] theorem chan_setChan_same (c : ChanId) (x : Channel) : (s.setChan c x).chan c = x := by
  simp [chan, setChan]
@[simp] theorem lane_setLane_same (c : ChanId) (x : Lane) : (s.setLane c x).lane c = x := by
  simp [lane, setLane]
@[simp] theorem pendingOf_setPending_same (c : ChanId) (x : Pending) : (s.setPending c x).pendingOf c = x := by
  simp [pendingOf, setPending]

theorem port_setPort_ne {p q : PortId} (h : p ≠ q) (x : Port) : (s.setPort p x).port q = s.port q := by
  simp [port, setPort, Fin.val_ne_of_ne h]
theorem chan_setChan_ne {c d : ChanId} (h : c ≠ d) (x : Channel) : (s.setChan c x).chan d = s.chan d := by
  simp [chan, setChan, Fin.val_ne_of_ne h]
theorem lane_setLane_ne {c d : ChanId} (h : c ≠ d) (x : Lane) : (s.setLane c x).lane d = s.lane d := by
  simp [lane, setLane, Fin.val_ne_of_ne h]
theorem pendingOf_setPending_ne {c d : ChanId} (h : c ≠ d) (x : Pending) :
    (s.setPending c x).pendingOf d = s.pendingOf d := by
  simp [pendingOf, setPending, Fin.val_ne_of_ne h]

theorem port_setPort (p q : PortId) (x : Port) : (s.setPort p x).port q = if p = q then x else s.port q := by
  split
  · next h => subst h; exact port_setPort_same s p x
  · next h => exact port_setPort_ne s h x
theorem chan_setChan (c d : ChanId) (x : Channel) : (s.setChan c x).chan d = if c = d then x else s.chan d := by
  split
  · next h => subst h; exact chan_setChan_same s c x
  · next h => exact chan_setChan_ne s h x
theorem lane_setLane (c d : ChanId) (x : Lane) : (s.setLane c x).lane d = if c = d then x else s.lane d := by
  split
  · next h => subst h; exact lane_setLane_same s c x
  · next h => exact lane_setLane_ne s h x
theorem pendingOf_setPending (c d : ChanId) (x : Pending) :
    (s.setPending c x).pendingOf d = if c = d then x else s.pendingOf d := by
  split
  · next h => subst h; exact pendingOf_setPending_same s c x
  · next h => exact pendingOf_setPending_ne s h x

/-! ### Reads that an update of another part does not reach -/

/-- A read by index depends on its own part of the state alone. -/
theorem port_congr {s t : State} (h : t.ports = s.ports) (p : PortId) : t.port p = s.port p := by simp [port, h]
theorem chan_congr {s t : State} (h : t.chans = s.chans) (c : ChanId) : t.chan c = s.chan c := by simp [chan, h]
theorem lane_congr {s t : State} (h : t.bench.lanes = s.bench.lanes) (c : ChanId) : t.lane c = s.lane c := by
  simp [lane, h]
theorem pendingOf_congr {s t : State} (h : t.notice.pending = s.notice.pending) (c : ChanId) :
    t.pendingOf c = s.pendingOf c := by simp [pendingOf, h]

@[simp] theorem setPort_chan (p : PortId) (x : Port) (d : ChanId) : (s.setPort p x).chan d = s.chan d := rfl
@[simp] theorem setPort_lane (p : PortId) (x : Port) (d : ChanId) : (s.setPort p x).lane d = s.lane d := rfl
@[simp] theorem setPort_pendingOf (p : PortId) (x : Port) (d : ChanId) : (s.setPort p x).pendingOf d = s.pendingOf d := rfl
@[simp] theorem setChan_port (c : ChanId) (x : Channel) (q : PortId) : (s.setChan c x).port q = s.port q := rfl
@[simp] theorem setChan_lane (c : ChanId) (x : Channel) (d : ChanId) : (s.setChan c x).lane d = s.lane d := rfl
@[simp] theorem setChan_pendingOf (c : ChanId) (x : Channel) (d : ChanId) : (s.setChan c x).pendingOf d = s.pendingOf d := rfl
@[simp] theorem setLane_port (c : ChanId) (x : Lane) (q : PortId) : (s.setLane c x).port q = s.port q := rfl
@[simp] theorem setLane_chan (c : ChanId) (x : Lane) (d : ChanId) : (s.setLane c x).chan d = s.chan d := rfl
@[simp] theorem setLane_pendingOf (c : ChanId) (x : Lane) (d : ChanId) : (s.setLane c x).pendingOf d = s.pendingOf d := rfl
@[simp] theorem setPending_port (c : ChanId) (x : Pending) (q : PortId) : (s.setPending c x).port q = s.port q := rfl
@[simp] theorem setPending_chan (c : ChanId) (x : Pending) (d : ChanId) : (s.setPending c x).chan d = s.chan d := rfl
@[simp] theorem setPending_lane (c : ChanId) (x : Pending) (d : ChanId) : (s.setPending c x).lane d = s.lane d := rfl
@[simp] theorem setTable_port (t : WatchTable) (q : PortId) : (s.setTable t).port q = s.port q := rfl
@[simp] theorem setTable_chan (t : WatchTable) (d : ChanId) : (s.setTable t).chan d = s.chan d := rfl
@[simp] theorem setTable_lane (t : WatchTable) (d : ChanId) : (s.setTable t).lane d = s.lane d := rfl
@[simp] theorem setTable_pendingOf (t : WatchTable) (d : ChanId) : (s.setTable t).pendingOf d = s.pendingOf d := rfl
@[simp] theorem respond_port (c : ChanId) (tag : Byte) (st : Status) (pl : List Byte) (h : Option Handle) (q : PortId) : (s.respond c tag st pl h).port q = s.port q := rfl
@[simp] theorem respond_chan (c : ChanId) (tag : Byte) (st : Status) (pl : List Byte) (h : Option Handle) (d : ChanId) : (s.respond c tag st pl h).chan d = s.chan d := rfl
@[simp] theorem respond_lane (c : ChanId) (tag : Byte) (st : Status) (pl : List Byte) (h : Option Handle) (d : ChanId) : (s.respond c tag st pl h).lane d = s.lane d := rfl
@[simp] theorem respond_pendingOf (c : ChanId) (tag : Byte) (st : Status) (pl : List Byte) (h : Option Handle) (d : ChanId) : (s.respond c tag st pl h).pendingOf d = s.pendingOf d := rfl
@[simp] theorem sendSignal_port (u : UnitId) (h : Handle) (c : ChanId) (q : PortId) : (s.sendSignal u h c).port q = s.port q := rfl
@[simp] theorem sendSignal_chan (u : UnitId) (h : Handle) (c : ChanId) (d : ChanId) : (s.sendSignal u h c).chan d = s.chan d := rfl
@[simp] theorem sendSignal_lane (u : UnitId) (h : Handle) (c : ChanId) (d : ChanId) : (s.sendSignal u h c).lane d = s.lane d := rfl
@[simp] theorem sendSignal_pendingOf (u : UnitId) (h : Handle) (c : ChanId) (d : ChanId) : (s.sendSignal u h c).pendingOf d = s.pendingOf d := rfl
@[simp] theorem sendEvent_port (m : PortEventMsg) (q : PortId) : (s.sendEvent m).port q = s.port q := rfl
@[simp] theorem sendEvent_chan (m : PortEventMsg) (d : ChanId) : (s.sendEvent m).chan d = s.chan d := rfl
@[simp] theorem sendEvent_lane (m : PortEventMsg) (d : ChanId) : (s.sendEvent m).lane d = s.lane d := rfl
@[simp] theorem sendEvent_pendingOf (m : PortEventMsg) (d : ChanId) : (s.sendEvent m).pendingOf d = s.pendingOf d := rfl
@[simp] theorem sendAddition_port (a : Addition) (q : PortId) : (s.sendAddition a).port q = s.port q := rfl
@[simp] theorem sendAddition_chan (a : Addition) (d : ChanId) : (s.sendAddition a).chan d = s.chan d := rfl
@[simp] theorem sendAddition_lane (a : Addition) (d : ChanId) : (s.sendAddition a).lane d = s.lane d := rfl
@[simp] theorem sendAddition_pendingOf (a : Addition) (d : ChanId) : (s.sendAddition a).pendingOf d = s.pendingOf d := rfl
@[simp] theorem setReceiver_port (r : Receiver) (q : PortId) : (s.setReceiver r).port q = s.port q := rfl
@[simp] theorem setReceiver_chan (r : Receiver) (d : ChanId) : (s.setReceiver r).chan d = s.chan d := rfl
@[simp] theorem setReceiver_lane (r : Receiver) (d : ChanId) : (s.setReceiver r).lane d = s.lane d := rfl
@[simp] theorem setReceiver_pendingOf (r : Receiver) (d : ChanId) : (s.setReceiver r).pendingOf d = s.pendingOf d := rfl
@[simp] theorem setCrossLine_port (x : CrossId) (l : CrossLine) (q : PortId) : (s.setCrossLine x l).port q = s.port q := rfl
@[simp] theorem setCrossLine_chan (x : CrossId) (l : CrossLine) (d : ChanId) : (s.setCrossLine x l).chan d = s.chan d := rfl
@[simp] theorem setCrossLine_lane (x : CrossId) (l : CrossLine) (d : ChanId) : (s.setCrossLine x l).lane d = s.lane d := rfl
@[simp] theorem setCrossLine_pendingOf (x : CrossId) (l : CrossLine) (d : ChanId) : (s.setCrossLine x l).pendingOf d = s.pendingOf d := rfl
@[simp] theorem reevaluate_port (q : PortId) : (s.reevaluate).port q = s.port q := rfl
@[simp] theorem reevaluate_chan (d : ChanId) : (s.reevaluate).chan d = s.chan d := rfl
@[simp] theorem reevaluate_lane (d : ChanId) : (s.reevaluate).lane d = s.lane d := rfl
@[simp] theorem reevaluate_pendingOf (d : ChanId) : (s.reevaluate).pendingOf d = s.pendingOf d := rfl

end Sys2Proof.Machine.State
end

