-- ==== Sys2Proof/Laws/Pendings.lean ====
section
/-! SUPPORT. Pending sets: the order of the port events, and what every addition keeps of a set (R171, R178). -/

namespace Sys2Proof.Machine

open State

theorem mem_allChans (d : ChanId) : d ∈ allChans := by revert d; decide

/-- The condition of the attention line, enable by enable (R177). -/
theorem attentionCondition_iff (s : State) : s.attentionCondition = true ↔ s.AttentionDue := by
  have hd : ∀ l : ChanSet, l.isEmpty = false ↔ ∃ d : ChanId, l[d] = true := by
    intro l
    unfold ChanSet.isEmpty ChanSet.has
    rw [← Bool.not_eq_true, List.all_eq_true]
    simp only [Bool.not_eq_true', not_forall, Bool.not_eq_false]
    exact ⟨fun ⟨c, _, h⟩ => ⟨c, h⟩, fun ⟨c, h⟩ => ⟨c, mem_allChans c, h⟩⟩
  unfold attentionCondition State.AttentionDue
  rw [List.any_eq_true]
  simp only [attentionOf, Pending.firedNonEmpty, Bool.and_eq_true, Bool.or_eq_true, Bool.not_eq_true', List.isEmpty_eq_false_iff, hd,
    or_assoc]
  exact ⟨fun ⟨c, _, h⟩ => ⟨c, h⟩, fun ⟨c, h⟩ => ⟨c, mem_allChans c, h⟩⟩

theorem attentionHolds_iff (s : State) : AttentionHolds s ↔ s.notice.attn = s.attentionCondition := by
  unfold AttentionHolds
  rw [← attentionCondition_iff]
  cases s.notice.attn <;> cases s.attentionCondition <;> simp

theorem mem_allPairs (x : PortId × EventCode) : x ∈ allPairs := by
  obtain ⟨p, k⟩ := x
  have : ∀ p : PortId, ∀ k, (p, k) ∈ allPairs := by
    intro p k; cases k <;> revert p <;> decide
  exact this p k

theorem allPairs_order : InEventOrder allPairs := by unfold InEventOrder; decide

theorem allPairs_nodup : allPairs.Nodup := by decide

theorem addPair_mem (x y : PortId × EventCode) (l : List (PortId × EventCode)) : y ∈ addPair x l ↔ y = x ∨ y ∈ l := by
  unfold addPair
  rw [List.mem_filter]
  simp [mem_allPairs]

theorem addPair_nodup (x : PortId × EventCode) (l : List (PortId × EventCode)) : (addPair x l).Nodup :=
    allPairs_nodup.filter _

/-- A set of port events stands in the order of R178 after every addition. -/
theorem addPair_order (x : PortId × EventCode) (l : List (PortId × EventCode)) : InEventOrder (addPair x l) :=
  List.Pairwise.filter _ allPairs_order

theorem Pending.empty_holds (c : ChanId) : Pending.empty.holdsTo c :=
  ⟨List.nodup_nil, Nat.zero_le _, List.Pairwise.nil, fun _ => ⟨by decide, rfl⟩⟩

theorem Pending.addFired_holds {c : ChanId} {q : Pending} (h : Handle) (x : q.holdsTo c) : (q.addFired h).holdsTo c := by
  obtain ⟨x1, x2, x3, x4⟩ := x
  unfold Pending.addFired
  split
  · exact ⟨x1, x2, x3, x4⟩
  · next hn =>
    split
    · next hl =>
      refine ⟨?_, ?_, x3, x4⟩
      · refine List.nodup_append.2 ⟨x1, by simp, ?_⟩
        intro a ha b hb
        simp only [List.mem_singleton] at hb
        subst hb
        rintro rfl
        exact hn (by simpa using ha)
      · show (q.fired ++ [h]).length ≤ _
        rw [List.length_append]
        exact hl
    · exact ⟨x1, x2, x3, x4⟩

theorem Pending.addEvent_holds {c : ChanId} {q : Pending} (p : PortId) (k : EventCode) (x : q.holdsTo c) :
    (q.addEvent p k).holdsTo c :=
  ⟨x.1, x.2.1, addPair_order _ _, x.2.2.2⟩

theorem Pending.add_holds {q : Pending} (a : Addition) (x : q.holdsTo a.target) : (q.add a).holdsTo a.target := by
  obtain ⟨x1, x2, x3, x4⟩ := x
  cases a with
  | revoked d => exact ⟨x1, x2, x3, x4⟩
  | overrun d => exact ⟨x1, x2, x3, x4⟩
  | lapsed d => exact ⟨x1, x2, x3, fun h => (h rfl).elim⟩
  | linkError => exact ⟨x1, x2, x3, fun h => (h rfl).elim⟩

namespace State

/-- Every pending set stays, is emptied, or is that of an OPEN channel and keeps what a set keeps to. -/
def PendingsTo (s t : State) : Prop :=
  ∀ c : ChanId, t.pendingOf c = s.pendingOf c ∨ t.pendingOf c = Pending.empty ∨
    ((s.chan c).isOpen = true ∧ ((s.pendingOf c).holdsTo c → (t.pendingOf c).holdsTo c))

theorem PendingsTo.trans {s t u : State} (h : s.PendingsTo t) (k : t.PendingsTo u) (hc : t.chans = s.chans) :
    s.PendingsTo u := by
  intro c
  have hd : t.chan c = s.chan c := by simp [chan, hc]
  rcases k c with e | e | ⟨a, b⟩
  · rw [e]; exact h c
  · exact .inr (.inl e)
  · rw [hd] at a
    rcases h c with e | e | ⟨_, d⟩
    · rw [e] at b; exact .inr (.inr ⟨a, b⟩)
    · exact .inr (.inr ⟨a, fun _ => b (by rw [e]; exact Pending.empty_holds c)⟩)
    · exact .inr (.inr ⟨a, fun x => b (d x)⟩)

theorem addTo_pendings (s : State) (c : ChanId) (f : Pending → Pending) (hf : ∀ q, q.holdsTo c → (f q).holdsTo c) :
    s.PendingsTo (s.addTo c f) := by
  intro d
  unfold addTo
  split
  · next ho =>
    rw [pendingOf_setPending]
    split
    · next e => subst e; exact .inr (.inr ⟨ho, hf _⟩)
    · exact .inl rfl
  · exact .inl rfl

end State

end Sys2Proof.Machine
end

