-- ==== Sys2Proof/Laws/Table.lean ====
section
/-! SUPPORT. The Watch Table under its own operations: what each slot holds after one of them, and how long the chains
are. -/

namespace Sys2Proof.Machine

/-! ### Rights and membership (R10, R33) -/

namespace Record

variable (r : Record)

theorem mayRead_iff (c : ChanId) : r.mayRead c = true ↔ c = 0 ∨ c = r.owner ∨ r.guard ≠ .guardPrivate := by
  simp [mayRead, or_assoc]

theorem mayChange_iff (c : ChanId) : r.mayChange c = true ↔ c = 0 ∨ c = r.owner ∨ r.guard = .guardOpen := by
  simp [mayChange, or_assoc]

/-- A record of source BUS or LINE is a member at the ports its scope covers. -/
theorem memberOf_port_iff (p : PortId) : r.memberOf (.matchUnit p) = true ↔
    ((∃ m d, r.side.cond = .bus m d) ∨ ∃ l e, r.side.cond = .line l e) ∧
    (r.scope = .one p ∨ r.scope = .all ∨ ∃ p', r.scope = .allBut p' ∧ p ≠ p') := by
  have hc : r.scope.covers p = true ↔ r.scope = .one p ∨ r.scope = .all ∨ ∃ p', r.scope = .allBut p' ∧ p ≠ p' := by
    cases r.scope <;> simp [Scope.covers]
    exact ⟨Eq.symm, Eq.symm⟩
  unfold memberOf
  rw [Bool.and_eq_true, hc]
  refine and_congr_left fun _ => ?_
  cases r.side.cond <;> simp [Cond.isCross]

/-- A record of source CROSS is a member at the Cross Line Unit. -/
theorem memberOf_cross_iff : r.memberOf .crossLine = true ↔ ∃ x, r.side.cond = .cross x := by
  unfold memberOf
  cases r.side.cond <;> simp [Cond.isCross]

end Record

namespace WatchTable

variable (t : WatchTable)

/-! ### Slots -/

theorem slotAt_eq_getElem {i : Nat} (h : i < t.slots.length) : t.slotAt i = t.slots[i] := by
  simp [slotAt, List.getD_eq_getElem?_getD, List.getElem?_eq_getElem h]

theorem slotAt_beyond {i : Nat} (h : t.slots.length ≤ i) : t.slotAt i = { issue := 0, record := none } := by
  simp [slotAt, List.getD_eq_getElem?_getD, List.getElem?_eq_none h]

theorem slotAt_of_getElem? {i : Nat} {x : Slot} (h : t.slots[i]? = some x) : t.slotAt i = x := by
  simp [slotAt, List.getD_eq_getElem?_getD, h]

/-- A slot that holds a record is one of the table's. -/
theorem lt_of_recordAt {i : Nat} {r : Record} (h : t.recordAt i = some r) : i < t.slots.length := by
  by_contra hc
  simp [recordAt, slotAt_beyond t (Nat.le_of_not_lt hc)] at h

@[simp] theorem setRecord_length (i : Nat) (r : Record) : (t.setRecord i r).slots.length = t.slots.length := by
  simp [setRecord]
@[simp] theorem freeSlot_length (i : Nat) : (t.freeSlot i).slots.length = t.slots.length := by simp [freeSlot]
@[simp] theorem setRecord_counter (i : Nat) (r : Record) : (t.setRecord i r).counter = t.counter := rfl
@[simp] theorem freeSlot_counter (i : Nat) : (t.freeSlot i).counter = t.counter := rfl
@[simp] theorem setRecord_nextChange (i : Nat) (r : Record) : (t.setRecord i r).nextChange = t.nextChange := rfl
@[simp] theorem freeSlot_nextChange (i : Nat) : (t.freeSlot i).nextChange = t.nextChange := rfl

theorem slotAt_setRecord (i j : Nat) (r : Record) :
    (t.setRecord i r).slotAt j =
      if i = j ∧ i < t.slots.length then { issue := (t.slotAt i).issue, record := some r } else t.slotAt j := by
  unfold slotAt setRecord
  simp only [List.getD_eq_getElem?_getD, List.getElem?_set]
  by_cases h : i = j
  · subst h
    by_cases hl : i < t.slots.length
    · simp [hl, slotAt, List.getD_eq_getElem?_getD]
    · simp [hl]
  · simp [h]

theorem slotAt_freeSlot (i j : Nat) :
    (t.freeSlot i).slotAt j =
      if i = j ∧ i < t.slots.length then { issue := (t.slotAt i).issue + 1, record := none } else t.slotAt j := by
  unfold slotAt freeSlot
  simp only [List.getD_eq_getElem?_getD, List.getElem?_set]
  by_cases h : i = j
  · subst h
    by_cases hl : i < t.slots.length
    · simp [hl, slotAt, List.getD_eq_getElem?_getD]
    · simp [hl]
  · simp [h]

theorem recordAt_setRecord (i j : Nat) (r : Record) :
    (t.setRecord i r).recordAt j = if i = j ∧ i < t.slots.length then some r else t.recordAt j := by
  unfold recordAt
  rw [slotAt_setRecord]
  split <;> rfl

theorem recordAt_freeSlot (i j : Nat) :
    (t.freeSlot i).recordAt j = if i = j ∧ i < t.slots.length then none else t.recordAt j := by
  unfold recordAt
  rw [slotAt_freeSlot]
  split <;> rfl

/-- The slot `lowestFree` gives is FREE and one of the table's. -/
theorem lowestFree_spec {i : Nat} (h : t.lowestFree = some i) : i < t.slots.length ∧ t.recordAt i = none := by
  unfold lowestFree at h
  have h1 := List.mem_of_find?_eq_some h
  have h2 := List.find?_some h
  simp [indices] at h1
  exact ⟨h1, by simpa using h2⟩

/-- A record a handle resolves to stands in the handle's slot. -/
theorem recordAt_of_resolve {h : Handle} {r : Record} (hr : t.resolve h = some r) : t.recordAt h.slot = some r := by
  unfold resolve at hr
  split at hr
  · exact hr
  · cases hr

/-- A handle resolves to the record of its slot when the issue numbers agree (R2). -/
theorem resolve_iff (h : Handle) (r : Record) :
    t.resolve h = some r ↔ ∃ x, t.slots[h.slot]? = some x ∧ x.record = some r ∧ x.issue = h.issue := by
  constructor
  · intro hr
    have hi := t.lt_of_recordAt (t.recordAt_of_resolve hr)
    unfold resolve recordAt at hr
    rw [slotAt_eq_getElem t hi] at hr
    split at hr
    · next he => exact ⟨_, List.getElem?_eq_getElem hi, hr, he⟩
    · cases hr
  · rintro ⟨x, hx, hr, he⟩
    unfold resolve recordAt
    rw [slotAt_of_getElem? t hx, if_pos he, hr]

/-! ### Chains -/

theorem insertEntry_length (e : CopyEntry) (l : List CopyEntry) : (insertEntry e l).length = l.length + 1 := by
  induction l with
  | nil => rfl
  | cons f rest ih =>
    unfold insertEntry
    split
    · simp
    · simp [ih]

/-- A chain has one place for each slot whose record concerns the unit. -/
theorem chain_length (u : UnitId) : (t.chain u).length = t.indices.countP fun i => (t.entryFor u i).isSome := by
  unfold chain
  have h1 : ∀ l : List CopyEntry, (l.foldr insertEntry []).length = l.length := by
    intro l
    induction l with
    | nil => rfl
    | cons e rest ih => simp [insertEntry_length, ih]
  rw [h1]
  induction t.indices with
  | nil => rfl
  | cons i rest ih =>
    rw [List.filterMap_cons, List.countP_cons]
    cases h : t.entryFor u i <;> simp [ih]

theorem mem_insertEntry (e x : CopyEntry) (l : List CopyEntry) : x ∈ insertEntry e l ↔ x = e ∨ x ∈ l := by
  induction l with
  | nil => simp [insertEntry]
  | cons f rest ih =>
    unfold insertEntry
    split
    · simp
    · simp only [List.mem_cons, ih]
      tauto

/-- The members of a chain are the entries of the slots whose records concern the unit (R33). -/
theorem mem_chain (u : UnitId) (x : CopyEntry) :
    x ∈ t.chain u ↔ ∃ i, i < t.slots.length ∧ t.entryFor u i = some x := by
  unfold chain
  have h1 : ∀ l : List CopyEntry, x ∈ l.foldr insertEntry [] ↔ x ∈ l := by
    intro l
    induction l with
    | nil => rfl
    | cons e rest ih => simp [mem_insertEntry, ih]
  rw [h1, List.mem_filterMap]
  simp [indices]

end WatchTable

end Sys2Proof.Machine
end

