-- ==== Sys2Proof/Laws/Match.lean ====
section
/-! SUPPORT. What matching can do: a relation between the states before and after, closed under the operations of the
Watch Table and the Match Units, and a relation between the tables before and after hits. -/

namespace Sys2Proof.Machine

/-! ### One port -/

namespace Port.MatchedTo

variable {q r x : Port}

theorem rfl' (q : Port) : q.MatchedTo q := ⟨rfl, rfl, rfl, rfl, rfl, rfl, rfl⟩

theorem trans (h : q.MatchedTo r) (k : r.MatchedTo x) : q.MatchedTo x where
  settings := k.settings.trans h.settings
  tlc := k.tlc.trans h.tlc
  arb := k.arb.trans h.arb
  rc := by rw [k.rc, h.rc]
  gate := by rw [k.gate, h.gate]
  observations := k.observations.trans h.observations
  handOvers := k.handOvers.trans h.handOvers

/-- Credits stay where they are. -/
theorem credits (h : q.MatchedTo r) : r.creditsEverywhere = q.creditsEverywhere := by
  simp [Port.creditsEverywhere, h.tlc, h.observations, h.handOvers]

/-- A change of the Match Unit alone. -/
theorem ofMatch (m : MatchUnit) (h : m.events.countP MatchEvent.isObs = q.mu.events.countP MatchEvent.isObs) :
    q.MatchedTo { q with mu := m } := ⟨rfl, rfl, rfl, rfl, rfl, h, rfl⟩

end Port.MatchedTo

/-! ### The part -/

namespace State

variable {s t u : State}

namespace MatchedTo

theorem rfl' (s : State) : s.MatchedTo s := ⟨rfl, rfl, rfl, rfl, rfl, rfl, rfl, rfl, fun _ => Port.MatchedTo.rfl' _⟩

theorem trans (h : s.MatchedTo t) (k : t.MatchedTo u) : s.MatchedTo u where
  pending := k.pending.trans h.pending
  bench := k.bench.trans h.bench
  chans := k.chans.trans h.chans
  teardowns := k.teardowns.trans h.teardowns
  desc := k.desc.trans h.desc
  fresh := k.fresh.trans h.fresh
  sets := k.sets.trans h.sets
  attn := k.attn.trans h.attn
  ports p := (h.ports p).trans (k.ports p)

/-- A fold of operations that each match. -/
theorem foldl {α : Type} (f : State → α → State) (hf : ∀ (x : State) a, x.MatchedTo (f x a)) (l : List α) (s : State) :
    s.MatchedTo (l.foldl f s) := by
  induction l generalizing s with
  | nil => exact rfl' s
  | cons a rest ih => exact (hf s a).trans (ih (f s a))

/-- A change of one port that matches. -/
theorem ofPort (p : PortId) (x : Port) (h : (s.port p).MatchedTo x) : s.MatchedTo (s.setPort p x) := by
  refine ⟨rfl, rfl, rfl, rfl, rfl, rfl, rfl, rfl, fun q => ?_⟩
  rw [port_setPort]
  split
  · next e => subst e; exact h
  · exact Port.MatchedTo.rfl' _

/-- The attention condition is as it was. -/
theorem condition (h : s.MatchedTo t) : t.attentionCondition = s.attentionCondition := by
  simp [attentionCondition, chan, pendingOf, h.chans, h.sets]

end MatchedTo

/-! ### The operations of the Watch Table -/

theorem setTable_matched (s : State) (w : WatchTable) : s.MatchedTo (s.setTable w) :=
  ⟨rfl, rfl, rfl, rfl, rfl, rfl, rfl, rfl, fun _ => Port.MatchedTo.rfl' _⟩

theorem setView_matched (s : State) (x : UnitId) (v : RecordView) : s.MatchedTo (s.setView x v) := by
  cases x with
  | matchUnit p => exact MatchedTo.ofPort p _ (Port.MatchedTo.ofMatch _ rfl)
  | crossLine => exact ⟨rfl, rfl, rfl, rfl, rfl, rfl, rfl, rfl, fun _ => Port.MatchedTo.rfl' _⟩

theorem setMatch_matched (s : State) (p : PortId) (m : MatchUnit)
    (h : m.events.countP MatchEvent.isObs = (s.port p).mu.events.countP MatchEvent.isObs) :
    s.MatchedTo (s.setMatch p m) := MatchedTo.ofPort p _ (Port.MatchedTo.ofMatch _ h)

/-- Making expiries stale takes no observation. -/
theorem discardExpiry_obs (i : Nat) (l : List MatchEvent) :
    (MatchUnit.discardExpiry i l).countP MatchEvent.isObs = l.countP MatchEvent.isObs := by
  unfold MatchUnit.discardExpiry
  rw [List.countP_map]
  congr 1
  funext e
  cases e with
  | quiet j b => by_cases h : j = i <;> simp [h, MatchEvent.isObs]
  | obs o ep => rfl
  | edge l d ep => rfl

theorem stopQuiet_matched (s : State) (i : Nat) (r : Record) : s.MatchedTo (s.stopQuiet i r) := by
  unfold stopQuiet
  split
  · exact MatchedTo.rfl' s
  · exact setMatch_matched s _ _ (discardExpiry_obs _ _)

theorem restartQuiet_matched (s : State) (i : Nat) (r : Record) : s.MatchedTo (s.restartQuiet i r) := by
  unfold restartQuiet
  split
  · exact MatchedTo.rfl' s
  · simp only
    split
    · exact setMatch_matched s _ _ (discardExpiry_obs _ _)
    · exact setMatch_matched s _ _ (discardExpiry_obs _ _)

theorem takeUpdate_matched (s : State) (x : UnitId) (upd : CopyEntry × Bool) : s.MatchedTo (s.takeUpdate x upd) := by
  unfold takeUpdate
  simp only
  split
  · split
    · exact (setView_matched s x _).trans (restartQuiet_matched _ _ _)
    · exact setView_matched s x _
  · exact setView_matched s x _

theorem bringUpToDate_matched (s : State) (x : UnitId) : s.MatchedTo (s.bringUpToDate x) := by
  unfold bringUpToDate
  refine MatchedTo.trans (MatchedTo.foldl _ (fun y k => ?_) _ s) (setView_matched _ x _)
  split
  · exact takeUpdate_matched y x _
  · exact MatchedTo.rfl' y

theorem syncCopy_matched (s : State) (x : UnitId) : s.MatchedTo (s.syncCopy x) := setView_matched s x _

theorem addToken_matched (s : State) (x : UnitId) (n : Nat) (upd : Option (CopyEntry × Bool)) :
    s.MatchedTo (s.addToken x n upd) := setView_matched s x _

theorem meetChange_matched (s : State) (x : UnitId) (n : Nat) (upd : Option (CopyEntry × Bool)) :
    s.MatchedTo (s.meetChange x n upd) := by
  unfold meetChange offerUpdate
  split
  · split
    · exact ((bringUpToDate_matched _ _).trans (takeUpdate_matched _ _ _)).trans (addToken_matched _ _ _ _)
    · exact (setView_matched s x _).trans (addToken_matched _ _ _ _)
  · exact addToken_matched _ _ _ _

theorem announce_matched (s : State) (us : List UnitId) (upd : Option (CopyEntry × Bool)) :
    s.MatchedTo (s.announce us upd) := by
  unfold announce
  exact (MatchedTo.foldl _ (fun y x => meetChange_matched y x _ _) us s).trans (setTable_matched _ _)

theorem changeTable_matched (s : State) (us : List UnitId) (w : WatchTable) : s.MatchedTo (s.changeTable us w) := by
  unfold changeTable
  exact (((MatchedTo.foldl _ (fun y x => bringUpToDate_matched y x) us s).trans (setTable_matched _ _)).trans
    (MatchedTo.foldl _ (fun y x => syncCopy_matched y x) us _)).trans (announce_matched _ _ _)

/-! ### Hits, fires and walks -/

theorem sendSignal_matched (s : State) (x : UnitId) (h : Handle) (c : ChanId) : s.MatchedTo (s.sendSignal x h c) :=
  ⟨rfl, rfl, rfl, rfl, rfl, rfl, rfl, rfl, fun _ => Port.MatchedTo.rfl' _⟩

theorem sendAddition_matched (s : State) (a : Addition) : s.MatchedTo (s.sendAddition a) :=
  ⟨rfl, rfl, rfl, rfl, rfl, rfl, rfl, rfl, fun _ => Port.MatchedTo.rfl' _⟩

theorem pushFreeze_matched (q : Port) (x : UnitId) (c : ChanId) : q.MatchedTo (q.pushFreeze x c) := by
  cases x <;> exact ⟨rfl, rfl, rfl, rfl, rfl, rfl, rfl⟩

theorem pushGate_matched (q : Port) (x : UnitId) (m : GateMsg) (h : m.isHandOver = false) :
    q.MatchedTo (q.pushGate x m) := by
  cases x with
  | matchUnit p => exact ⟨rfl, rfl, rfl, rfl, rfl, rfl, by simp [Port.pushGate, h]⟩
  | crossLine => exact ⟨rfl, rfl, rfl, rfl, rfl, rfl, rfl⟩

theorem takeActions_matched (q : Port) (ev : HitEvent) (a : Actions) (h : Handle) (c : ChanId) :
    q.MatchedTo (q.takeActions ev a h c) := by
  have h1 : ∀ y : Port, q.MatchedTo y → q.MatchedTo (match a.gateOpen with
      | some span => y.pushGate ev.takenBy (.openGate span h ev.kind)
      | none => y) := by
    intro y hy
    split
    · exact hy.trans (pushGate_matched _ _ _ rfl)
    · exact hy
  have h2 : ∀ y : Port, q.MatchedTo y → q.MatchedTo (if a.gateClose then y.pushGate ev.takenBy (.closeGate ev.kind)
      else y) := by
    intro y hy
    split
    · exact hy.trans (pushGate_matched _ _ _ rfl)
    · exact hy
  have h3 : q.MatchedTo (if a.freeze then q.pushFreeze ev.takenBy c else q) := by
    split
    · exact pushFreeze_matched _ _ _
    · exact Port.MatchedTo.rfl' q
  unfold Port.takeActions
  split
  · exact Port.MatchedTo.rfl' q
  · exact h2 _ (h1 _ h3)

theorem pushPulse_matched (s : State) (x : UnitId) (l : CrossId) : s.MatchedTo (s.pushPulse x l) := by
  cases x <;> exact ⟨rfl, rfl, rfl, rfl, rfl, rfl, rfl, rfl, fun _ => Port.MatchedTo.rfl' _⟩

theorem dispatch_matched (s : State) (ev : HitEvent) (a : Actions) (h : Handle) (c : ChanId) (ps : List PortId) :
    s.MatchedTo (s.dispatch ev a h c ps) := by
  have h1 : s.MatchedTo (if a.signal then s.sendSignal ev.takenBy h c else s) := by
    split
    · exact sendSignal_matched _ _ _ _
    · exact MatchedTo.rfl' s
  have h2 := h1.trans (MatchedTo.foldl (fun t q => t.setPort q ((t.port q).takeActions ev a h c))
    (fun y q => MatchedTo.ofPort q _ (takeActions_matched _ _ _ _ _)) ps _)
  unfold dispatch
  simp only
  split
  · exact h2.trans (pushPulse_matched _ _ _)
  · exact h2

theorem armDependent_matched (s : State) (j : Nat) : s.MatchedTo (s.armDependent j) := by
  unfold armDependent
  split
  · split
    · exact (setTable_matched s _).trans (restartQuiet_matched _ _ _)
    · exact MatchedTo.rfl' s
  · exact MatchedTo.rfl' s

theorem fire_matched (s : State) (i : Nat) (r : Record) (a : Actions) (ev : HitEvent) :
    s.MatchedTo (s.fire i r a ev).1 := by
  unfold fire
  exact ((setTable_matched s _).trans (dispatch_matched _ _ _ _ _ _)).trans
    (MatchedTo.foldl _ (fun y j => armDependent_matched y j) _ _)

theorem hit_matched (s : State) (e : CopyEntry) (ev : HitEvent) : s.MatchedTo (s.hit e ev).1 := by
  unfold hit
  split
  · exact MatchedTo.rfl' s
  · split
    · simp only
      split
      · exact fire_matched _ _ _ _ _
      · exact setTable_matched s _
    · exact MatchedTo.rfl' s

theorem meetObservation_matched (s : State) (p : PortId) (o : Observation) (ep : Half) (e : CopyEntry) :
    s.MatchedTo (s.meetObservation p o ep e).1 := by
  unfold meetObservation
  split
  · split
    · exact hit_matched _ _ _
    · exact MatchedTo.rfl' s
  · split
    · split
      · exact restartQuiet_matched _ _ _
      · exact MatchedTo.rfl' s
    · exact MatchedTo.rfl' s
  · exact MatchedTo.rfl' s
  · exact MatchedTo.rfl' s

theorem meetEdge_matched (s : State) (p : PortId) (l : LineId) (d : Edge) (ep : Half) (e : CopyEntry) :
    s.MatchedTo (s.meetEdge p l d ep e).1 := by
  unfold meetEdge
  split
  · split
    · exact hit_matched _ _ _
    · exact MatchedTo.rfl' s
  · exact MatchedTo.rfl' s
  · exact MatchedTo.rfl' s

theorem meetCross_matched (s : State) (x : CrossId) (e : CopyEntry) : s.MatchedTo (s.meetCross x e).1 := by
  unfold meetCross
  split
  · split
    · exact hit_matched _ _ _
    · exact MatchedTo.rfl' s
  · exact MatchedTo.rfl' s
  · exact MatchedTo.rfl' s

theorem walk_matched (meet : State → CopyEntry → State × List Nat) (hm : ∀ (x : State) e, x.MatchedTo (meet x e).1)
    (l : List CopyEntry) (marks : List Nat) (s : State) : s.MatchedTo (walk meet l marks s) := by
  induction l generalizing marks s with
  | nil => exact MatchedTo.rfl' s
  | cons e rest ih =>
    unfold walk
    split
    · exact (hm s e).trans (ih _ _)
    · exact ih _ _

theorem afterSilence_matched (s : State) (i : Nat) : s.MatchedTo (s.afterSilence i) := by
  unfold afterSilence
  split
  · split
    · exact restartQuiet_matched _ _ _
    · exact stopQuiet_matched _ _ _
  · exact MatchedTo.rfl' s

theorem stopAllQuiet_matched (s : State) (p : PortId) : s.MatchedTo (s.stopAllQuiet p) := by
  refine setMatch_matched s p _ ?_
  rw [List.countP_map]
  congr 1
  funext e
  cases e <;> rfl

theorem startAllQuiet_matched (s : State) (p : PortId) : s.MatchedTo (s.startAllQuiet p) := by
  unfold startAllQuiet
  refine MatchedTo.foldl _ (fun y e => ?_) _ s
  split
  · split
    · exact restartQuiet_matched _ _ _
    · exact MatchedTo.rfl' y
  · exact MatchedTo.rfl' y

theorem told_matched (s : State) (p : PortId) (m : MatchUnit)
    (h : m.events.countP MatchEvent.isObs = (s.port p).mu.events.countP MatchEvent.isObs) :
    s.MatchedTo (s.told p m) := by
  unfold told
  simp only
  have h1 := setMatch_matched s p m h
  split
  · exact h1.trans (stopAllQuiet_matched _ p)
  · split
    · exact h1.trans (startAllQuiet_matched _ p)
    · exact h1

end State

end Sys2Proof.Machine
end

