-- ==== Sys2Proof/Laws/Hits.lean ====
section
/-! SUPPORT. What hits and fires can do to the Watch Table: each record keeps its owner, fields and links, its hit count
goes with its state, and its tally stays in range. -/

namespace Sys2Proof.Machine

/-! ### Tallies (R59 to R64) -/

namespace Tally

/-- The data read as a number lies in the range of the sign (R61). -/
theorem number_in_range (w : Width) (sg : TallySign) (d : Word) : sg.low ≤ w.number sg d ∧ w.number sg d ≤ sg.high := by
  cases sg with
  | unsigned =>
    have h := (w.low d).isLt
    simp only [Width.number, TallySign.low, TallySign.high]
    omega
  | signed =>
    cases w <;> simp only [Width.number, TallySign.low, TallySign.high]
    · have := BitVec.le_toInt (d.extractLsb' 0 8); have := BitVec.toInt_lt (x := d.extractLsb' 0 8); simp at *; omega
    · have := BitVec.le_toInt (d.extractLsb' 0 16); have := BitVec.toInt_lt (x := d.extractLsb' 0 16); simp at *; omega
    · have := BitVec.le_toInt d; have := BitVec.toInt_lt (x := d); simp at *; omega

/-- A contribution lies in the range of the sign. -/
theorem contribution_in_range (t : Tally) (o : Option Observation) :
    t.sign.low ≤ t.contribution o ∧ t.contribution o ≤ t.sign.high := by
  have h1 : t.sign.low ≤ 1 ∧ (1 : Int) ≤ t.sign.high := by
    cases t.sign <;> simp [TallySign.low, TallySign.high]
  unfold contribution
  split
  · exact number_in_range _ _ _
  · exact h1
  · exact h1

/-- The sign of a tally stays under a contribution. -/
theorem accumulate_sign (t : Tally) (k : Int) : (t.accumulate k).sign = t.sign := by
  unfold accumulate
  simp only
  split
  · rfl
  · split
    · rfl
    · split <;> rfl

theorem contribute_holds (t : Tally) (o : Option Observation) (h : t.holdsTo) : (t.contribute o).holdsTo := by
  obtain ⟨hl, hh, hc⟩ := h
  obtain ⟨kl, kh⟩ := contribution_in_range t o
  have hs : (t.contribute o).sign = t.sign := accumulate_sign t _
  have ha : t.sign.low ≤ (t.accumulate (t.contribution o)).accumulator ∧
      (t.accumulate (t.contribution o)).accumulator ≤ t.sign.high := by
    generalize t.contribution o = k at *
    clear hs
    rcases t with ⟨m, sg, l, acc, n, ov⟩
    unfold accumulate
    split
    · exact ⟨hl, hh⟩
    · extract_lets sum
      have he : sum = acc + k := rfl
      clear_value sum
      split
      · cases sg <;> cases l <;> simp only [TallySign.low, TallySign.high] at * <;> omega
      · split
        · cases sg <;> cases l <;> simp only [TallySign.low, TallySign.high] at * <;> omega
        · cases sg <;> simp only [TallySign.low, TallySign.high] at * <;> omega
  refine ⟨?_, ?_, ?_⟩
  · rw [hs]; exact ha.1
  · rw [hs]; exact ha.2
  · simp only [contribute, satAdd]
    split <;> omega

end Tally

/-- The tally of a record, if it has one, is in range. -/
def Record.tallyHolds (r : Record) : Prop := ∀ t, r.tally = some t → t.holdsTo

/-! ### One record -/

/-- What hits and fires leave of a record. -/
structure Record.HitTo (a b : Record) : Prop where
  owner : b.owner = a.owner
  guard : b.guard = a.guard
  keep : b.keep = a.keep
  scope : b.scope = a.scope
  side : b.side = a.side
  placement : b.placement = a.placement
  goal : b.goal = a.goal
  repeats : b.repeats = a.repeats
  after : b.after = a.after
  count : a.countHolds → b.countHolds
  tally : a.tallyHolds → b.tallyHolds

namespace Record

variable {a b c : Record}

theorem HitTo.rfl' (a : Record) : a.HitTo a := ⟨rfl, rfl, rfl, rfl, rfl, rfl, rfl, rfl, rfl, id, id⟩

theorem HitTo.trans (h : a.HitTo b) (k : b.HitTo c) : a.HitTo c :=
  ⟨k.owner.trans h.owner, k.guard.trans h.guard, k.keep.trans h.keep, k.scope.trans h.scope, k.side.trans h.side,
    k.placement.trans h.placement, k.goal.trans h.goal, k.repeats.trans h.repeats, k.after.trans h.after,
    fun x => k.count (h.count x), fun x => k.tally (h.tally x)⟩

/-- A hit below the goal (R43). -/
theorem counted_hitTo (r : Record) (ev : HitEvent) (hs : r.state = .armed) (hg : (r.counted ev).hits ≠ r.goal) :
    r.HitTo (r.counted ev) := by
  refine ⟨rfl, rfl, rfl, rfl, rfl, rfl, rfl, rfl, rfl, ?_, ?_⟩
  · intro h
    simp only [countHolds, hs] at h
    simp only [countHolds, counted, hs] at *
    omega
  · intro h t ht
    simp only [counted, Option.map_eq_some_iff] at ht
    obtain ⟨u, hu, rfl⟩ := ht
    exact Tally.contribute_holds u _ (h u hu)

/-- A hit that reaches the goal, and the fire it makes (R43, R44). -/
theorem fired_hitTo (r : Record) (ev : HitEvent) (hs : r.state = .armed) (hg : (r.counted ev).hits = r.goal) :
    r.HitTo ((r.counted ev).fired ev) := by
  have hf : ((r.counted ev).fired ev).tally = (r.counted ev).tally := by
    unfold fired; simp only; split <;> rfl
  refine ⟨?_, ?_, ?_, ?_, ?_, ?_, ?_, ?_, ?_, ?_, ?_⟩
  case refine_10 =>
    intro h
    simp only [countHolds, hs] at h
    simp only [counted] at hg
    unfold fired
    simp only
    split
    · simp only [countHolds, counted, hs]; omega
    · simp only [countHolds, counted]; omega
  case refine_11 =>
    intro h t ht
    rw [hf] at ht
    simp only [counted, Option.map_eq_some_iff] at ht
    obtain ⟨u, hu, rfl⟩ := ht
    exact Tally.contribute_holds u _ (h u hu)
  all_goals
    unfold fired
    simp only
    split <;> rfl

/-- The arming of a WAITING dependent (R28). -/
theorem armed_hitTo (r : Record) : r.HitTo { r with state := .armed, hits := 0 } := by
  refine ⟨rfl, rfl, rfl, rfl, rfl, rfl, rfl, rfl, rfl, ?_, id⟩
  intro h
  simp only [countHolds] at *
  omega

end Record

/-! ### The table -/

/-- What hits and fires leave of the table: no slot is filled or freed, and each record keeps to `Record.HitTo`. -/
structure WatchTable.HitTo (t u : WatchTable) : Prop where
  counter : u.counter = t.counter
  nextChange : u.nextChange = t.nextChange
  length : u.slots.length = t.slots.length
  issue : ∀ i, (u.slotAt i).issue = (t.slotAt i).issue
  free : ∀ i, t.recordAt i = none → u.recordAt i = none
  held : ∀ i r, t.recordAt i = some r → ∃ r', u.recordAt i = some r' ∧ r.HitTo r'

namespace WatchTable

variable {t u v : WatchTable}

theorem HitTo.rfl' (t : WatchTable) : t.HitTo t :=
  ⟨rfl, rfl, rfl, fun _ => rfl, fun _ h => h, fun _ r h => ⟨r, h, Record.HitTo.rfl' r⟩⟩

theorem HitTo.trans (h : t.HitTo u) (k : u.HitTo v) : t.HitTo v where
  counter := k.counter.trans h.counter
  nextChange := k.nextChange.trans h.nextChange
  length := k.length.trans h.length
  issue i := (k.issue i).trans (h.issue i)
  free i x := k.free i (h.free i x)
  held i r x := by
    obtain ⟨r1, h1, e1⟩ := h.held i r x
    obtain ⟨r2, h2, e2⟩ := k.held i r1 h1
    exact ⟨r2, h2, e1.trans e2⟩

/-- A record found after hits was there before them. -/
theorem HitTo.back (h : t.HitTo u) {i : Nat} {r' : Record} (hr : u.recordAt i = some r') :
    ∃ r, t.recordAt i = some r ∧ r.HitTo r' := by
  cases hc : t.recordAt i with
  | none => rw [h.free i hc] at hr; cases hr
  | some r =>
    obtain ⟨r1, h1, e1⟩ := h.held i r hc
    rw [hr] at h1
    cases h1
    exact ⟨r, rfl, e1⟩

/-- Writing one record as a hit leaves it. -/
theorem setRecord_hitTo (t : WatchTable) {i : Nat} {r r' : Record} (hr : t.recordAt i = some r) (h : r.HitTo r') :
    t.HitTo (t.setRecord i r') := by
  have hl := lt_of_recordAt t hr
  refine ⟨rfl, rfl, by simp, fun j => ?_, fun j hj => ?_, fun j x hx => ?_⟩
  · rw [slotAt_setRecord]
    split
    · next e => obtain ⟨rfl, _⟩ := e; rfl
    · rfl
  · rw [recordAt_setRecord]
    split
    · next e => obtain ⟨rfl, _⟩ := e; rw [hr] at hj; cases hj
    · exact hj
  · rw [recordAt_setRecord]
    split
    · next e => obtain ⟨rfl, _⟩ := e; rw [hr] at hx; cases hx; exact ⟨r', rfl, h⟩
    · exact ⟨x, hx, Record.HitTo.rfl' x⟩

end WatchTable

/-! ### The operations -/

namespace State

theorem foldl_table {α : Type} (f : State → α → State) (hf : ∀ (x : State) a, (f x a).table = x.table) (l : List α)
    (s : State) : (l.foldl f s).table = s.table := by
  induction l generalizing s with
  | nil => rfl
  | cons a rest ih => rw [List.foldl_cons, ih, hf]

@[simp] theorem setMatch_table (s : State) (p : PortId) (m : MatchUnit) : (s.setMatch p m).table = s.table := rfl

@[simp] theorem setView_table (s : State) (x : UnitId) (v : RecordView) : (s.setView x v).table = s.table := by
  cases x <;> rfl

@[simp] theorem stopQuiet_table (s : State) (i : Nat) (r : Record) : (s.stopQuiet i r).table = s.table := by
  unfold stopQuiet; split <;> rfl

@[simp] theorem restartQuiet_table (s : State) (i : Nat) (r : Record) : (s.restartQuiet i r).table = s.table := by
  unfold restartQuiet
  split
  · rfl
  · simp only; split <;> rfl

@[simp] theorem dispatch_table (s : State) (ev : HitEvent) (a : Actions) (h : Handle) (c : ChanId) (ps : List PortId) :
    (s.dispatch ev a h c ps).table = s.table := by
  have h1 : (if a.signal then s.sendSignal ev.takenBy h c else s).table = s.table := by split <;> rfl
  have h2 := (foldl_table (fun t q => t.setPort q ((t.port q).takeActions ev a h c)) (fun _ _ => rfl) ps
    (if a.signal then s.sendSignal ev.takenBy h c else s)).trans h1
  unfold dispatch
  simp only
  split
  · unfold pushPulse; split
    · exact h2
    · exact h2
  · exact h2

@[simp] theorem takeUpdate_table (s : State) (x : UnitId) (upd : CopyEntry × Bool) :
    (s.takeUpdate x upd).table = s.table := by
  unfold takeUpdate
  simp only
  split
  · split <;> simp
  · simp

@[simp] theorem bringUpToDate_table (s : State) (x : UnitId) : (s.bringUpToDate x).table = s.table := by
  unfold bringUpToDate
  rw [setView_table]
  refine foldl_table _ (fun y k => ?_) _ s
  split <;> simp

@[simp] theorem syncCopy_table (s : State) (x : UnitId) : (s.syncCopy x).table = s.table := by simp [syncCopy]

@[simp] theorem addToken_table (s : State) (x : UnitId) (n : Nat) (upd : Option (CopyEntry × Bool)) :
    (s.addToken x n upd).table = s.table := by simp [addToken]

@[simp] theorem meetChange_table (s : State) (x : UnitId) (n : Nat) (upd : Option (CopyEntry × Bool)) :
    (s.meetChange x n upd).table = s.table := by
  unfold meetChange offerUpdate
  split
  · split <;> simp
  · simp

/-- A change waiting at units takes its number; the table is otherwise as it was (log 5). -/
@[simp] theorem announce_table (s : State) (us : List UnitId) (upd : Option (CopyEntry × Bool)) :
    (s.announce us upd).table = { s.table with nextChange := s.table.nextChange + 1 } := by
  unfold announce
  simp only [setTable_table]
  rw [foldl_table _ (fun y x => by simp)]

/-- A change of the table writes it, and takes its number. -/
@[simp] theorem changeTable_table (s : State) (us : List UnitId) (w : WatchTable) :
    (s.changeTable us w).table = { w with nextChange := w.nextChange + 1 } := by
  unfold changeTable
  simp only [announce_table]
  rw [foldl_table _ (fun y x => by simp)]
  simp

theorem armDependent_hitTo (s : State) (j : Nat) : s.table.HitTo (s.armDependent j).table := by
  unfold armDependent
  split
  · next r hr =>
    split
    · rw [restartQuiet_table, setTable_table]
      exact WatchTable.setRecord_hitTo _ hr (Record.armed_hitTo r)
    · exact WatchTable.HitTo.rfl' _
  · exact WatchTable.HitTo.rfl' _

theorem foldl_hitTo {α : Type} (f : State → α → State) (hf : ∀ (x : State) a, x.table.HitTo (f x a).table) (l : List α)
    (s : State) : s.table.HitTo (l.foldl f s).table := by
  induction l generalizing s with
  | nil => exact WatchTable.HitTo.rfl' _
  | cons a rest ih => exact (hf s a).trans (ih (f s a))

/-- A hit (R43): whatever it does to the table is what `WatchTable.HitTo` allows. -/
theorem hit_hitTo (s : State) (e : CopyEntry) (ev : HitEvent) : s.table.HitTo (s.hit e ev).1.table := by
  unfold hit
  split
  · exact WatchTable.HitTo.rfl' _
  · next r hr =>
    split
    · next hs =>
      simp only
      split
      · next hg =>
        unfold fire
        simp only
        refine WatchTable.HitTo.trans ?_ (foldl_hitTo _ armDependent_hitTo _ _)
        rw [dispatch_table, setTable_table]
        exact WatchTable.setRecord_hitTo _ hr (Record.fired_hitTo r ev hs hg)
      · next hg =>
        rw [setTable_table]
        exact WatchTable.setRecord_hitTo _ hr (Record.counted_hitTo r ev hs hg)
    · exact WatchTable.HitTo.rfl' _

theorem meetObservation_hitTo (s : State) (p : PortId) (o : Observation) (ep : Half) (e : CopyEntry) :
    s.table.HitTo (s.meetObservation p o ep e).1.table := by
  unfold meetObservation
  split
  · split
    · exact hit_hitTo _ _ _
    · exact WatchTable.HitTo.rfl' _
  · split
    · split
      · rw [restartQuiet_table]; exact WatchTable.HitTo.rfl' _
      · exact WatchTable.HitTo.rfl' _
    · exact WatchTable.HitTo.rfl' _
  · exact WatchTable.HitTo.rfl' _
  · exact WatchTable.HitTo.rfl' _

theorem meetEdge_hitTo (s : State) (p : PortId) (l : LineId) (d : Edge) (ep : Half) (e : CopyEntry) :
    s.table.HitTo (s.meetEdge p l d ep e).1.table := by
  unfold meetEdge
  split
  · split
    · exact hit_hitTo _ _ _
    · exact WatchTable.HitTo.rfl' _
  · exact WatchTable.HitTo.rfl' _
  · exact WatchTable.HitTo.rfl' _

theorem meetCross_hitTo (s : State) (x : CrossId) (e : CopyEntry) : s.table.HitTo (s.meetCross x e).1.table := by
  unfold meetCross
  split
  · split
    · exact hit_hitTo _ _ _
    · exact WatchTable.HitTo.rfl' _
  · exact WatchTable.HitTo.rfl' _
  · exact WatchTable.HitTo.rfl' _

theorem walk_hitTo (meet : State → CopyEntry → State × List Nat)
    (hm : ∀ (x : State) e, x.table.HitTo (meet x e).1.table) (l : List CopyEntry) (marks : List Nat) (s : State) :
    s.table.HitTo (walk meet l marks s).table := by
  induction l generalizing marks s with
  | nil => exact WatchTable.HitTo.rfl' _
  | cons e rest ih =>
    unfold walk
    split
    · exact (hm s e).trans (ih _ _)
    · exact ih _ _

theorem afterSilence_table (s : State) (i : Nat) : (s.afterSilence i).table = s.table := by
  unfold afterSilence
  split
  · split <;> simp
  · rfl

@[simp] theorem stopAllQuiet_table (s : State) (p : PortId) : (s.stopAllQuiet p).table = s.table := rfl

@[simp] theorem startAllQuiet_table (s : State) (p : PortId) : (s.startAllQuiet p).table = s.table := by
  unfold startAllQuiet
  refine foldl_table _ (fun y e => ?_) _ s
  split
  · split <;> simp
  · rfl

@[simp] theorem told_table (s : State) (p : PortId) (m : MatchUnit) : (s.told p m).table = s.table := by
  unfold told
  simp only
  split
  · rfl
  · split <;> simp

end State

end Sys2Proof.Machine
end

