-- ==== Sys2Proof/Laws/Changes.lean ====
section
/-! SUPPORT. What a change to the records does: what it leaves as it was, the table it leaves, and what each unit's view
holds after it. -/

namespace Sys2Proof.Machine

theorem MatchEvent.stale_stale (e : MatchEvent) : e.stale.stale = e.stale := by cases e <;> rfl

namespace State

variable {s t u : State}

theorem sameEvents (l : List MatchEvent) : List.Forall₂ (fun x y => y = x ∨ y = x.stale) l l := by
  induction l with
  | nil => exact .nil
  | cons a l ih => exact .cons (.inl rfl) ih

namespace RecordsOnly

theorem rfl' (s : State) : s.RecordsOnly s :=
  ⟨rfl, rfl, rfl, rfl, rfl, rfl, rfl, rfl, fun _ => rfl, fun _ => sameEvents _⟩

theorem trans (h : s.RecordsOnly t) (k : t.RecordsOnly u) : s.RecordsOnly u where
  pending := k.pending.trans h.pending
  bench := k.bench.trans h.bench
  chans := k.chans.trans h.chans
  teardowns := k.teardowns.trans h.teardowns
  desc := k.desc.trans h.desc
  fresh := k.fresh.trans h.fresh
  notice := by rw [k.notice, h.notice]
  cross := by rw [k.cross, h.cross]
  ports p := by rw [k.ports p, h.ports p]
  events p := by
    have := h.events p
    have h2 := k.events p
    generalize (s.port p).mu.events = a, (t.port p).mu.events = b, (u.port p).mu.events = c at *
    induction this generalizing c with
    | nil => exact h2
    | cons hx _ ih =>
      cases h2 with
      | cons hy hl =>
        refine .cons ?_ (ih _ hl)
        rcases hx with rfl | rfl
        · exact hy
        · rcases hy with rfl | rfl
          · exact .inr rfl
          · exact .inr (MatchEvent.stale_stale _)

theorem foldl {α : Type} (f : State → α → State) (hf : ∀ (x : State) a, x.RecordsOnly (f x a)) (l : List α) (s : State) :
    s.RecordsOnly (l.foldl f s) := by
  induction l generalizing s with
  | nil => exact rfl' s
  | cons a rest ih => exact (hf s a).trans (ih (f s a))

theorem unitBusy (h : s.RecordsOnly t) (u : UnitId) : t.unitBusy u = s.unitBusy u := by
  cases u with
  | matchUnit p => show (t.port p).matchBusy = _; rw [h.ports p]; rfl
  | crossLine => rfl

theorem unitWaits (h : s.RecordsOnly t) (u : UnitId) : t.unitWaits u = s.unitWaits u := by
  cases u with
  | matchUnit p =>
    have := h.events p
    unfold State.unitWaits
    simp only
    generalize (s.port p).mu.events = a, (t.port p).mu.events = b at *
    cases this <;> rfl
  | crossLine => unfold State.unitWaits; simp only; rw [h.cross]

theorem port_tlc (h : s.RecordsOnly t) (p : PortId) : (t.port p).tlc = (s.port p).tlc := by rw [h.ports p]

end RecordsOnly

theorem setTable_recordsOnly (s : State) (w : WatchTable) : s.RecordsOnly (s.setTable w) :=
  ⟨rfl, rfl, rfl, rfl, rfl, rfl, rfl, rfl, fun _ => rfl, fun _ => sameEvents _⟩

/-- A Match Unit that keeps its events but for the quiet ones, and what it was told. -/
theorem setMatch_recordsOnly (s : State) (p : PortId) (m : MatchUnit)
    (h : m = { (s.port p).mu with view := m.view, events := m.events, timers := m.timers })
    (he : List.Forall₂ (fun x y => y = x ∨ y = x.stale) (s.port p).mu.events m.events) :
    s.RecordsOnly (s.setMatch p m) := by
  refine ⟨rfl, rfl, rfl, rfl, rfl, rfl, rfl, rfl, fun q => ?_, fun q => ?_⟩
  · unfold setMatch
    rw [port_setPort]
    split
    · next e => subst e; show ({ s.port p with mu := m } : Port) = _; rw [← h]
    · rfl
  · unfold setMatch
    rw [port_setPort]
    split
    · next e => subst e; exact he
    · exact sameEvents _

theorem setView_recordsOnly (s : State) (x : UnitId) (v : RecordView) : s.RecordsOnly (s.setView x v) := by
  cases x with
  | matchUnit p => exact setMatch_recordsOnly s p { (s.port p).mu with view := v } rfl (sameEvents _)
  | crossLine => exact ⟨rfl, rfl, rfl, rfl, rfl, rfl, rfl, rfl, fun _ => rfl, fun _ => sameEvents _⟩

theorem discardExpiry_stale (i : Nat) (l : List MatchEvent) :
    List.Forall₂ (fun x y => y = x ∨ y = x.stale) l (MatchUnit.discardExpiry i l) := by
  induction l with
  | nil => exact .nil
  | cons e rest ih =>
    refine .cons ?_ ih
    cases e with
    | obs o ep => exact .inl rfl
    | edge n d ep => exact .inl rfl
    | quiet j b =>
      simp only
      split
      · next h => subst h; exact .inr rfl
      · exact .inl rfl

theorem stopQuiet_recordsOnly (s : State) (i : Nat) (r : Record) : s.RecordsOnly (s.stopQuiet i r) := by
  unfold stopQuiet
  split
  · exact .rfl' s
  · exact setMatch_recordsOnly s _ _ rfl (discardExpiry_stale _ _)

theorem restartQuiet_recordsOnly (s : State) (i : Nat) (r : Record) : s.RecordsOnly (s.restartQuiet i r) := by
  unfold restartQuiet
  split
  · exact .rfl' s
  · simp only
    split <;> exact setMatch_recordsOnly s _ _ rfl (discardExpiry_stale _ _)

theorem takeUpdate_recordsOnly (s : State) (x : UnitId) (upd : CopyEntry × Bool) :
    s.RecordsOnly (s.takeUpdate x upd) := by
  unfold takeUpdate
  simp only
  split
  · split
    · exact (setView_recordsOnly _ _ _).trans (restartQuiet_recordsOnly _ _ _)
    · exact setView_recordsOnly _ _ _
  · exact setView_recordsOnly _ _ _

theorem bringUpToDate_recordsOnly (s : State) (x : UnitId) : s.RecordsOnly (s.bringUpToDate x) := by
  unfold bringUpToDate
  refine RecordsOnly.trans (RecordsOnly.foldl _ (fun y k => ?_) _ s) (setView_recordsOnly _ x _)
  split
  · exact takeUpdate_recordsOnly y x _
  · exact .rfl' y

theorem meetChange_recordsOnly (s : State) (x : UnitId) (n : Nat) (upd : Option (CopyEntry × Bool)) :
    s.RecordsOnly (s.meetChange x n upd) := by
  unfold meetChange offerUpdate addToken
  split
  · split
    · exact ((bringUpToDate_recordsOnly _ _).trans (takeUpdate_recordsOnly _ _ _)).trans (setView_recordsOnly _ _ _)
    · exact (setView_recordsOnly s x _).trans (setView_recordsOnly _ _ _)
  · exact setView_recordsOnly _ _ _

theorem announce_recordsOnly (s : State) (us : List UnitId) (upd : Option (CopyEntry × Bool)) :
    s.RecordsOnly (s.announce us upd) := by
  unfold announce
  exact (RecordsOnly.foldl _ (fun y x => meetChange_recordsOnly y x _ _) us s).trans (setTable_recordsOnly _ _)

theorem changeTable_recordsOnly (s : State) (us : List UnitId) (w : WatchTable) :
    s.RecordsOnly (s.changeTable us w) := by
  unfold changeTable
  exact (((RecordsOnly.foldl _ (fun y x => bringUpToDate_recordsOnly y x) us s).trans (setTable_recordsOnly _ _)).trans
    (RecordsOnly.foldl _ (fun y x => setView_recordsOnly y x _) us _)).trans (announce_recordsOnly _ _ _)

theorem sendAddition_recordsOnly (s : State) (a : Addition) : s.RecordsOnly (s.sendAddition a) :=
  ⟨rfl, rfl, rfl, rfl, rfl, rfl, rfl, rfl, fun _ => rfl, fun _ => sameEvents _⟩

/-! ### The table and the views after a change -/

theorem view_setView (s : State) (x y : UnitId) (v : RecordView) :
    (s.setView x v).view y = if x = y then v else s.view y := by
  cases x with
  | matchUnit p =>
    cases y with
    | matchUnit q =>
      simp only [setView, view, port_setPort]
      by_cases e : p = q
      · subst e; simp
      · simp [e]
    | crossLine => simp [setView, view]
  | crossLine =>
    cases y with
    | matchUnit q => simp [setView, view, port]
    | crossLine => simp [setView, view]

theorem view_setMatch (s : State) (p : PortId) (m : MatchUnit) (h : m.view = (s.port p).mu.view) (y : UnitId) :
    (s.setMatch p m).view y = s.view y := by
  cases y with
  | matchUnit q =>
    simp only [setMatch, view, port_setPort]
    by_cases e : p = q
    · subst e; simpa using h
    · simp [e]
  | crossLine => rfl

@[simp] theorem view_stopQuiet (s : State) (i : Nat) (r : Record) (y : UnitId) :
    (s.stopQuiet i r).view y = s.view y := by
  unfold stopQuiet
  split
  · rfl
  · exact view_setMatch s _ (MatchUnit.stopQuiet _ i) rfl y

@[simp] theorem view_restartQuiet (s : State) (i : Nat) (r : Record) (y : UnitId) :
    (s.restartQuiet i r).view y = s.view y := by
  unfold restartQuiet
  split
  · rfl
  · simp only
    split
    · exact view_setMatch s _ (MatchUnit.startQuiet _ i _) rfl y
    · exact view_setMatch s _ (MatchUnit.stopQuiet _ i) rfl y

theorem view_takeUpdate_ne (s : State) {x y : UnitId} (h : x ≠ y) (upd : CopyEntry × Bool) :
    (s.takeUpdate x upd).view y = s.view y := by
  unfold takeUpdate
  simp only
  split
  · split
    · rw [view_restartQuiet, view_setView, if_neg h]
    · rw [view_setView, if_neg h]
  · rw [view_setView, if_neg h]

theorem view_bringUpToDate_ne (s : State) {x y : UnitId} (h : x ≠ y) : (s.bringUpToDate x).view y = s.view y := by
  have h1 : ∀ (l : List Token) (z : State), (l.foldl (fun t (k : Token) => match k.update with
      | some upd => t.takeUpdate x upd
      | none => t) z).view y = z.view y := by
    intro l
    induction l with
    | nil => intro z; rfl
    | cons k rest ih =>
      intro z
      rw [List.foldl_cons, ih]
      split
      · exact view_takeUpdate_ne z h _
      · rfl
  unfold bringUpToDate
  simp only
  rw [view_setView, if_neg h]
  exact h1 _ _

/-- Bringing a unit up to date leaves its changes as reports to be made, in their order. -/
theorem tokens_bringUpToDate (s : State) (x : UnitId) :
    ((s.bringUpToDate x).view x).tokens = (s.view x).tokens.map fun k => { k with update := none } := by
  unfold bringUpToDate
  simp only
  rw [view_setView, if_pos rfl]

theorem begun_takeUpdate (s : State) (x : UnitId) (upd : CopyEntry × Bool) :
    ((s.takeUpdate x upd).view x).begun = (s.view x).begun := by
  unfold takeUpdate
  simp only
  split
  · split
    · rw [view_restartQuiet, view_setView, if_pos rfl]
    · rw [view_setView, if_pos rfl]
  · rw [view_setView, if_pos rfl]

theorem begun_bringUpToDate (s : State) (x : UnitId) : ((s.bringUpToDate x).view x).begun = (s.view x).begun := by
  have h1 : ∀ (l : List Token) (z : State), ((l.foldl (fun t (k : Token) => match k.update with
      | some upd => t.takeUpdate x upd
      | none => t) z).view x).begun = (z.view x).begun := by
    intro l
    induction l with
    | nil => intro z; rfl
    | cons k rest ih =>
      intro z
      rw [List.foldl_cons, ih]
      split
      · exact begun_takeUpdate z x _
      · rfl
  unfold bringUpToDate
  simp only
  rw [view_setView, if_pos rfl]
  exact h1 _ _

theorem foldl_view_other (f : State → UnitId → State)
    (hf : ∀ (x : State) {a b : UnitId}, a ≠ b → (f x a).view b = x.view b) (us : List UnitId) (s : State) {y : UnitId}
    (hy : y ∉ us) : (us.foldl f s).view y = s.view y := by
  induction us generalizing s with
  | nil => rfl
  | cons a rest ih =>
    rw [List.foldl_cons, ih _ (fun h => hy (List.mem_cons_of_mem _ h)), hf s (fun h => hy (by rw [h]; exact List.mem_cons_self ..))]

/-- A fold over units without repeats acts on each of them once, on the view it had. -/
theorem foldl_view_mem (f : State → UnitId → State)
    (hf : ∀ (x : State) {a b : UnitId}, a ≠ b → (f x a).view b = x.view b)
    (P : RecordView → RecordView → Prop) (inv : State → Prop) (hi : ∀ x a, inv x → inv (f x a))
    (hp : ∀ (x : State) a, inv x → P (x.view a) ((f x a).view a)) (us : List UnitId) (hn : us.Nodup)
    (s : State) (h0 : inv s) {y : UnitId} (hy : y ∈ us) : P (s.view y) ((us.foldl f s).view y) := by
  induction us generalizing s with
  | nil => cases hy
  | cons a rest ih =>
    rw [List.foldl_cons]
    rw [List.nodup_cons] at hn
    by_cases e : y = a
    · subst e
      rw [foldl_view_other f hf rest _ hn.1]
      exact hp s y h0
    · have hy' : y ∈ rest := by
        rcases List.mem_cons.1 hy with h | h
        · exact (e h).elim
        · exact h
      have := ih hn.2 (f s a) (hi s a h0) hy'
      rwa [hf s (Ne.symm e)] at this

theorem view_addToken (s : State) (x : UnitId) (n : Nat) (upd : Option (CopyEntry × Bool)) :
    (s.addToken x n upd).view x =
      { s.view x with tokens := (s.view x).tokens ++ [{ change := n, update := upd }] } := by
  unfold addToken; rw [view_setView, if_pos rfl]

theorem view_meetChange_ne (s : State) {x y : UnitId} (h : x ≠ y) (n : Nat) (upd : Option (CopyEntry × Bool)) :
    (s.meetChange x n upd).view y = s.view y := by
  unfold meetChange offerUpdate addToken
  split
  · split
    · rw [view_setView, if_neg h, view_takeUpdate_ne _ h, view_bringUpToDate_ne _ h]
    · rw [view_setView, if_neg h, view_setView, if_neg h]
  · rw [view_setView, if_neg h]

theorem announce_view_other (s : State) (us : List UnitId) (upd : Option (CopyEntry × Bool)) {y : UnitId} (hy : y ∉ us) :
    (s.announce us upd).view y = s.view y := by
  rw [← foldl_view_other (fun t u => t.meetChange u s.table.nextChange upd) (fun x _ _ h => view_meetChange_ne x h _ _)
    us s hy]
  unfold announce
  cases y <;> rfl

/-- A unit a change concerns that has no match side to take has its report to make. -/
theorem announce_none_view (s : State) (us : List UnitId) (hn : us.Nodup) {y : UnitId} (hy : y ∈ us) :
    (s.announce us none).view y =
      { s.view y with tokens := (s.view y).tokens ++ [{ change := s.table.nextChange, update := none }] } := by
  have h := foldl_view_mem (s := s) (fun t u => t.meetChange u s.table.nextChange none)
    (fun x _ _ h => view_meetChange_ne x h _ _)
    (fun a b => b = { a with tokens := a.tokens ++ [{ change := s.table.nextChange, update := none }] })
    (fun _ => True) (fun _ _ _ => trivial) (fun x a _ => view_addToken x a _ _) us hn trivial hy
  rw [← h]
  unfold announce
  cases y <;> rfl

/-- A fold over units without repeats leaves a unit's view as its step at that unit leaves it, taken in a state that keeps
what the steps at the other units keep. -/
theorem foldl_view_at (f : State → UnitId → State)
    (hf : ∀ (x : State) {a b : UnitId}, a ≠ b → (f x a).view b = x.view b) (us : List UnitId) (hn : us.Nodup) {y : UnitId}
    (inv : State → Prop) (hi : ∀ x a, a ≠ y → inv x → inv (f x a)) (s : State) (h0 : inv s) (hy : y ∈ us) :
    ∃ x, inv x ∧ (us.foldl f s).view y = (f x y).view y := by
  induction us generalizing s with
  | nil => cases hy
  | cons a rest ih =>
    rw [List.foldl_cons]
    rw [List.nodup_cons] at hn
    by_cases e : a = y
    · subst e
      exact ⟨s, h0, foldl_view_other f hf rest _ hn.1⟩
    · exact ih hn.2 _ (hi s a e h0) ((List.mem_cons.1 hy).resolve_left (Ne.symm e))

/-- After a count-side or membership change, a unit concerned holds the table's chain and has the change to report. -/
theorem changeTable_view_mem (s : State) (us : List UnitId) (hn : us.Nodup) (w : WatchTable) {y : UnitId} (hy : y ∈ us) :
    (s.changeTable us w).view y = (s.view y).after (w.chain y) w.nextChange := by
  have h1 := foldl_view_mem bringUpToDate (fun x _ _ h => view_bringUpToDate_ne x h)
    (fun a b => b.tokens = a.tokens.map (fun k => { k with update := none }) ∧ b.begun = a.begun) (fun _ => True)
    (fun _ _ _ => trivial) (fun x a _ => ⟨tokens_bringUpToDate x a, begun_bringUpToDate x a⟩) us hn s trivial hy
  set s1 := us.foldl bringUpToDate s with hs1
  have h2 := foldl_view_mem (s := s1.setTable w) syncCopy
    (fun x _ _ h => by unfold syncCopy; rw [view_setView, if_neg h])
    (fun a b => b.tokens = a.tokens ∧ b.begun = a.begun) (fun _ => True) (fun _ _ _ => trivial)
    (fun x a _ => by unfold syncCopy; rw [view_setView, if_pos rfl]; exact ⟨rfl, rfl⟩) us hn trivial hy
  have h3 : (((s1.setTable w).view y)) = s1.view y := by cases y <;> rfl
  have h5 : ∀ (l : List UnitId) (hl : l.Nodup) (x : State), x.table = w → y ∈ l →
      ((l.foldl syncCopy x).view y).copy = w.chain y := by
    intro l
    induction l with
    | nil => intro _ x _ h; cases h
    | cons a rest ih =>
      intro hl x hx hm
      rw [List.nodup_cons] at hl
      rw [List.foldl_cons]
      by_cases e : y = a
      · subst e
        rw [foldl_view_other syncCopy (fun x _ _ h => by unfold syncCopy; rw [view_setView, if_neg h]) rest _ hl.1]
        unfold syncCopy
        rw [view_setView, if_pos rfl, hx]
      · have hm' : y ∈ rest := by
          rcases List.mem_cons.1 hm with h | h
          · exact (e h).elim
          · exact h
        exact ih hl.2 _ (by rw [syncCopy_table, hx]) hm'
  have h6 := h5 us hn (s1.setTable w) rfl hy
  set s2 := us.foldl syncCopy (s1.setTable w) with hs2
  have ht : s2.table = w := by
    rw [hs2, foldl_table syncCopy (fun y x => syncCopy_table y x)]; rfl
  have h8 : (s.changeTable us w).view y = (s2.announce us none).view y := rfl
  rw [h8, announce_none_view s2 us hn hy, ht]
  unfold RecordView.after
  rw [← h6, ← h1.1, ← h1.2, ← h3, ← h2.1, ← h2.2]

/-- A unit a change does not concern keeps its view. -/
theorem changeTable_view_other (s : State) (us : List UnitId) (w : WatchTable) {y : UnitId} (hy : y ∉ us) :
    (s.changeTable us w).view y = s.view y := by
  have h1 := foldl_view_other bringUpToDate (fun x _ _ h => view_bringUpToDate_ne x h) us s hy
  have h2 := foldl_view_other syncCopy (fun x _ _ h => by unfold syncCopy; rw [view_setView, if_neg h]) us
    ((us.foldl bringUpToDate s).setTable w) hy
  have h3 : ((us.foldl bringUpToDate s).setTable w).view y = (us.foldl bringUpToDate s).view y := by cases y <;> rfl
  unfold changeTable
  simp only
  rw [announce_view_other _ _ _ hy, h2, h3, h1]

end State

end Sys2Proof.Machine
end

