-- ==== Sys2Proof/Laws/Ops.lean ====
section
/-! SUPPORT. Taking the first waiting event, and what answering can do: the operations that end, answer or hold back
requests touch the lanes and the output queue alone, and keep the count of outstanding frames right. -/

namespace Sys2Proof.Machine

/-! ### Lists -/

/-- `takeFirst` gives the first element the selection accepts; the list is that element put back at its place. -/
theorem takeFirst_spec {α : Type} (sel : α → Bool) (l : List α) {x : α} {rest : List α}
    (h : takeFirst sel l = some (x, rest)) : sel x = true ∧ ∃ a b, l = a ++ x :: b ∧ rest = a ++ b ∧
      ∀ y ∈ a, sel y = false := by
  induction l generalizing x rest with
  | nil => cases h
  | cons y tl ih =>
    unfold takeFirst at h
    split at h
    · next hy => cases h; exact ⟨hy, [], tl, rfl, rfl, fun _ h => nomatch h⟩
    · next hy =>
      split at h
      · cases h
      · next z r' hz =>
        cases h
        obtain ⟨h1, a, b, h2, h3, h4⟩ := ih hz
        exact ⟨h1, y :: a, b, by simp [h2], by simp [h3], List.forall_mem_cons.2 ⟨by simpa using hy, h4⟩⟩

/-- The first element the selection accepts is taken, and the elements before it stay. -/
theorem takeFirst_split {α : Type} (sel : α → Bool) (before after : List α) (x : α) (hx : sel x = true)
    (hb : ∀ y ∈ before, sel y = false) :
   takeFirst sel (before ++ x :: after) = some (x, before ++ after) := by
  induction before with
  | nil => simp [takeFirst, hx]
  | cons b rest ih =>
    have := hb b (List.mem_cons_self ..)
    rw [List.cons_append, takeFirst, this, ih (fun y hy => hb y (List.mem_cons_of_mem _ hy))]
    rfl

/-! ### Answering -/

/-- The frames stay accounted for, counting one in hand on channel `h`: taken from its queue, not yet answered and not
yet waiting. -/
def State.FramesIn (h : Option ChanId) (s : State) : Prop :=
  ∀ d : ChanId,
    (s.lane d).outstanding =
      (s.lane d).queue.length + (if (s.lane d).executing.isSome then 1 else 0) + s.responsesOf d +
        (if h = some d then 1 else 0) ∧
    (s.lane d).outstanding ≤ Config.outstandingLimit

theorem State.framesIn_none (s : State) : s.FramesIn none ↔ FramesHold s := by simp [State.FramesIn, FramesHold]

/-- Answering leaves everything but the lanes, the output queue and the free-value counter; the frames stay accounted
for. -/
structure State.AnsweredTo (s t : State) : Prop where
  pending : t.pending = s.pending
  chans : t.chans = s.chans
  teardowns : t.teardowns = s.teardowns
  table : t.table = s.table
  ports : t.ports = s.ports
  cross : t.cross = s.cross
  notice : t.notice = s.notice
  desc : t.desc = s.desc
  receiver : t.bench.receiver = s.bench.receiver
  frames : ∀ h, s.FramesIn h → t.FramesIn h

namespace State

variable {s t u : State}

namespace AnsweredTo

theorem rfl' (s : State) : s.AnsweredTo s := ⟨rfl, rfl, rfl, rfl, rfl, rfl, rfl, rfl, rfl, fun _ => id⟩

theorem trans (h : s.AnsweredTo t) (k : t.AnsweredTo u) : s.AnsweredTo u where
  pending := k.pending.trans h.pending
  chans := k.chans.trans h.chans
  teardowns := k.teardowns.trans h.teardowns
  table := k.table.trans h.table
  ports := k.ports.trans h.ports
  cross := k.cross.trans h.cross
  notice := k.notice.trans h.notice
  desc := k.desc.trans h.desc
  receiver := k.receiver.trans h.receiver
  frames d x := k.frames d (h.frames d x)

theorem foldl {α : Type} (f : State → α → State) (hf : ∀ (x : State) a, x.AnsweredTo (f x a)) (l : List α) (s : State) :
    s.AnsweredTo (l.foldl f s) := by
  induction l generalizing s with
  | nil => exact rfl' s
  | cons a rest ih => exact (hf s a).trans (ih (f s a))

theorem port (h : s.AnsweredTo t) (p : PortId) : t.port p = s.port p := port_congr h.ports p
theorem chan (h : s.AnsweredTo t) (c : ChanId) : t.chan c = s.chan c := chan_congr h.chans c

/-- The attention condition is as it was. -/
theorem condition (h : s.AnsweredTo t) : t.attentionCondition = s.attentionCondition := by
  simp [attentionCondition, State.chan, pendingOf, h.chans, h.notice]

end AnsweredTo

theorem responsesOf_respond (s : State) (c d : ChanId) (tag : Byte) (st : Status) (pl : List Byte) (x : Option Handle) :
    (s.respond c tag st pl x).responsesOf d = s.responsesOf d + (if c = d then 1 else 0) := by
  simp only [responsesOf, respond_output, List.countP_append]
  by_cases h : c = d <;> simp [h]

@[simp] theorem responsesOf_setLane (s : State) (c d : ChanId) (l : Lane) :
    (s.setLane c l).responsesOf d = s.responsesOf d := rfl

/-- A request ends with its response handed over. -/
theorem endWithResponse_frames (s : State) (c : ChanId) (e : Executing) (st : Status) (pl : List Byte)
    (he : (s.lane c).executing = some e) (x : Option ChanId) (h : s.FramesIn x) :
    FramesIn x ((s.setLane c { s.lane c with executing := none }).respond c e.tag st pl) := by
  intro d
  rw [responsesOf_respond, responsesOf_setLane, respond_lane, lane_setLane]
  obtain ⟨h1, h2⟩ := h d
  split
  · next hd => subst hd; simp [he] at h1 ⊢; exact ⟨by omega, h2⟩
  · next hd => exact ⟨by simpa using h1, h2⟩

/-- A request ends without a response and its place is freed. -/
theorem endWithout_frames (s : State) (c : ChanId) (e : Executing)
    (he : (s.lane c).executing = some e) (x : Option ChanId) (h : s.FramesIn x) :
    FramesIn x (s.setLane c { s.lane c with executing := none, outstanding := (s.lane c).outstanding - 1 }) := by
  intro d
  rw [responsesOf_setLane, lane_setLane]
  obtain ⟨h1, h2⟩ := h d
  split
  · next hd => subst hd; simp [he] at h1 ⊢; exact ⟨by omega, by omega⟩
  · next hd => exact ⟨h1, h2⟩

theorem finish_answered (s : State) (c : ChanId) (st : Status) (pl : List Byte) : s.AnsweredTo (s.finish c st pl) := by
  unfold finish
  split
  · exact AnsweredTo.rfl' s
  · next e he =>
    split
    · exact ⟨rfl, rfl, rfl, rfl, rfl, rfl, rfl, rfl, rfl, endWithout_frames s c e he⟩
    · exact ⟨rfl, rfl, rfl, rfl, rfl, rfl, rfl, rfl, rfl, endWithResponse_frames s c e st pl he⟩

theorem endSilently_answered (s : State) (c : ChanId) : s.AnsweredTo (s.endSilently c) := by
  unfold endSilently
  split
  · exact AnsweredTo.rfl' s
  · next e he => exact ⟨rfl, rfl, rfl, rfl, rfl, rfl, rfl, rfl, rfl, endWithout_frames s c e he⟩

theorem endWait_answered (s : State) (c : ChanId) (w : Wait) : s.AnsweredTo (s.endWait c w) := by
  unfold endWait
  split
  · split
    · exact endSilently_answered s c
    · exact AnsweredTo.rfl' s
  · exact AnsweredTo.rfl' s

theorem settleHalts_answered (s : State) (p : PortId) (st : Status) : s.AnsweredTo (s.settleHalts p st) := by
  unfold settleHalts
  refine AnsweredTo.trans ?_ (AnsweredTo.foldl _ (fun x c => finish_answered x c st []) _ _)
  exact ⟨rfl, rfl, rfl, rfl, rfl, rfl, rfl, rfl, rfl, fun _ => id⟩

/-- A change of what an executing request waits for. -/
theorem rewait_answered (s : State) (c : ChanId) (e e' : Executing) (he : (s.lane c).executing = some e) :
    s.AnsweredTo (s.setLane c { s.lane c with executing := some e' }) := by
  refine ⟨rfl, rfl, rfl, rfl, rfl, rfl, rfl, rfl, rfl, fun x h d => ?_⟩
  rw [responsesOf_setLane, lane_setLane]
  obtain ⟨h1, h2⟩ := h d
  split
  · next hd => subst hd; simp [he] at h1 ⊢; exact ⟨h1, h2⟩
  · next hd => exact ⟨h1, h2⟩

theorem releaseStep_answered (s : State) (c : ChanId) (rc : Bool) : s.AnsweredTo (s.releaseStep c rc) := by
  unfold releaseStep
  split
  · next e he =>
    split
    · simp only
      split
      · exact rewait_answered s c e _ he
      · exact finish_answered s c _ _
    all_goals exact AnsweredTo.rfl' s
  · exact AnsweredTo.rfl' s

/-! ### A request taken from the head of its queue (R158, R183) -/

theorem headFrame_some {s : State} {c : ChanId} {f : Frame} (h : s.headFrame c = some f) :
    s.desc.walking = false ∧ (s.lane c).executing = none ∧ (s.chan c).teardown = none ∧
      (s.lane c).queue.head? = some f := by
  unfold headFrame at h
  split at h
  · cases h
  · next hc => simp at hc; exact ⟨hc.1.1, hc.1.2, hc.2, h⟩

/-- A frame leaves its queue and is in hand. -/
theorem popFrame_frames {s : State} {c : ChanId} {f : Frame} (hf : (s.lane c).queue.head? = some f)
    (h : s.FramesIn none) : (s.popFrame c).FramesIn (some c) := by
  intro d
  unfold popFrame
  rw [responsesOf_setLane, lane_setLane]
  obtain ⟨h1, h2⟩ := h d
  by_cases hd : c = d
  · subst hd
    cases hq : (s.lane c).queue with
    | nil => simp [hq] at hf
    | cons a rest => simp [hq] at h1 ⊢; exact ⟨by omega, h2⟩
  · simp [hd] at h1 ⊢; exact ⟨h1, h2⟩

/-- A frame in hand is answered. -/
theorem answer_frames {s : State} {c : ChanId} (f : Frame) (st : Status) (pl : List Byte) (x : Option Handle)
    (h : s.FramesIn (some c)) : (s.answer c f st pl x).FramesIn none := by
  intro d
  unfold answer
  rw [responsesOf_respond, respond_lane]
  obtain ⟨h1, h2⟩ := h d
  by_cases hd : c = d
  · subst hd; simp at h1 ⊢; exact ⟨by omega, h2⟩
  · simp [hd] at h1 ⊢; exact ⟨h1, h2⟩

/-- A frame in hand becomes the executing request. -/
theorem wait_frames {s : State} {c : ChanId} (f : Frame) (w : Wait) (he : (s.lane c).executing = none)
    (h : s.FramesIn (some c)) : (s.wait c f w).FramesIn none := by
  intro d
  unfold wait
  rw [responsesOf_setLane, lane_setLane]
  obtain ⟨h1, h2⟩ := h d
  by_cases hd : c = d
  · subst hd; simp [he] at h1 ⊢; exact ⟨by omega, h2⟩
  · simp [hd] at h1 ⊢; exact ⟨h1, h2⟩

/-- What a request can do: nothing, where no frame of its kind is at the head; otherwise its body's rule. -/
theorem request_cases {P : State → Prop} (s : State) (c : ChanId) (k : Byte) (body : Frame → State → State)
    (h0 : P s) (h1 : ∀ f, s.headFrame c = some f → f.kind = k → P (body f (s.popFrame c))) :
    P (s.request c k body) := by
  unfold request
  split
  · exact h0
  · next f hf =>
    split
    · next hk => exact h1 f hf hk
    · exact h0

/-- What a request that wants an OPEN channel can do. -/
theorem openRequest_cases {P : State → Prop} (s : State) (c : ChanId) (k : Byte) (body : Frame → State → State)
    (h0 : P s) (h1 : ∀ f, s.headFrame c = some f → f.kind = k → (s.chan c).isOpen = true → P (body f (s.popFrame c)))
    (h2 : ∀ f, s.headFrame c = some f → f.kind = k → (s.chan c).isOpen = false →
      P ((s.popFrame c).answer c f .closed [])) : P (s.openRequest c k body) := by
  unfold openRequest
  refine request_cases s c k _ h0 fun f hf hk => ?_
  split
  · next ho => exact h1 f hf hk ho
  · next ho => exact h2 f hf hk (by simpa [popFrame] using ho)

@[simp] theorem popFrame_port (s : State) (c : ChanId) (p : PortId) : (s.popFrame c).port p = s.port p := rfl
@[simp] theorem popFrame_chan (s : State) (c d : ChanId) : (s.popFrame c).chan d = s.chan d := rfl
@[simp] theorem popFrame_table (s : State) (c : ChanId) : (s.popFrame c).table = s.table := rfl
@[simp] theorem popFrame_notice (s : State) (c : ChanId) : (s.popFrame c).notice = s.notice := rfl
@[simp] theorem popFrame_desc (s : State) (c : ChanId) : (s.popFrame c).desc = s.desc := rfl
@[simp] theorem popFrame_teardowns (s : State) (c : ChanId) : (s.popFrame c).teardowns = s.teardowns := rfl
@[simp] theorem popFrame_cross (s : State) (c : ChanId) : (s.popFrame c).cross = s.cross := rfl
@[simp] theorem popFrame_pendingOf (s : State) (c d : ChanId) : (s.popFrame c).pendingOf d = s.pendingOf d := rfl
@[simp] theorem answer_port (s : State) (c : ChanId) (f : Frame) (st : Status) (pl : List Byte) (x : Option Handle) (p : PortId) :
    (s.answer c f st pl x).port p = s.port p := rfl
@[simp] theorem answer_chan (s : State) (c : ChanId) (f : Frame) (st : Status) (pl : List Byte) (x : Option Handle) (d : ChanId) :
    (s.answer c f st pl x).chan d = s.chan d := rfl
@[simp] theorem answer_table (s : State) (c : ChanId) (f : Frame) (st : Status) (pl : List Byte) (x : Option Handle) :
    (s.answer c f st pl x).table = s.table := rfl
@[simp] theorem answer_notice (s : State) (c : ChanId) (f : Frame) (st : Status) (pl : List Byte) (x : Option Handle) :
    (s.answer c f st pl x).notice = s.notice := rfl
@[simp] theorem answer_desc (s : State) (c : ChanId) (f : Frame) (st : Status) (pl : List Byte) (x : Option Handle) :
    (s.answer c f st pl x).desc = s.desc := rfl
@[simp] theorem answer_teardowns (s : State) (c : ChanId) (f : Frame) (st : Status) (pl : List Byte) (x : Option Handle) :
    (s.answer c f st pl x).teardowns = s.teardowns := rfl
@[simp] theorem wait_port (s : State) (c : ChanId) (f : Frame) (w : Wait) (p : PortId) :
    (s.wait c f w).port p = s.port p := rfl
@[simp] theorem wait_chan (s : State) (c : ChanId) (f : Frame) (w : Wait) (d : ChanId) :
    (s.wait c f w).chan d = s.chan d := rfl
@[simp] theorem wait_table (s : State) (c : ChanId) (f : Frame) (w : Wait) : (s.wait c f w).table = s.table := rfl
@[simp] theorem wait_notice (s : State) (c : ChanId) (f : Frame) (w : Wait) : (s.wait c f w).notice = s.notice := rfl
@[simp] theorem wait_desc (s : State) (c : ChanId) (f : Frame) (w : Wait) : (s.wait c f w).desc = s.desc := rfl
@[simp] theorem wait_teardowns (s : State) (c : ChanId) (f : Frame) (w : Wait) :
    (s.wait c f w).teardowns = s.teardowns := rfl

end State

end Sys2Proof.Machine
end

