-- ==== Sys2Proof/Laws/Ports.lean ====
section
/-! SUPPORT. What the blocks of one port can do to it: Run Control's operations, and the Target Link Controller's. -/

namespace Sys2Proof.Machine

namespace Port

/-! ### Run Control -/

/-- Run Control changes its own state, what waits to be sent to the board and what it tells the Match Unit. -/
structure RanTo (q r : Port) : Prop where
  settings : r.settings = q.settings
  gate : r.gate = q.gate
  arb : r.arb = q.arb
  tlc : r.tlc = { q.tlc with outgoing := r.tlc.outgoing }
  mu : r.mu = { q.mu with runReports := r.mu.runReports }

namespace RanTo

variable {q r x : Port}

theorem rfl' (q : Port) : q.RanTo q := ⟨rfl, rfl, rfl, rfl, rfl⟩

theorem trans (h : q.RanTo r) (k : r.RanTo x) : q.RanTo x where
  settings := k.settings.trans h.settings
  gate := k.gate.trans h.gate
  arb := k.arb.trans h.arb
  tlc := by rw [k.tlc, h.tlc]
  mu := by rw [k.mu, h.mu]

theorem credits (h : q.RanTo r) : r.creditsEverywhere = q.creditsEverywhere := by
  simp only [creditsEverywhere, h.gate]
  rw [h.tlc, h.mu]

theorem claims (h : q.RanTo r) (hc : q.claimsHold) : r.claimsHold := by
  simpa [claimsHold, hasSole, hasClaim, h.arb] using hc

theorem seat (h : q.RanTo r) (hs : q.seatHolds) : r.seatHolds := by
  unfold seatHolds at *
  rw [h.gate, h.tlc]
  exact hs

end RanTo

theorem setRun_ran (q : Port) (r : RunControl) : q.RanTo (q.setRun r) := ⟨rfl, rfl, rfl, rfl, rfl⟩

theorem sendFrame_ran (q : Port) (f : LinkFrame) : q.RanTo (q.sendFrame f) := by
  unfold sendFrame
  split <;> exact ⟨rfl, rfl, rfl, rfl, rfl⟩

theorem enter_ran (q : Port) (r : RunState) : q.RanTo (q.enter r) := by
  refine ⟨rfl, rfl, rfl, rfl, ?_⟩
  unfold enter
  simp only

theorem startStop_ran (q : Port) : q.RanTo q.startStop :=
  ((sendFrame_ran q _).trans (enter_ran _ _)).trans (setRun_ran _ _)

theorem addHold_ran (q : Port) (c : ChanId) : q.RanTo (q.addHold c) := by
  unfold addHold; split
  · exact RanTo.rfl' q
  · exact setRun_ran _ _

theorem addBoardHold_ran (q : Port) : q.RanTo q.addBoardHold := by
  unfold addBoardHold; split
  · exact RanTo.rfl' q
  · exact setRun_ran _ _

theorem stopBoard_ran (q : Port) : q.RanTo q.stopBoard := by
  unfold stopBoard; split
  · exact startStop_ran q
  · exact (setRun_ran _ _).trans (startStop_ran _)
  · exact setRun_ran _ _
  all_goals exact RanTo.rfl' q

theorem resumeBoard_ran (q : Port) : q.RanTo q.resumeBoard.port :=
  ((sendFrame_ran q _).trans (enter_ran _ _)).trans (setRun_ran _ _)

theorem emptied_ran (q : Port) (l : ChanSet) : q.RanTo (q.emptied l).port := by
  unfold emptied
  simp only
  split
  all_goals first
    | exact (setRun_ran _ _).trans (resumeBoard_ran _)
    | exact setRun_ran _ _

theorem removeHolds_ran (q : Port) (l : ChanSet) (b : Bool) : q.RanTo (q.removeHolds l b).port := by
  unfold removeHolds
  simp only
  split
  · exact (setRun_ran _ _).trans (emptied_ran _ _)
  · exact setRun_ran _ _

theorem takeStopped_ran (q : Port) : q.RanTo q.takeStopped.port := by
  unfold takeStopped
  split
  · split
    · exact resumeBoard_ran q
    · split
      · exact (sendFrame_ran q _).trans (enter_ran _ _)
      · exact enter_ran q _
  · exact enter_ran q _
  · exact (addBoardHold_ran q).trans (enter_ran _ _)
  · exact (addBoardHold_ran q).trans (enter_ran _ _)
  all_goals exact RanTo.rfl' q

theorem takeStopExpiry_ran (q : Port) : q.RanTo q.takeStopExpiry.port := by
  unfold takeStopExpiry
  split
  · split
    · exact (sendFrame_ran q _).trans (setRun_ran _ _)
    · split
      · exact resumeBoard_ran q
      · exact enter_ran q _
  · exact RanTo.rfl' q

theorem takeObservation_ran (q : Port) : q.RanTo q.takeObservation := by
  unfold takeObservation
  split
  · simp only
    split
    · exact (setRun_ran _ _).trans (startStop_ran _)
    · exact setRun_ran _ _
  · exact RanTo.rfl' q

theorem recompute_ran (q : Port) : q.RanTo q.recompute := by
  unfold recompute
  split
  · exact (sendFrame_ran q _).trans (enter_ran _ _)
  · exact (setRun_ran _ _).trans (startStop_ran _)

theorem runBenchReset_ran (q : Port) : q.RanTo q.runBenchReset := by
  unfold runBenchReset
  simp only
  split
  all_goals first
    | exact ((setRun_ran _ _).trans (sendFrame_ran _ _)).trans (enter_ran _ _)
    | exact setRun_ran _ _

/-! ### The budget and the stop timer (R74, R76) -/

/-- A frame joins the outgoing ones while the link is LOCKED (R118). -/
theorem sendFrame_eq (q : Port) (f : LinkFrame) :
    q.sendFrame f = { q with tlc := if q.tlc.link = .locked then { q.tlc with outgoing := q.tlc.outgoing ++ [f] } else
      q.tlc } := by
  unfold sendFrame
  split <;> rfl

@[simp] theorem sendFrame_rc (q : Port) (f : LinkFrame) : (q.sendFrame f).rc = q.rc := by unfold sendFrame; split <;> rfl
@[simp] theorem sendFrame_arb (q : Port) (f : LinkFrame) : (q.sendFrame f).arb = q.arb := by
  unfold sendFrame; split <;> rfl
@[simp] theorem sendFrame_settings (q : Port) (f : LinkFrame) : (q.sendFrame f).settings = q.settings := by
  unfold sendFrame; split <;> rfl
@[simp] theorem setRun_rc (q : Port) (r : RunControl) : (q.setRun r).rc = r := rfl
@[simp] theorem enter_run (q : Port) (r : RunState) : (q.enter r).rc.run = r := rfl

/-- A change of run state leaves the budget and the stop timer right, whatever they were. -/
theorem enter_holds (q : Port) (r : RunState) (h : q.rc.budget ≤ Config.budgetLimit) : (q.enter r).rc.holdsTo := by
  refine ⟨?_, ?_, ?_⟩
  · intro h1 h2
    simp only [enter] at *
    simp [h1, h2]
  · simp only [enter]
    split
    · exact h
    · exact Nat.zero_le _
  · intro h1
    simp only [enter] at *
    split at h1
    · assumption
    · cases h1

theorem startStop_holds (q : Port) (h : q.rc.budget ≤ Config.budgetLimit) : q.startStop.rc.holdsTo := by
  have h1 := enter_holds (q.sendFrame .stop) .stopping (by simpa using h)
  exact ⟨h1.1, h1.2.1, fun _ => rfl⟩

theorem resumeBoard_holds (q : Port) (h : q.rc.budget ≤ Config.budgetLimit) : q.resumeBoard.port.rc.holdsTo := by
  have h1 := enter_holds (q.sendFrame .run) .running (by simpa using h)
  exact ⟨h1.1, h1.2.1, h1.2.2⟩

theorem addHold_holds (q : Port) (c : ChanId) (h : q.rc.holdsTo) : (q.addHold c).rc.holdsTo := by
  unfold addHold; split
  · exact h
  · exact ⟨h.1, h.2.1, h.2.2⟩

theorem addBoardHold_holds (q : Port) (h : q.rc.holdsTo) : q.addBoardHold.rc.holdsTo := by
  unfold addBoardHold; split
  · exact h
  · exact ⟨h.1, h.2.1, h.2.2⟩

theorem stopBoard_holds (q : Port) (h : q.rc.holdsTo) : q.stopBoard.rc.holdsTo := by
  unfold stopBoard; split
  · exact startStop_holds q h.2.1
  · exact startStop_holds _ (Nat.zero_le _)
  · exact ⟨fun _ _ => rfl, Nat.zero_le _, h.2.2⟩
  all_goals exact h

theorem emptied_holds (q : Port) (l : ChanSet) (h : q.rc.holdsTo) : (q.emptied l).port.rc.holdsTo := by
  unfold emptied
  simp only
  split
  all_goals first
    | exact resumeBoard_holds _ (Nat.zero_le _)
    | exact ⟨fun _ _ => rfl, Nat.zero_le _, h.2.2⟩

theorem removeHolds_holds (q : Port) (l : ChanSet) (b : Bool) (h : q.rc.holdsTo) :
    (q.removeHolds l b).port.rc.holdsTo := by
  unfold removeHolds
  simp only
  split
  · exact emptied_holds _ _ ⟨h.1, h.2.1, h.2.2⟩
  · exact ⟨h.1, h.2.1, h.2.2⟩

theorem takeStopped_holds (q : Port) (h : q.rc.holdsTo) : q.takeStopped.port.rc.holdsTo := by
  unfold takeStopped
  split
  · split
    · exact resumeBoard_holds q h.2.1
    · split
      · exact enter_holds _ _ (by simpa using h.2.1)
      · exact enter_holds q _ h.2.1
  · exact enter_holds q _ h.2.1
  · exact enter_holds _ _ (addBoardHold_holds q h).2.1
  · exact enter_holds _ _ (addBoardHold_holds q h).2.1
  all_goals exact h

theorem takeStopExpiry_holds (q : Port) (h : q.rc.holdsTo) : q.takeStopExpiry.port.rc.holdsTo := by
  unfold takeStopExpiry
  split
  · next hc =>
    split
    · simp only [RunControl.holdsTo, quietly, setRun_rc, sendFrame_rc]
      exact ⟨h.1, h.2.1, fun _ => hc.1⟩
    · split
      · exact resumeBoard_holds q h.2.1
      · exact enter_holds q _ h.2.1
  · exact h

theorem takeObservation_holds (q : Port) (h : q.rc.holdsTo) : q.takeObservation.rc.holdsTo := by
  unfold takeObservation
  split
  · next hc =>
    simp only
    have hb : q.rc.budget - 1 ≤ Config.budgetLimit := Nat.le_trans (Nat.sub_le _ _) h.2.1
    split
    · exact startStop_holds _ hb
    · exact ⟨fun _ h2 => absurd hc h2, hb, h.2.2⟩
  · exact h

theorem recompute_holds (q : Port) (h : q.rc.holdsTo) : q.recompute.rc.holdsTo := by
  unfold recompute
  split
  · exact enter_holds _ _ (by simpa using h.2.1)
  · exact startStop_holds _ (Nat.zero_le _)

theorem runBenchReset_holds (q : Port) (h : q.rc.holdsTo) : q.runBenchReset.rc.holdsTo := by
  unfold runBenchReset
  simp only
  split
  all_goals first
    | exact enter_holds _ _ (by simp)
    | exact ⟨fun _ _ => rfl, Nat.zero_le _, h.2.2⟩

/-! ### The Target Link Controller's control lines -/

/-- A change of the control lines reaches the two levels and Run Control's reports alone. -/
structure LinesTo (q r : Port) : Prop where
  settings : r.settings = q.settings
  gate : r.gate = q.gate
  arb : r.arb = q.arb
  mu : r.mu = q.mu
  tlc : r.tlc = { q.tlc with resetAsserted := r.tlc.resetAsserted, powerOn := r.tlc.powerOn }
  rc : r.rc = { q.rc with reports := r.rc.reports }

theorem LinesTo.trans {q r x : Port} (h : q.LinesTo r) (k : r.LinesTo x) : q.LinesTo x where
  settings := k.settings.trans h.settings
  gate := k.gate.trans h.gate
  arb := k.arb.trans h.arb
  mu := k.mu.trans h.mu
  tlc := by rw [k.tlc, h.tlc]
  rc := by rw [k.rc, h.rc]

theorem setResetLine_lines (q : Port) (a : Bool) : q.LinesTo (q.setResetLine a) := by
  unfold setResetLine
  split <;> exact ⟨rfl, rfl, rfl, rfl, rfl, rfl⟩

theorem setPowerLine_lines (q : Port) (a : Bool) : q.LinesTo (q.setPowerLine a) := ⟨rfl, rfl, rfl, rfl, rfl, rfl⟩

theorem toSafeLevels_lines (q : Port) : q.LinesTo q.toSafeLevels :=
  (setResetLine_lines q _).trans (setPowerLine_lines _ _)

theorem LinesTo.credits {q r : Port} (h : q.LinesTo r) : r.creditsEverywhere = q.creditsEverywhere := by
  simp only [creditsEverywhere, h.gate, h.mu]
  rw [h.tlc]

theorem LinesTo.claims {q r : Port} (h : q.LinesTo r) (hc : q.claimsHold) : r.claimsHold := by
  simpa [claimsHold, hasSole, hasClaim, h.arb] using hc

theorem LinesTo.runs {q r : Port} (h : q.LinesTo r) (hc : q.rc.holdsTo) : r.rc.holdsTo := by
  rw [h.rc]; exact hc

theorem LinesTo.seat {q r : Port} (h : q.LinesTo r) (hs : q.seatHolds) : r.seatHolds := by
  unfold seatHolds at *
  rw [h.gate, h.tlc]
  exact hs

/-- What matching leaves, matching's other invariants keep. -/
theorem MatchedTo.claims {q r : Port} (h : q.MatchedTo r) (hc : q.claimsHold) : r.claimsHold := by
  simpa [claimsHold, hasSole, hasClaim, h.arb] using hc

theorem MatchedTo.runs {q r : Port} (h : q.MatchedTo r) (hc : q.rc.holdsTo) : r.rc.holdsTo := by
  rw [h.rc]; exact hc

theorem MatchedTo.seat {q r : Port} (h : q.MatchedTo r) (hs : q.seatHolds) : r.seatHolds := by
  unfold seatHolds at *
  rw [h.gate, h.tlc]
  exact hs

/-- A seating that does not wait finds no unseat at the arbiter and none at the gate (log 4). -/
theorem unseatWaits_false {q : Port} :
    ¬ q.unseatWaits = true ↔ .report .unseat ∉ q.arb.fromLink ∧ q.gate.unseats = 0 := by
  simp [unseatWaits]

end Port

namespace State

/-- Settling an outcome of Run Control: the port as it stands, one event for the Notice Unit at most, answers. -/
theorem applyRun_port (s : State) (p q : PortId) (o : RunOutcome) :
    (s.applyRun p o).port q = if p = q then o.port else s.port q := by
  have h1 : ((s.setPort p o.port).raiseRun p o.raised).port q = if p = q then o.port else s.port q := by
    rw [← port_setPort]
    unfold raiseRun
    split <;> rfl
  unfold applyRun
  simp only
  split
  · rw [(settleHalts_answered _ _ _).port, h1]
  · exact h1

end State

end Sys2Proof.Machine
end

