-- ==== Sys2Proof/Laws/PortStep.lean ====
section
/-! SUPPORT. Everything a command can do to one port, said once: `Port.StepTo`, and the proof that every command moves
each port by such steps. An invariant of ports is proved over these cases, not over the commands. -/

namespace Sys2Proof.Machine

open Host Relation

/-- Where the description walk stands as a command runs: over, in progress, or ended by this command. -/
inductive Phase where
  | running | walking | ending

/-- The phase in which command `i` runs. -/
def phaseOf (i : Instr) (s : State) : Phase :=
  if s.desc.walking then (match i with
    | .walkEnd _ _ => .ending
    | _ => .walking)
  else .running

/-- One move of one port in phase `w`. -/
inductive Port.StepTo (w : Phase) : Port → Port → Prop
  | matched {q r : Port} : q.MatchedTo r → StepTo w q r
  | lines {q r : Port} : q.LinesTo r → StepTo w q r
  | ran {q r : Port} : q.RanTo r → (q.rc.holdsTo → r.rc.holdsTo) → StepTo w q r
  /-- An observation leaves the Match Unit and waits at the gate. -/
  | observed {q x : Port} (o : Observation) (ep : Half) (rest : List MatchEvent) :
      q.mu.events = .obs o ep :: rest →
      Port.MatchedTo { q with mu := { q.mu with events := rest } } x →
      StepTo w q { x with rc := { x.rc with fromUnits := x.rc.fromUnits ++ [.taken] },
                          gate := { x.gate with fromMatch := x.gate.fromMatch ++ [.handOver o ep] } }
  /-- A change of the gate that takes no observation. -/
  | gate {q : Port} (g : Gate) :
      g.fromMatch.countP GateMsg.isHandOver = q.gate.fromMatch.countP GateMsg.isHandOver →
      (g.isOpen = true → q.tlc.link = .locked ∨ q.gate.isOpen = true) →
      (g.isOpen = false → g.span = 0 ∨ (q.gate.isOpen = false ∧ g.span = q.gate.span)) →
      g.unseats ≤ q.gate.unseats →
      StepTo w q (q.setGate g)
  /-- The gate decides on an observation and its credit is on its way back. -/
  | decided {q : Port} (p : PortId) (o : Observation) (ep : Half) (rest : List GateMsg) (ready : Bool) :
      q.gate.fromMatch = .handOver o ep :: rest →
      StepTo w q { q with gate := { q.gate with fromMatch := rest }.decide p o ep ready,
                          tlc := { q.tlc with creditReturns := q.tlc.creditReturns + 1 } }
  /-- A change of the controller that leaves seat, link, timer and credits. -/
  | link {q : Port} (t : LinkController) :
      t.link = q.tlc.link → t.seat = q.tlc.seat → t.debounce = q.tlc.debounce → t.credits = q.tlc.credits →
      t.creditReturns = q.tlc.creditReturns → StepTo w q (q.setLink t)
  /-- A credit comes back. -/
  | creditBack {q : Port} : 0 < q.tlc.creditReturns →
      StepTo w q (q.setLink { q.tlc with credits := q.tlc.credits + 1, creditReturns := q.tlc.creditReturns - 1 })
  /-- An OBS frame is accepted against a credit. -/
  | accepted {q : Port} (o : Observation) (r : Byte) : 0 < q.tlc.credits →
      StepTo w q { q with tlc := { q.tlc with received := r, credits := q.tlc.credits - 1 },
                          mu := { q.mu with events := q.mu.events ++ [.obs o q.tlc.epoch] } }
  /-- The seat state moves without the link (R112). -/
  | seat {q : Port} (t : LinkController) : w = .running → t.link = q.tlc.link →
      t.seat.present = q.tlc.seat.present → (t.debounce.isSome = true → t.seat = .arriving ∨ t.seat = .leaving) →
      t.credits = q.tlc.credits → t.creditReturns = q.tlc.creditReturns → StepTo w q (q.setLink t)
  | seated {q : Port} : q.tlc.seat = .arriving → q.gate.unseats = 0 → StepTo w q q.seatBoard
  | unseated {q : Port} : StepTo w q q.unseat
  | locked {q : Port} (sent : Byte) : q.tlc.link = .hunting → StepTo w q (q.lock sent)
  | lost {q : Port} : q.tlc.link = .locked → StepTo w q q.lose
  /-- A change of the arbiter that leaves the claims. -/
  | arbiter {q : Port} (a : Arbiter) : a.claims = q.arb.claims → StepTo w q (q.setArb a)
  | claimed {q : Port} (c : ChanId) (m m' : ClaimMode) : State.claimResult q c m = some m' →
      StepTo w q (q.setArb { q.arb with claims := q.arb.claims.set c (some m') })
  | unclaimed {q : Port} (c : ChanId) (a : Arbiter) : a.claims = q.arb.claims.set c none → StepTo w q (q.setArb a)
  | settings {q : Port} (x : PortSettings) : StepTo w q { q with settings := x }
  | walkEnd {q : Port} (pins : PinLevels) : w = .ending → StepTo w q (State.portAtWalkEnd q pins)
  | benchReset {q : Port} : StepTo w q (State.resetPort q)
  | pinReset {q : Port} : StepTo w q Port.reset

/-- Moves of a port one after another. -/
abbrev Port.StepsTo (w : Phase) : Port → Port → Prop := ReflTransGen (Port.StepTo w)

namespace State

variable {w : Phase}

/-- Every port moves by steps of `Port.StepTo`. -/
def PortsTo (w : Phase) (s t : State) : Prop := ∀ p, Port.StepsTo w (s.port p) (t.port p)

namespace PortsTo

variable {s t u : State}

theorem rfl' (s : State) : PortsTo w s s := fun _ => ReflTransGen.refl
theorem trans (h : PortsTo w s t) (k : PortsTo w t u) : PortsTo w s u := fun p => (h p).trans (k p)
theorem of_ports (h : t.ports = s.ports) : PortsTo w s t := fun p => by rw [port_congr h]
theorem of_matched (h : s.MatchedTo t) : PortsTo w s t := fun p => .single (.matched (h.ports p))
theorem of_answered (h : s.AnsweredTo t) : PortsTo w s t := of_ports h.ports

theorem of_setPort (p : PortId) (x : Port) (h : Port.StepsTo w (s.port p) x) : PortsTo w s (s.setPort p x) := by
  intro q
  rw [port_setPort]
  split
  · next e => subst e; exact h
  · exact .refl

theorem of_applyRun (p : PortId) (o : RunOutcome) (h : Port.StepsTo w (s.port p) o.port) :
    PortsTo w s (s.applyRun p o) := by
  intro q
  rw [applyRun_port]
  split
  · next e => subst e; exact h
  · exact .refl

theorem foldl {α : Type} (f : State → α → State) (hf : ∀ (x : State) a, PortsTo w x (f x a)) (l : List α) (s : State) :
    PortsTo w s (l.foldl f s) := by
  induction l generalizing s with
  | nil => exact rfl' s
  | cons a rest ih => exact (hf s a).trans (ih (f s a))

/-- An answer after a move. -/
theorem finish (h : PortsTo w s t) (c : ChanId) (st : Status) (pl : List Byte) : PortsTo w s (t.finish c st pl) :=
  h.trans (of_answered (finish_answered t c st pl))

/-- A move after a change of one port. -/
theorem after {p : PortId} {x : Port} (h : Port.StepsTo w (s.port p) x) (k : PortsTo w (s.setPort p x) t) :
    PortsTo w s t := (of_setPort p x h).trans k

end PortsTo

/-- A request moves the ports as its body does. -/
theorem request_ports (s : State) (c : ChanId) (k : Byte) (body : Frame → State → State)
    (h : ∀ f, PortsTo w (s.popFrame c) (body f (s.popFrame c))) : PortsTo w s (s.request c k body) :=
  request_cases (P := PortsTo w s) s c k body (.rfl' s)
    (fun f _ _ => PortsTo.trans (.of_ports rfl) (h f))

theorem openRequest_ports (s : State) (c : ChanId) (k : Byte) (body : Frame → State → State)
    (h : ∀ f, PortsTo w (s.popFrame c) (body f (s.popFrame c))) : PortsTo w s (s.openRequest c k body) :=
  openRequest_cases (P := PortsTo w s) s c k body (.rfl' s)
    (fun f _ _ _ => PortsTo.trans (.of_ports rfl) (h f)) (fun _ _ _ _ => .of_ports rfl)

theorem answer_ports (s : State) (c : ChanId) (f : Frame) (st : Status) (pl : List Byte) (a : Option Handle := none) :
    PortsTo w s (s.answer c f st pl a) := .of_ports rfl
theorem wait_ports (s : State) (c : ChanId) (f : Frame) (x : Wait) : PortsTo w s (s.wait c f x) := .of_ports rfl

/-- A change of a port, then the answer. -/
theorem setPort_answer_ports (s : State) (p : PortId) (x : Port) (c : ChanId) (f : Frame) (st : Status)
    (pl : List Byte) (h : Port.StepsTo w (s.port p) x) : PortsTo w s ((s.setPort p x).answer c f st pl) :=
  (PortsTo.of_setPort p x h).trans (answer_ports _ _ _ _ _)

theorem setPort_wait_ports (s : State) (p : PortId) (x : Port) (c : ChanId) (f : Frame) (y : Wait)
    (h : Port.StepsTo w (s.port p) x) : PortsTo w s ((s.setPort p x).wait c f y) :=
  (PortsTo.of_setPort p x h).trans (wait_ports _ _ _ _)

/-! ### The bench port, the channels, the Notice Unit: no port moves -/

theorem foldl_ports {α : Type} (f : State → α → State) (hf : ∀ (x : State) a, (f x a).ports = x.ports) (l : List α)
    (s : State) : (l.foldl f s).ports = s.ports := by
  induction l generalizing s with
  | nil => rfl
  | cons a rest ih => rw [List.foldl_cons, ih, hf]

theorem restartLease_ports (s : State) (c : ChanId) : (s.restartLease c).ports = s.ports := by
  unfold restartLease; simp only; split <;> rfl

theorem arrive_ports (s : State) (c : ChanId) (f : Frame) : (s.arrive c f).ports = s.ports := by
  unfold arrive; simp only; split
  · exact restartLease_ports s c
  · exact restartLease_ports s c

theorem receiveByte_ports (s : State) (b : RxByte) : (s.receiveByte b).ports = s.ports := by
  unfold receiveByte
  split
  · split <;> rfl
  · simp only
    split
    · rfl
    · split
      · rfl
      · split
        · rfl
        · unfold endFrame
          simp only
          split
          · split
            · rw [arrive_ports]; rfl
            · rfl
          · rfl

theorem addTo_ports (s : State) (c : ChanId) (f : Pending → Pending) : (s.addTo c f).ports = s.ports := by
  unfold addTo; split <;> rfl

theorem addEvents_ports (s : State) (m : PortEventMsg) : (s.addEvents m).ports = s.ports := by
  unfold addEvents
  refine foldl_ports _ (fun x c => ?_) _ s
  split
  · exact addTo_ports _ _ _
  · rfl

theorem beginTeardown_ports (s : State) (c : ChanId) : (s.beginTeardown c).ports = s.ports := by
  unfold beginTeardown; split <;> rfl

theorem nextTeardown_ports (s : State) : s.nextTeardown.ports = s.ports := by
  unfold nextTeardown; split <;> rfl

theorem revoke_matched (s : State) (o c : ChanId) : s.MatchedTo (s.revoke o c) := by
  unfold revoke; split
  · exact MatchedTo.rfl' s
  · exact sendAddition_matched s _

theorem revokeOwners_matched (s : State) (is : List Nat) (c : ChanId) : s.MatchedTo (s.revokeOwners is c) := by
  unfold revokeOwners
  refine MatchedTo.foldl _ (fun x j => ?_) _ s
  split
  · exact revoke_matched _ _ _
  · exact MatchedTo.rfl' x

theorem answerChange_answered (s : State) (n : Nat) : s.AnsweredTo (s.answerChange n) := by
  unfold answerChange
  split
  · exact finish_answered _ _ _ _
  · exact AnsweredTo.rfl' s

theorem endRecordsStep_ports (s : State) (n : Nat) : (s.endRecordsStep n).ports = s.ports := by
  unfold endRecordsStep
  split
  · split <;> rfl
  · rfl

theorem releaseChange_ports (s : State) (n : Nat) : (s.releaseChange n).ports = s.ports := by
  unfold releaseChange
  split
  · rw [endRecordsStep_ports, (answerChange_answered s n).ports]
  · rfl

theorem takeToken_matched (s : State) (u : UnitId) (k : Token) : s.MatchedTo (s.takeToken u k) := by
  unfold takeToken
  split
  · exact takeUpdate_matched _ _ _
  · exact MatchedTo.rfl' s

theorem answerClose_answered (s : State) (c : ChanId) (x : Option TeardownCause) : s.AnsweredTo (s.answerClose c x) := by
  unfold answerClose
  split
  · exact finish_answered _ _ _ _
  · exact AnsweredTo.rfl' s
  · exact AnsweredTo.rfl' s

end State

end Sys2Proof.Machine
end

