-- ==== Sys2Proof/Laws/ExecPorts.lean ====
section
/-! SUPPORT. Every command moves every port by steps of `Port.StepTo`: one lemma per command whose meaning reaches a
port, and `exec_ports` over them all. -/

namespace Sys2Proof.Machine

open Host Relation

namespace Port

variable {w : Phase}

theorem StepTo.one {q r : Port} (h : StepTo w q r) : StepsTo w q r := .single h

theorem steps_ran {q r : Port} (h : q.RanTo r) (k : q.rc.holdsTo → r.rc.holdsTo) : StepsTo w q r := .single (.ran h k)

theorem steps_lines {q r : Port} (h : q.LinesTo r) : StepsTo w q r := .single (.lines h)

/-- A change of Run Control's waiting events. -/
theorem steps_inbox (q : Port) (r : RunControl) (h : r.run = q.rc.run) (hb : r.budget = q.rc.budget)
    (ht : r.stopTimer = q.rc.stopTimer) : StepsTo w q (q.setRun r) :=
  steps_ran (setRun_ran q r) (fun x => by simpa [RunControl.holdsTo, h, hb, ht] using x)

theorem steps_stopBoard (q : Port) (c : ChanId) : StepsTo w q (q.addHold c).stopBoard :=
  steps_ran ((addHold_ran q c).trans (stopBoard_ran _)) (fun h => stopBoard_holds _ (addHold_holds q c h))

theorem steps_removeHold (q : Port) (c : ChanId) (b : Bool) : StepsTo w q (q.removeHold c b).port :=
  steps_ran (removeHolds_ran _ _ _) (removeHolds_holds _ _ _)

theorem steps_sendWord (q : Port) (b : RunningBlock) (i : Nat) : StepsTo w q (q.sendWord b i) := by
  unfold sendWord
  simp only
  refine ReflTransGen.trans (steps_ran (sendFrame_ran q _) (fun h => by simpa using h)) (.single (.arbiter _ rfl))

theorem steps_grantEntry (q : Port) (e : QueueEntry) : StepsTo w q (State.grantEntry q e) := by
  unfold State.grantEntry
  refine ReflTransGen.trans ?_ (steps_sendWord _ _ _)
  exact .single (.arbiter _ rfl)

theorem steps_returnRemainder (q : Port) (c : ChanId) (r : Option Remainder) : StepsTo w q (q.returnRemainder c r) := by
  unfold returnRemainder
  split
  · exact .single (.arbiter _ rfl)
  · exact .refl

theorem steps_closeBy (q : Port) (g : Gate) (k : EventKind)
    (hm : g.fromMatch.countP GateMsg.isHandOver = q.gate.fromMatch.countP GateMsg.isHandOver)
    (ho : g.isOpen = q.gate.isOpen) (hs : g.span = q.gate.span) (hu : g.unseats = q.gate.unseats) :
    StepsTo w q (q.setGate (g.closeBy k)) := by
  refine .single (.gate _ ?_ ?_ ?_ ?_)
  · unfold Gate.closeBy; split <;> exact hm
  · unfold Gate.closeBy; split
    · intro h; cases h
    · intro h; exact Or.inr (ho ▸ h)
  · unfold Gate.closeBy; split
    · intro _; exact Or.inl rfl
    · intro h; exact Or.inr ⟨ho ▸ h, hs⟩
  · unfold Gate.closeBy; split <;> exact hu.le

theorem steps_openWith (q : Port) (g : Gate) (span : Half) (o : Opener)
    (hm : g.fromMatch.countP GateMsg.isHandOver = q.gate.fromMatch.countP GateMsg.isHandOver)
    (hl : q.tlc.link = .locked) (hu : g.unseats = q.gate.unseats) : StepsTo w q (q.setGate (g.openWith span o)) :=
  .single (.gate _ hm (fun _ => Or.inl hl) (fun h => by cases h) hu.le)

theorem steps_closeOff (q : Port) (g : Gate)
    (hm : g.fromMatch.countP GateMsg.isHandOver = q.gate.fromMatch.countP GateMsg.isHandOver)
    (hu : g.unseats = q.gate.unseats) : StepsTo w q (q.setGate g.closeOff) :=
  .single (.gate _ hm (fun h => by cases h) (fun _ => Or.inl rfl) hu.le)

theorem steps_takeObs (q : Port) (o : RawObs) : StepsTo w q (q.takeObs o) := by
  unfold takeObs
  simp only
  split
  · exact .single (.link _ rfl rfl rfl rfl rfl)
  · split
    · next h => exact .single (.accepted _ _ h)
    · exact .single (.link _ rfl rfl rfl rfl rfl)

theorem steps_takeFrame (q : Port) (f : BoardFrame) : StepsTo w q (q.takeFrame f) := by
  unfold takeFrame
  split
  · exact steps_takeObs _ _
  · split
    · exact .single (.arbiter { q.arb with fromLink := _ } rfl)
    · exact .refl
  · exact steps_inbox _ _ rfl rfl rfl
  · exact .refl

theorem steps_takeFrames (l : List BoardFrame) (q : Port) : StepsTo w q (l.foldl Port.takeFrame q) := by
  induction l generalizing q with
  | nil => exact .refl
  | cons f rest ih => exact (steps_takeFrame q f).trans (ih _)

theorem steps_checkSentCount (q : Port) (b : Byte) : StepsTo w q (q.checkSentCount b) := by
  unfold checkSentCount
  simp only
  split
  · exact .refl
  · split <;> exact .single (.link _ rfl rfl rfl rfl rfl)

theorem steps_portTeardown (q : Port) (c : ChanId) : StepsTo w q (State.portTeardown q c) := by
  unfold State.portTeardown
  simp only
  have h1 : StepsTo w q (q.setArb (State.arbiterTeardown q.arb c)) := .single (.unclaimed c _ rfl)
  split
  · exact h1.trans (steps_lines (toSafeLevels_lines _))
  · exact h1

end Port

namespace State

variable {w : Phase}

/-! ### Matching -/

theorem observation_ports (p : PortId) (s : State) : PortsTo w s (s.observation p) := by
  unfold observation
  split
  · next o ep he =>
    have hh : ∃ rest, (s.port p).mu.events = .obs o ep :: rest := by
      unfold Port.nextEvent at he
      split at he
      · cases he
      · cases hl : (s.port p).mu.events with
        | nil => rw [hl] at he; cases he
        | cons a b => rw [hl] at he; cases he; exact ⟨b, rfl⟩
    obtain ⟨rest, hr⟩ := hh
    have hm := walk_matched (fun t e => t.meetObservation p o ep e) (fun x e => meetObservation_matched x p o ep e)
      (s.port p).mu.view.copy [] (s.popEvent p)
    generalize walk (fun t e => t.meetObservation p o ep e) (s.port p).mu.view.copy [] (s.popEvent p) = v at *
    intro q
    unfold handOn
    simp only
    rw [port_setPort]
    split
    · next e =>
      subst e
      refine .single (.observed o ep rest hr ?_)
      have h := hm.ports p
      unfold popEvent setMatch at h
      rw [port_setPort_same, hr] at h
      exact ⟨h.settings, h.tlc, h.arb, h.rc, h.gate, h.observations, h.handOvers⟩
    · next e =>
      have h := hm.ports q
      unfold popEvent setMatch at h
      rw [port_setPort_ne s e] at h
      exact .single (.matched h)
  · exact .rfl' s

/-- Taking an event that is no observation. -/
theorem popEvent_matched (s : State) (p : PortId) (e : MatchEvent) (h : (s.port p).nextEvent = some e)
    (ho : e.isObs = false) : s.MatchedTo (s.popEvent p) := by
  refine setMatch_matched s p _ ?_
  unfold Port.nextEvent at h
  split at h
  · cases h
  · cases hl : (s.port p).mu.events with
    | nil => rfl
    | cons a b => rw [hl] at h; cases h; simp [ho]

theorem lineEdge_matched (p : PortId) (s : State) : s.MatchedTo (s.lineEdge p) := by
  unfold lineEdge
  split
  · next l d ep he =>
    exact (popEvent_matched s p _ he rfl).trans (walk_matched _ (fun x e => meetEdge_matched x p l d ep e) _ _ _)
  · exact MatchedTo.rfl' s

theorem quietTimerZero_matched (p : PortId) (i : Nat) (s : State) : s.MatchedTo (s.quietTimerZero p i) := by
  unfold quietTimerZero
  simp only
  split
  · exact setMatch_matched s p _ (by simp [MatchEvent.isObs])
  · exact MatchedTo.rfl' s

theorem quietExpiry_matched (p : PortId) (s : State) : s.MatchedTo (s.quietExpiry p) := by
  unfold quietExpiry
  split
  · next i live he =>
    have h1 := popEvent_matched s p _ he rfl
    simp only
    split
    · split
      · exact (h1.trans (hit_matched _ _ _)).trans (afterSilence_matched _ _)
      · exact h1
    · exact h1
  · exact MatchedTo.rfl' s

theorem runStateReport_matched (p : PortId) (s : State) : s.MatchedTo (s.runStateReport p) := by
  unfold runStateReport
  simp only
  split
  · exact told_matched _ _ _ rfl
  · exact MatchedTo.rfl' s

theorem linkStateReport_matched (p : PortId) (s : State) : s.MatchedTo (s.linkStateReport p) := by
  unfold linkStateReport
  simp only
  split
  · exact told_matched _ _ _ rfl
  · exact MatchedTo.rfl' s

theorem unseatAtMatchUnit_matched (p : PortId) (s : State) : s.MatchedTo (s.unseatAtMatchUnit p) := by
  unfold unseatAtMatchUnit
  simp only
  split
  · exact told_matched _ _ _ rfl
  · exact MatchedTo.rfl' s

theorem crossEdge_matched (s : State) : s.MatchedTo s.crossEdge := by
  unfold crossEdge
  split
  · next x _ _ _ =>
    refine MatchedTo.trans (t := s.popEdge)
      ⟨rfl, rfl, rfl, rfl, rfl, rfl, rfl, rfl, fun _ => Port.MatchedTo.rfl' _⟩ ?_
    exact walk_matched _ (fun y e => meetCross_matched y x e) _ _ _
  · exact MatchedTo.rfl' s

theorem changeBoundary_ports (u : UnitId) (s : State) : PortsTo w s (s.changeBoundary u) := by
  unfold changeBoundary
  split
  · exact .rfl' s
  · exact .rfl' s
  · next k rest _ _ =>
    exact PortsTo.trans (.of_matched ((takeToken_matched s u k).trans (setView_matched _ u _)))
      (.of_ports (releaseChange_ports _ _))

/-! ### Gates -/

theorem gateOpen_ports (p : PortId) (x : Bool) (s : State) : PortsTo w s (s.gateOpen p x) := by
  unfold gateOpen
  simp only
  split
  · next span h kind rest he =>
    refine .of_setPort p _ ?_
    have hc : (dropGateInbox (s.port p).gate x).fromMatch.countP GateMsg.isHandOver =
        (s.port p).gate.fromMatch.countP GateMsg.isHandOver := by
      unfold dropGateInbox gateInbox at *
      split
      · rfl
      · next hx => simp [hx] at he; simp [he, GateMsg.isHandOver]
    have hu : (dropGateInbox (s.port p).gate x).unseats = (s.port p).gate.unseats := by
      unfold dropGateInbox; split <;> rfl
    unfold Port.takeGateOpen
    split
    · next hl => exact Port.steps_openWith (s.port p) _ span _ hc hl hu
    · refine .single (.gate _ hc ?_ ?_ hu.le)
      · unfold dropGateInbox; split <;> exact fun h => Or.inr h
      · unfold dropGateInbox; split <;> exact fun h => Or.inr ⟨h, rfl⟩
  · exact .rfl' s

theorem gateClose_ports (p : PortId) (x : Bool) (s : State) : PortsTo w s (s.gateClose p x) := by
  unfold gateClose
  simp only
  split
  · next kind rest he =>
    refine .of_setPort p _ (Port.steps_closeBy _ _ _ ?_ ?_ ?_ ?_)
    · unfold dropGateInbox gateInbox at *
      split
      · rfl
      · next hx => simp [hx] at he; simp [he, GateMsg.isHandOver]
    · unfold dropGateInbox; split <;> rfl
    · unfold dropGateInbox; split <;> rfl
    · unfold dropGateInbox; split <;> rfl
  · exact .rfl' s

theorem gateDecision_ports (p : PortId) (x : Bool) (s : State) : PortsTo w s (s.gateDecision p x) := by
  unfold gateDecision
  simp only
  split
  · next o ep rest _ he => exact .of_setPort p _ (.single (.decided p o ep rest x he))
  · exact .rfl' s

theorem endOfSending_ports (p : PortId) (s : State) : PortsTo w s (s.endOfSending p) :=
  .of_setPort p _ (.single (.gate _ rfl (fun h => Or.inr h) (fun h => Or.inr ⟨h, rfl⟩) (Nat.le_refl _)))

theorem unseatAtGate_ports (p : PortId) (s : State) : PortsTo w s (s.unseatAtGate p) := by
  unfold unseatAtGate
  simp only
  split
  · exact .of_setPort p _ (.single (.gate _ rfl (fun h => by cases h) (fun _ => Or.inl rfl) (Nat.sub_le _ _)))
  · exact .rfl' s

theorem gateRequest_ports (c : ChanId) (s : State) : PortsTo w s (s.gateRequest c) := by
  refine openRequest_ports _ _ _ _ fun f => ?_
  split
  · exact answer_ports _ _ _ _ _
  · simp only
    split
    · split
      · split
        · next hl => exact setPort_answer_ports _ _ _ _ _ _ _ (Port.steps_openWith _ _ _ _ rfl hl rfl)
        · exact answer_ports _ _ _ _ _
      · exact setPort_answer_ports _ _ _ _ _ _ _ (Port.steps_closeBy _ _ _ rfl rfl rfl rfl)
    · exact answer_ports _ _ _ _ _

/-! ### Run Control -/

theorem halt_ports (c : ChanId) (s : State) : PortsTo w s (s.halt c) := by
  refine openRequest_ports _ _ _ _ fun f => ?_
  split
  · exact answer_ports _ _ _ _ _
  · next p _ =>
    simp only
    split
    · split <;> first
        | exact setPort_wait_ports _ _ _ _ _ _ (Port.steps_stopBoard _ _)
        | exact setPort_answer_ports _ _ _ _ _ _ _ (Port.steps_stopBoard _ _)
    · exact answer_ports _ _ _ _ _

theorem resume_ports (c : ChanId) (s : State) : PortsTo w s (s.resume c) := by
  refine openRequest_ports _ _ _ _ fun f => ?_
  split
  · exact answer_ports _ _ _ _ _
  · simp only
    split
    · exact PortsTo.trans (.of_applyRun _ _ (Port.steps_removeHold _ _ _)) (answer_ports _ _ _ _ _)
    · exact answer_ports _ _ _ _ _

theorem satAdd_le (top n k : Nat) : satAdd top n k ≤ top := by unfold satAdd; split <;> omega

theorem stepBoard_ports (c : ChanId) (s : State) : PortsTo w s (s.stepBoard c) := by
  refine openRequest_ports _ _ _ _ fun f => ?_
  split
  · exact answer_ports _ _ _ _ _
  · next p n hr =>
    have hn : n ≤ Config.budgetLimit := by
      unfold readStep at hr
      split at hr
      · split at hr
        · split at hr
          · cases hr
          · cases hr; have := (halfAt f.payload 1).isLt; simp only [Config.budgetLimit]; omega
        · cases hr
      · cases hr
    simp only
    split
    · exact answer_ports _ _ _ _ _
    · exact answer_ports _ _ _ _ _
    · exact answer_ports _ _ _ _ _
    · split
      · refine setPort_answer_ports _ _ _ _ _ _ _ (Port.steps_ran ?_ fun _ => ?_)
        · exact ((Port.setRun_ran _ _).trans (Port.sendFrame_ran _ _)).trans (Port.enter_ran _ _)
        · exact Port.enter_holds _ _ (by simpa using hn)
      · exact answer_ports _ _ _ _ _
    · next hs =>
      split
      · refine setPort_answer_ports _ _ _ _ _ _ _ (Port.steps_ran (Port.setRun_ran _ _) fun h => ?_)
        exact ⟨fun _ h2 => absurd hs h2, satAdd_le _ _ _, h.2.2⟩
      · exact answer_ports _ _ _ _ _
    · next hs =>
      split
      · refine setPort_answer_ports _ _ _ _ _ _ _ (Port.steps_ran (Port.setRun_ran _ _) fun h => ?_)
        exact ⟨fun h1 _ => absurd hs h1, satAdd_le _ _ _, h.2.2⟩
      · exact answer_ports _ _ _ _ _

theorem freeze_ports (p : PortId) (x : Bool) (s : State) : PortsTo w s (s.freeze p x) := by
  unfold freeze
  simp only
  split
  · next _ _ rest _ =>
    split
    · refine .of_setPort p _ ?_
      split
      · exact (Port.steps_inbox (s.port p) { (s.port p).rc with fromUnits := rest } rfl rfl rfl).trans
          (Port.steps_stopBoard _ _)
      · exact Port.steps_inbox _ _ rfl rfl rfl
    · exact .rfl' s
  · exact .rfl' s
  · exact .rfl' s

theorem observationTaken_ports (p : PortId) (s : State) : PortsTo w s (s.observationTaken p) := by
  unfold observationTaken
  simp only
  split
  · refine .of_setPort p _ (ReflTransGen.trans ?_
      (Port.steps_ran (Port.takeObservation_ran _) (Port.takeObservation_holds _)))
    exact Port.steps_inbox _ _ rfl rfl rfl
  · exact .rfl' s
  · exact .rfl' s

theorem takeReport_steps {q q' : Port} {r : RunReport} (h : takeReport q r = some q') : Port.StepsTo w q q' := by
  unfold takeReport at h
  split at h
  · split at h
    · cases h; exact Port.steps_inbox _ _ rfl rfl rfl
    · cases h
  · cases h

theorem takeDeparture_steps {q q' : Port} {r : RunReport} (h : takeDeparture q r = some q') : Port.StepsTo w q q' := by
  unfold takeDeparture at h
  split at h
  · split at h
    · cases h; exact Port.steps_inbox _ _ rfl rfl rfl
    · cases h
  · cases h

theorem stopped_ports (p : PortId) (s : State) : PortsTo w s (s.stopped p) := by
  unfold stopped
  split
  · next q hq =>
    exact .of_applyRun p _ ((takeReport_steps hq).trans
      (Port.steps_ran (Port.takeStopped_ran _) (Port.takeStopped_holds _)))
  · exact .rfl' s

theorem stopTimerExpiry_ports (p : PortId) (s : State) : PortsTo w s (s.stopTimerExpiry p) :=
  .of_applyRun p _ (Port.steps_ran (Port.takeStopExpiry_ran _) (Port.takeStopExpiry_holds _))

/-- A port that goes OFFLINE after a change of what Run Control was told. -/
theorem steps_goOffline (q : Port) (r : RunControl) (h : r.budget = q.rc.budget) :
    Port.StepsTo w q (q.setRun r).goOffline :=
  Port.steps_ran ((Port.setRun_ran q r).trans (Port.enter_ran _ _))
    (fun k => Port.enter_holds _ _ (by simpa [h] using k.2.1))

theorem resetAsserted_ports (p : PortId) (s : State) : PortsTo w s (s.resetAsserted p) := by
  unfold resetAsserted
  split
  · next q hq =>
    refine .of_applyRun p _ (ReflTransGen.trans (takeReport_steps hq) ?_)
    exact ReflTransGen.trans (steps_goOffline q { q.rc with resetAsserted := true } rfl)
      (Port.steps_ran (Port.removeHolds_ran _ _ _) (Port.removeHolds_holds _ _ _))
  · exact .rfl' s

theorem steps_recompute (q : Port) (r : RunControl) (h : r.run = q.rc.run) (hb : r.budget = q.rc.budget)
    (ht : r.stopTimer = q.rc.stopTimer) :
    Port.StepsTo w q (if (q.setRun r).reachable then (q.setRun r).recompute else q.setRun r) := by
  split
  · exact (Port.steps_inbox _ _ h hb ht).trans (Port.steps_ran (Port.recompute_ran _) (Port.recompute_holds _))
  · exact Port.steps_inbox _ _ h hb ht

theorem resetReleased_ports (p : PortId) (s : State) : PortsTo w s (s.resetReleased p) := by
  unfold resetReleased
  split
  · next q hq => exact .of_setPort p _ ((takeReport_steps hq).trans (steps_recompute q _ rfl rfl rfl))
  · exact .rfl' s

theorem linkLockAtRunControl_ports (p : PortId) (s : State) : PortsTo w s (s.linkLockAtRunControl p) := by
  unfold linkLockAtRunControl
  split
  · next q hq => exact .of_setPort p _ ((takeReport_steps hq).trans (steps_recompute q _ rfl rfl rfl))
  · exact .rfl' s

theorem linkLossAtRunControl_ports (p : PortId) (s : State) : PortsTo w s (s.linkLossAtRunControl p) := by
  unfold linkLossAtRunControl
  split
  · next q hq => exact .of_applyRun p _ ((takeDeparture_steps hq).trans (steps_goOffline q _ rfl))
  · exact .rfl' s

theorem unseatAtRunControl_ports (p : PortId) (s : State) : PortsTo w s (s.unseatAtRunControl p) := by
  unfold unseatAtRunControl
  split
  · next q hq => exact .of_applyRun p _ ((takeDeparture_steps hq).trans (steps_goOffline q _ rfl))
  · exact .rfl' s

theorem holdRemoval_ports (p : PortId) (s : State) : PortsTo w s (s.holdRemoval p) := by
  unfold holdRemoval
  simp only
  split
  · refine PortsTo.trans ?_ (.of_answered (releaseStep_answered _ _ _))
    refine .of_applyRun p _ (ReflTransGen.trans ?_ (Port.steps_removeHold _ _ _))
    exact Port.steps_inbox _ _ rfl rfl rfl
  · exact .rfl' s

/-! ### Target links -/

theorem seatChange_ports (p : PortId) (h : Bool) (s : State) (hw : s.desc.walking = false → w = .running) :
    PortsTo w s (s.seatChange p h) := by
  unfold seatChange
  simp only
  split
  · exact .rfl' s
  · next hc =>
    simp at hc
    have hw' : w = .running := hw (by simpa using hc.1)
    refine .of_setPort p _ ?_
    split
    all_goals rename_i hs
    all_goals split
    all_goals first
      | exact .single (.link _ rfl rfl rfl rfl rfl)
      | exact .single (.seat _ hw' rfl (by simp [hs, SeatState.present]) (by simp) rfl rfl)

theorem debounceExpiry_ports (p : PortId) (s : State) : PortsTo w s (s.debounceExpiry p) := by
  unfold debounceExpiry
  simp only
  split
  · next hs =>
    split
    · exact .rfl' s
    · next hw => exact PortsTo.trans (.of_setPort p _ (.single (.seated hs (Port.unseatWaits_false.1 hw).2))) (.of_ports rfl)
  · exact PortsTo.trans (.of_setPort p _ (.single .unseated)) (.of_ports rfl)
  · exact .rfl' s

theorem waitEdge_matched (q : Port) (l : LineId) (e : Edge) (ep : Half) :
    q.MatchedTo { q with mu := waitEdge q.mu l e ep } := by
  refine Port.MatchedTo.ofMatch _ ?_
  unfold waitEdge
  simp only
  split
  · rw [List.countP_filter]
    congr 1
    funext x
    cases x <;> simp [MatchEvent.isObs]
  · simp [MatchEvent.isObs]

theorem statusEdge_ports (p : PortId) (l : LineId) (h : Bool) (s : State) : PortsTo w s (s.statusEdge p l h) := by
  unfold statusEdge
  simp only
  split
  · exact .rfl' s
  · have h1 : Port.StepsTo w (s.port p) ((s.port p).setLink { (s.port p).tlc with
        status := (s.port p).tlc.status.set l h }) := .single (.link _ rfl rfl rfl rfl rfl)
    split
    · exact .of_setPort p _ (h1.trans (.single (.matched (waitEdge_matched _ _ _ _))))
    · exact .of_setPort p _ (h1.trans (.single (.matched (waitEdge_matched _ _ _ _))))
    · exact .of_setPort p _ h1
    · exact .of_setPort p _ h1

theorem boardSuperframe_ports (p : PortId) (f : BoardSuperframe) (s : State) :
    PortsTo w s (s.boardSuperframe p f) := by
  unfold boardSuperframe
  simp only
  split
  · exact .rfl' s
  · next hl _ =>
    split
    · exact PortsTo.trans (.of_setPort p _ (.single (.locked _ hl))) (.of_ports rfl)
    · exact .of_setPort p _ (.single (.link _ rfl rfl rfl rfl rfl))
  · exact .of_setPort p _ (.single (.link _ rfl rfl rfl rfl rfl))
  · refine .of_setPort p _ (ReflTransGen.trans (.single (.link { (s.port p).tlc with badSync := 0 } rfl rfl rfl rfl rfl)) ?_)
    exact (Port.steps_checkSentCount _ _).trans (Port.steps_takeFrames _ _)
  · next hl _ =>
    split
    · exact PortsTo.trans (.of_setPort p _ (.single (.lost hl))) (.of_ports rfl)
    · exact .of_setPort p _ (.single (.link _ rfl rfl rfl rfl rfl))

theorem outgoingSuperframe_ports (p : PortId) (n : Nat) (s : State) : PortsTo w s (s.outgoingSuperframe p n) := by
  unfold outgoingSuperframe
  simp only
  split
  · exact .rfl' s
  · exact .of_setPort p _ (.single (.link _ rfl rfl rfl rfl rfl))

theorem creditReturn_ports (p : PortId) (s : State) : PortsTo w s (s.creditReturn p) := by
  unfold creditReturn
  simp only
  split
  · next h => exact .of_setPort p _ (.single (.creditBack h))
  · exact .rfl' s

theorem safeLevels_ports (p : PortId) (s : State) : PortsTo w s (s.safeLevels p) := by
  unfold safeLevels
  simp only
  split
  · next c rest he =>
    have h1 : Port.StepsTo w (s.port p)
        ((s.port p).setLink { (s.port p).tlc with safeRequests := rest }).toSafeLevels :=
      ReflTransGen.trans (.single (.link { (s.port p).tlc with safeRequests := rest } rfl rfl rfl rfl rfl))
        (Port.steps_lines (Port.toSafeLevels_lines _))
    exact PortsTo.trans (.of_setPort p _ h1) (.of_answered (releaseStep_answered _ _ _))
  · exact .rfl' s

theorem drive_ports (c : ChanId) (s : State) : PortsTo w s (s.drive c) := by
  refine openRequest_ports _ _ _ _ fun f => ?_
  split
  · exact answer_ports _ _ _ _ _
  · simp only
    split
    · exact setPort_answer_ports _ _ _ _ _ _ _ (Port.steps_lines
        ((Port.setResetLine_lines _ _).trans (Port.setPowerLine_lines _ _)))
    · exact answer_ports _ _ _ _ _

theorem portstat_ports (c : ChanId) (s : State) : PortsTo w s (s.portstat c) := by
  refine openRequest_ports _ _ _ _ fun f => ?_
  split
  · exact answer_ports _ _ _ _ _
  · exact setPort_answer_ports _ _ _ _ _ _ _ (.single (.link _ rfl rfl rfl rfl rfl))

/-! ### The arbiter -/

theorem claim_ports (c : ChanId) (s : State) : PortsTo w s (s.claim c) := by
  refine openRequest_ports _ _ _ _ fun f => ?_
  split
  · exact answer_ports _ _ _ _ _
  · next p m _ =>
    simp only
    split
    · next m' hm => exact setPort_answer_ports _ _ _ _ _ _ _ (.single (.claimed c m m' hm))
    · exact answer_ports _ _ _ _ _

theorem release_ports (c : ChanId) (s : State) : PortsTo w s (s.release c) := by
  refine openRequest_ports _ _ _ _ fun f => ?_
  split
  · exact answer_ports _ _ _ _ _
  · next p _ =>
    simp only
    split
    · refine setPort_wait_ports _ _ _ _ _ _ ?_
      generalize (s.popFrame c).port p = q
      have h1 : Port.StepsTo w q ((q.setArb { q.arb with claims := q.arb.claims.set c none }).discardRemainder c) :=
        ReflTransGen.trans (.single (.unclaimed c { q.arb with claims := q.arb.claims.set c none } rfl))
          (.single (.arbiter _ rfl))
      generalize (q.setArb { q.arb with claims := q.arb.claims.set c none }).discardRemainder c = q1 at *
      have h2 := h1.trans (Port.steps_inbox (w := w) q1 { q1.rc with removals := q1.rc.removals ++ [c] } rfl rfl rfl)
      generalize q1.setRun { q1.rc with removals := q1.rc.removals ++ [c] } = q2 at *
      split
      · exact h2.trans (.single (.link _ rfl rfl rfl rfl rfl))
      · exact h2
    · exact answer_ports _ _ _ _ _

theorem access_ports (d : Direction) (k : Byte) (c : ChanId) (s : State) : PortsTo w s (s.access d k c) := by
  unfold access
  split
  · exact .rfl' s
  · refine openRequest_ports _ _ _ _ fun f => ?_
    split
    · exact answer_ports _ _ _ _ _
    · simp only
      split
      · exact answer_ports _ _ _ _ _
      · exact setPort_wait_ports _ _ _ _ _ _ (.single (.arbiter _ rfl))

theorem replay_ports (c : ChanId) (s : State) : PortsTo w s (s.replay c) := by
  unfold replay
  split
  · exact .rfl' s
  · refine openRequest_ports _ _ _ _ fun f => ?_
    split
    · exact answer_ports _ _ _ _ _
    · simp only
      split
      · exact answer_ports _ _ _ _ _
      · split
        · exact answer_ports _ _ _ _ _
        · exact setPort_wait_ports _ _ _ _ _ _ (ReflTransGen.trans (.single (.arbiter _ rfl)) (.single (.arbiter _ rfl)))

theorem drop_ports (c : ChanId) (s : State) : PortsTo w s (s.drop c) := by
  refine openRequest_ports _ _ _ _ fun f => ?_
  split
  · exact answer_ports _ _ _ _ _
  · simp only
    split
    · exact answer_ports _ _ _ _ _
    · exact setPort_answer_ports _ _ _ _ _ _ _ (.single (.arbiter _ rfl))

theorem grant_ports (p : PortId) (s : State) : PortsTo w s (s.grant p) := by
  unfold grant
  simp only
  split
  · split
    · exact .rfl' s
    · split
      · refine PortsTo.finish (.of_setPort p _ (ReflTransGen.trans ?_ (Port.steps_returnRemainder _ _ _))) _ _ _
        exact .single (.arbiter _ rfl)
      · exact .of_setPort p _ (Port.steps_grantEntry _ _)
  · exact .rfl' s

theorem failBlock_ports (s : State) (p : PortId) (b : RunningBlock) (r : FailReason) :
    PortsTo w s (s.failBlock p b r) := by
  refine PortsTo.finish (.of_setPort p _ (ReflTransGen.trans (b := (s.port p).park b r) ?_ ?_)) _ _ _
  · exact .single (.arbiter _ rfl)
  · exact .single (.arbiter _ rfl)

theorem completeWord_ports (s : State) (p : PortId) (b : RunningBlock) (d : Word) :
    PortsTo w s (s.completeWord p b d) := by
  unfold completeWord
  simp only
  split
  · exact .of_setPort p _ (Port.steps_sendWord _ _ _)
  · refine PortsTo.finish (.of_setPort p _ ?_) _ _ _
    exact .single (.arbiter _ rfl)

theorem reply_ports (p : PortId) (s : State) : PortsTo w s (s.reply p) := by
  unfold reply
  split
  · exact .rfl' s
  · exact .rfl' s
  · next r rest _ =>
    have h1 : PortsTo w s (s.setPort p ((s.port p).setArb { (s.port p).arb with fromLink := rest })) :=
      .of_setPort p _ (.single (.arbiter _ rfl))
    simp only
    split
    · exact h1
    · split
      · split
        · exact h1.trans (completeWord_ports _ _ _ _)
        · exact h1.trans (failBlock_ports _ _ _ _)
      · exact h1
    · split
      · exact h1.trans (.of_setPort p _ (.single (.arbiter _ rfl)))
      · exact h1

theorem replyLimitExpiry_ports (p : PortId) (s : State) : PortsTo w s (s.replyLimitExpiry p) := by
  unfold replyLimitExpiry
  split
  · exact failBlock_ports _ _ _ _
  · exact .of_setPort p _ (.single (.arbiter _ rfl))
  · exact .rfl' s
  · exact .rfl' s

theorem takeArbiterReport_steps {q q' : Port} {r : ArbiterReport} (h : takeArbiterReport q r = some q') :
    Port.StepsTo w q q' := by
  unfold takeArbiterReport at h
  split at h
  · split at h
    · cases h; exact .single (.arbiter _ rfl)
    · cases h
  · cases h

theorem loseBlock_ports (s : State) (p : PortId) (x : LinkUse) : PortsTo w s (s.loseBlock p x) := by
  unfold loseBlock
  split
  · exact failBlock_ports _ _ _ _
  · exact .of_setPort p _ (.single (.arbiter _ rfl))
  · exact .rfl' s

theorem refuseEntry_ports (p : PortId) (s : State) (e : QueueEntry) : PortsTo w s (refuseEntry p s e) :=
  PortsTo.finish (.of_setPort p _ (Port.steps_returnRemainder _ _ _)) _ _ _

theorem emptyQueue_ports (s : State) (p : PortId) : PortsTo w s (s.emptyQueue p) :=
  .of_setPort p _ (.single (.arbiter _ rfl))

theorem linkLossAtArbiter_ports (p : PortId) (s : State) : PortsTo w s (s.linkLossAtArbiter p) := by
  unfold linkLossAtArbiter
  split
  · exact .rfl' s
  · next q hq =>
    have h1 : PortsTo w s (s.setPort p (q.setArb { q.arb with linkLocked := false })) :=
      .of_setPort p _ ((takeArbiterReport_steps hq).trans (.single (.arbiter _ rfl)))
    exact ((h1.trans (loseBlock_ports _ _ _)).trans (emptyQueue_ports _ _)).trans
      (PortsTo.foldl _ (refuseEntry_ports p) _ _)

theorem absentBlock_answered (s : State) (x : LinkUse) : s.AnsweredTo (s.absentBlock x) := by
  unfold absentBlock
  split
  · exact finish_answered _ _ _ _
  · exact AnsweredTo.rfl' s
  · exact AnsweredTo.rfl' s

theorem linkLockAtArbiter_ports (p : PortId) (s : State) : PortsTo w s (s.linkLockAtArbiter p) := by
  unfold linkLockAtArbiter
  split
  · exact .rfl' s
  · next q hq => exact .of_setPort p _ ((takeArbiterReport_steps hq).trans (.single (.arbiter _ rfl)))

theorem unseatAtArbiter_ports (p : PortId) (s : State) : PortsTo w s (s.unseatAtArbiter p) := by
  unfold unseatAtArbiter
  split
  · exact .rfl' s
  · next q hq =>
    have h1 : Port.StepsTo w q ((q.setArb { q.arb with
        linkLocked := false, queue := [], parked := Vector.replicate 8 none }).freeLink) :=
      ReflTransGen.trans (b := q.setArb { q.arb with
        linkLocked := false, queue := [], parked := Vector.replicate 8 none })
        (.single (.arbiter _ rfl)) (.single (.arbiter _ rfl))
    exact ((PortsTo.of_setPort p _ ((takeArbiterReport_steps hq).trans h1)).trans
      (.of_answered (absentBlock_answered _ _))).trans
      (.of_answered (AnsweredTo.foldl _ (fun x e => finish_answered _ _ _ _) _ _))

/-! ### Records: matching only -/

theorem matched_wait_ports {s t : State} (h : s.MatchedTo t) (c : ChanId) (f : Frame) (x : Wait) :
    PortsTo w s (t.wait c f x) := PortsTo.trans (.of_matched h) (wait_ports _ _ _ _)

theorem matched_answer_ports {s t : State} (h : s.MatchedTo t) (c : ChanId) (f : Frame) (st : Status) (pl : List Byte) :
    PortsTo w s (t.answer c f st pl) := PortsTo.trans (.of_matched h) (answer_ports _ _ _ _ _)

theorem placeAt_matched (s : State) (i : Nat) (r : Record) : s.MatchedTo (s.placeAt i r) := by
  unfold placeAt
  simp only
  split
  · exact (changeTable_matched _ _ _).trans (restartQuiet_matched _ _ _)
  · exact changeTable_matched _ _ _

theorem takeAtOnce_matched (s : State) (us : List UnitId) (x : Option (CopyEntry × Bool)) :
    s.MatchedTo (s.takeAtOnce us x) := by
  unfold takeAtOnce
  split
  · exact MatchedTo.foldl _ (fun y u => takeUpdate_matched y u _) _ _
  · exact MatchedTo.rfl' s

theorem amendAt_matched (s : State) (i : Nat) (r : Record) (a : AmendRequest) : s.MatchedTo (s.amendAt i r a) := by
  unfold amendAt
  simp only
  split
  · exact ((MatchedTo.foldl _ (fun x u => bringUpToDate_matched x u) _ _).trans (setTable_matched _ _)).trans
      ((takeAtOnce_matched _ _ _).trans (announce_matched _ _ _))
  · exact (setTable_matched _ _).trans (announce_matched _ _ _)

theorem restate_matched (s : State) (i : Nat) (r : Record) : s.MatchedTo (s.restate i r) := by
  unfold restate
  simp only
  split
  · exact (changeTable_matched _ _ _).trans (restartQuiet_matched _ _ _)
  · exact (changeTable_matched _ _ _).trans (stopQuiet_matched _ _ _)

theorem retireAt_matched (s : State) (h : Handle) (r : Record) (c : ChanId) : s.MatchedTo (s.retireAt h r c) := by
  unfold retireAt
  exact (((changeTable_matched s _ _).trans (stopQuiet_matched _ _ _)).trans (revoke_matched _ _ _)).trans
    (revokeOwners_matched _ _ _)

theorem stopFreed_matched (s : State) (t : WatchTable) (is : List Nat) : s.MatchedTo (s.stopFreed t is) := by
  unfold stopFreed
  refine MatchedTo.foldl _ (fun x i => ?_) _ _
  split
  · exact stopQuiet_matched _ _ _
  · exact MatchedTo.rfl' x

theorem disposeRecords_matched (s : State) (c : ChanId) : s.MatchedTo (s.disposeRecords c) := by
  unfold disposeRecords
  exact ((changeTable_matched _ _ _).trans (stopFreed_matched _ _ _)).trans (revokeOwners_matched _ _ _)

theorem onRecord_ports (s : State) (c : ChanId) (f : Frame) (h : Handle) (may : Record → Bool) (body : Record → State)
    (hb : ∀ r, PortsTo w s (body r)) : PortsTo w s (s.onRecord c f h may body) := by
  unfold onRecord
  split
  · exact answer_ports _ _ _ _ _
  · split
    · exact hb _
    · exact answer_ports _ _ _ _ _

theorem place_ports (c : ChanId) (s : State) : PortsTo w s (s.place c) := by
  refine openRequest_ports _ _ _ _ fun f => ?_
  split
  · exact answer_ports _ _ _ _ _
  · split
    · exact answer_ports _ _ _ _ _
    · simp only
      split
      · exact answer_ports _ _ _ _ _
      · split
        · exact .of_ports rfl
        · exact matched_wait_ports (placeAt_matched _ _ _) _ _ _

theorem amend_ports (c : ChanId) (s : State) : PortsTo w s (s.amend c) := by
  refine openRequest_ports _ _ _ _ fun f => ?_
  split
  · exact answer_ports _ _ _ _ _
  · refine onRecord_ports _ _ _ _ _ _ fun r => ?_
    split
    · split
      · exact .of_ports rfl
      · exact matched_wait_ports ((amendAt_matched _ _ _ _).trans (revoke_matched _ _ _)) _ _ _
    · exact answer_ports _ _ _ _ _

theorem suspend_ports (c : ChanId) (s : State) : PortsTo w s (s.suspend c) := by
  refine openRequest_ports _ _ _ _ fun f => ?_
  split
  · exact answer_ports _ _ _ _ _
  · refine onRecord_ports _ _ _ _ _ _ fun r => ?_
    simp only
    split
    · split
      · exact .of_ports rfl
      · exact matched_wait_ports ((restate_matched _ _ _).trans (revoke_matched _ _ _)) _ _ _
    · split
      · exact .of_ports rfl
      · exact matched_wait_ports ((restate_matched _ _ _).trans (revoke_matched _ _ _)) _ _ _
    · exact matched_answer_ports (revoke_matched _ _ _) _ _ _ _
    · exact matched_answer_ports (revoke_matched _ _ _) _ _ _ _

theorem arm_ports (c : ChanId) (s : State) : PortsTo w s (s.arm c) := by
  refine openRequest_ports _ _ _ _ fun f => ?_
  split
  · exact answer_ports _ _ _ _ _
  · refine onRecord_ports _ _ _ _ _ _ fun r => ?_
    split
    · exact .of_ports rfl
    · exact matched_wait_ports ((restate_matched _ _ _).trans (revoke_matched _ _ _)) _ _ _

theorem retire_ports (c : ChanId) (s : State) : PortsTo w s (s.retire c) := by
  refine openRequest_ports _ _ _ _ fun f => ?_
  split
  · exact answer_ports _ _ _ _ _
  · refine onRecord_ports _ _ _ _ _ _ fun r => ?_
    split
    · exact answer_ports _ _ _ _ _
    · split
      · exact .of_ports rfl
      · exact matched_wait_ports (retireAt_matched _ _ _ _) _ _ _

theorem tally_ports (c : ChanId) (s : State) : PortsTo w s (s.tally c) := by
  refine openRequest_ports _ _ _ _ fun f => ?_
  split
  · exact answer_ports _ _ _ _ _
  · refine onRecord_ports _ _ _ _ _ _ fun r => ?_
    split
    · exact answer_ports _ _ _ _ _
    · split
      · exact .of_ports rfl
      · split
        · exact matched_wait_ports ((changeTable_matched _ _ _).trans (revoke_matched _ _ _)) _ _ _
        · exact answer_ports _ _ _ _ _

theorem lookup_ports (c : ChanId) (s : State) : PortsTo w s (s.lookup c) := by
  refine openRequest_ports _ _ _ _ fun f => ?_
  split
  · exact answer_ports _ _ _ _ _
  · exact onRecord_ports _ _ _ _ _ _ fun r => answer_ports _ _ _ _ _ _

theorem list_ports (c : ChanId) (s : State) : PortsTo w s (s.list c) := by
  refine openRequest_ports _ _ _ _ fun f => ?_
  split <;> exact answer_ports _ _ _ _ _

theorem find_ports (c : ChanId) (s : State) : PortsTo w s (s.find c) := by
  refine openRequest_ports _ _ _ _ fun f => ?_
  split <;> exact answer_ports _ _ _ _ _

theorem teardownRecords_ports (s : State) : PortsTo w s s.teardownRecords := by
  unfold teardownRecords
  split
  · split
    · exact .of_ports rfl
    · split
      · exact .rfl' s
      · exact PortsTo.trans (.of_matched (disposeRecords_matched s _)) (.of_ports rfl)
  · exact .rfl' s

/-! ### Teardowns and start-up -/

theorem teardownAtArbiter_ports (p : PortId) (s : State) : PortsTo w s (s.teardownAtArbiter p) := by
  unfold teardownAtArbiter
  split
  · split
    · exact PortsTo.trans (PortsTo.trans (.of_setPort p _ (Port.steps_portTeardown _ _))
        (.of_answered (endWait_answered _ _ _))) (.of_ports rfl)
    · exact .rfl' s
  · exact .rfl' s

theorem teardownAtRunControl_ports (p : PortId) (s : State) : PortsTo w s (s.teardownAtRunControl p) := by
  unfold teardownAtRunControl
  split
  · split
    · next c as rs _ _ =>
      have h1 : PortsTo w s (s.applyRun p ((s.port p).removeHold c false)) :=
        .of_applyRun p _ (Port.steps_removeHold _ _ _)
      generalize hs1 : s.applyRun p ((s.port p).removeHold c false) = s1 at *
      have h2 : PortsTo w s1 (s1.setPort p (dropResumer (s1.port p) c)) :=
        .of_setPort p _ (Port.steps_inbox _ _ rfl rfl rfl)
      exact PortsTo.trans (((h1.trans h2).trans (.of_answered (endWait_answered _ _ _)))) (.of_ports rfl)
    · exact .rfl' s
  · exact .rfl' s

theorem teardownClose_ports (s : State) : s.teardownClose.ports = s.ports := by
  unfold teardownClose
  split
  · split
    · rfl
    · simp only
      rw [nextTeardown_ports, (answerClose_answered _ _ _).ports]
      rfl
  · rfl

theorem applySetting_ports (s : State) (x : Setting) : PortsTo w s (s.applySetting x) := by
  unfold applySetting
  split
  · exact .of_setPort _ _ (.single (.settings _))
  · exact .of_ports rfl
  · exact .of_ports rfl

theorem walkEnd_ports (m : List (Nat × Byte)) (pins : Vector PinLevels 6) (s : State) (hw : s.desc.walking = true → w = .ending) :
    PortsTo w s (s.walkEnd m pins) := by
  unfold walkEnd
  split
  · next hs =>
    refine PortsTo.trans (PortsTo.trans (PortsTo.foldl _ (fun x y => applySetting_ports x y) _ _)
      (PortsTo.foldl _ (fun x p => ?_) _ _)) (.of_ports rfl)
    exact .of_setPort p _ (.single (.walkEnd _ (hw hs)))
  · exact .rfl' s

theorem benchReset_ports (s : State) : PortsTo w s s.benchReset := by
  intro p
  have h : s.benchReset.port p = resetPort (s.port p) := by
    match p with
    | 0 => rfl
    | 1 => rfl
    | 2 => rfl
    | 3 => rfl
    | 4 => rfl
    | 5 => rfl
  rw [h]
  exact .single .benchReset

theorem resetbench_ports (c : ChanId) (s : State) : PortsTo w s (s.resetbench c) := by
  refine openRequest_ports _ _ _ _ fun f => ?_
  split
  · split
    · exact answer_ports _ _ _ _ _
    · split
      · exact .of_ports rfl
      · exact PortsTo.trans (benchReset_ports _) (answer_ports _ _ _ _ _)
  · exact answer_ports _ _ _ _ _

theorem pinReset_ports (a b : Bool) (s : State) : PortsTo w s (s.pinReset a b) := by
  intro p
  have h : (s.pinReset a b).port p = Port.reset := by
    simp [pinReset, port, State.reset]
  rw [h]
  exact .single .pinReset

end State

open State in
/-- What a command can do to the ports: each moves by steps of `Port.StepTo`. -/
theorem exec_ports (i : Instr) (s t : State) (h : exec i s = .next t) : PortsTo (phaseOf i s) s t := by
  cases i <;> simp only [exec] at h <;> cases h
  case benchFrame => exact .of_ports (foldl_ports _ receiveByte_ports _ _)
  case frameGapTimeout => refine .of_ports ?_; unfold frameGapTimeout; split <;> rfl
  case unknownKind => refine .of_ports ?_; unfold unknownKind; split <;> (try split) <;> rfl
  case starting => refine .of_ports ?_; unfold starting; split <;> rfl
  case responseTransmit => refine .of_ports ?_; unfold responseTransmit; split <;> rfl
  case openChannel =>
    refine request_ports _ _ _ _ fun f => ?_
    refine .of_ports ?_
    split
    · rfl
    · simp only; split
      · rfl
      · split
        · rfl
        · split <;> rfl
  case closeChannel =>
    refine openRequest_ports _ _ _ _ fun f => ?_
    refine .of_ports ?_
    split
    · exact beginTeardown_ports _ _
    · rfl
  case renew => refine openRequest_ports _ _ _ _ fun f => .of_ports ?_; split <;> rfl
  case poll => refine openRequest_ports _ _ _ _ fun f => .of_ports ?_; split <;> rfl
  case notices => refine openRequest_ports _ _ _ _ fun f => .of_ports ?_; split <;> rfl
  case claim => exact claim_ports _ _
  case release => exact release_ports _ _
  case halt => exact halt_ports _ _
  case resume => exact resume_ports _ _
  case stepBoard => exact stepBoard_ports _ _
  case drive => exact drive_ports _ _
  case gate => exact gateRequest_ports _ _
  case portstat => exact portstat_ports _ _
  case read => exact access_ports _ _ _ _
  case write => exact access_ports _ _ _ _
  case replay => exact replay_ports _ _
  case drop => exact drop_ports _ _
  case place => exact place_ports _ _
  case amend => exact amend_ports _ _
  case suspend => exact suspend_ports _ _
  case arm => exact arm_ports _ _
  case retire => exact retire_ports _ _
  case lookup => exact lookup_ports _ _
  case list => exact list_ports _ _
  case find => exact find_ports _ _
  case tally => exact tally_ports _ _
  case partstat => refine openRequest_ports _ _ _ _ fun f => .of_ports ?_; split <;> rfl
  case resetbench => exact resetbench_ports _ _
  case leaseExpiry =>
    refine .of_ports ?_
    unfold leaseExpiry
    split
    · rfl
    · simp only; rw [beginTeardown_ports]; split <;> rfl
  case teardownRecords => exact teardownRecords_ports _
  case teardownAtArbiter => exact teardownAtArbiter_ports _ _
  case teardownAtRunControl => exact teardownAtRunControl_ports _ _
  case teardownClose => exact .of_ports (teardownClose_ports _)
  case changeBoundary => exact changeBoundary_ports _ _
  case observation => exact observation_ports _ _
  case lineEdge => exact .of_matched (lineEdge_matched _ _)
  case quietTimerZero => exact .of_matched (quietTimerZero_matched _ _ _)
  case quietExpiry => exact .of_matched (quietExpiry_matched _ _)
  case runStateReport => exact .of_matched (runStateReport_matched _ _)
  case linkStateReport => exact .of_matched (linkStateReport_matched _ _)
  case unseatAtMatchUnit => exact .of_matched (unseatAtMatchUnit_matched _ _)
  case signal =>
    refine .of_ports ?_
    unfold signal
    split
    · rw [reevaluate_ports, addTo_ports]
    · rfl
  case freeze => exact freeze_ports _ _ _
  case observationTaken => exact observationTaken_ports _ _
  case gateOpen => exact gateOpen_ports _ _ _
  case gateClose => exact gateClose_ports _ _ _
  case gateDecision => exact gateDecision_ports _ _ _
  case endOfSending => exact endOfSending_ports _ _
  case unseatAtGate => exact unseatAtGate_ports _ _
  case creditReturn => exact creditReturn_ports _ _
  case crossPulse =>
    refine .of_ports ?_
    unfold crossPulse
    split
    · split
      · simp only; split <;> rfl
      · rfl
    · rfl
  case pulseTimerExpiry => exact .of_ports rfl
  case crossFallingEdge =>
    refine .of_ports ?_
    unfold crossFallingEdge
    split
    · simp only; split <;> rfl
    · rfl
  case crossEdge => exact .of_matched (crossEdge_matched _)
  case seatChange => exact seatChange_ports _ _ _ fun h => by simp [phaseOf, h]
  case debounceExpiry => exact debounceExpiry_ports _ _
  case statusEdge => exact statusEdge_ports _ _ _ _
  case boardSuperframe => exact boardSuperframe_ports _ _ _
  case outgoingSuperframe => exact outgoingSuperframe_ports _ _ _
  case stopped => exact stopped_ports _ _
  case stopTimerExpiry => exact stopTimerExpiry_ports _ _
  case resetAsserted => exact resetAsserted_ports _ _
  case resetReleased => exact resetReleased_ports _ _
  case linkLossAtRunControl => exact linkLossAtRunControl_ports _ _
  case linkLockAtRunControl => exact linkLockAtRunControl_ports _ _
  case unseatAtRunControl => exact unseatAtRunControl_ports _ _
  case holdRemoval => exact holdRemoval_ports _ _
  case safeLevels => exact safeLevels_ports _ _
  case grant => exact grant_ports _ _
  case reply => exact reply_ports _ _
  case replyLimitExpiry => exact replyLimitExpiry_ports _ _
  case linkLossAtArbiter => exact linkLossAtArbiter_ports _ _
  case linkLockAtArbiter => exact linkLockAtArbiter_ports _ _
  case unseatAtArbiter => exact unseatAtArbiter_ports _ _
  case portEvent =>
    refine .of_ports ?_
    unfold portEvent
    split
    · rw [reevaluate_ports, addEvents_ports]
    · rfl
  case noticeAddition =>
    refine .of_ports ?_
    unfold noticeAddition
    split
    · rw [reevaluate_ports, addTo_ports]
    · rfl
  case pinReset => exact pinReset_ports _ _ _
  case walkEnd => exact walkEnd_ports _ _ _ fun h => by simp [phaseOf, h]
  case crossRisingEdge => exact .of_ports rfl

end Sys2Proof.Machine
end

