-- ==== Sys2Proof/Laws/Moves.lean ====
section
/-! SUPPORT. Everything a command can do to the bench port, the channels, the Watch Table and the Notice Unit, said once:
`State.Move`. An invariant of these is proved over its cases, not over the commands. -/

namespace Sys2Proof.Machine

open Host

/-! ### The table -/

/-- What a change that places no record leaves of one: `c0` says whether it may pass to C0. -/
structure Record.KeptTo (c0 : Prop) (a b : Record) : Prop where
  owner : b.owner = a.owner ∨ (b.owner = 0 ∧ c0)
  scope : b.scope = a.scope
  cross : b.side.cond.isCross = a.side.cond.isCross
  count : a.countHolds → b.countHolds
  tally : a.tallyHolds → b.tallyHolds

/-- A change of the table that places no record. -/
structure WatchTable.KeptTo (c0 : Prop) (t u : WatchTable) : Prop where
  length : u.slots.length = t.slots.length
  back : ∀ i r', u.recordAt i = some r' → ∃ r, t.recordAt i = some r ∧ r.KeptTo c0 r'

theorem Record.HitTo.kept {a b : Record} (h : a.HitTo b) (c0 : Prop) : a.KeptTo c0 b :=
  ⟨.inl h.owner, h.scope, by rw [h.side], h.count, h.tally⟩

theorem WatchTable.HitTo.kept {t u : WatchTable} (h : t.HitTo u) (c0 : Prop) : t.KeptTo c0 u :=
  ⟨h.length, fun i r' hr => by
    obtain ⟨r, h1, h2⟩ := h.back hr
    exact ⟨r, h1, h2.kept c0⟩⟩

theorem WatchTable.KeptTo.rfl' (c0 : Prop) (t : WatchTable) : t.KeptTo c0 t := (HitTo.rfl' t).kept c0

theorem WatchTable.KeptTo.of_slots {c0 : Prop} {t u v : WatchTable} (h : t.KeptTo c0 u) (e : v.slots = u.slots) :
    t.KeptTo c0 v :=
  ⟨by rw [e, h.length], fun i r' hr => h.back i r' (by simpa [recordAt, slotAt, e] using hr)⟩

theorem WatchTable.KeptTo.trans {c0 : Prop} {t u v : WatchTable} (h : t.KeptTo c0 u) (k : u.KeptTo c0 v) :
    t.KeptTo c0 v :=
  ⟨k.length.trans h.length, fun i r' hr => by
    obtain ⟨r1, h1, e1⟩ := k.back i r' hr
    obtain ⟨r2, h2, e2⟩ := h.back i r1 h1
    refine ⟨r2, h2, ?_, e1.scope.trans e2.scope, e1.cross.trans e2.cross, fun x => e1.count (e2.count x),
      fun x => e1.tally (e2.tally x)⟩
    rcases e1.owner with a | a
    · rw [a]; exact e2.owner
    · exact .inr a⟩

/-- Writing one record. -/
theorem WatchTable.setRecord_kept {c0 : Prop} (t : WatchTable) {i : Nat} {r r' : Record} (hr : t.recordAt i = some r)
    (h : r.KeptTo c0 r') : t.KeptTo c0 (t.setRecord i r') := by
  refine ⟨by simp, fun j x hx => ?_⟩
  rw [recordAt_setRecord] at hx
  split at hx
  · next e => obtain ⟨rfl, _⟩ := e; cases hx; exact ⟨r, hr, h⟩
  · exact ⟨x, hx, ⟨.inl rfl, rfl, rfl, id, id⟩⟩

/-- Freeing one slot. -/
theorem WatchTable.freeSlot_kept (c0 : Prop) (t : WatchTable) (i : Nat) : t.KeptTo c0 (t.freeSlot i) := by
  refine ⟨by simp, fun j x hx => ?_⟩
  rw [recordAt_freeSlot] at hx
  split at hx
  · cases hx
  · exact ⟨x, hx, ⟨.inl rfl, rfl, rfl, id, id⟩⟩

theorem WatchTable.foldl_kept {α : Type} {c0 : Prop} (f : WatchTable → α → WatchTable)
    (hf : ∀ (x : WatchTable) a, x.KeptTo c0 (f x a)) (l : List α) (t : WatchTable) : t.KeptTo c0 (l.foldl f t) := by
  induction l generalizing t with
  | nil => exact .rfl' c0 t
  | cons a rest ih => exact (hf t a).trans (ih (f t a))

/-- A record without its after-link (R29). -/
theorem Record.cut_kept (c0 : Prop) (r : Record) : r.KeptTo c0 r.cut := by
  refine ⟨.inl rfl, rfl, rfl, fun h => ?_, id⟩
  simp only [cut, countHolds] at *
  cases hs : r.state <;> simp [hs] at h ⊢ <;> omega

theorem WatchTable.cutLinks_kept (c0 : Prop) (t : WatchTable) (is : List Nat) : t.KeptTo c0 (t.cutLinks is) := by
  unfold cutLinks
  refine foldl_kept _ (fun x j => ?_) is t
  split
  · next r hr => exact setRecord_kept x hr (Record.cut_kept c0 r)
  · exact .rfl' c0 x

/-! ### One move -/

namespace State

/-- Nothing but ports, cross lines, hand-overs and counters changes. -/
structure AsideTo (s t : State) : Prop where
  chans : t.chans = s.chans
  teardowns : t.teardowns = s.teardowns
  table : t.table = s.table
  sets : t.notice.pending = s.notice.pending
  attn : t.notice.attn = s.notice.attn
  lanes : t.bench.lanes = s.bench.lanes
  output : t.bench.output = s.bench.output
  desc : t.desc = s.desc

theorem AsideTo.rfl' (s : State) : s.AsideTo s := ⟨rfl, rfl, rfl, rfl, rfl, rfl, rfl, rfl⟩

theorem AsideTo.trans {s t u : State} (h : s.AsideTo t) (k : t.AsideTo u) : s.AsideTo u :=
  ⟨k.chans.trans h.chans, k.teardowns.trans h.teardowns, k.table.trans h.table, k.sets.trans h.sets,
    k.attn.trans h.attn, k.lanes.trans h.lanes, k.output.trans h.output, k.desc.trans h.desc⟩

theorem AsideTo.foldl {α : Type} (f : State → α → State) (hf : ∀ (x : State) a, x.AsideTo (f x a)) (l : List α)
    (s : State) : s.AsideTo (l.foldl f s) := by
  induction l generalizing s with
  | nil => exact rfl' s
  | cons a rest ih => exact (hf s a).trans (ih (f s a))

theorem setPort_aside (s : State) (p : PortId) (x : Port) : s.AsideTo (s.setPort p x) :=
  ⟨rfl, rfl, rfl, rfl, rfl, rfl, rfl, rfl⟩

/-- A teardown of a channel other than C0 is in progress while C0 is OPEN. -/
def Handing (s : State) : Prop := (s.chan 0).isOpen = true ∧ ∃ c st, c ≠ 0 ∧ s.teardowns.current = some (c, st)

/-- One move of the part beside its ports. The first and third arguments say which channel's frame is in hand. -/
inductive Move : Option ChanId → State → Option ChanId → State → Prop
  | aside {h s t} : s.AsideTo t → Move h s h t
  | ended {h s t} : s.AnsweredTo t → Move h s h t
  | kept {h s t} : s.MatchedTo t → s.table.KeptTo s.Handing t.table → Move h s h t
  /-- A record is placed (R13, R15). -/
  | placed {h s t} (i : Nat) (r : Record) : s.MatchedTo t → s.table.hasRoom r = true → s.table.recordAt i = none →
      i < s.table.slots.length → r.countHolds → r.tallyHolds → (s.chan r.owner).isOpen = true →
      (s.chan r.owner).teardown = none → t.table.slots = (s.table.setRecord i r).slots → Move h s h t
  | took {s} (c : ChanId) (f : Frame) : (s.lane c).queue.head? = some f → Move none s (some c) (s.popFrame c)
  | answered {c s} (f : Frame) (st : Status) (pl : List Byte) (a : Option Handle) :
      Move (some c) s none (s.answer c f st pl a)
  | waits {c s} (f : Frame) (w : Wait) : (s.lane c).executing = none → Move (some c) s none (s.wait c f w)
  | opened {h s} (c : ChanId) (q : OpenRequest) : (s.chan c).teardown = none →
      Move h s h ((s.setChan c (openedChannel (s.chan c) q)).emptyPending c).reevaluate
  /-- A teardown begins: of an OPEN channel not in teardown, or of one whose lease timer runs (R163, R164). -/
  | tearing {h s} (c : ChanId) (x : TeardownCause) :
      ((s.chan c).isOpen = true ∧ (s.chan c).teardown = none) ∨ (s.chan c).leaseTimer.isSome = true →
      Move h s h ((s.setChan c { s.chan c with leaseTimer := none, teardown := some x }).beginTeardown c)
  | lapsed {h s} (c : ChanId) : Move h s h (s.setLane c (lapseLane (s.lane c)))
  | enabled {h s} (c : ChanId) (e : Enables) : (s.chan c).isOpen = true →
      Move h s h (s.setChan c { s.chan c with enables := e }).reevaluate
  | leased {h s} (c : ChanId) : (s.chan c).leaseTimer.isSome = true →
      Move h s h (s.setChan c { s.chan c with leaseTimer := (s.chan c).leaseLimit })
  | noted {h s} (n : NoticeUnit) : s.PendingsTo { s with notice := n } → Move h s h ({ s with notice := n }).reevaluate
  | arrived {h s} (c : ChanId) (f : Frame) : (s.lane c).outstanding < Config.outstandingLimit →
      Move h s h (s.setLane c { s.lane c with outstanding := (s.lane c).outstanding + 1, queue := (s.lane c).queue ++ [f] })
  | sent {h s} : Move h s h s.responseTransmit
  | staged {h s} (c : ChanId) (st st' : TeardownStage) : s.teardowns.current = some (c, st) →
      (st = .records → ∀ i r, s.table.recordAt i = some r → r.owner ≠ c) →
      Move h s h { s with teardowns := { s.teardowns with current := some (c, st') } }
  /-- A teardown ends (R168). -/
  | torn {h s} (c : ChanId) (st : TeardownStage) : s.teardowns.current = some (c, st) → st ≠ .records →
      Move h s h (((s.setChan c (s.chan c).closed).emptyPending c).reevaluate).nextTeardown
  | loaded {h s} (c : ChanId) (k : Fin 4) (l : Nat) :
      Move h s h (s.setChan c { s.chan c with maxClass := k, defaultLease := l })
  | described {h s} (d : Description) : (d.walking = true → s.desc.walking = true) → Move h s h { s with desc := d }
  | benchReset {h s} : Move h s h s.benchReset

/-- Moves one after another. -/
inductive Moves : Option ChanId → State → Option ChanId → State → Prop
  | stay {h s} : Moves h s h s
  | step {h s k t l u} : Moves h s k t → Move k t l u → Moves h s l u

namespace Moves

variable {h k l : Option ChanId} {s t u : State}

theorem one (m : Move h s k t) : Moves h s k t := .step .stay m

theorem trans (m : Moves h s k t) (n : Moves k t l u) : Moves h s l u := by
  induction n with
  | stay => exact m
  | step _ a ih => exact .step ih a

theorem aside (a : s.AsideTo t) : Moves h s h t := one (.aside a)
theorem ended (a : s.AnsweredTo t) : Moves h s h t := one (.ended a)

theorem foldl {α : Type} (f : State → α → State) (hf : ∀ (x : State) a, Moves h x h (f x a)) (l : List α) (s : State) :
    Moves h s h (l.foldl f s) := by
  induction l generalizing s with
  | nil => exact .stay
  | cons a rest ih => exact (hf s a).trans (ih (f s a))

/-- What every move keeps, moves keep. -/
theorem lift {P : Option ChanId → State → Prop} (hP : ∀ h s k t, Move h s k t → P h s → P k t)
    (m : Moves h s k t) (x : P h s) : P k t := by
  induction m with
  | stay => exact x
  | step _ a ih => exact hP _ _ _ _ a ih

end Moves

/-! ### Requests -/

variable {s t : State} {c : ChanId}

/-- The frame in hand is answered after moves. -/
theorem answers (m : Moves (some c) s (some c) t) (f : Frame) (st : Status) (pl : List Byte)
    (a : Option Handle := none) : Moves (some c) s none (t.answer c f st pl a) := m.step (.answered f st pl a)

theorem aside_answers (a : s.AsideTo t) (f : Frame) (st : Status) (pl : List Byte) :
    Moves (some c) s none (t.answer c f st pl) := answers (.aside a) f st pl

theorem plain_answer (f : Frame) (st : Status) (pl : List Byte) (a : Option Handle := none) :
    Moves (some c) s none (s.answer c f st pl a) := answers .stay f st pl a

theorem set_answer (p : PortId) (x : Port) (f : Frame) (st : Status) (pl : List Byte) :
    Moves (some c) s none ((s.setPort p x).answer c f st pl) := aside_answers (setPort_aside s p x) f st pl

theorem set_wait (p : PortId) (x : Port) (f : Frame) (w : Wait) (he : (s.lane c).executing = none) :
    Moves (some c) s none ((s.setPort p x).wait c f w) := (Moves.aside (setPort_aside s p x)).step (.waits f w he)

/-- A request either takes its frame and moves, or leaves it where it is and waits. -/
theorem request_moves_or (s : State) (c : ChanId) (k : Byte) (body : Frame → State → State)
    (h : ∀ f, ((s.popFrame c).chan c).teardown = none → ((s.popFrame c).lane c).executing = none →
      body f (s.popFrame c) = s ∨ Moves (some c) (s.popFrame c) none (body f (s.popFrame c))) :
    Moves none s none (s.request c k body) :=
  request_cases (P := fun x => Moves none s none x) s c k body .stay fun f hf _ => by
    obtain ⟨_, h2, h3, h4⟩ := headFrame_some hf
    rcases h f h3 (by simpa [popFrame] using h2) with e | m
    · rw [e]; exact .stay
    · exact (Moves.one (.took c f h4)).trans m

theorem request_moves (s : State) (c : ChanId) (k : Byte) (body : Frame → State → State)
    (h : ∀ f, ((s.popFrame c).chan c).teardown = none → ((s.popFrame c).lane c).executing = none →
      Moves (some c) (s.popFrame c) none (body f (s.popFrame c))) : Moves none s none (s.request c k body) :=
  request_moves_or s c k body fun f h3 h2 => .inr (h f h3 h2)

theorem openRequest_moves_or (s : State) (c : ChanId) (k : Byte) (body : Frame → State → State)
    (h : ∀ f, ((s.popFrame c).chan c).isOpen = true → ((s.popFrame c).chan c).teardown = none →
      ((s.popFrame c).lane c).executing = none →
      body f (s.popFrame c) = s ∨ Moves (some c) (s.popFrame c) none (body f (s.popFrame c))) :
    Moves none s none (s.openRequest c k body) := by
  unfold openRequest
  refine request_moves_or s c k _ fun f h3 h2 => ?_
  split
  · next ho => exact h f ho h3 h2
  · exact .inr (plain_answer f _ _)

theorem openRequest_moves (s : State) (c : ChanId) (k : Byte) (body : Frame → State → State)
    (h : ∀ f, ((s.popFrame c).chan c).isOpen = true → ((s.popFrame c).chan c).teardown = none →
      ((s.popFrame c).lane c).executing = none → Moves (some c) (s.popFrame c) none (body f (s.popFrame c))) :
    Moves none s none (s.openRequest c k body) :=
  openRequest_moves_or s c k body fun f ho h3 h2 => .inr (h f ho h3 h2)

theorem applyRun_moves (h : Option ChanId) (s : State) (p : PortId) (o : RunOutcome) :
    Moves h s h (s.applyRun p o) := by
  have a : s.AsideTo ((s.setPort p o.port).raiseRun p o.raised) := by
    unfold raiseRun; split <;> exact ⟨rfl, rfl, rfl, rfl, rfl, rfl, rfl, rfl⟩
  unfold applyRun
  simp only
  split
  · exact (Moves.aside a).step (.ended (settleHalts_answered _ _ _))
  · exact .aside a

/-- A port write and then an answer to a request that waits. -/
theorem set_finish (h : Option ChanId) (s : State) (p : PortId) (x : Port) (d : ChanId) (st : Status) (pl : List Byte) :
    Moves h s h ((s.setPort p x).finish d st pl) :=
  (Moves.aside (setPort_aside s p x)).step (.ended (finish_answered _ _ _ _))

theorem of_matched (h : Option ChanId) {s t : State} (m : s.MatchedTo t) (k : s.table.HitTo t.table) : Moves h s h t :=
  .one (.kept m (k.kept _))

theorem of_matched_same (h : Option ChanId) {s t : State} (m : s.MatchedTo t) (k : t.table = s.table) : Moves h s h t :=
  .one (.kept m (by rw [k]; exact .rfl' _ _))

theorem of_kept (h : Option ChanId) {s t : State} (m : s.MatchedTo t) (k : s.table.KeptTo s.Handing t.table) :
    Moves h s h t := .one (.kept m k)

end State

end Sys2Proof.Machine
end

