-- ==== Sys2Proof/Laws/ExecMoves.lean ====
section
/-! SUPPORT. Every command is a chain of the moves of `State.Move`. -/

namespace Sys2Proof.Machine

open Host

namespace State

variable {h : Option ChanId}

/-! ### The bench port -/

theorem sendAddition_aside (s : State) (a : Addition) : s.AsideTo (s.sendAddition a) :=
  ⟨rfl, rfl, rfl, rfl, rfl, rfl, rfl, rfl⟩

theorem restartLease_moves (s : State) (c : ChanId) : Moves h s h (s.restartLease c) := by
  unfold restartLease
  simp only
  split
  · next hl => exact .one (.leased c hl)
  · exact .stay

theorem arrive_moves (s : State) (c : ChanId) (f : Frame) : Moves h s h (s.arrive c f) := by
  unfold arrive
  simp only
  refine (restartLease_moves s c).trans ?_
  split
  · next hl => exact .one (.arrived c f hl)
  · exact .aside (sendAddition_aside _ _)

theorem receiveByte_moves (s : State) (b : RxByte) : Moves h s h (s.receiveByte b) := by
  have a (r : Receiver) : s.AsideTo (s.setReceiver r) := ⟨rfl, rfl, rfl, rfl, rfl, rfl, rfl, rfl⟩
  have a2 (r : Receiver) : s.AsideTo (s.setReceiver r).frameFails := ⟨rfl, rfl, rfl, rfl, rfl, rfl, rfl, rfl⟩
  unfold receiveByte
  split
  · split
    · exact .aside (a _)
    · exact .stay
  · simp only
    split
    · exact .aside (a _)
    · split
      · exact .aside (a2 _)
      · split
        · exact .aside (a _)
        · unfold endFrame
          simp only
          split
          · split
            · exact (Moves.aside (a _)).trans (arrive_moves _ _ _)
            · exact .aside (a2 _)
          · exact .aside (a2 _)

theorem frameGapTimeout_moves (s : State) : Moves h s h s.frameGapTimeout := by
  unfold frameGapTimeout
  split
  · exact .aside ⟨rfl, rfl, rfl, rfl, rfl, rfl, rfl, rfl⟩
  · exact .stay

theorem unknownKind_moves (c : ChanId) (s : State) : Moves none s none (s.unknownKind c) := by
  unfold unknownKind
  split
  · next f hf =>
    split
    · exact .stay
    · exact (Moves.one (.took c f (headFrame_some hf).2.2.2)).trans (plain_answer f _ _)
  · exact .stay

theorem starting_moves (c : ChanId) (s : State) : Moves none s none (s.starting c) := by
  unfold starting
  split
  · next f _ _ hq => exact (Moves.one (.took c f (by rw [hq]; rfl))).trans (plain_answer f _ _)
  · exact .stay

/-! ### Channels and notices -/

theorem openChannel_moves (c : ChanId) (s : State) : Moves none s none (s.openChannel c) := by
  unfold openChannel
  refine request_moves_or s c _ _ fun f h3 _ => ?_
  split
  · exact .inr (plain_answer f _ _)
  · next q _ =>
    simp only
    split
    · exact .inr (plain_answer f _ _)
    · split
      · exact .inr (plain_answer f _ _)
      · split
        · exact .inl rfl
        · exact .inr (answers (.one (.opened c q h3)) f _ _)

/-- Where a wait and the begin of a teardown follow each other, either may come first. -/
theorem wait_beginTeardown (s : State) (c : ChanId) (f : Frame) (w : Wait) :
    (s.wait c f w).beginTeardown c = (s.beginTeardown c).wait c f w := by
  unfold beginTeardown
  rw [wait_teardowns]
  split <;> rfl

theorem beginTeardown_lane (s : State) (c d : ChanId) : (s.beginTeardown c).lane d = s.lane d := by
  unfold beginTeardown; split <;> rfl

theorem closeChannel_moves (c : ChanId) (s : State) : Moves none s none (s.closeChannel c) := by
  unfold closeChannel
  refine openRequest_moves s c _ _ fun f ho h3 h2 => ?_
  split
  · rw [wait_beginTeardown]
    refine (Moves.one (.tearing c _ (.inl ⟨ho, h3⟩))).step (.waits f _ ?_)
    rw [beginTeardown_lane]; exact h2
  · exact plain_answer f _ _

theorem renew_moves (c : ChanId) (s : State) : Moves none s none (s.renew c) := by
  unfold renew
  refine openRequest_moves s c _ _ fun f _ _ _ => ?_
  split <;> exact plain_answer f _ _

theorem poll_moves (c : ChanId) (s : State) : Moves none s none (s.poll c) := by
  unfold poll
  refine openRequest_moves s c _ _ fun f _ _ _ => ?_
  split
  · refine answers (.one (.noted _ fun d => ?_)) f _ _
    show ((s.popFrame c).setPending c Pending.empty).pendingOf d = _ ∨
      ((s.popFrame c).setPending c Pending.empty).pendingOf d = _ ∨ _
    rw [pendingOf_setPending]
    split
    · exact .inr (.inl rfl)
    · exact .inl rfl
  · exact plain_answer f _ _

theorem notices_moves (c : ChanId) (s : State) : Moves none s none (s.notices c) := by
  unfold notices
  refine openRequest_moves s c _ _ fun f ho _ _ => ?_
  split
  · exact plain_answer f _ _
  · exact answers (.one (.enabled c _ ho)) f _ _

theorem leaseExpiry_moves (c : ChanId) (s : State) : Moves none s none (s.leaseExpiry c) := by
  unfold leaseExpiry
  split
  · exact .stay
  · next hl =>
    have key : ∀ (u : State) (l : Lane), (u.setLane c l).beginTeardown c = (u.beginTeardown c).setLane c l := by
      intro u l; unfold beginTeardown; rw [setLane_teardowns]; split <;> rfl
    have key2 : ∀ (u : State) (a : Addition), (u.sendAddition a).beginTeardown c = (u.beginTeardown c).sendAddition a := by
      intro u a; unfold beginTeardown; rw [sendAddition_teardowns]; split <;> rfl
    have m : Moves none s none (((s.setChan c { s.chan c with leaseTimer := none, teardown := some .lapsing }).setLane c
        (lapseLane ((s.setChan c { s.chan c with leaseTimer := none, teardown := some .lapsing }).lane c))).beginTeardown
          c) := by
      rw [key]
      refine (Moves.one (.tearing c .lapsing (.inr (by rw [hl]; rfl)))).step ?_
      rw [← beginTeardown_lane _ c c]
      exact .lapsed c
    simp only
    split
    · rw [key2]; exact m.trans (.aside (sendAddition_aside _ _))
    · exact m

/-- Only the Notice Unit changes, and each pending set by what an addition may do. -/
def NotedTo (s t : State) : Prop := (∃ n, t = { s with notice := n }) ∧ s.PendingsTo t

theorem addTo_noted (s : State) (c : ChanId) (f : Pending → Pending) (hf : ∀ q, q.holdsTo c → (f q).holdsTo c) :
    s.NotedTo (s.addTo c f) := by
  refine ⟨?_, addTo_pendings s c f hf⟩
  unfold addTo
  split
  · exact ⟨_, rfl⟩
  · exact ⟨s.notice, rfl⟩

theorem addEvents_noted (s : State) (m : PortEventMsg) : s.NotedTo (s.addEvents m) := by
  unfold addEvents
  generalize allChans = l
  induction l generalizing s with
  | nil => exact ⟨⟨s.notice, rfl⟩, fun _ => .inl rfl⟩
  | cons c rest ih =>
    rw [List.foldl_cons]
    have h1 : s.NotedTo (if m.chans.has c then s.addTo c fun q => q.addEvent m.port m.kind else s) := by
      split
      · exact addTo_noted _ _ _ fun q => Pending.addEvent_holds m.port m.kind
      · exact ⟨⟨s.notice, rfl⟩, fun _ => .inl rfl⟩
    obtain ⟨⟨n, hn⟩, h2⟩ := h1
    rw [hn] at h2 ⊢
    obtain ⟨⟨n', hn'⟩, h3⟩ := ih { s with notice := n }
    exact ⟨⟨n', hn'⟩, h2.trans h3 rfl⟩

theorem noted_moves (s u : State) (x : s.NotedTo u) : Moves h s h u.reevaluate := by
  obtain ⟨⟨n, rfl⟩, k⟩ := x
  exact .one (.noted n k)

theorem signal_moves (u : UnitId) (s : State) : Moves h s h (s.signal u) := by
  unfold signal
  split
  · next x owner rest _ =>
    obtain ⟨⟨n, hn⟩, k⟩ := addTo_noted { s with notice := { s.notice with signals := rest } } owner _
      fun q => Pending.addFired_holds x
    exact noted_moves s _ ⟨⟨n, hn⟩, k⟩
  · exact .stay

theorem portEvent_moves (p : PortId) (b : PortBlock) (s : State) : Moves h s h (s.portEvent p b) := by
  unfold portEvent
  split
  · next m rest _ =>
    obtain ⟨⟨n, hn⟩, k⟩ := addEvents_noted { s with notice := { s.notice with events := rest } } m
    exact noted_moves s _ ⟨⟨n, hn⟩, k⟩
  · exact .stay

theorem noticeAddition_moves (x : NoticeSource) (s : State) : Moves h s h (s.noticeAddition x) := by
  unfold noticeAddition
  split
  · next a rest _ =>
    obtain ⟨⟨n, hn⟩, k⟩ := addTo_noted { s with notice := { s.notice with additions := rest } } a.target _
      fun q => Pending.add_holds a
    exact noted_moves s _ ⟨⟨n, hn⟩, k⟩
  · exact .stay

/-! ### Ports: requests -/

theorem claim_moves (c : ChanId) (s : State) : Moves none s none (s.claim c) := by
  unfold claim
  refine openRequest_moves s c _ _ fun f _ _ _ => ?_
  split
  · exact plain_answer f _ _
  · simp only; split
    · exact set_answer _ _ f _ _
    · exact plain_answer f _ _

theorem release_moves (c : ChanId) (s : State) : Moves none s none (s.release c) := by
  unfold release
  refine openRequest_moves s c _ _ fun f _ _ h2 => ?_
  split
  · exact plain_answer f _ _
  · simp only; split
    · exact set_wait _ _ f _ h2
    · exact plain_answer f _ _

theorem halt_moves (c : ChanId) (s : State) : Moves none s none (s.halt c) := by
  unfold halt
  refine openRequest_moves s c _ _ fun f _ _ h2 => ?_
  split
  · exact plain_answer f _ _
  · simp only; split
    · split <;> first | exact set_wait _ _ f _ h2 | exact set_answer _ _ f _ _
    · exact plain_answer f _ _

theorem resume_moves (c : ChanId) (s : State) : Moves none s none (s.resume c) := by
  unfold resume
  refine openRequest_moves s c _ _ fun f _ _ _ => ?_
  split
  · exact plain_answer f _ _
  · simp only; split
    · exact answers (applyRun_moves _ _ _ _) f _ _
    · exact plain_answer f _ _

theorem stepBoard_moves (c : ChanId) (s : State) : Moves none s none (s.stepBoard c) := by
  unfold stepBoard
  refine openRequest_moves s c _ _ fun f _ _ _ => ?_
  split
  · exact plain_answer f _ _
  · simp only
    split <;> (try split) <;> first | exact plain_answer f _ _ | exact set_answer _ _ f _ _

theorem drive_moves (c : ChanId) (s : State) : Moves none s none (s.drive c) := by
  unfold drive
  refine openRequest_moves s c _ _ fun f _ _ _ => ?_
  split
  · exact plain_answer f _ _
  · simp only
    split <;> first | exact plain_answer f _ _ | exact set_answer _ _ f _ _

theorem gateRequest_moves (c : ChanId) (s : State) : Moves none s none (s.gateRequest c) := by
  unfold gateRequest
  refine openRequest_moves s c _ _ fun f _ _ _ => ?_
  split
  · exact plain_answer f _ _
  · simp only
    split <;> (try split) <;> (try split) <;> first | exact plain_answer f _ _ | exact set_answer _ _ f _ _

theorem portstat_moves (c : ChanId) (s : State) : Moves none s none (s.portstat c) := by
  unfold portstat
  refine openRequest_moves s c _ _ fun f _ _ _ => ?_
  split <;> first | exact plain_answer f _ _ | exact set_answer _ _ f _ _

theorem access_moves (d : Direction) (k : Byte) (c : ChanId) (s : State) : Moves none s none (s.access d k c) := by
  unfold access
  split
  · exact .stay
  · refine openRequest_moves s c _ _ fun f _ _ h2 => ?_
    split
    · exact plain_answer f _ _
    · simp only
      split
      · exact plain_answer f _ _
      · exact set_wait _ _ f _ h2

theorem replay_moves (c : ChanId) (s : State) : Moves none s none (s.replay c) := by
  unfold replay
  split
  · exact .stay
  · refine openRequest_moves s c _ _ fun f _ _ h2 => ?_
    split
    · exact plain_answer f _ _
    · simp only
      split
      · exact plain_answer f _ _
      · split
        · exact plain_answer f _ _
        · exact set_wait _ _ f _ h2

theorem drop_moves (c : ChanId) (s : State) : Moves none s none (s.drop c) := by
  unfold drop
  refine openRequest_moves s c _ _ fun f _ _ _ => ?_
  split
  · exact plain_answer f _ _
  · simp only
    split <;> first | exact plain_answer f _ _ | exact set_answer _ _ f _ _

theorem partstat_moves (c : ChanId) (s : State) : Moves none s none (s.partstat c) := by
  unfold partstat
  refine openRequest_moves s c _ _ fun f _ _ _ => ?_
  split <;> exact plain_answer f _ _

theorem resetbench_moves (c : ChanId) (s : State) : Moves none s none (s.resetbench c) := by
  unfold resetbench
  refine openRequest_moves_or s c _ _ fun f _ _ _ => ?_
  split
  · split
    · exact .inr (plain_answer f _ _)
    · split
      · exact .inl rfl
      · exact .inr (answers (.one .benchReset) f _ _)
  · exact .inr (plain_answer f _ _)

/-! ### Ports: events -/

theorem raiseLink_aside (s : State) (p : PortId) (x : Port) (k : EventCode) (cs : ChanSet) :
    s.AsideTo ((s.setPort p x).raiseLink p k cs) := ⟨rfl, rfl, rfl, rfl, rfl, rfl, rfl, rfl⟩

theorem gateOpen_aside (p : PortId) (x : Bool) (s : State) : s.AsideTo (s.gateOpen p x) := by
  unfold gateOpen; simp only; split
  · exact setPort_aside _ _ _
  · exact .rfl' s

theorem gateClose_aside (p : PortId) (x : Bool) (s : State) : s.AsideTo (s.gateClose p x) := by
  unfold gateClose; simp only; split
  · exact setPort_aside _ _ _
  · exact .rfl' s

theorem gateDecision_aside (p : PortId) (x : Bool) (s : State) : s.AsideTo (s.gateDecision p x) := by
  unfold gateDecision; simp only; split
  · exact setPort_aside _ _ _
  · exact .rfl' s

theorem unseatAtGate_aside (p : PortId) (s : State) : s.AsideTo (s.unseatAtGate p) := by
  unfold unseatAtGate; simp only; split
  · exact setPort_aside _ _ _
  · exact .rfl' s

theorem creditReturn_aside (p : PortId) (s : State) : s.AsideTo (s.creditReturn p) := by
  unfold creditReturn; simp only; split
  · exact setPort_aside _ _ _
  · exact .rfl' s

theorem freeze_aside (p : PortId) (x : Bool) (s : State) : s.AsideTo (s.freeze p x) := by
  unfold freeze
  simp only
  split <;> (try split) <;> first | exact setPort_aside _ _ _ | exact .rfl' s

theorem observationTaken_aside (p : PortId) (s : State) : s.AsideTo (s.observationTaken p) := by
  unfold observationTaken; simp only; split
  · exact setPort_aside _ _ _
  · exact .rfl' s
  · exact .rfl' s

theorem seatChange_aside (p : PortId) (x : Bool) (s : State) : s.AsideTo (s.seatChange p x) := by
  unfold seatChange; simp only; split
  · exact .rfl' s
  · exact setPort_aside _ _ _

theorem debounceExpiry_aside (p : PortId) (s : State) : s.AsideTo (s.debounceExpiry p) := by
  unfold debounceExpiry; simp only; split
  · split
    · exact .rfl' s
    · exact raiseLink_aside _ _ _ _ _
  · exact raiseLink_aside _ _ _ _ _
  · exact .rfl' s

theorem statusEdge_aside (p : PortId) (l : LineId) (x : Bool) (s : State) : s.AsideTo (s.statusEdge p l x) := by
  unfold statusEdge; simp only; split
  · exact .rfl' s
  · split <;> exact setPort_aside _ _ _

theorem boardSuperframe_aside (p : PortId) (f : BoardSuperframe) (s : State) : s.AsideTo (s.boardSuperframe p f) := by
  unfold boardSuperframe
  simp only
  split <;> (try split) <;> first
    | exact .rfl' s | exact setPort_aside _ _ _ | exact raiseLink_aside _ _ _ _ _

theorem outgoingSuperframe_aside (p : PortId) (n : Nat) (s : State) : s.AsideTo (s.outgoingSuperframe p n) := by
  unfold outgoingSuperframe; simp only; split
  · exact .rfl' s
  · exact setPort_aside _ _ _

theorem resetReleased_aside (p : PortId) (s : State) : s.AsideTo (s.resetReleased p) := by
  unfold resetReleased; split
  · exact setPort_aside _ _ _
  · exact .rfl' s

theorem linkLockAtRunControl_aside (p : PortId) (s : State) : s.AsideTo (s.linkLockAtRunControl p) := by
  unfold linkLockAtRunControl; split
  · exact setPort_aside _ _ _
  · exact .rfl' s

theorem linkLockAtArbiter_aside (p : PortId) (s : State) : s.AsideTo (s.linkLockAtArbiter p) := by
  unfold linkLockAtArbiter; split
  · exact .rfl' s
  · exact setPort_aside _ _ _

theorem stopped_moves (p : PortId) (s : State) : Moves h s h (s.stopped p) := by
  unfold stopped; split
  · exact applyRun_moves _ _ _ _
  · exact .stay

theorem resetAsserted_moves (p : PortId) (s : State) : Moves h s h (s.resetAsserted p) := by
  unfold resetAsserted; split
  · exact applyRun_moves _ _ _ _
  · exact .stay

theorem linkLossAtRunControl_moves (p : PortId) (s : State) : Moves h s h (s.linkLossAtRunControl p) := by
  unfold linkLossAtRunControl; split
  · exact applyRun_moves _ _ _ _
  · exact .stay

theorem unseatAtRunControl_moves (p : PortId) (s : State) : Moves h s h (s.unseatAtRunControl p) := by
  unfold unseatAtRunControl; split
  · exact applyRun_moves _ _ _ _
  · exact .stay

theorem holdRemoval_moves (p : PortId) (s : State) : Moves h s h (s.holdRemoval p) := by
  unfold holdRemoval; simp only; split
  · exact (applyRun_moves _ _ _ _).step (.ended (releaseStep_answered _ _ _))
  · exact .stay

theorem safeLevels_moves (p : PortId) (s : State) : Moves h s h (s.safeLevels p) := by
  unfold safeLevels
  simp only
  split
  · exact (Moves.aside (setPort_aside _ _ _)).step (.ended (releaseStep_answered _ _ _))
  · exact .stay

theorem grant_moves (p : PortId) (s : State) : Moves h s h (s.grant p) := by
  unfold grant
  simp only
  split
  · split
    · exact .stay
    · split
      · exact set_finish _ _ _ _ _ _ _
      · exact .aside (setPort_aside _ _ _)
  · exact .stay

theorem failBlock_moves (s : State) (p : PortId) (b : RunningBlock) (x : FailReason) :
    Moves h s h (s.failBlock p b x) := set_finish _ _ _ _ _ _ _

theorem completeWord_moves (s : State) (p : PortId) (b : RunningBlock) (d : Word) :
    Moves h s h (s.completeWord p b d) := by
  unfold completeWord
  simp only
  split
  · exact .aside (setPort_aside _ _ _)
  · exact set_finish _ _ _ _ _ _ _

theorem reply_moves (p : PortId) (s : State) : Moves h s h (s.reply p) := by
  unfold reply
  split
  · exact .stay
  · exact .stay
  · next r rest _ =>
    simp only
    refine (Moves.aside (setPort_aside s p ((s.port p).setArb { (s.port p).arb with fromLink := rest }))).trans ?_
    split
    · exact .stay
    · split
      · split
        · exact completeWord_moves _ _ _ _
        · exact failBlock_moves _ _ _ _
      · exact .stay
    · split
      · exact .aside (setPort_aside _ _ _)
      · exact .stay

theorem replyLimitExpiry_moves (p : PortId) (s : State) : Moves h s h (s.replyLimitExpiry p) := by
  unfold replyLimitExpiry
  split
  · exact failBlock_moves _ _ _ _
  · exact .aside (setPort_aside _ _ _)
  · exact .stay
  · exact .stay

theorem linkLossAtArbiter_moves (p : PortId) (s : State) : Moves h s h (s.linkLossAtArbiter p) := by
  unfold linkLossAtArbiter
  split
  · exact .stay
  · next q _ =>
    simp only
    refine Moves.trans ?_ (Moves.foldl _ (fun x e => set_finish _ _ _ _ _ _ _) _ _)
    refine (Moves.aside (setPort_aside s p (q.setArb { q.arb with linkLocked := false }))).trans ?_
    refine Moves.trans ?_ (.aside (setPort_aside _ _ _))
    unfold loseBlock
    split
    · exact failBlock_moves _ _ _ _
    · exact .aside (setPort_aside _ _ _)
    · exact .stay

theorem unseatAtArbiter_moves (p : PortId) (s : State) : Moves h s h (s.unseatAtArbiter p) := by
  unfold unseatAtArbiter
  split
  · exact .stay
  · simp only
    refine Moves.trans ?_ (Moves.foldl _ (fun x e => .ended (finish_answered _ _ _ _)) _ _)
    exact (Moves.aside (setPort_aside _ _ _)).trans (.ended (absentBlock_answered _ _))

/-! ### Matching -/

theorem observation_moves (p : PortId) (s : State) : Moves h s h (s.observation p) := by
  unfold observation
  split
  · next o ep he =>
    have a : s.AsideTo (s.popEvent p) := setPort_aside s p _
    refine Moves.trans (Moves.trans (Moves.aside a) (of_matched _ (walk_matched _ (fun x e =>
      meetObservation_matched x p o ep e) (s.port p).mu.view.copy [] _)
      (walk_hitTo _ (fun x e => meetObservation_hitTo x p o ep e) _ _ _))) ?_
    exact .aside (setPort_aside _ _ _)
  · exact .stay

theorem lineEdge_moves (p : PortId) (s : State) : Moves h s h (s.lineEdge p) := by
  refine of_matched _ (lineEdge_matched p s) ?_
  unfold lineEdge
  split
  · next l d ep _ => exact walk_hitTo _ (fun x e => meetEdge_hitTo x p l d ep e) _ _ (s.popEvent p)
  · exact .rfl' _

theorem quietExpiry_moves (p : PortId) (s : State) : Moves h s h (s.quietExpiry p) := by
  refine of_matched _ (quietExpiry_matched p s) ?_
  unfold quietExpiry
  split
  · simp only
    split
    · split
      · rw [afterSilence_table]; exact hit_hitTo (s.popEvent p) _ _
      · exact .rfl' _
    · exact .rfl' _
  · exact .rfl' _

theorem crossEdge_moves (s : State) : Moves h s h s.crossEdge := by
  refine of_matched _ (crossEdge_matched s) ?_
  unfold crossEdge
  split
  · next x _ _ _ => exact walk_hitTo _ (fun y e => meetCross_hitTo y x e) _ _ s.popEdge
  · exact .rfl' _

theorem quietTimerZero_moves (p : PortId) (i : Nat) (s : State) : Moves h s h (s.quietTimerZero p i) := by
  refine of_matched_same _ (quietTimerZero_matched p i s) ?_
  unfold quietTimerZero; simp only; split <;> rfl

theorem runStateReport_moves (p : PortId) (s : State) : Moves h s h (s.runStateReport p) := by
  refine of_matched_same _ (runStateReport_matched p s) ?_
  unfold runStateReport; simp only; split <;> simp

theorem linkStateReport_moves (p : PortId) (s : State) : Moves h s h (s.linkStateReport p) := by
  refine of_matched_same _ (linkStateReport_matched p s) ?_
  unfold linkStateReport; simp only; split <;> simp

theorem unseatAtMatchUnit_moves (p : PortId) (s : State) : Moves h s h (s.unseatAtMatchUnit p) := by
  refine of_matched_same _ (unseatAtMatchUnit_matched p s) ?_
  unfold unseatAtMatchUnit; simp only; split <;> simp

theorem endRecordsStep_moves (s : State) (n : Nat) : Moves h s h (s.endRecordsStep n) := by
  unfold endRecordsStep
  split
  · next c m hc =>
    split
    · exact .one (.staged c _ _ hc (by intro x; cases x))
    · exact .stay
  · exact .stay

theorem releaseChange_moves (s : State) (n : Nat) : Moves h s h (s.releaseChange n) := by
  unfold releaseChange
  split
  · exact (Moves.ended (answerChange_answered s n)).trans (endRecordsStep_moves _ _)
  · exact .stay

theorem changeBoundary_moves (u : UnitId) (s : State) : Moves h s h (s.changeBoundary u) := by
  unfold changeBoundary
  split
  · exact .stay
  · exact .stay
  · simp only
    refine Moves.trans ?_ (releaseChange_moves _ _)
    refine Moves.trans (of_matched_same _ (takeToken_matched _ _ _) ?_)
      (of_matched_same _ (setView_matched _ _ _) (by simp))
    unfold takeToken
    split <;> simp

/-! ### Cross lines -/

theorem crossPulse_aside (p : PortId) (s : State) : s.AsideTo (s.crossPulse p) := by
  unfold crossPulse
  split
  · split
    · simp only; split <;> exact ⟨rfl, rfl, rfl, rfl, rfl, rfl, rfl, rfl⟩
    · exact .rfl' s
  · exact .rfl' s

theorem crossFallingEdge_aside (x : CrossId) (s : State) : s.AsideTo (s.crossFallingEdge x) := by
  unfold crossFallingEdge
  split
  · simp only; split <;> exact ⟨rfl, rfl, rfl, rfl, rfl, rfl, rfl, rfl⟩
  · exact .rfl' s

/-! ### Records -/

/-- The goal and the tally of a PLACE that is well formed (R14, R15). -/
theorem readPlace_spec {b : List Byte} {q : PlaceRequest} (hq : readPlace b = some q) :
    1 ≤ q.goal ∧ q.goal ≤ 255 ∧ ∀ t, q.tally = some t → t.holdsTo := by
  unfold readPlace at hq
  split at hq
  · split at hq
    · next tl _ _ _ _ _ _ _ _ _ htl =>
      split at hq
      · next hv =>
        cases hq
        simp only [Bool.and_eq_true, imageValid, decide_eq_true_eq] at hv
        refine ⟨hv.1.1.1.1.1.1, hv.1.1.1.1.1.2, fun t ht => ?_⟩
        unfold readPlaceTally at htl
        simp only at ht
        split at htl
        · simp only [Option.map_eq_some_iff] at htl
          obtain ⟨k, _, rfl⟩ := htl
          cases ht
          cases k.2.1 <;> simp [Tally.holdsTo, Tally.start, TallySign.low, TallySign.high]
        · cases htl; cases ht
      · cases hq
    · cases hq
  · cases hq

theorem newRecord_holds {b : List Byte} {q : PlaceRequest} (hq : readPlace b = some q) (c : ChanId) (n : Word) :
    (newRecord q c n).countHolds ∧ (newRecord q c n).tallyHolds := by
  obtain ⟨h1, h2, h3⟩ := readPlace_spec hq
  refine ⟨⟨h1, h2, ?_⟩, h3⟩
  unfold newRecord
  cases q.armed <;> cases q.after <;> simp <;> omega

theorem placeAt_slots (s : State) (i : Nat) (r : Record) :
    (s.placeAt i r).table.slots = (s.table.setRecord i r).slots := by
  unfold placeAt
  simp only
  split <;> simp [WatchTable.setRecord]

theorem lane_of_bench {s t : State} (e : t.bench = s.bench) (c : ChanId) : t.lane c = s.lane c := by
  simp [lane, e]

/-- A request on a record moves as its body does, or waits as its body does. -/
theorem onRecord_moves_or {u : State} (s : State) (c : ChanId) (f : Frame) (x : Handle) (may : Record → Bool) (body : Record → State)
    (hb : ∀ r, s.table.recordAt x.slot = some r → body r = u ∨ Moves (some c) s none (body r)) :
    s.onRecord c f x may body = u ∨ Moves (some c) s none (s.onRecord c f x may body) := by
  unfold onRecord
  split
  · exact .inr (plain_answer f _ _)
  · next r hr =>
    split
    · exact hb r (WatchTable.recordAt_of_resolve _ hr)
    · exact .inr (plain_answer f _ _)

theorem onRecord_moves (s : State) (c : ChanId) (f : Frame) (x : Handle) (may : Record → Bool) (body : Record → State)
    (hb : ∀ r, s.table.recordAt x.slot = some r → Moves (some c) s none (body r)) :
    Moves (some c) s none (s.onRecord c f x may body) := by
  unfold onRecord
  split
  · exact plain_answer f _ _
  · next r hr =>
    split
    · exact hb r (WatchTable.recordAt_of_resolve _ hr)
    · exact plain_answer f _ _

theorem kept_wait {s t : State} {c : ChanId} (m : s.MatchedTo t) (k : s.table.KeptTo s.Handing t.table) (f : Frame)
    (w : Wait) (he : (s.lane c).executing = none) : Moves (some c) s none (t.wait c f w) :=
  (of_kept _ m k).step (.waits f w (by rw [lane_of_bench m.bench]; exact he))

theorem place_moves (c : ChanId) (s : State) : Moves none s none (s.place c) := by
  unfold place
  refine openRequest_moves_or s c _ _ fun f ho h3 h2 => ?_
  generalize s.popFrame c = t at *
  split
  · exact .inr (plain_answer f _ _)
  · next q hq =>
    split
    · exact .inr (plain_answer f _ _)
    · simp only
      split
      · exact .inr (plain_answer f _ _)
      · next i hi =>
        have hr := newRecord_holds hq c t.table.counter
        unfold placeSlot at hi
        split at hi
        · next hroom =>
          obtain ⟨hl, hn⟩ := WatchTable.lowestFree_spec _ hi
          have m := placeAt_matched t i (newRecord q c t.table.counter)
          split
          · exact .inl rfl
          · refine .inr ((Moves.one (.placed i _ m hroom hn hl hr.1 hr.2 ho h3 (placeAt_slots _ _ _))).step
              (.waits f _ ?_))
            rw [lane_of_bench m.bench]; exact h2
        · cases hi

theorem amendTally_holds (t : Tally) (a : AmendRequest) (ht : t.holdsTo) : (amendTally t a).holdsTo := by
  have h1 : ∀ u : Tally, u.holdsTo → Tally.holdsTo (match a.load with
      | some w => { u with accumulator := u.sign.read w, overflow := false }
      | none => u) := by
    intro u hu
    split
    · next w _ =>
      refine ⟨?_, ?_, hu.2.2⟩
      · cases u.sign <;> simp only [TallySign.low, TallySign.read]
        · omega
        · have := BitVec.le_toInt w; simpa using this
      · cases u.sign <;> simp only [TallySign.high, TallySign.read]
        · have := w.isLt; omega
        · have := BitVec.toInt_lt (x := w); simp at this; omega
    · exact hu
  unfold amendTally
  simp only
  apply h1
  split
  · cases hs : t.sign <;> simp [Tally.holdsTo, Tally.clear, TallySign.low, TallySign.high, hs]
  · exact ht

theorem amended_kept (c0 : Prop) (r : Record) (a : AmendRequest) (hv : amendValid r a = true) :
    r.KeptTo c0 (amended r a) := by
  refine ⟨.inl rfl, rfl, ?_, fun hc => ?_, fun ht t hx => ?_⟩
  · simp only [amended, amendSide]
    cases r.side.cond <;> rfl
  · simp only [amendValid, Bool.and_eq_true, imageValid, decide_eq_true_eq] at hv
    obtain ⟨hg1, hg2⟩ := hv.2.1.1.1.1
    refine ⟨hg1, hg2, ?_⟩
    obtain ⟨hr1, hr2, hr3⟩ := hc
    simp only [amended] at *
    cases hg : a.goal with
    | none => simpa [hg] using hr3
    | some g =>
      simp only [hg, Option.getD_some] at *
      cases hs : r.state <;> simp only [hs, amendHits] at * <;> (try split) <;> omega
  · simp only [amended] at hx
    split at hx
    · next k _ =>
      cases hx
      cases k.2.1 <;> simp [Tally.holdsTo, Tally.start, TallySign.low, TallySign.high]
    · simp only [Option.map_eq_some_iff] at hx
      obtain ⟨u, hu, rfl⟩ := hx
      exact amendTally_holds u a (ht u hu)

theorem takeAtOnce_table (s : State) (us : List UnitId) (x : Option (CopyEntry × Bool)) :
    (s.takeAtOnce us x).table = s.table := by
  unfold takeAtOnce
  split
  · exact foldl_table _ (fun y u => takeUpdate_table _ _ _) _ _
  · rfl

theorem amendAt_slots (s : State) (i : Nat) (r : Record) (a : AmendRequest) :
    (s.amendAt i r a).table.slots = (s.table.setRecord i (amended r a)).slots := by
  have h1 : (r.units.foldl bringUpToDate s).table = s.table := foldl_table _ (fun y x => by simp) _ _
  unfold amendAt
  split
  · simp only [announce_table, takeAtOnce_table, setTable_table, h1]
  · simp only [announce_table, setTable_table]

theorem revoke_table (s : State) (o c : ChanId) : (s.revoke o c).table = s.table := by unfold revoke; split <;> rfl

theorem revokeOwners_table (s : State) (is : List Nat) (c : ChanId) : (s.revokeOwners is c).table = s.table := by
  unfold revokeOwners
  refine foldl_table _ (fun y j => ?_) _ s
  split
  · exact revoke_table _ _ _
  · rfl

theorem amend_moves (c : ChanId) (s : State) : Moves none s none (s.amend c) := by
  unfold amend
  refine openRequest_moves_or s c _ _ fun f ho h3 h2 => ?_
  generalize s.popFrame c = t at *
  split
  · exact .inr (plain_answer f _ _)
  · next a _ =>
    refine onRecord_moves_or t c f _ _ _ fun r hr => ?_
    split
    · next hv =>
      split
      · exact .inl rfl
      · refine .inr (kept_wait ((amendAt_matched _ _ _ _).trans (revoke_matched _ _ _)) ?_ f _ h2)
        rw [revoke_table]
        exact (WatchTable.setRecord_kept _ hr (amended_kept _ r a hv)).of_slots (amendAt_slots _ _ _ _)
    · exact .inr (plain_answer f _ _)

theorem restate_slots (s : State) (i : Nat) (r : Record) :
    (s.restate i r).table.slots = (s.table.setRecord i r).slots := by
  unfold restate
  simp only
  split <;> simp

/-- A state change of one record and the notice it raises, then a wait. -/
theorem restate_wait {t : State} {c : ChanId} {i : Nat} {r r' : Record} (hr : t.table.recordAt i = some r)
    (k : r.KeptTo t.Handing r') (o d : ChanId) (f : Frame) (w : Wait) (he : (t.lane c).executing = none) :
    Moves (some c) t none (((t.restate i r').revoke o d).wait c f w) := by
  refine kept_wait ((restate_matched _ _ _).trans (revoke_matched _ _ _)) ?_ f _ he
  rw [revoke_table]
  exact (WatchTable.setRecord_kept _ hr k).of_slots (restate_slots _ _ _)

theorem suspend_moves (c : ChanId) (s : State) : Moves none s none (s.suspend c) := by
  unfold suspend
  refine openRequest_moves_or s c _ _ fun f ho h3 h2 => ?_
  generalize s.popFrame c = t at *
  split
  · exact .inr (plain_answer f _ _)
  · refine onRecord_moves_or t c f _ _ _ fun r hr => ?_
    have k : r.state = .armed ∨ r.state = .waiting → r.KeptTo t.Handing { r with state := .suspended } := by
      intro hs
      refine ⟨.inl rfl, rfl, rfl, fun hc => ?_, id⟩
      rcases hs with hs | hs <;> simp only [Record.countHolds, hs] at * <;> omega
    have m : Moves (some c) t (some c) (t.revoke r.owner c) := of_matched_same _ (revoke_matched _ _ _) (revoke_table _ _ _)
    simp only
    split
    · next hs =>
      split
      · exact .inl rfl
      · exact .inr (restate_wait hr (k (.inl hs)) _ _ f _ h2)
    · next hs =>
      split
      · exact .inl rfl
      · exact .inr (restate_wait hr (k (.inr hs)) _ _ f _ h2)
    · exact .inr (answers m f _ _)
    · exact .inr (answers m f _ _)

theorem arm_moves (c : ChanId) (s : State) : Moves none s none (s.arm c) := by
  unfold arm
  refine openRequest_moves_or s c _ _ fun f ho h3 h2 => ?_
  generalize s.popFrame c = t at *
  split
  · exact .inr (plain_answer f _ _)
  · refine onRecord_moves_or t c f _ _ _ fun r hr => ?_
    split
    · exact .inl rfl
    · refine .inr (restate_wait (r' := armed r) hr ⟨.inl rfl, rfl, rfl, fun hc => ?_, id⟩ _ _ f _ h2)
      obtain ⟨h1, h2, _⟩ := hc
      refine ⟨h1, h2, ?_⟩
      unfold armed
      cases r.after
      · simp; omega
      · simp

theorem retire_moves (c : ChanId) (s : State) : Moves none s none (s.retire c) := by
  unfold retire
  refine openRequest_moves_or s c _ _ fun f ho h3 h2 => ?_
  generalize s.popFrame c = t at *
  split
  · exact .inr (plain_answer f _ _)
  · next x force _ =>
    refine onRecord_moves_or t c f _ _ _ fun r hr => ?_
    split
    · exact .inr (plain_answer f _ _)
    · split
      · exact .inl rfl
      · refine .inr (kept_wait (retireAt_matched _ _ _ _) ?_ f _ h2)
        unfold retireAt
        simp only [revokeOwners_table, revoke_table, stopQuiet_table, changeTable_table]
        exact ((WatchTable.freeSlot_kept _ _ _).trans (WatchTable.cutLinks_kept _ _ _)).of_slots rfl

theorem tally_moves (c : ChanId) (s : State) : Moves none s none (s.tally c) := by
  unfold tally
  refine openRequest_moves_or s c _ _ fun f ho h3 h2 => ?_
  generalize s.popFrame c = t at *
  split
  · exact .inr (plain_answer f _ _)
  · next x clear _ =>
    refine onRecord_moves_or t c f _ _ _ fun r hr => ?_
    split
    · exact .inr (plain_answer f _ _)
    · next k hk =>
      split
      · exact .inl rfl
      · split
        · refine .inr (kept_wait ((changeTable_matched _ _ _).trans (revoke_matched _ _ _)) ?_ f _ h2)
          rw [revoke_table, changeTable_table]
          refine (WatchTable.setRecord_kept _ (r' := { r with tally := some k.clear }) hr
            ⟨.inl rfl, rfl, rfl, id, fun _ u hu => ?_⟩).of_slots rfl
          cases hu
          cases hs : k.sign <;> simp [Tally.holdsTo, Tally.clear, TallySign.low, TallySign.high, hs]
        · exact .inr (plain_answer f _ _)

theorem lookup_moves (c : ChanId) (s : State) : Moves none s none (s.lookup c) := by
  unfold lookup
  refine openRequest_moves s c _ _ fun f ho h3 h2 => ?_
  split
  · exact plain_answer f _ _
  · exact onRecord_moves _ c f _ _ _ fun r hr => plain_answer f _ _ _

theorem list_moves (c : ChanId) (s : State) : Moves none s none (s.list c) := by
  unfold list
  refine openRequest_moves s c _ _ fun f ho h3 h2 => ?_
  split <;> exact plain_answer f _ _

theorem find_moves (c : ChanId) (s : State) : Moves none s none (s.find c) := by
  unfold find
  refine openRequest_moves s c _ _ fun f ho h3 h2 => ?_
  split <;> exact plain_answer f _ _

/-! ### Step 1 of a teardown -/

/-- What the hand-over to C0 leaves in a slot (R30). -/
theorem handOver_recordAt (ks : List Nat) (t : WatchTable) (j : Nat) :
    (ks.foldl handOver t).recordAt j =
      if j ∈ ks then (t.recordAt j).map (fun r => { r with owner := 0 }) else t.recordAt j := by
  induction ks generalizing t with
  | nil => simp
  | cons k rest ih =>
    rw [List.foldl_cons, ih]
    have h1 : (handOver t k).recordAt j = if j = k then (t.recordAt j).map (fun r => { r with owner := 0 }) else
        t.recordAt j := by
      unfold handOver
      split
      · next r hr =>
        rw [WatchTable.recordAt_setRecord]
        by_cases e : j = k
        · subst e; simp [hr, WatchTable.lt_of_recordAt t hr]
        · simp [e, Ne.symm e]
      · next hr =>
        by_cases e : j = k
        · subst e; simp [hr]
        · simp [e]
    rw [h1]
    by_cases e : j = k
    · subst e
      by_cases m : j ∈ rest
      · simp [m]; cases t.recordAt j <;> rfl
      · simp [m]
    · by_cases m : j ∈ rest <;> simp [e, m]

/-- What freeing slots leaves in a slot. -/
theorem freeSlots_recordAt (ks : List Nat) (t : WatchTable) (j : Nat) :
    (ks.foldl WatchTable.freeSlot t).recordAt j = if j ∈ ks then none else t.recordAt j := by
  induction ks generalizing t with
  | nil => simp
  | cons k rest ih =>
    rw [List.foldl_cons, ih, WatchTable.recordAt_freeSlot]
    by_cases m : j ∈ rest
    · simp [m]
    · by_cases e : k = j
      · subst e
        by_cases hl : k < t.slots.length
        · simp [hl]
        · have : t.recordAt k = none := by
            cases hr : t.recordAt k with
            | none => rfl
            | some r => exact (hl (WatchTable.lt_of_recordAt t hr)).elim
          simp [hl, m, this]
      · simp [m, e, Ne.symm e]

theorem stopFreed_table (s : State) (t : WatchTable) (is : List Nat) : (s.stopFreed t is).table = s.table := by
  unfold stopFreed
  refine foldl_table _ (fun x i => ?_) _ _
  split
  · exact stopQuiet_table _ _ _
  · rfl

theorem disposeRecords_slots (s : State) (c : ChanId) :
    (s.disposeRecords c).table.slots =
      (((s.freedSlots c).foldl WatchTable.freeSlot ((s.keptSlots c).foldl handOver s.table)).cutLinks
        (cutSlots s.table (s.freedSlots c))).slots := by
  unfold disposeRecords
  simp only [revokeOwners_table, stopFreed_table, changeTable_table]

theorem mem_ownedSlots {t : WatchTable} {c : ChanId} {j : Nat} {r : Record} (hr : t.recordAt j = some r)
    (ho : r.owner = c) : j ∈ ownedSlots t c := by
  unfold ownedSlots WatchTable.indices
  simp [hr, ho, WatchTable.lt_of_recordAt t hr]

theorem of_mem_keptSlots {s : State} {c : ChanId} {j : Nat} (hj : j ∈ s.keptSlots c) :
    c ≠ 0 ∧ (s.chan 0).isOpen = true := by
  unfold keptSlots at hj
  split at hj
  · next hc => exact hc
  · cases hj

theorem disposeRecords_kept (s : State) (c : ChanId) (hc : ∃ st, s.teardowns.current = some (c, st)) :
    s.table.KeptTo s.Handing (s.disposeRecords c).table := by
  obtain ⟨st, hst⟩ := hc
  refine WatchTable.KeptTo.of_slots ?_ (disposeRecords_slots s c)
  refine WatchTable.KeptTo.trans (WatchTable.KeptTo.trans ?_
    (WatchTable.foldl_kept _ (fun x i => WatchTable.freeSlot_kept _ x i) _ _)) (WatchTable.cutLinks_kept _ _ _)
  by_cases hk : c ≠ 0 ∧ (s.chan 0).isOpen = true
  · refine WatchTable.foldl_kept _ (fun x i => ?_) _ _
    unfold handOver
    split
    · next r hr => exact WatchTable.setRecord_kept x hr ⟨.inr ⟨rfl, hk.2, c, st, hk.1, hst⟩, rfl, rfl, id, id⟩
    · exact .rfl' _ x
  · have : s.keptSlots c = [] := by
      unfold keptSlots; simp [hk]
    rw [this]
    exact .rfl' _ _

/-- After step 1 of a teardown the channel owns no record (R166). -/
theorem disposeRecords_owner (s : State) (c : ChanId) {j : Nat} {r : Record}
    (hr : (s.disposeRecords c).table.recordAt j = some r) : r.owner ≠ c := by
  have hr' : (((s.freedSlots c).foldl WatchTable.freeSlot ((s.keptSlots c).foldl handOver s.table)).cutLinks
        (cutSlots s.table (s.freedSlots c))).recordAt j = some r := by
    simpa [WatchTable.recordAt, WatchTable.slotAt, disposeRecords_slots] using hr
  obtain ⟨r1, h1, e1⟩ := (WatchTable.cutLinks_kept False _ _).back j r hr'
  have ho : r.owner = r1.owner := by rcases e1.owner with x | x; exacts [x, x.2.elim]
  rw [ho]
  rw [freeSlots_recordAt] at h1
  split at h1
  · cases h1
  · next hf =>
    rw [handOver_recordAt] at h1
    split at h1
    · next hk =>
      simp only [Option.map_eq_some_iff] at h1
      obtain ⟨r2, _, rfl⟩ := h1
      exact fun e => (of_mem_keptSlots hk).1 e.symm
    · next hk =>
      intro e
      refine hf ?_
      unfold freedSlots
      rw [List.mem_filter]
      exact ⟨mem_ownedSlots h1 e, by simpa using hk⟩

theorem teardownRecords_moves (s : State) : Moves h s h s.teardownRecords := by
  unfold teardownRecords
  split
  · next c hc =>
    split
    · next he =>
      refine .one (.staged c _ _ hc fun _ i r hr ho => ?_)
      have := mem_ownedSlots hr ho
      rw [List.isEmpty_iff.1 he] at this
      cases this
    · split
      · exact .stay
      · have m := disposeRecords_matched s c
        rw [← m.teardowns]
        exact (of_kept _ m (disposeRecords_kept s c ⟨_, hc⟩)).step
          (.staged c .records _ (by rw [m.teardowns]; exact hc) fun _ i r hr => disposeRecords_owner s c hr)
  · exact .stay

/-! ### Steps 2 and 3 of a teardown -/

theorem teardownAtArbiter_moves (p : PortId) (s : State) : Moves h s h (s.teardownAtArbiter p) := by
  unfold teardownAtArbiter
  split
  · next c as rs hc =>
    split
    · have a := endWait_answered (s.setPort p (portTeardown (s.port p) c)) c (.access p)
      refine ((Moves.aside (setPort_aside _ _ _)).step (.ended a)).step (.staged c (.ports as rs) _ ?_ (by intro x; cases x))
      rw [a.teardowns]; exact hc
    · exact .stay
  · exact .stay

theorem applyRun_teardowns (s : State) (p : PortId) (o : RunOutcome) : (s.applyRun p o).teardowns = s.teardowns := by
  have a : ((s.setPort p o.port).raiseRun p o.raised).teardowns = s.teardowns := by
    unfold raiseRun; split <;> rfl
  unfold applyRun
  simp only
  split
  · rw [(settleHalts_answered _ _ _).teardowns, a]
  · exact a

theorem teardownAtRunControl_moves (p : PortId) (s : State) : Moves h s h (s.teardownAtRunControl p) := by
  unfold teardownAtRunControl
  split
  · next c as rs hc =>
    split
    · simp only
      have m := applyRun_moves h s p ((s.port p).removeHold c false)
      have e := applyRun_teardowns s p ((s.port p).removeHold c false)
      generalize s.applyRun p ((s.port p).removeHold c false) = u at *
      have a := endWait_answered (u.setPort p (dropResumer (u.port p) c)) c (.settle p)
      refine ((m.trans (Moves.aside (setPort_aside _ _ _))).step (.ended a)).step
        (.staged c (.ports as rs) _ ?_ (by intro x; cases x))
      rw [a.teardowns, setPort_teardowns, e]; exact hc
    · exact .stay
  · exact .stay

/-- Where an answer and the begin of the next teardown follow each other, either may come first. -/
theorem answerClose_nextTeardown (s : State) (c : ChanId) (x : Option TeardownCause) :
    (s.answerClose c x).nextTeardown = s.nextTeardown.answerClose c x := by
  have key : ∀ (u : State) (st : Status) (pl : List Byte), (u.finish c st pl).nextTeardown = u.nextTeardown.finish c st pl := by
    intro u st pl
    unfold nextTeardown
    rw [(finish_answered u c st pl).teardowns]
    unfold finish
    split
    all_goals
      simp only [lane]
      split
      · rfl
      · split <;> rfl
  cases x with
  | none => rfl
  | some y =>
    cases y with
    | closing => exact key s _ _
    | lapsing => rfl

theorem teardownClose_moves (s : State) : Moves h s h s.teardownClose := by
  unfold teardownClose
  split
  · next c hc =>
    split
    · exact .stay
    · simp only
      rw [answerClose_nextTeardown]
      exact (Moves.one (.torn c _ hc (by intro x; cases x))).step (.ended (answerClose_answered _ _ _))
  · exact .stay

/-! ### Start-up -/

theorem applySetting_moves (s : State) (x : Setting) : Moves h s h (s.applySetting x) := by
  unfold applySetting
  split
  · exact .aside (setPort_aside _ _ _)
  · exact .one (.loaded _ _ _)
  · exact .one (.described _ id)

theorem walkEnd_moves (m : List (Nat × Byte)) (pins : Vector PinLevels 6) (s : State) : Moves h s h (s.walkEnd m pins) := by
  unfold walkEnd
  split
  · simp only
    have m1 := Moves.foldl (h := h) applySetting (fun x y => applySetting_moves x y)
      (walkDescription m (statusOfCode (Config.headerStatus s.fresh))).1.settings s
    refine (m1.trans (Moves.foldl _ (fun x p => .aside (setPort_aside x p (portAtWalkEnd (x.port p) pins[p])))
      allPorts _)).trans ?_
    exact (Moves.one (.described _ (by intro x; cases x))).step
      (.aside ⟨rfl, rfl, rfl, rfl, rfl, rfl, rfl, rfl⟩)
  · exact .stay

end State

open State in
/-- What a command other than a pin reset can do beside the ports: a chain of the moves of `State.Move`. -/
theorem exec_moves (i : Instr) (s t : State) (hp : ∀ a b, i ≠ .pinReset a b) (h : exec i s = .next t) :
    Moves none s none t := by
  cases i <;> simp only [exec] at h <;> cases h
  case benchFrame => exact Moves.foldl _ receiveByte_moves _ _
  case frameGapTimeout => exact frameGapTimeout_moves _
  case unknownKind => exact unknownKind_moves _ _
  case starting => exact starting_moves _ _
  case responseTransmit => exact .one .sent
  case openChannel => exact openChannel_moves _ _
  case closeChannel => exact closeChannel_moves _ _
  case renew => exact renew_moves _ _
  case poll => exact poll_moves _ _
  case notices => exact notices_moves _ _
  case claim => exact claim_moves _ _
  case release => exact release_moves _ _
  case halt => exact halt_moves _ _
  case resume => exact resume_moves _ _
  case stepBoard => exact stepBoard_moves _ _
  case drive => exact drive_moves _ _
  case gate => exact gateRequest_moves _ _
  case portstat => exact portstat_moves _ _
  case read => exact access_moves _ _ _ _
  case write => exact access_moves _ _ _ _
  case replay => exact replay_moves _ _
  case drop => exact drop_moves _ _
  case place => exact place_moves _ _
  case amend => exact amend_moves _ _
  case suspend => exact suspend_moves _ _
  case arm => exact arm_moves _ _
  case retire => exact retire_moves _ _
  case lookup => exact lookup_moves _ _
  case list => exact list_moves _ _
  case find => exact find_moves _ _
  case tally => exact tally_moves _ _
  case partstat => exact partstat_moves _ _
  case resetbench => exact resetbench_moves _ _
  case leaseExpiry => exact leaseExpiry_moves _ _
  case teardownRecords => exact teardownRecords_moves _
  case teardownAtArbiter => exact teardownAtArbiter_moves _ _
  case teardownAtRunControl => exact teardownAtRunControl_moves _ _
  case teardownClose => exact teardownClose_moves _
  case changeBoundary => exact changeBoundary_moves _ _
  case observation => exact observation_moves _ _
  case lineEdge => exact lineEdge_moves _ _
  case quietTimerZero => exact quietTimerZero_moves _ _ _
  case quietExpiry => exact quietExpiry_moves _ _
  case runStateReport => exact runStateReport_moves _ _
  case linkStateReport => exact linkStateReport_moves _ _
  case unseatAtMatchUnit => exact unseatAtMatchUnit_moves _ _
  case signal => exact signal_moves _ _
  case freeze => exact .aside (freeze_aside _ _ _)
  case observationTaken => exact .aside (observationTaken_aside _ _)
  case gateOpen => exact .aside (gateOpen_aside _ _ _)
  case gateClose => exact .aside (gateClose_aside _ _ _)
  case gateDecision => exact .aside (gateDecision_aside _ _ _)
  case endOfSending => exact .aside (setPort_aside _ _ _)
  case unseatAtGate => exact .aside (unseatAtGate_aside _ _)
  case creditReturn => exact .aside (creditReturn_aside _ _)
  case crossPulse => exact .aside (crossPulse_aside _ _)
  case pulseTimerExpiry => exact .aside ⟨rfl, rfl, rfl, rfl, rfl, rfl, rfl, rfl⟩
  case crossFallingEdge => exact .aside (crossFallingEdge_aside _ _)
  case crossEdge => exact crossEdge_moves _
  case seatChange => exact .aside (seatChange_aside _ _ _)
  case debounceExpiry => exact .aside (debounceExpiry_aside _ _)
  case statusEdge => exact .aside (statusEdge_aside _ _ _ _)
  case boardSuperframe => exact .aside (boardSuperframe_aside _ _ _)
  case outgoingSuperframe => exact .aside (outgoingSuperframe_aside _ _ _)
  case stopped => exact stopped_moves _ _
  case stopTimerExpiry => exact applyRun_moves _ _ _ _
  case resetAsserted => exact resetAsserted_moves _ _
  case resetReleased => exact .aside (resetReleased_aside _ _)
  case linkLossAtRunControl => exact linkLossAtRunControl_moves _ _
  case linkLockAtRunControl => exact .aside (linkLockAtRunControl_aside _ _)
  case unseatAtRunControl => exact unseatAtRunControl_moves _ _
  case holdRemoval => exact holdRemoval_moves _ _
  case safeLevels => exact safeLevels_moves _ _
  case grant => exact grant_moves _ _
  case reply => exact reply_moves _ _
  case replyLimitExpiry => exact replyLimitExpiry_moves _ _
  case linkLossAtArbiter => exact linkLossAtArbiter_moves _ _
  case linkLockAtArbiter => exact .aside (linkLockAtArbiter_aside _ _)
  case unseatAtArbiter => exact unseatAtArbiter_moves _ _
  case portEvent => exact portEvent_moves _ _ _
  case noticeAddition => exact noticeAddition_moves _ _
  case pinReset => exact absurd rfl (hp _ _)
  case walkEnd => exact walkEnd_moves _ _ _
  case crossRisingEdge => exact .aside ⟨rfl, rfl, rfl, rfl, rfl, rfl, rfl, rfl⟩

end Sys2Proof.Machine
end

