-- ==== Sys2Proof/Laws/Disposal.lean ====
section
/-! SUPPORT. What step 1 of a teardown leaves in each slot (R30). -/

namespace Sys2Proof.Machine

theorem Record.cut_cut (r : Record) : r.cut.cut = r.cut := by
  unfold Record.cut
  cases h : r.state <;> simp

theorem WatchTable.cutLinks_slotAt (ks : List Nat) (t : WatchTable) (j : Nat) :
    (t.cutLinks ks).slotAt j =
      if j ∈ ks then { issue := (t.slotAt j).issue, record := (t.recordAt j).map Record.cut } else t.slotAt j := by
  induction ks generalizing t with
  | nil => rfl
  | cons k rest ih =>
    have e1 : (t.cutLinks (k :: rest)) = (match t.recordAt k with
      | some r => t.setRecord k r.cut
      | none => t).cutLinks rest := rfl
    rw [e1]
    cases hk : t.recordAt k with
    | none =>
      simp only [ih]
      by_cases m : j ∈ rest
      · simp [m]
      · by_cases e : j = k
        · subst e
          simp only [if_neg m, List.mem_cons_self, if_true, hk, Option.map_none]
          have : (t.slotAt j).record = none := hk
          rw [← this]
        · simp [m, e]
    | some r =>
      have hl := lt_of_recordAt t hk
      simp only [ih, slotAt_setRecord, recordAt_setRecord, hl, and_true]
      by_cases e : k = j
      · subst e
        by_cases m : k ∈ rest <;> simp [m, hk, Record.cut_cut]
      · by_cases m : j ∈ rest <;> simp [m, e, Ne.symm e]

namespace State

theorem handOver_slotAt (ks : List Nat) (t : WatchTable) (j : Nat) :
    ((ks.foldl handOver t).slotAt j).issue = (t.slotAt j).issue := by
  induction ks generalizing t with
  | nil => rfl
  | cons k rest ih =>
    rw [List.foldl_cons, ih]
    unfold handOver
    split
    · rw [WatchTable.slotAt_setRecord]; split
      · next h => rw [← h.1]
      · rfl
    · rfl

theorem freeSlots_length (ks : List Nat) (t : WatchTable) : (ks.foldl WatchTable.freeSlot t).slots.length = t.slots.length := by
  induction ks generalizing t with
  | nil => rfl
  | cons k rest ih => rw [List.foldl_cons, ih, WatchTable.freeSlot_length]

theorem handOver_length (ks : List Nat) (t : WatchTable) : (ks.foldl handOver t).slots.length = t.slots.length := by
  induction ks generalizing t with
  | nil => rfl
  | cons k rest ih =>
    rw [List.foldl_cons, ih]
    unfold handOver
    split
    · exact WatchTable.setRecord_length ..
    · rfl

/-- Freeing distinct slots increases the issue number of each once (R1). -/
theorem freeSlots_slotAt (ks : List Nat) (hn : ks.Nodup) (t : WatchTable) {j : Nat} (hj : j < t.slots.length) :
    (ks.foldl WatchTable.freeSlot t).slotAt j =
      if j ∈ ks then { issue := (t.slotAt j).issue + 1, record := none } else t.slotAt j := by
  induction ks generalizing t with
  | nil => rfl
  | cons k rest ih =>
    rw [List.nodup_cons] at hn
    rw [List.foldl_cons, ih hn.2 _ (by rwa [WatchTable.freeSlot_length]), WatchTable.slotAt_freeSlot]
    by_cases e : k = j
    · subst e; simp [hn.1, hj]
    · by_cases m : j ∈ rest <;> simp [m, e, Ne.symm e]

/-- Neither passing records on, nor freeing slots, nor cutting after-links moves the counters of the table. -/
theorem disposal_counters (ks fs cs : List Nat) (t : WatchTable) :
    ((fs.foldl WatchTable.freeSlot (ks.foldl handOver t)).cutLinks cs).counter = t.counter ∧
    ((fs.foldl WatchTable.freeSlot (ks.foldl handOver t)).cutLinks cs).nextChange = t.nextChange ∧
    ((fs.foldl WatchTable.freeSlot (ks.foldl handOver t)).cutLinks cs).slots.length = t.slots.length := by
  have fold : ∀ (f : WatchTable → Nat → WatchTable), (∀ x i, (f x i).counter = x.counter ∧
      (f x i).nextChange = x.nextChange ∧ (f x i).slots.length = x.slots.length) → ∀ (l : List Nat) (x : WatchTable),
      (l.foldl f x).counter = x.counter ∧ (l.foldl f x).nextChange = x.nextChange ∧
        (l.foldl f x).slots.length = x.slots.length := by
    intro f hf l
    induction l with
    | nil => intro x; exact ⟨rfl, rfl, rfl⟩
    | cons i rest ih =>
      intro x
      obtain ⟨h1, h2, h3⟩ := ih (f x i)
      obtain ⟨g1, g2, g3⟩ := hf x i
      exact ⟨h1.trans g1, h2.trans g2, h3.trans g3⟩
  have h1 := fold handOver (fun x i => by unfold handOver; split <;> simp) ks t
  have h2 := fold WatchTable.freeSlot (fun x i => by simp) fs (ks.foldl handOver t)
  have h3 := fold (fun v j => match v.recordAt j with
    | some r => v.setRecord j r.cut
    | none => v) (fun x i => by split <;> simp) cs (fs.foldl WatchTable.freeSlot (ks.foldl handOver t))
  exact ⟨h3.1.trans (h2.1.trans h1.1), h3.2.1.trans (h2.2.1.trans h1.2.1), h3.2.2.trans (h2.2.2.trans h1.2.2)⟩

theorem freedSlots_nodup (s : State) (c : ChanId) : (s.freedSlots c).Nodup :=
  ((List.nodup_range.filter _).filter _)

theorem mem_keptSlots (s : State) (c : ChanId) {i : Nat} {r : Record} (hr : s.table.recordAt i = some r) :
    i ∈ s.keptSlots c ↔ r.owner = c ∧ c ≠ 0 ∧ (s.chan 0).isOpen = true ∧ r.keep = true := by
  have hl := WatchTable.lt_of_recordAt _ hr
  unfold keptSlots ownedSlots WatchTable.indices
  by_cases h : c ≠ 0 ∧ (s.chan 0).isOpen = true
  · rw [if_pos h]
    simp only [List.mem_filter, List.mem_range, hr, Option.any_some, decide_eq_true_eq]
    tauto
  · rw [if_neg h]
    simp only [List.not_mem_nil, false_iff]
    tauto

theorem mem_freedSlots (s : State) (c : ChanId) {i : Nat} {r : Record} (hr : s.table.recordAt i = some r) :
    i ∈ s.freedSlots c ↔ r.owner = c ∧ ¬ (c ≠ 0 ∧ (s.chan 0).isOpen = true ∧ r.keep = true) := by
  have hl := WatchTable.lt_of_recordAt _ hr
  have := mem_keptSlots s c hr
  unfold freedSlots
  rw [List.mem_filter]
  have h2 : i ∈ ownedSlots s.table c ↔ r.owner = c := by
    unfold ownedSlots WatchTable.indices
    simp [hr, hl]
  rw [h2]
  simp only [Bool.not_eq_true', List.contains_eq_mem, decide_eq_false_iff_not, this]
  tauto

theorem recordAt_of_mem_freed (s : State) (c : ChanId) {i : Nat} (h : i ∈ s.freedSlots c) :
    ∃ r, s.table.recordAt i = some r := by
  unfold freedSlots ownedSlots at h
  simp only [List.mem_filter] at h
  cases hr : s.table.recordAt i with
  | none => simp [hr] at h
  | some r => exact ⟨r, rfl⟩

/-- The slots that lose their after-link: those not freed whose link names a freed record (R30). -/
theorem mem_cutSlots (s : State) (c : ChanId) {i : Nat} {r : Record} (hr : s.table.recordAt i = some r)
    (hf : i ∉ s.freedSlots c) :
    i ∈ cutSlots s.table (s.freedSlots c) ↔
      ∃ h j x, r.after = some h ∧ s.table.recordAt j = some x ∧ x.owner = c ∧
        ¬ (c ≠ 0 ∧ (s.chan 0).isOpen = true ∧ x.keep = true) ∧ s.table.handleAt j = h := by
  have hl := WatchTable.lt_of_recordAt _ hr
  unfold cutSlots
  simp only [List.mem_filter, List.mem_flatMap, Bool.not_eq_true', List.contains_eq_mem, decide_eq_false_iff_not, hf,
    not_false_eq_true, and_true]
  constructor
  · rintro ⟨j, hj, hd⟩
    obtain ⟨x, hx⟩ := recordAt_of_mem_freed s c hj
    have := (mem_freedSlots s c hx).1 hj
    unfold WatchTable.dependents at hd
    simp only [List.mem_filter, hr, decide_eq_true_eq] at hd
    exact ⟨_, j, x, hd.2, hx, this.1, this.2, rfl⟩
  · rintro ⟨h, j, x, ha, hx, ho, hk, rfl⟩
    refine ⟨j, (mem_freedSlots s c hx).2 ⟨ho, hk⟩, ?_⟩
    unfold WatchTable.dependents WatchTable.indices
    simp [hr, ha, hl]

/-- What step 1 leaves in the slot of a record. -/
theorem disposeRecords_slotAt (s : State) (c : ChanId) {i : Nat} {r : Record} (hr : s.table.recordAt i = some r) :
    (s.disposeRecords c).table.slotAt i =
      if i ∈ s.freedSlots c then { issue := (s.table.slotAt i).issue + 1, record := none }
      else
        let r1 : Record := if i ∈ s.keptSlots c then { r with owner := 0 } else r
        { issue := (s.table.slotAt i).issue,
          record := some (if i ∈ cutSlots s.table (s.freedSlots c) then r1.cut else r1) } := by
  have hl := WatchTable.lt_of_recordAt _ hr
  have h0 : ∀ t u : WatchTable, t.slots = u.slots → t.slotAt i = u.slotAt i := by
    intro t u h; simp [WatchTable.slotAt, h]
  rw [h0 _ _ (disposeRecords_slots s c), WatchTable.cutLinks_slotAt]
  have h1 := freeSlots_slotAt (s.freedSlots c) (freedSlots_nodup s c) ((s.keptSlots c).foldl handOver s.table)
    (j := i) (by rwa [handOver_length])
  have h2 := handOver_slotAt (s.keptSlots c) s.table i
  have h3 := handOver_recordAt (s.keptSlots c) s.table i
  have h4 := freeSlots_recordAt (s.freedSlots c) ((s.keptSlots c).foldl handOver s.table) i
  by_cases hf : i ∈ s.freedSlots c
  · have hc : i ∉ cutSlots s.table (s.freedSlots c) := by
      unfold cutSlots; simp [hf]
    rw [if_neg hc, h1, if_pos hf, if_pos hf, h2]
  · rw [if_neg hf] at h1 h4
    rw [if_neg hf, h1, h4, h2]
    have h5 : ((s.keptSlots c).foldl handOver s.table).recordAt i =
        some (if i ∈ s.keptSlots c then { r with owner := 0 } else r) := by
      rw [h3]; split <;> simp [hr]
    have h6 : ((s.keptSlots c).foldl handOver s.table).slotAt i =
        { issue := (s.table.slotAt i).issue, record := some (if i ∈ s.keptSlots c then { r with owner := 0 } else r) } := by
      rw [← h2, ← h5]; rfl
    rw [h5, h6]
    split <;> simp

/-- A FREE slot stays as it was. -/
theorem disposeRecords_free (s : State) (c : ChanId) {i : Nat} (hr : s.table.recordAt i = none) :
    (s.disposeRecords c).table.slotAt i = s.table.slotAt i := by
  have h0 : ∀ t u : WatchTable, t.slots = u.slots → t.slotAt i = u.slotAt i := by
    intro t u h; simp [WatchTable.slotAt, h]
  have hf : i ∉ s.freedSlots c := fun h => by
    obtain ⟨r, h⟩ := recordAt_of_mem_freed s c h
    rw [hr] at h
    cases h
  have hk : ((s.keptSlots c).foldl handOver s.table).recordAt i = none := by
    rw [handOver_recordAt]; split <;> simp [hr]
  have h2 := handOver_slotAt (s.keptSlots c) s.table i
  have h5 : ((s.keptSlots c).foldl handOver s.table).slotAt i = s.table.slotAt i := by
    have e : ∀ x y : Slot, x.issue = y.issue → x.record = y.record → x = y := by
      rintro ⟨a, b⟩ ⟨c, d⟩ rfl rfl; rfl
    exact e _ _ h2 (hk.trans hr.symm)
  have h4 : ((s.freedSlots c).foldl WatchTable.freeSlot ((s.keptSlots c).foldl handOver s.table)).slotAt i =
      s.table.slotAt i := by
    by_cases hl : i < s.table.slots.length
    · rw [freeSlots_slotAt _ (freedSlots_nodup s c) _ (by rwa [handOver_length]), if_neg hf, h5]
    · rw [WatchTable.slotAt_beyond _ (by rw [freeSlots_length, handOver_length]; omega),
        WatchTable.slotAt_beyond _ (by omega)]
  rw [h0 _ _ (disposeRecords_slots s c), WatchTable.cutLinks_slotAt]
  split
  · have : ((s.freedSlots c).foldl WatchTable.freeSlot ((s.keptSlots c).foldl handOver s.table)).recordAt i = none := by
      unfold WatchTable.recordAt; rw [h4]; exact hr
    rw [this, h4]
    show ({ issue := _, record := none } : Slot) = _
    rw [← hr]; rfl
  · exact h4

end State

end Sys2Proof.Machine
end

