-- ==== Sys2Proof/Laws/Requests.lean ====
section
/-! SUPPORT. How a request command reads its frame: the meaning of a request is its body on the state without the frame. -/

namespace Sys2Proof.Machine

open Host

/-- Two equal states are the same answer of a step. -/
theorem next_congr {a b : State} (h : a = b) : (Outcome.next a : Outcome State Fault Refusal) = .next b := by rw [h]

namespace State

theorem AtHead.headFrame {s : State} {c : ChanId} {k : Byte} {f : Frame} (h : s.AtHead c k f) :
    s.headFrame c = some f := by
  unfold State.headFrame
  simp [h.walked, h.ended, h.settled, h.head]

theorem AtHead.request {s : State} {c : ChanId} {k : Byte} {f : Frame} (h : s.AtHead c k f)
    (body : Frame → State → State) : s.request c k body = body f (s.popFrame c) := by
  unfold State.request
  simp [h.headFrame, h.kind]

theorem Ready.openRequest {s : State} {c : ChanId} {k : Byte} {f : Frame} (h : s.Ready c k f)
    (body : Frame → State → State) : s.openRequest c k body = body f (s.popFrame c) := by
  unfold State.openRequest
  rw [h.toAtHead.request]
  simp [State.popFrame, h.opened]

theorem AtHead.openRequest_closed {s : State} {c : ChanId} {k : Byte} {f : Frame} (h : s.AtHead c k f)
    (hc : (s.chan c).isOpen = false) (body : Frame → State → State) :
    s.openRequest c k body = (s.popFrame c).answer c f .closed [] := by
  unfold State.openRequest
  rw [h.request]
  simp [State.popFrame, hc]

end State

end Sys2Proof.Machine
end

