-- ==== Sys2Proof/Laws/RecordChanges.lean ====
section
/-! SUPPORT. The requests on watch records, part by part: the units a record concerns, the slot a placement takes, the
order of the checks, and what a change leaves in the table, the views and the additions. -/

namespace Sys2Proof.Machine

open Host

namespace State

theorem units_nodup (r : Record) : r.units.Nodup := by
  unfold Record.units
  exact List.Nodup.filter _ (by decide)
theorem mem_units (r : Record) (u : UnitId) : u ∈ r.units ↔ r.memberOf u = true := by
  unfold Record.units
  rw [List.mem_filter]
  constructor
  · exact fun h => h.2
  · intro h
    refine ⟨?_, h⟩
    clear h
    cases u with
    | crossLine => decide
    | matchUnit p => revert p; decide

theorem foldl_notice {α : Type} (f : State → α → State) (hf : ∀ (x : State) a, (f x a).notice = x.notice)
    (l : List α) (s : State) :
    (l.foldl f s).notice = s.notice := by
  induction l generalizing s with
  | nil => rfl
  | cons a rest ih => exact (ih _).trans (hf s a)
theorem setView_notice (s : State) (u : UnitId) (v : RecordView) : (s.setView u v).notice = s.notice :=
    by cases u <;> rfl
theorem stopQuiet_notice (s : State) (i : Nat) (r : Record) : (s.stopQuiet i r).notice = s.notice := by
  unfold State.stopQuiet; split <;> rfl
theorem restartQuiet_notice (s : State) (i : Nat) (r : Record) : (s.restartQuiet i r).notice = s.notice := by
  unfold State.restartQuiet; split
  · rfl
  · simp only; split <;> rfl
theorem takeUpdate_notice (s : State) (u : UnitId) (x : CopyEntry × Bool) : (s.takeUpdate u x).notice = s.notice := by
  unfold State.takeUpdate; simp only; split
  · split
    · rw [restartQuiet_notice, setView_notice]
    · rw [setView_notice]
  · rw [setView_notice]
theorem bringUpToDate_notice (s : State) (u : UnitId) : (s.bringUpToDate u).notice = s.notice := by
  unfold State.bringUpToDate; simp only
  rw [setView_notice]
  exact foldl_notice _ (fun x k => by split <;> simp [takeUpdate_notice]) _ _
theorem meetChange_notice (s : State) (u : UnitId) (n : Nat) (x : Option (CopyEntry × Bool)) :
    (s.meetChange u n x).notice = s.notice := by
  unfold State.meetChange State.offerUpdate State.addToken
  split
  · split
    · rw [setView_notice, takeUpdate_notice, bringUpToDate_notice]
    · rw [setView_notice, setView_notice]
  · rw [setView_notice]
theorem announce_notice (s : State) (us : List UnitId) (x : Option (CopyEntry × Bool)) : (s.announce us x).notice =
    s.notice := by
  unfold State.announce
  exact foldl_notice _ (fun x k => meetChange_notice _ _ _ _) _ _
theorem changeTable_notice (s : State) (us : List UnitId) (t : WatchTable) : (s.changeTable us t).notice =
    s.notice := by
  unfold State.changeTable
  simp only
  rw [announce_notice, foldl_notice _ (fun x u => by unfold State.syncCopy; rw [setView_notice])]
  exact foldl_notice _ (fun x u => bringUpToDate_notice _ _) _ _
theorem placeAt_view (s : State) (i : Nat) (r : Record) (u : UnitId) :
  (s.placeAt i r).view u = (s.changeTable r.units { s.table.setRecord i r with counter :=
      s.table.counter + 1 }).view u := by
  unfold State.placeAt; simp only; split
  · rw [State.view_restartQuiet]
  · rfl
theorem chain_congr (t w : WatchTable) (h : t.slots = w.slots) (u : UnitId) : t.chain u = w.chain u := by
  obtain ⟨a, b, c⟩ := t; obtain ⟨a', b', c'⟩ := w
  cases h; rfl


theorem hasRoom_iff (t : WatchTable) (r : Record) : t.hasRoom r = true ↔ ∀ u, r.memberOf u = true →
    (t.chain u).length < unitRoom u := by
  unfold WatchTable.hasRoom
  rw [List.all_eq_true]
  simp only [mem_units, decide_eq_true_eq]

theorem firstFree_none (t : WatchTable) (h : ∀ i, i < t.slots.length → t.recordAt i ≠ none) : t.lowestFree =
    none := by
  unfold WatchTable.lowestFree
  rw [List.find?_eq_none]
  intro i hi
  simp [WatchTable.indices] at hi
  have := h i hi
  cases hr : t.recordAt i
  · exact (this hr).elim
  · simp
theorem firstFree_some (t : WatchTable) (i : Nat) (h : i < t.slots.length) (hr : t.recordAt i = none) (hj : ∀ j,
    j < i → t.recordAt j ≠ none) : t.lowestFree = some i := by
  unfold WatchTable.lowestFree
  rw [List.find?_eq_some_iff_append]
  refine ⟨by simp [hr], List.range i, (List.range' (i+1) (t.slots.length - i - 1)), ?_, ?_⟩
  · unfold WatchTable.indices
    rw [List.range_eq_range', List.range_eq_range']
    have : t.slots.length = i + (1 + (t.slots.length - i - 1)) := by omega
    conv_lhs => rw [this]
    rw [← List.range'_append_1]
    congr 1
    rw [Nat.add_comm 1, List.range'_succ]
    simp
  · intro j hj'
    simp at hj'
    have := hj j hj'
    cases h2 : t.recordAt j
    · exact (this h2).elim
    · simp

theorem resolve_stale {s : State} {c : ChanId} {f : Frame} {h : Handle} {may : Record → Bool} {body : Record → State}
  (hr : s.table.resolve h = none) : s.onRecord c f h may body = s.answer c f .stale [] := by
  unfold State.onRecord; rw [hr]
theorem resolve_denied {s : State} {c : ChanId} {f : Frame} {h : Handle} {may : Record → Bool} {body : Record →
    State} {r : Record}
  (hr : s.table.resolve h = some r) (hm : may r = false) : s.onRecord c f h may body = s.answer c f .denied [] := by
  unfold State.onRecord; rw [hr]; simp [hm]
theorem resolve_body {s : State} {c : ChanId} {f : Frame} {h : Handle} {may : Record → Bool} {body : Record →
    State} {r : Record}
  (hr : s.table.resolve h = some r) (hm : may r = true) : s.onRecord c f h may body = body r := by
  unfold State.onRecord; rw [hr]; simp [hm]
theorem revoke_ro (s : State) (o c : ChanId) : s.RecordsOnly (s.revoke o c) := by
  unfold State.revoke; split
  · exact .rfl' s
  · exact sendAddition_recordsOnly _ _
theorem revoke_view (s : State) (o c : ChanId) (u : UnitId) : (s.revoke o c).view u = s.view u := by
  unfold State.revoke; split
  · rfl
  · cases u <;> rfl
theorem revoke_additions (s : State) (o c : ChanId) : (s.revoke o c).notice.additions = s.notice.additions ++
    (if o = c then [] else [.revoked o]) := by
  unfold State.revoke; split <;> simp [State.sendAddition]
theorem setTable_view (s : State) (w : WatchTable) (u : UnitId) : (s.setTable w).view u = s.view u :=
    by cases u <;> rfl
theorem bring_view_other (us : List UnitId) (s : State) {y : UnitId} (hy : y ∉ us) :
    (us.foldl State.bringUpToDate s).view y = s.view y :=
  foldl_view_other State.bringUpToDate (fun x _ _ h => view_bringUpToDate_ne x h) us s hy
theorem bring_table (us : List UnitId) (s : State) : (us.foldl State.bringUpToDate s).table = s.table :=
  foldl_table _ (fun y x => bringUpToDate_table y x) _ _

theorem restate_ro (s : State) (i : Nat) (r : Record) : s.RecordsOnly (s.restate i r) := by
  unfold State.restate; simp only; split
  · exact (changeTable_recordsOnly _ _ _).trans (restartQuiet_recordsOnly _ _ _)
  · exact (changeTable_recordsOnly _ _ _).trans (stopQuiet_recordsOnly _ _ _)
theorem restate_view (s : State) (i : Nat) (r : Record) (u : UnitId) : (s.restate i r).view u =
    (s.changeTable r.units (s.table.setRecord i r)).view u := by
  unfold State.restate; simp only; split
  · rw [view_restartQuiet]
  · rw [view_stopQuiet]
theorem restate_table (s : State) (i : Nat) (r : Record) : (s.restate i r).table =
    { s.table.setRecord i r with nextChange := s.table.nextChange + 1 } := by
  unfold State.restate; simp only; split
  · rw [restartQuiet_table, changeTable_table]; rfl
  · rw [stopQuiet_table, changeTable_table]; rfl
theorem restate_notice (s : State) (i : Nat) (r : Record) : (s.restate i r).notice = s.notice := by
  unfold State.restate; simp only; split
  · rw [restartQuiet_notice, changeTable_notice]
  · rw [stopQuiet_notice, changeTable_notice]

theorem revoke_eq (s : State) (o c : ChanId) : s.revoke o c = { s with notice := { s.notice with additions :=
    s.notice.additions ++ (if o = c then [] else [.revoked o]) } } := by
  unfold State.revoke; split
  · simp
  · rfl

end State

end Sys2Proof.Machine
end

