-- ==== Sys2Proof/Laws/Additions.lean ====
section
/-! SUPPORT. Lemmas for the proofs: what the Notice Unit takes. -/

namespace Sys2Proof.Machine

open Host State

theorem addTo_pendingOf (s : State) (c d : ChanId) (f : Pending → Pending) : (s.addTo c f).pendingOf d = if c = d ∧
    (s.chan c).isOpen = true then f (s.pendingOf c) else s.pendingOf d := by
  unfold State.addTo
  split
  · next h =>
    rw [pendingOf_setPending]
    by_cases e : c = d <;> simp [e, h]
    intro h2; subst e; exact absurd h (by simp [h2])
  · next h => rw [if_neg (fun hh => h hh.2)]

theorem addTo_rest (s : State) (c : ChanId) (f : Pending → Pending) : s.addTo c f =
    { s with notice := { s.notice with pending := (s.addTo c f).notice.pending } } := by
  unfold State.addTo; split <;> rfl

theorem addEvents_fold (m : PortEventMsg) (l : List ChanId) (hn : l.Nodup) (s : State) :
   let t := l.foldl (fun (t : State) c => if m.chans.has c then t.addTo c fun q => q.addEvent m.port m.kind else t) s
   t = { s with notice := { s.notice with pending := t.notice.pending } } ∧
   ∀ c, t.pendingOf c = if c ∈ l ∧ m.chans.has c = true ∧ (s.chan c).isOpen = true then
       (s.pendingOf c).addEvent m.port m.kind else s.pendingOf c := by
  induction l generalizing s with
  | nil => exact ⟨rfl, fun c => by simp⟩
  | cons a rest ih =>
    rw [List.nodup_cons] at hn
    intro t
    obtain ⟨i1, i2⟩ := ih hn.2 (if m.chans.has a then s.addTo a fun q => q.addEvent m.port m.kind else s)
    have hrest : (if m.chans.has a then s.addTo a fun q => q.addEvent m.port m.kind else s) =
        { s with notice := { s.notice with pending := (if m.chans.has a then s.addTo a fun q => q.addEvent m.port m.kind else s).notice.pending } } := by
      split
      · exact addTo_rest _ _ _
      · rfl
    have hp : ∀ c, (if m.chans.has a then s.addTo a fun q => q.addEvent m.port m.kind else s).pendingOf c = if a =
        c ∧ m.chans.has a = true ∧ (s.chan a).isOpen = true then (s.pendingOf a).addEvent m.port m.kind
        else s.pendingOf c := by
      intro c
      split
      · next h => rw [addTo_pendingOf]; simp [h]
      · next h => simp [h]
    have ht : t = rest.foldl (fun (t : State) c => if m.chans.has c then t.addTo c fun q => q.addEvent m.port m.kind
        else t) (if m.chans.has a then s.addTo a fun q => q.addEvent m.port m.kind else s) := rfl
    have hchan : ∀ c, (if m.chans.has a then s.addTo a fun q => q.addEvent m.port m.kind else s).chan c =
        s.chan c := by
      intro c; rw [hrest]; rfl
    refine ⟨?_, fun c => ?_⟩
    · rw [ht, i1, hrest]
    · rw [ht, i2, hp, hchan]
      by_cases e : a = c
      · subst e; simp [hn.1]
      · have : ¬ c = a := fun h => e h.symm
        simp only [List.mem_cons, this, false_or, e, false_and, if_false]

end Sys2Proof.Machine
end

