-- ==== Sys2Proof/Laws/Chains.lean ====
section
/-! SUPPORT. Lemmas for the proofs: the order of a chain, dependents, owners and what a channel sees of the table. -/

namespace Sys2Proof.Machine

open Host State

/-- A change of one record's state: the table, the notice for its owner, and the views of the units (R19, R20, R35). -/
theorem restate_core (s : State) (c : ChanId) (i : Nat) (r r' : Record) (hu : ∀ u, r'.memberOf u = r.memberOf u) :
  let t := ((s.popFrame c).restate i r').revoke r.owner c
  (s.popFrame c).RecordsOnly t ∧
            t.table = { s.table.setRecord i r' with nextChange := s.table.nextChange + 1 } ∧
            t.notice.additions = s.notice.additions ++ (if r.owner = c then [] else [.revoked r.owner]) ∧
            (∀ u, r.memberOf u = true → t.view u = (s.view u).after (t.table.chain u) s.table.nextChange) ∧
            (∀ u, r.memberOf u = false → t.view u = s.view u) := by
  intro t
  have ht : t.table = { s.table.setRecord i r' with nextChange := s.table.nextChange + 1 } := by
    show (State.revoke _ _ _).table = _
    rw [State.revoke_table, restate_table]; rfl
  refine ⟨(restate_ro _ _ _).trans (revoke_ro _ _ _), ht, ?_, ?_, ?_⟩
  · show (State.revoke _ _ _).notice.additions = _
    rw [revoke_additions, restate_notice]; rfl
  · intro u h
    show (State.revoke _ _ _).view u = _
    rw [revoke_view, restate_view, changeTable_view_mem _ _ (units_nodup r') _ ((mem_units r' u).2
        ((hu u).trans h)), ht, chain_congr { s.table.setRecord i r' with nextChange := s.table.nextChange + 1 }
        (s.table.setRecord i r') rfl]
    cases u <;> rfl
  · intro u h
    show (State.revoke _ _ _).view u = _
    rw [revoke_view, restate_view, changeTable_view_other]
    · cases u <;> rfl
    · rw [mem_units, hu u, h]; simp

theorem mem_dependents (t : WatchTable) (h : Handle) (j : Nat) : j ∈ t.dependents h ↔ ∃ x, t.recordAt j = some x ∧
    x.after = some h := by
  unfold WatchTable.dependents WatchTable.indices
  rw [List.mem_filter]
  constructor
  · rintro ⟨_, h2⟩
    cases hr : t.recordAt j with
    | none => simp [hr] at h2
    | some x => exact ⟨x, rfl, by simpa [hr] using h2⟩
  · rintro ⟨x, hx, ha⟩
    exact ⟨by simpa using WatchTable.lt_of_recordAt _ hx, by simp [hx, ha]⟩

theorem dependents_isEmpty (t : WatchTable) (h : Handle) : (t.dependents h).isEmpty = true ↔ ¬ ∃ j x,
    t.recordAt j = some x ∧ x.after = some h := by
  rw [List.isEmpty_iff, List.eq_nil_iff_forall_not_mem]
  simp only [mem_dependents, not_exists]

theorem revokeOwners_ro (s : State) (is : List Nat) (c : ChanId) : s.RecordsOnly (s.revokeOwners is c) := by
  unfold State.revokeOwners
  refine RecordsOnly.foldl _ (fun y j => ?_) _ _
  split
  · exact revoke_ro _ _ _
  · exact .rfl' _

theorem revokeOwners_view (s : State) (is : List Nat) (c : ChanId) (u : UnitId) : (s.revokeOwners is c).view u =
    s.view u := by
  unfold State.revokeOwners
  induction is generalizing s with
  | nil => rfl
  | cons a rest ih =>
    rw [List.foldl_cons, ih]
    split
    · exact revoke_view _ _ _ _
    · rfl

/-- REVOKED is handed over for each other owner of the records named, and for nobody else (R11). -/
theorem revokeOwners_additions (s : State) (is : List Nat) (c : ChanId) :
    ∃ l, (s.revokeOwners is c).notice.additions = s.notice.additions ++ l ∧
      ∀ a, a ∈ l ↔ ∃ j ∈ is, ∃ x, s.table.recordAt j = some x ∧ x.owner ≠ c ∧ a = .revoked x.owner := by
  induction is generalizing s with
  | nil => exact ⟨[], by simp [State.revokeOwners], by simp⟩
  | cons i rest ih =>
    have e : s.revokeOwners (i :: rest) c = (match s.table.recordAt i with
      | some r => s.revoke r.owner c
      | none => s).revokeOwners rest c := rfl
    rw [e]
    cases hr : s.table.recordAt i with
    | none =>
      obtain ⟨l, h1, h2⟩ := ih s
      refine ⟨l, h1, fun a => ?_⟩
      rw [h2]
      simp [hr]
    | some r =>
      obtain ⟨l, h1, h2⟩ := ih (s.revoke r.owner c)
      refine ⟨(if r.owner = c then [] else [.revoked r.owner]) ++ l, ?_, fun a => ?_⟩
      · simp only
        rw [h1, revoke_additions, List.append_assoc]
      · rw [List.mem_append, h2, State.revoke_table]
        simp only [List.mem_cons, exists_eq_or_imp, hr, Option.some.injEq, exists_eq_left']
        split
        · next h => simp [h]
        · next h => simp [h]

theorem unitsOf_nodup (t : WatchTable) (is : List Nat) : (t.unitsOf is).Nodup := List.Nodup.filter _ (by decide)

theorem mem_allUnits (u : UnitId) : u ∈ allUnits := by
  cases u with
  | crossLine => decide
  | matchUnit p => revert p; decide

theorem mem_unitsOf (t : WatchTable) {is : List Nat} {i : Nat} {r : Record} (hi : i ∈ is) (hr : t.recordAt i =
    some r) {u : UnitId} (hu : r.memberOf u = true) : u ∈ t.unitsOf is := by
  unfold WatchTable.unitsOf
  rw [List.mem_filter]
  refine ⟨mem_allUnits u, ?_⟩
  rw [List.any_eq_true]
  refine ⟨i, hi, ?_⟩
  unfold WatchTable.entryFor; simp [hr, hu]

/-- The units that hold a record of some of the slots. -/
theorem mem_unitsOf_iff (t : WatchTable) (is : List Nat) (u : UnitId) :
    u ∈ t.unitsOf is ↔ ∃ i ∈ is, ∃ r, t.recordAt i = some r ∧ r.memberOf u = true := by
  unfold WatchTable.unitsOf WatchTable.entryFor
  rw [List.mem_filter, List.any_eq_true]
  constructor
  · rintro ⟨-, i, hi, h⟩
    refine ⟨i, hi, ?_⟩
    cases hr : t.recordAt i with
    | none => simp [hr] at h
    | some r =>
      refine ⟨r, rfl, ?_⟩
      by_contra hm
      simp [hr, hm] at h
  · rintro ⟨i, hi, r, hr, hm⟩
    exact ⟨mem_allUnits u, i, hi, by simp [hr, hm]⟩

theorem before_total (a b : CopyEntry) (h : a.before b = false) (hne : ¬ (a.side.rank = b.side.rank ∧ a.placement =
    b.placement ∧ a.slot = b.slot)) : b.before a = true := by
  unfold CopyEntry.before at *
  by_cases h1 : a.side.rank = b.side.rank
  · rw [if_pos h1] at h; rw [if_pos h1.symm]
    by_cases h2 : a.placement = b.placement
    · rw [if_pos h2] at h; rw [if_pos h2.symm]
      simp at h ⊢
      have : a.slot ≠ b.slot := fun e => hne ⟨h1, h2, e⟩
      omega
    · rw [if_neg h2] at h; rw [if_neg (Ne.symm h2)]
      simp at h ⊢
      have : a.placement.toNat ≠ b.placement.toNat := fun hh => h2 (BitVec.eq_of_toNat_eq hh)
      omega
  · rw [if_neg h1] at h; rw [if_neg (Ne.symm h1)]
    simp at h ⊢
    omega

theorem before_spec (a b : CopyEntry) : a.before b = true ↔ (a.side.rank < b.side.rank ∨ (a.side.rank = b.side.rank ∧
      (a.placement.toNat < b.placement.toNat ∨ (a.placement = b.placement ∧ a.slot < b.slot)))) := by
  unfold CopyEntry.before
  by_cases h1 : a.side.rank = b.side.rank
  · simp only [h1, if_true]
    by_cases h2 : a.placement = b.placement
    · simp [h2]
    · simp [h2]
  · simp [h1]

theorem before_trans (a b c : CopyEntry) (h : a.before b = true) (k : b.before c = true) : a.before c = true := by
  rw [before_spec] at *
  rcases h with h | ⟨h1, h | ⟨h2, h3⟩⟩ <;> rcases k with k | ⟨k1, k | ⟨k2, k3⟩⟩
  all_goals first
    | (left; omega)
    | (right; refine ⟨by omega, ?_⟩; first | (left; simp_all; done) | (left; simp_all; omega) |
        (right; refine ⟨by simp_all, by omega⟩))

theorem insertEntry_sorted (e : CopyEntry) (l : List CopyEntry) (hs : l.Pairwise fun a b => a.before b = true)
    (hd : ∀ x ∈ l, x.slot ≠ e.slot) :
    (insertEntry e l).Pairwise fun a b => a.before b = true := by
  induction l with
  | nil => simp [insertEntry]
  | cons f rest ih =>
    rw [List.pairwise_cons] at hs
    unfold insertEntry
    split
    · next hb =>
      rw [List.pairwise_cons]
      refine ⟨fun x hx => ?_, List.pairwise_cons.2 hs⟩
      rcases List.mem_cons.1 hx with rfl | hx
      · exact hb
      · exact before_trans _ _ _ hb (hs.1 x hx)
    · next hb =>
      rw [List.pairwise_cons]
      refine ⟨fun x hx => ?_, ih hs.2 (fun x hx => hd x (List.mem_cons_of_mem _ hx))⟩
      rw [WatchTable.mem_insertEntry] at hx
      rcases hx with rfl | hx
      · exact before_total _ _ (by simpa using hb) (fun hh => hd f (List.mem_cons_self ..) hh.2.2.symm)
      · exact hs.1 x hx

theorem chain_sorted_of_foldr (l : List CopyEntry) (hn : (l.map (·.slot)).Nodup) :
    (l.foldr insertEntry []).Pairwise (fun a b => a.before b = true) ∧ ∀ x, x ∈ l.foldr insertEntry [] ↔ x ∈ l := by
  induction l with
  | nil => simp
  | cons e rest ih =>
    simp only [List.map_cons, List.nodup_cons, List.mem_map, not_exists, not_and] at hn
    obtain ⟨i1, i2⟩ := ih hn.2
    refine ⟨insertEntry_sorted _ _ i1 (fun x hx => hn.1 x ((i2 x).1 hx)), fun x => ?_⟩
    rw [List.foldr_cons, WatchTable.mem_insertEntry, i2, List.mem_cons]

theorem entryFor_slot {t : WatchTable} {u : UnitId} {i : Nat} {e : CopyEntry} (h : t.entryFor u i =
    some e) : e.slot = i := by
  unfold WatchTable.entryFor at h
  split at h
  · split at h
    · cases h; rfl
    · cases h
  · cases h

theorem visible_eq (t : WatchTable) (c : ChanId) (is : List Nat) : t.visible c is =
    is.filterMap fun i => match t.recordAt i with
      | some r => if c = 0 ∨ c = r.owner ∨ r.guard ≠ .guardPrivate then some (t.handleAt i, r.state) else none
      | none => none := by
  unfold WatchTable.visible
  congr 1
  funext i
  cases t.recordAt i with
  | none => rfl
  | some r => simp [Record.mayRead, or_assoc]

/-- A change of one record's count side: the table, the notice for its owner, and the views of the units (R35). -/
theorem changeTable_core (s : State) (c : ChanId) (i : Nat) (r r' : Record) :
  let t := ((s.popFrame c).changeTable r.units (s.table.setRecord i r')).revoke r.owner c
  (s.popFrame c).RecordsOnly t ∧
            t.table = { s.table.setRecord i r' with nextChange := s.table.nextChange + 1 } ∧
            t.notice.additions = s.notice.additions ++ (if r.owner = c then [] else [.revoked r.owner]) ∧
            (∀ u, r.memberOf u = true → t.view u = (s.view u).after (t.table.chain u) s.table.nextChange) ∧
            (∀ u, r.memberOf u = false → t.view u = s.view u) := by
  intro t
  have ht : t.table = { s.table.setRecord i r' with nextChange := s.table.nextChange + 1 } := by
    show (State.revoke _ _ _).table = _
    rw [State.revoke_table, State.changeTable_table]; rfl
  refine ⟨(changeTable_recordsOnly _ _ _).trans (revoke_ro _ _ _), ht, ?_, fun u h => ?_, fun u h => ?_⟩
  · show (State.revoke _ _ _).notice.additions = _
    rw [revoke_additions, changeTable_notice]; rfl
  · show (State.revoke _ _ _).view u = _
    rw [revoke_view, changeTable_view_mem _ _ (units_nodup r) _ ((mem_units r u).2 h), ht,
      chain_congr { s.table.setRecord i r' with nextChange := s.table.nextChange + 1 } (s.table.setRecord i r') rfl]
    cases u <;> rfl
  · show (State.revoke _ _ _).view u = _
    rw [revoke_view, changeTable_view_other]
    · cases u <;> rfl
    · rw [mem_units, h]; simp

end Sys2Proof.Machine
end

