-- ==== Sys2Proof/Laws/Waits.lean ====
section
/-! SUPPORT. Lemmas for the proofs: the reports as Run Control and the arbiter take them, claims of other channels, the choice
    of an entry, the answers of waiting HALTs, the start of a teardown. -/

namespace Sys2Proof.Machine

open Host State

/-- What waits at the Notice Unit for a channel (R172 to R174). -/
theorem noticeWaits_iff (s : State) (c : ChanId) : s.noticeWaits c = true ↔ s.NoticeFor c := by
  have h : ∀ a : Addition, a.target = c ↔
      a = .revoked c ∨ a = .overrun c ∨ (c = 0 ∧ (a = .linkError ∨ ∃ d, a = .lapsed d)) := by
    intro a
    cases a <;> simp [Addition.target, eq_comm]
  unfold State.noticeWaits State.NoticeFor
  simp only [Bool.or_eq_true, List.any_eq_true, decide_eq_true_eq, h, or_assoc]

/-- The oldest hand-over of the Target Link Controller is taken (log 3). -/
theorem takeReport_head {q : Port} {r : RunReport} {rest : List RunReport} (h : q.rc.reports = r :: rest) :
    takeReport q r = some { q with rc := { q.rc with reports := rest } } := by
  unfold takeReport; rw [h]; exact if_pos rfl

/-- A departure is taken over the STOPPED frames handed over before it (R86, log 8). -/
theorem takeDeparture_head {q : Port} {n : Nat} {r : RunReport} {rest : List RunReport} (hr : r ≠ .stopped)
    (h : q.rc.reports = List.replicate n .stopped ++ r :: rest) :
    takeDeparture q r = some { q with rc := { q.rc with reports := rest } } := by
  have hd : q.rc.reports.dropWhile (fun x => x = .stopped) = r :: rest := by
    rw [h]
    clear h
    induction n with
    | zero => simp [hr]
    | succ n ih => rw [List.replicate_succ, List.cons_append, List.dropWhile_cons_of_pos (by simp)]; exact ih
  unfold takeDeparture; rw [hd]; exact if_pos rfl

/-- A loss or an unseat is taken over the REPLY frames handed over before it (R156, log 3). -/
theorem takeArbiterReport_over {q : Port} {frames : List ReplyFrame} {r : ArbiterReport} {rest : List ArbiterMsg}
    (hr : r ≠ .linkLocked) (h : q.arb.fromLink = frames.map .reply ++ .report r :: rest) :
    State.takeArbiterReport q r = some { q with arb := { q.arb with fromLink := frames.map .reply ++ rest } } := by
  unfold State.takeArbiterReport
  rw [h, takeFirst_split _ _ _ _ (by simp [ArbiterMsg.isReport])
    (by intro m hm; obtain ⟨x, -, rfl⟩ := List.mem_map.1 hm; simp [ArbiterMsg.isReport, hr])]
  simp [Port.setArb]

/-- A lock is taken when nothing was handed over before it (R117, log 3). -/
theorem takeArbiterReport_lock {q : Port} {rest : List ArbiterMsg}
    (h : q.arb.fromLink = .report .linkLocked :: rest) :
    State.takeArbiterReport q .linkLocked = some { q with arb := { q.arb with fromLink := rest } } := by
  unfold State.takeArbiterReport
  rw [h]
  simp [takeFirst, Port.setArb]

/-- What comes too early is not there yet: a lock behind another hand-over, a loss or an unseat behind another report. -/
theorem takeArbiterReport_early {q : Port} {r : ArbiterReport}
    (h : ∀ (frames : List ReplyFrame) (rest : List ArbiterMsg), (r = .linkLocked → frames = []) →
      q.arb.fromLink ≠ frames.map .reply ++ .report r :: rest) :
    State.takeArbiterReport q r = none := by
  unfold State.takeArbiterReport
  split
  · next m rest hm =>
    obtain ⟨-, a, b, hl, -, hb⟩ := takeFirst_spec _ _ hm
    split
    · next e =>
      subst e
      refine (h (a.filterMap fun x => match x with | .reply y => some y | .report _ => none) b ?_ ?_).elim
      · intro hr
        cases a with
        | nil => rfl
        | cons x t => have := hb x (by simp); simp [hr] at this
      · rw [hl]
        congr 1
        clear hl hm
        induction a with
        | nil => rfl
        | cons x t ih =>
          cases x with
          | reply y => exact congrArg (List.cons _) (ih fun z hz => hb z (List.mem_cons_of_mem _ hz))
          | report y => have := hb (.report y) (by simp); simp [ArbiterMsg.isReport] at this
    · rfl
  · rfl

theorem begin_first {s : State} {c : ChanId} (h : s.teardowns.current = none) :
    s.beginTeardown c = { s with teardowns := { s.teardowns with current := some (c, .records) } } := by
  unfold State.beginTeardown; rw [h]

theorem begin_behind {s : State} {c : ChanId} (h : s.teardowns.current ≠ none) :
    s.beginTeardown c = { s with teardowns := { s.teardowns with queued := s.teardowns.queued ++ [c] } } := by
  obtain ⟨x, hx⟩ := Option.ne_none_iff_exists'.mp h
  unfold State.beginTeardown; rw [hx]

theorem leaseExpiry_lapses (c : ChanId) (s : State) (h : (s.chan c).leaseTimer ≠ none) :
    s.leaseExpiry c =
      State.beginTeardown (if c ≠ 0 ∧ (s.chan 0).isOpen = true then
        ((s.setChan c { s.chan c with leaseTimer := none, teardown := some .lapsing }).setLane c
        { outstanding := (s.lane c).outstanding - (s.lane c).queue.length, queue := [],
          executing := (s.lane c).executing.map fun e => { e with silent := true } }).sendAddition (.lapsed c)
        else ((s.setChan c { s.chan c with leaseTimer := none, teardown := some .lapsing }).setLane c
        { outstanding := (s.lane c).outstanding - (s.lane c).queue.length, queue := [],
          executing := (s.lane c).executing.map fun e => { e with silent := true } })) c := by
  obtain ⟨x, hx⟩ := Option.ne_none_iff_exists'.mp h
  unfold State.leaseExpiry
  rw [hx]
  dsimp only
  by_cases hc : c = 0
  · subst hc; simp [State.lapseLane]
  · have : ((s.setChan c { s.chan c with leaseTimer := none, teardown := some .lapsing }).setLane c
        (State.lapseLane
            ((s.setChan c { s.chan c with leaseTimer := none, teardown := some .lapsing }).lane c))).chan 0 = s.chan 0 := by
      show (s.chans.set c _)[(0:Nat)] = s.chans[(0:Nat)]
      rw [Vector.getElem_set_ne]
      intro h; exact hc (Fin.ext h)
    simp only [this]
    rfl

theorem foreignSole_iff (q : Port) (c : ChanId) : q.foreignSole c = true ↔ ∃ d, d ≠ c ∧ q.hasSole d = true := by
  unfold Port.foreignSole
  rw [List.any_eq_true]
  constructor
  · rintro ⟨d, _, h⟩
    refine ⟨d, by simpa using h⟩
  · rintro ⟨d, h1, h2⟩
    refine ⟨d, mem_allChans d, by simp [h1, h2]⟩

theorem otherClaim_iff (q : Port) (c : ChanId) : (allChans.any fun d => d ≠ c && q.hasClaim d) = true ↔ ∃ d,
    d ≠ c ∧ q.hasClaim d = true := by
  rw [List.any_eq_true]
  constructor
  · rintro ⟨d, _, h⟩
    refine ⟨d, by simpa using h⟩
  · rintro ⟨d, h1, h2⟩
    refine ⟨d, mem_allChans d, by simp [h1, h2]⟩

theorem lowestStanding_some {cls lifts} : ∀ (l : List QueueEntry) e, lowestStanding cls lifts l = some e → e ∈ l ∧
    ∀ x ∈ l, standing cls lifts e ≤ standing cls lifts x := by
  intro l
  induction l with
  | nil => intro e h; cases h
  | cons a l ih =>
    intro e h
    unfold lowestStanding at h
    cases hl : lowestStanding cls lifts l with
    | none =>
      rw [hl] at h; cases h
      have : l = [] := by
        cases l with
        | nil => rfl
        | cons b m =>
          unfold lowestStanding at hl
          split at hl
          · cases hl
          · split at hl <;> cases hl
      subst this; simp
    | some g =>
      rw [hl] at h
      have := ih g hl
      simp only at h
      split at h
      · next hlt =>
        cases h
        refine ⟨List.mem_cons_of_mem _ this.1, fun x hx => ?_⟩
        rcases List.mem_cons.1 hx with rfl | hx
        · omega
        · exact this.2 x hx
      · next hlt =>
        cases h
        refine ⟨List.mem_cons_self .., fun x hx => ?_⟩
        rcases List.mem_cons.1 hx with rfl | hx
        · omega
        · have := this.2 x hx; omega

theorem lowestStanding_none {cls lifts} (l : List QueueEntry) (h : lowestStanding cls lifts l = none) : l = [] := by
  cases l with
  | nil => rfl
  | cons b m =>
    unfold lowestStanding at h
    split at h
    · cases h
    · split at h <;> cases h

theorem lowestStanding_pick {cls lifts} (e : QueueEntry) (after : List QueueEntry)
    (ha : ∀ x ∈ after, standing cls lifts e ≤ standing cls lifts x) : ∀ before : List QueueEntry,
    (∀ x ∈ before, standing cls lifts e < standing cls lifts x) →
    lowestStanding cls lifts (before ++ e :: after) = some e := by
  intro before
  induction before with
  | nil =>
    intro _
    rw [List.nil_append]; unfold lowestStanding
    cases hl : lowestStanding cls lifts after with
    | none => rfl
    | some g =>
      have := ha g (lowestStanding_some _ _ hl).1
      simp only; rw [if_neg (by omega)]
  | cons b l ih =>
    intro hb
    rw [List.cons_append]; unfold lowestStanding
    rw [ih (fun x hx => hb x (List.mem_cons_of_mem _ hx))]
    simp only
    rw [if_pos (hb b (List.mem_cons_self ..))]

theorem set_empty_iff (h : ChanSet) : h.isEmpty = true ↔ ∀ c, h.has c = false := by
  unfold ChanSet.isEmpty
  rw [List.all_eq_true]
  constructor
  · intro x c
    have : c ∈ allChans := by revert c; decide
    simpa using x c this
  · intro x c _; simp [x c]

theorem mem_insertByRank (rank : ChanId → Nat) (c d : ChanId) (l) : d ∈ insertByRank rank c l ↔ d = c ∨ d ∈ l := by
  induction l with
  | nil => simp [insertByRank]
  | cons a l ih => unfold insertByRank; split <;> simp [ih]; tauto

theorem nodup_insertByRank (rank : ChanId → Nat) (c : ChanId) (l) (h : l.Nodup) (hc : c ∉ l) :
    (insertByRank rank c l).Nodup := by
  induction l with
  | nil => simp [insertByRank]
  | cons a l ih =>
    rw [List.nodup_cons] at h
    rw [List.mem_cons, not_or] at hc
    unfold insertByRank; split
    · rw [List.nodup_cons, List.nodup_cons]; exact ⟨by simp [hc], h⟩
    · rw [List.nodup_cons, mem_insertByRank]
      exact ⟨by rintro (x | x); exacts [hc.1 x.symm, h.1 x], ih h.2 hc.2⟩

theorem mem_orderByRank (rank : ChanId → Nat) (d : ChanId) (l) : d ∈ orderByRank rank l ↔ d ∈ l := by
  induction l with
  | nil => rfl
  | cons a l ih => unfold orderByRank; rw [mem_insertByRank, ih]; simp

theorem nodup_orderByRank (rank : ChanId → Nat) (l) (h : l.Nodup) : (orderByRank rank l).Nodup := by
  induction l with
  | nil => exact h
  | cons a l ih =>
    rw [List.nodup_cons] at h
    unfold orderByRank
    exact nodup_insertByRank _ _ _ (ih h.2) (by rw [mem_orderByRank]; exact h.1)

theorem finish_lane_ne (s : State) {c d : ChanId} (h : c ≠ d) (st pl) : (s.finish c st pl).lane d = s.lane d := by
  unfold State.finish
  split
  · rfl
  · split
    · rw [State.lane_setLane, if_neg h]
    · show ((s.setLane c _).lane d) = _
      rw [State.lane_setLane, if_neg h]

theorem fold_finish (st : Status) : ∀ (l : List ChanId) (_ : l.Nodup) (s : State),
    (∀ c ∈ l, ((l.foldl (fun t c => t.finish c st []) s).lane c).executing = none ∧ ((l.foldl
        (fun t c => t.finish c st []) s).lane c).queue = (s.lane c).queue) ∧
    (∀ c, c ∉ l → (l.foldl (fun t c => t.finish c st []) s).lane c = s.lane c) ∧
    (∃ o, (l.foldl (fun t c => t.finish c st []) s).bench.output = s.bench.output ++ o ∧
      (∀ r, r ∈ o ↔ r.chan ∈ l ∧ ∃ e, (s.lane r.chan).executing = some e ∧ e.silent = false ∧ r =
          { chan := r.chan, tag := e.tag, status := st, payload := [] }) ∧
      (o.map (·.chan)).Nodup) := by
  intro l
  induction l with
  | nil => intro _ s; refine ⟨by simp, by simp, [], by simp, by simp, by simp⟩
  | cons a l ih =>
    intro hn s
    rw [List.nodup_cons] at hn
    obtain ⟨h1, h2, o, h3, h4, h5⟩ := ih hn.2 (s.finish a st [])
    have hl : ∀ c, c ≠ a → (s.finish a st []).lane c = s.lane c := fun c h => finish_lane_ne s (Ne.symm h) st []
    have ha : ((s.finish a st []).lane a).executing = none ∧ ((s.finish a st []).lane a).queue =
        (s.lane a).queue := by
      unfold State.finish
      split
      · next h => exact ⟨h, rfl⟩
      · split
        · rw [State.lane_setLane, if_pos rfl]; exact ⟨rfl, rfl⟩
        · show ((s.setLane a _).lane a).executing = none ∧ ((s.setLane a _).lane a).queue = _
          rw [State.lane_setLane, if_pos rfl]; exact ⟨rfl, rfl⟩
    refine ⟨fun c hc => ?_, fun c hc => ?_, ?_⟩
    · rw [List.foldl_cons]
      by_cases e : c = a
      · subst e; rw [h2 c hn.1]; exact ha
      · have hc' : c ∈ l := by simpa [e] using hc
        rw [← hl c e]; exact h1 c hc'
    · rw [List.foldl_cons, h2 c (fun x => hc (List.mem_cons_of_mem _ x)), hl c (fun x => hc
        (by rw [x]; exact List.mem_cons_self ..))]
    · rw [List.foldl_cons]
      have hrest : ∀ r, r ∈ o ↔ r.chan ∈ l ∧ ∃ e, (s.lane r.chan).executing = some e ∧ e.silent = false ∧ r =
          { chan := r.chan, tag := e.tag, status := st, payload := [] } := by
        intro r; rw [h4]
        constructor
        · rintro ⟨x, e, y⟩; refine ⟨x, e, ?_⟩; rw [hl r.chan (fun z => hn.1 (z ▸ x))] at y; exact y
        · rintro ⟨x, e, y⟩; refine ⟨x, e, ?_⟩; rw [hl r.chan (fun z => hn.1 (z ▸ x))]; exact y
      cases he : (s.lane a).executing with
      | none =>
        have hf : s.finish a st [] = s := by unfold State.finish; rw [he]
        refine ⟨o, by rw [h3, hf], fun r => ?_, h5⟩
        rw [hrest r, List.mem_cons]
        constructor
        · rintro ⟨x, y⟩; exact ⟨.inr x, y⟩
        · rintro ⟨x | x, e, y, z⟩
          · rw [x, he] at y; cases y
          · exact ⟨x, e, y, z⟩
      | some ex =>
        by_cases hs : ex.silent = true
        · have hf : (s.finish a st []).bench.output = s.bench.output := by
            unfold State.finish; rw [he]; simp only [hs, if_true]; rfl
          refine ⟨o, by rw [h3, hf], fun r => ?_, h5⟩
          rw [hrest r, List.mem_cons]
          constructor
          · rintro ⟨x, y⟩; exact ⟨.inr x, y⟩
          · rintro ⟨x | x, e, y, z, w⟩
            · rw [x, he] at y; cases y; rw [hs] at z; cases z
            · exact ⟨x, e, y, z, w⟩
        · have hs' : ex.silent = false := by simpa using hs
          have hf : (s.finish a st []).bench.output =
              s.bench.output ++ [{ chan := a, tag := ex.tag, status := st, payload := [] }] := by
            unfold State.finish; rw [he]; simp only [hs', Bool.false_eq_true, if_false]; rfl
          refine ⟨{ chan := a, tag := ex.tag, status := st, payload := [] } :: o, by rw [h3, hf]; simp, fun r => ?_, ?_⟩
          · rw [List.mem_cons, hrest r, List.mem_cons]
            constructor
            · rintro (x | ⟨x, y⟩)
              · subst x; exact ⟨.inl rfl, ex, he, hs', rfl⟩
              · exact ⟨.inr x, y⟩
            · rintro ⟨x | x, e, y, z, w⟩
              · rw [x, he] at y; cases y; left; rw [w, x]
              · exact .inr ⟨x, e, y, z, w⟩
          · rw [List.map_cons, List.nodup_cons]
            refine ⟨fun hm => ?_, h5⟩
            obtain ⟨r, hr, hra⟩ := List.mem_map.1 hm
            have := ((hrest r).1 hr).1
            rw [hra] at this
            exact hn.1 this

end Sys2Proof.Machine
end

