-- ==== Sys2Proof/Laws/Events.lean ====
section
/-! SUPPORT. Lemmas for the proofs: the events of a Match Unit and the changes a unit takes. -/

namespace Sys2Proof.Machine

open Host State

theorem matchBusy_iff (q : Port) : q.matchBusy = true ↔ ∃ m ∈ q.gate.fromMatch, m.isHandOver = true := by
  unfold Port.matchBusy; rw [List.any_eq_true]

theorem isArmed_iff (s : State) (i : Nat) : s.isArmed i = true ↔ ∃ r, s.table.recordAt i = some r ∧ r.state =
    .armed := by
  unfold State.isArmed; cases s.table.recordAt i <;> simp

theorem blocked_iff (v : RecordView) : v.blocked = true ↔ v.ChangeFirst := by
  unfold RecordView.blocked RecordView.ChangeFirst
  simp [Option.isSome_iff_ne_none]

/-- A Match Unit takes no event while its last observation waits at the gate, nor with a match side to take first. -/
theorem nextEvent_free {q : Port} (h : ¬ ((∃ m ∈ q.gate.fromMatch, m.isHandOver = true) ∨ q.mu.view.ChangeFirst)) :
    q.nextEvent = q.mu.events.head? := by
  unfold Port.nextEvent
  rw [if_neg]
  rw [Bool.or_eq_true, matchBusy_iff, blocked_iff]
  exact h

theorem nextEvent_busy {q : Port} (h : (∃ m ∈ q.gate.fromMatch, m.isHandOver = true) ∨ q.mu.view.ChangeFirst) :
    q.nextEvent = none := by
  unfold Port.nextEvent
  rw [if_pos]
  rw [Bool.or_eq_true, matchBusy_iff, blocked_iff]
  exact h

theorem nextEvent_or {q : Port} (x : MatchEvent) (h : ((∃ m ∈ q.gate.fromMatch, m.isHandOver = true) ∨
    q.mu.view.ChangeFirst) ∨ q.mu.events.head? ≠ some x) : q.nextEvent ≠ some x := by
  rcases h with h | h
  · rw [nextEvent_busy h]; simp
  · unfold Port.nextEvent; split
    · simp
    · exact h

theorem popEvent_eq (s : State) (p : PortId) (x : MatchEvent) (rest : List MatchEvent) (h : (s.port p).mu.events =
    x :: rest) :
    s.popEvent p = s.setPort p { s.port p with mu := { (s.port p).mu with
      events := rest, view := { (s.port p).mu.view with begun := false } } } := by
  unfold State.popEvent State.setMatch; rw [h]; rfl

theorem discardExpiry_eq (i : Nat) (l : List MatchEvent) : MatchUnit.discardExpiry i l = l.map fun x => if x =
    .quiet i true then .quiet i false else x := by
  unfold MatchUnit.discardExpiry
  apply List.map_congr_left
  intro x _
  cases x with
  | obs o ep => simp
  | edge n d ep => simp
  | quiet j b =>
    simp only
    by_cases e : j = i
    · subst e; cases b <;> simp
    · rw [if_neg e, if_neg (by simp [e])]

theorem matchLive_iff (m : MatchUnit) : m.live = true ↔ m.link = .locked ∧ (m.run = .running ∨ m.run =
    .stepping) := by
  simp [MatchUnit.live]

theorem unitBusy_iff (s : State) (u : UnitId) : s.unitBusy u = true ↔ ∃ p, u = .matchUnit p ∧ ∃ m ∈
    (s.port p).gate.fromMatch, m.isHandOver = true := by
  cases u with
  | matchUnit p => unfold State.unitBusy; simp only [matchBusy_iff]; simp
  | crossLine => unfold State.unitBusy; simp

/-- Some of the units is in the middle of an event (R35, R45). -/
theorem anyBusy_iff (s : State) (us : List UnitId) : s.anyBusy us = true ↔ ∃ u ∈ us, s.InEvent u := by
  unfold State.anyBusy
  simp only [List.any_eq_true, unitBusy_iff]
  rfl

theorem anyBusy_false (s : State) (us : List UnitId) : s.anyBusy us = false ↔ ∀ u ∈ us, ¬ s.InEvent u := by
  rw [← Bool.not_eq_true, anyBusy_iff]
  exact ⟨fun h u hu hb => h ⟨u, hu, hb⟩, fun h ⟨u, hu, hb⟩ => h u hu hb⟩

theorem unitWaits_iff (s : State) (u : UnitId) : s.unitWaits u = false ↔ s.NoEvent u := by
  cases u <;> simp [State.unitWaits, State.NoEvent]

theorem unitIdle_iff (s : State) (u : UnitId) : s.unitIdle u = true ↔ s.Idle u := by
  unfold State.unitIdle State.Idle
  simp only [Bool.and_eq_true, Bool.or_eq_true, Bool.not_eq_true', unitWaits_iff, blocked_iff]
  rw [← Bool.not_eq_true, unitBusy_iff]
  rfl

theorem changeDone_iff (s : State) (n : Nat) : s.changeDone n = true ↔ ¬ ∃ v, ∃ x ∈ (s.view v).tokens, x.change =
    n := by
  unfold State.changeDone
  rw [List.all_eq_true]
  constructor
  · rintro h ⟨v, x, hx, he⟩
    have := h v (mem_allUnits v)
    rw [List.all_eq_true] at this
    have := this x hx
    simp [he] at this
  · intro h u _
    rw [List.all_eq_true]
    intro k hk
    simp only [decide_eq_true_eq]
    exact fun e => h ⟨u, k, hk, e⟩

theorem takeUpdate_view (s : State) (u : UnitId) (x : CopyEntry × Bool) : (s.takeUpdate u x).view u =
    { s.view u with copy := insertEntry x.1 ((s.view u).copy.filter fun e => e.slot ≠ x.1.slot) } := by
  unfold State.takeUpdate; simp only
  split
  · split
    · rw [view_restartQuiet, view_setView, if_pos rfl]
    · rw [view_setView, if_pos rfl]
  · rw [view_setView, if_pos rfl]

theorem setView_mu (s : State) (u : UnitId) (v : RecordView) (p : PortId) : ((s.setView u v).port p).mu.live =
    (s.port p).mu.live ∧ ((s.setView u v).port p).mu.timers = (s.port p).mu.timers := by
  have := (setView_recordsOnly s u v).ports p
  cases u with
  | matchUnit q =>
    simp only [State.setView, port_setPort]
    split
    · next e => subst e; exact ⟨rfl, rfl⟩
    · exact ⟨rfl, rfl⟩
  | crossLine => exact ⟨rfl, rfl⟩

theorem find_insertEntry (e : CopyEntry) (l : List CopyEntry) (hl : ∀ x ∈ l, x.slot ≠ e.slot) :
    (insertEntry e l).find? (fun x => decide (x.slot = e.slot)) = some e := by
  induction l with
  | nil => simp [insertEntry]
  | cons f rest ih =>
    unfold insertEntry
    split
    · simp
    · have := hl f (List.mem_cons_self ..)
      rw [List.find?_cons_of_neg (by simpa using this)]
      exact ih (fun x hx => hl x (List.mem_cons_of_mem _ hx))

theorem changeWaiter_none (s : State) (n : Nat) (h : ∀ c, ¬ ∃ e pl, (s.lane c).executing = some e ∧ e.wait =
    .change n pl) : s.changeWaiter n = none := by
  unfold State.changeWaiter
  rw [List.findSome?_eq_none_iff]
  intro c _
  cases he : (s.lane c).executing with
  | none => rfl
  | some e =>
    obtain ⟨tag, kind, w, silent⟩ := e
    cases w with
    | change m pl =>
      simp only
      rw [if_neg]
      rintro rfl
      exact h c ⟨_, pl, he, rfl⟩
    | _ => rfl

theorem changeWaiter_some (s : State) (n : Nat) (c : ChanId) (e : Executing) (pl : List Byte) (he :
    (s.lane c).executing = some e) (hw : e.wait = .change n pl)
   (h : ∀ d, d ≠ c → ¬ ∃ e pl, (s.lane d).executing = some e ∧ e.wait = .change n pl) : s.changeWaiter n = some (c,
       pl) := by
  unfold State.changeWaiter
  have hc : (match (s.lane c).executing with
    | some { wait := .change m payload, .. } => if m = n then some (c, payload) else none
    | _ => none) = some (c, pl) := by
    rw [he]
    obtain ⟨tag, kind, w, silent⟩ := e
    cases hw
    simp
  have hd : ∀ d, d ≠ c → (match (s.lane d).executing with
    | some { wait := .change m payload, .. } => if m = n then some (d, payload) else none
    | _ => none) = none := by
    intro d hdc
    cases he' : (s.lane d).executing with
    | none => rfl
    | some e =>
      obtain ⟨tag, kind, w, silent⟩ := e
      cases w with
      | change m pl =>
        simp only
        rw [if_neg]
        rintro rfl
        exact h d hdc ⟨_, pl, he', rfl⟩
      | _ => rfl
  have key : ∀ l : List ChanId, c ∈ l → (l.findSome? fun d => match (s.lane d).executing with
    | some { wait := .change m payload, .. } => if m = n then some (d, payload) else none
    | _ => none) = some (c, pl) := by
    intro l
    induction l with
    | nil => intro hh; cases hh
    | cons a rest ih =>
      intro hh
      rw [List.findSome?_cons]
      by_cases ea : a = c
      · subst ea; rw [hc]
      · rw [hd a ea]
        rcases List.mem_cons.1 hh with hh | hh
        · exact (ea hh.symm).elim
        · exact ih hh
  exact key _ (mem_allChans c)

theorem takeToken_spec (s : State) (u : UnitId) (k : Token) (rest : List Token) :
   let t := (s.takeToken u k).setView u { (s.takeToken u k).view u with tokens := rest, begun := false }
   s.RecordsOnly t ∧ t.table = s.table ∧ t.notice = s.notice := by
  intro t
  have h : s.RecordsOnly (s.takeToken u k) ∧ (s.takeToken u k).table = s.table ∧ (s.takeToken u k).notice =
      s.notice := by
    unfold State.takeToken; split
    · exact ⟨takeUpdate_recordsOnly _ _ _, by simp, takeUpdate_notice _ _ _⟩
    · exact ⟨.rfl' _, rfl, rfl⟩
  exact ⟨h.1.trans (setView_recordsOnly _ _ _), (setView_table _ _ _).trans h.2.1, (setView_notice _ _ _).trans h.2.2⟩

end Sys2Proof.Machine
end

