-- ==== Sys2Proof/Laws/Fires.lean ====
section
/-! SUPPORT. Lemmas for the proofs: what a fire does to the table and what it hands over. -/

namespace Sys2Proof.Machine

open Host State

def armedRec (r : Record) : Record := if r.state = .waiting then { r with state := .armed, hits := 0 } else r

theorem armedRec_idem (r : Record) : armedRec (armedRec r) = armedRec r := by
  unfold armedRec; split <;> simp_all

theorem armDependent_slotAt (s : State) (k j : Nat) :
    (s.armDependent k).table.slotAt j = if j = k then
        { issue := (s.table.slotAt j).issue, record := (s.table.recordAt j).map armedRec } else s.table.slotAt j := by
  unfold State.armDependent
  cases hk : s.table.recordAt k with
  | none =>
    simp only
    split
    · next e => subst e; have : (s.table.slotAt j).record = none := hk; rw [hk, Option.map_none, ← this]
    · rfl
  | some r =>
    have hl := s.table.lt_of_recordAt hk
    simp only
    by_cases hw : r.state = .waiting
    · rw [if_pos hw, restartQuiet_table, setTable_table, WatchTable.slotAt_setRecord]
      by_cases e : j = k
      · subst e; rw [if_pos ⟨rfl, hl⟩, if_pos rfl, hk]; simp [armedRec, hw]
      · rw [if_neg (fun h => e h.1.symm), if_neg e]
    · rw [if_neg hw]
      split
      · next e =>
        subst e
        have : (s.table.slotAt j).record = some r := hk
        have h2 : armedRec r = r := by simp [armedRec, hw]
        rw [hk, Option.map_some, h2, ← this]
      · rfl

theorem armAll_slotAt (ks : List Nat) (s : State) (j : Nat) :
    (ks.foldl State.armDependent s).table.slotAt j = if j ∈ ks then
        { issue := (s.table.slotAt j).issue, record := (s.table.recordAt j).map armedRec } else s.table.slotAt j := by
  induction ks generalizing s with
  | nil => rfl
  | cons k rest ih =>
    rw [List.foldl_cons, ih]
    have h2 : (s.armDependent k).table.recordAt j = ((s.armDependent k).table.slotAt j).record := rfl
    rw [h2, armDependent_slotAt]
    by_cases e : j = k
    · subst e
      simp only [if_true, List.mem_cons_self]
      split
      · simp [Option.map_map, Function.comp_def, armedRec_idem]
      · rfl
    · by_cases m : j ∈ rest <;> simp [m, e, WatchTable.recordAt]

theorem mem_waitingAfter (t : WatchTable) (h : Handle) (j : Nat) : j ∈ t.waitingAfter h ↔ ∃ x, t.recordAt j =
    some x ∧ x.state = .waiting ∧ x.after = some h := by
  unfold WatchTable.waitingAfter
  rw [List.mem_filter, mem_dependents]
  constructor
  · rintro ⟨⟨x, hx, ha⟩, h2⟩
    rw [hx] at h2
    exact ⟨x, hx, by simpa using h2, ha⟩
  · rintro ⟨x, hx, hw, ha⟩
    exact ⟨⟨x, hx, ha⟩, by simp [hx, hw]⟩

theorem hit_fires {e : CopyEntry} {ev : HitEvent} {s : State} {r : Record} (hr : s.table.recordAt e.slot = some r)
    (ha : r.state = .armed) (hg : r.hits + 1 = r.goal) :
    s.hit e ev = s.fire e.slot (r.counted ev) e.side.actions ev := by
  unfold State.hit
  rw [hr]
  simp only [ha, if_true]
  rw [if_pos]; exact hg

theorem armDependent_keeps (s : State) (j : Nat) : (s.armDependent j).notice = s.notice ∧
    (s.armDependent j).cross = s.cross ∧
    ∀ p, ((s.armDependent j).port p).rc = (s.port p).rc ∧ ((s.armDependent j).port p).gate = (s.port p).gate := by
  have hq : ∀ (x : State) i r, (x.restartQuiet i r).notice = x.notice ∧ (x.restartQuiet i r).cross = x.cross ∧
    ∀ p, ((x.restartQuiet i r).port p).rc = (x.port p).rc ∧ ((x.restartQuiet i r).port p).gate = (x.port p).gate := by
    intro x i r
    refine ⟨restartQuiet_notice _ _ _, ?_, fun p => ?_⟩
    · unfold State.restartQuiet; split
      · rfl
      · simp only; split <;> rfl
    · have := (restartQuiet_recordsOnly x i r).ports p
      rw [this]; exact ⟨rfl, rfl⟩
  unfold State.armDependent
  split
  · split
    · exact hq _ _ _
    · exact ⟨rfl, rfl, fun _ => ⟨rfl, rfl⟩⟩
  · exact ⟨rfl, rfl, fun _ => ⟨rfl, rfl⟩⟩

theorem armAll_keeps (ks : List Nat) (s : State) : (ks.foldl State.armDependent s).notice = s.notice ∧
    (ks.foldl State.armDependent s).cross = s.cross ∧
    ∀ p, ((ks.foldl State.armDependent s).port p).rc = (s.port p).rc ∧
        ((ks.foldl State.armDependent s).port p).gate = (s.port p).gate := by
  induction ks generalizing s with
  | nil => exact ⟨rfl, rfl, fun _ => ⟨rfl, rfl⟩⟩
  | cons k rest ih =>
    rw [List.foldl_cons]
    obtain ⟨a, b, c⟩ := ih (s.armDependent k)
    obtain ⟨a', b', c'⟩ := armDependent_keeps s k
    exact ⟨a.trans a', b.trans b', fun p => ⟨(c p).1.trans (c' p).1, (c p).2.trans (c' p).2⟩⟩

theorem foldl_setPort_port (f : Port → Port) (ps : List PortId) (hn : ps.Nodup) (s : State) (p : PortId) :
    (ps.foldl (fun t q => t.setPort q (f (t.port q))) s).port p = if p ∈ ps then f (s.port p) else s.port p := by
  induction ps generalizing s with
  | nil => rfl
  | cons q rest ih =>
    rw [List.nodup_cons] at hn
    rw [List.foldl_cons, ih hn.2, port_setPort]
    by_cases e : q = p
    · subst e; simp [hn.1]
    · simp [e, Ne.symm e]

theorem foldl_setPort_rest (f : Port → Port) (ps : List PortId) (s : State) :
    (ps.foldl (fun t q => t.setPort q (f (t.port q))) s).notice = s.notice ∧ (ps.foldl (fun t q => t.setPort q (f
        (t.port q))) s).cross = s.cross := by
  induction ps generalizing s with
  | nil => exact ⟨rfl, rfl⟩
  | cons q rest ih => rw [List.foldl_cons]; exact ih _

theorem dispatch_spec (s : State) (ev : HitEvent) (a : Actions) (h : Handle) (o : ChanId) (ps : List PortId)
    (hn : ps.Nodup) :
    (s.dispatch ev a h o ps).notice =
        { s.notice with signals := s.notice.signals ++ (if a.signal then [(ev.takenBy, h, o)] else []) } ∧
    (s.dispatch ev a h o ps).cross =
        { s.cross with requests := s.cross.requests ++ (match a.crossPulse, ev.takenBy with
      | some x, .matchUnit p => [(p, x)]
      | _, _ => []) } ∧
    ∀ p, (s.dispatch ev a h o ps).port p = if p ∈ ps then (s.port p).takeActions ev a h o else s.port p := by
  unfold State.dispatch
  have hs1 : ∀ s1 : State, s1 = (if a.signal then s.sendSignal ev.takenBy h o else s) → s1.notice =
      { s.notice with signals := s.notice.signals ++ (if a.signal then [(ev.takenBy, h, o)] else []) } ∧ s1.cross = s.cross ∧ ∀ p, s1.port p = s.port p := by
    rintro s1 rfl
    cases a.signal
    · simp
    · exact ⟨rfl, rfl, fun _ => rfl⟩
  obtain ⟨x1, x2, x3⟩ := hs1 _ rfl
  generalize (if a.signal then s.sendSignal ev.takenBy h o else s) = s1 at *
  have y := foldl_setPort_port (fun q => q.takeActions ev a h o) ps hn s1
  obtain ⟨y1, y2⟩ := foldl_setPort_rest (fun q => q.takeActions ev a h o) ps s1
  simp only
  generalize ps.foldl (fun t q => t.setPort q ((t.port q).takeActions ev a h o)) s1 = s2 at *
  cases hx : a.crossPulse with
  | none =>
    simp only
    refine ⟨y1.trans x1, ?_, fun p => ?_⟩
    · rw [y2, x2]; cases ev.takenBy <;> simp
    · rw [y p, x3 p]
  | some x =>
    simp only
    unfold State.pushPulse
    cases hu : ev.takenBy with
    | matchUnit q =>
      rw [hu] at x1
      refine ⟨y1.trans x1, ?_, fun p => ?_⟩
      · simp only; rw [y2, x2]
      · show s2.port p = _; rw [y p, x3 p]
    | crossLine =>
      rw [hu] at x1
      refine ⟨y1.trans x1, ?_, fun p => ?_⟩
      · simp only; rw [y2, x2]; simp
      · show s2.port p = _; rw [y p, x3 p]

theorem takeActions_spec (q : Port) (ev : HitEvent) (a : Actions) (h : Handle) (o : ChanId) :
    let gates : List GateMsg := (match a.gateOpen with
      | some span => [.openGate span h ev.kind]
      | none => []) ++ (if a.gateClose then [.closeGate ev.kind] else [])
    (q.foreignSole o = true → q.takeActions ev a h o = q) ∧
    (q.foreignSole o = false → (∀ p, ev.takenBy = .matchUnit p →
        (q.takeActions ev a h o).rc =
            { q.rc with fromUnits := q.rc.fromUnits ++ (if a.freeze then [.freeze false o] else []) } ∧
        (q.takeActions ev a h o).gate = { q.gate with fromMatch := q.gate.fromMatch ++ gates }) ∧
      (ev.takenBy = .crossLine →
        (q.takeActions ev a h o).rc =
            { q.rc with fromUnits := q.rc.fromUnits ++ (if a.freeze then [.freeze true o] else []) } ∧
        (q.takeActions ev a h o).gate = { q.gate with fromCross := q.gate.fromCross ++ gates })) := by
  intro gates
  refine ⟨fun hh => by unfold Port.takeActions; rw [if_pos hh], fun hh => ⟨fun p hp => ?_, fun hp => ?_⟩⟩
  all_goals
    unfold Port.takeActions Port.pushFreeze Port.pushGate
    rw [hh, hp]
    simp only [gates]
    cases a.freeze <;> cases a.gateOpen <;> cases a.gateClose <;> simp

theorem mem_actionPorts (ev : HitEvent) (sc : Scope) (p : PortId) : p ∈ actionPorts ev sc ↔ (match ev with
      | .obs p' _ _ => p = p'
      | .edge p' _ _ _ => p = p'
      | .silence p' _ => p = p'
      | .cross _ => sc = .all ∨ sc = .one p ∨ ∃ p', sc = .allBut p' ∧ p ≠ p') := by
  cases ev <;> simp only [actionPorts, List.mem_singleton]
  rw [List.mem_filter]
  have : p ∈ allPorts := by revert p; decide
  cases sc <;> simp [Scope.covers, this]
  exact eq_comm

theorem actionPorts_nodup (ev : HitEvent) (sc : Scope) : (actionPorts ev sc).Nodup := by
  cases ev <;> simp [actionPorts]
  exact List.Nodup.filter _ (by decide)

end Sys2Proof.Machine
end

