-- ==== Sys2Proof/Laws/Kept.lean ====
section
/-! SUPPORT. Each move of `State.Move` keeps each invariant of the part beside its ports. -/

namespace Sys2Proof.Machine.State

open Host

theorem attentionCondition_congr {s t : State} (h1 : t.chans = s.chans) (h2 : t.notice.pending =
    s.notice.pending) : t.attentionCondition = s.attentionCondition := by
  simp [attentionCondition, chan, pendingOf, h1, h2]

theorem reevaluate_attention (s : State) : AttentionHolds s.reevaluate := (attentionHolds_iff _).2 rfl

theorem any_chan_congr {f g : ChanId → Bool} (h : ∀ c, f c = g c) : allChans.any f = allChans.any g := by
  congr 1; funext c; exact h c

theorem Move.keeps_attention (h s k t) (m : Move h s k t) (x : AttentionHolds s) : AttentionHolds t := by
  have P : ∀ {u : State}, u.chans = s.chans → u.notice.pending = s.notice.pending → u.notice.attn = s.notice.attn →
      AttentionHolds u := by
    intro u a b c; rw [attentionHolds_iff] at *; rw [c, x, attentionCondition_congr a b]
  cases m with
  | aside a => exact P a.chans a.sets a.attn
  | ended a => exact P a.chans (by rw [a.notice]) (by rw [a.notice])
  | kept a _ => exact P a.chans a.sets a.attn
  | placed i r a => exact P a.chans a.sets a.attn
  | took => exact P rfl rfl rfl
  | answered => exact P rfl rfl rfl
  | waits => exact P rfl rfl rfl
  | opened => exact reevaluate_attention _
  | tearing c y =>
    have : ∀ u : State, AttentionHolds u → AttentionHolds (u.beginTeardown c) := by
      intro u hu; unfold beginTeardown; split <;> exact hu
    apply this
    rw [attentionHolds_iff] at *; unfold attentionCondition at *
    rw [setChan_notice, x]
    apply any_chan_congr
    intro d
    rw [chan_setChan, setChan_pendingOf]
    split
    · next e => subst e; rfl
    · rfl
  | lapsed => exact P rfl rfl rfl
  | enabled => exact reevaluate_attention _
  | leased c =>
    rw [attentionHolds_iff] at *; unfold attentionCondition at *
    rw [setChan_notice, x]
    apply any_chan_congr
    intro d
    rw [chan_setChan, setChan_pendingOf]
    split
    · next e => subst e; rfl
    · rfl
  | noted => exact reevaluate_attention _
  | arrived => exact P rfl rfl rfl
  | sent => unfold responseTransmit; split <;> exact P rfl rfl rfl
  | staged => exact P rfl rfl rfl
  | torn c =>
    unfold nextTeardown
    split <;> exact reevaluate_attention _
  | loaded c =>
    rw [attentionHolds_iff] at *; unfold attentionCondition at *
    rw [setChan_notice, x]
    apply any_chan_congr
    intro d
    rw [chan_setChan, setChan_pendingOf]
    split
    · next e => subst e; rfl
    · rfl
  | described => exact P rfl rfl rfl
  | benchReset =>
    have h0 : ∀ c, (s.benchReset.chan c).isOpen = false := by
      intro c; unfold State.benchReset chan; fin_cases c <;> rfl
    rw [attentionHolds_iff]; unfold attentionCondition
    show false = _
    simp [h0]

theorem Move.keeps_pendings (h s k t) (m : Move h s k t) (x : PendingsHold s) : PendingsHold t := by
  have P : ∀ {u : State}, (∀ c, (u.chan c).isOpen = (s.chan c).isOpen) → u.notice.pending = s.notice.pending →
      PendingsHold u := by
    intro u a b c; rw [pendingOf_congr b, a]; exact x c
  have Q : ∀ {u : State}, u.chans = s.chans → u.notice.pending = s.notice.pending → PendingsHold u :=
    fun a b => P (fun c => by simp [chan, a]) b
  have E : ∀ {u : State} (c : ChanId), u.pendingOf c = Pending.empty →
      (u.pendingOf c).holdsTo c ∧ ((u.chan c).isOpen = false → u.pendingOf c = Pending.empty) := by
    intro u c e; rw [e]; exact ⟨Pending.empty_holds c, fun _ => rfl⟩
  cases m with
  | aside a => exact Q a.chans a.sets
  | ended a => exact Q a.chans (by rw [a.notice])
  | kept a _ => exact Q a.chans a.sets
  | placed i r a => exact Q a.chans a.sets
  | took => exact Q rfl rfl
  | answered => exact Q rfl rfl
  | waits => exact Q rfl rfl
  | opened c q =>
    intro d
    by_cases e : c = d
    · subst e
      exact E c (by rw [reevaluate_pendingOf]; exact pendingOf_setPending_same _ _ _)
    · have h1 : (((s.setChan c (openedChannel (s.chan c) q)).emptyPending c).reevaluate).pendingOf d = s.pendingOf d := by
        rw [reevaluate_pendingOf]; exact (pendingOf_setPending_ne _ e _).trans rfl
      have h2 : (((s.setChan c (openedChannel (s.chan c) q)).emptyPending c).reevaluate).chan d = s.chan d := by
        show (s.setChan c _).chan d = _
        rw [chan_setChan, if_neg e]
      rw [h1, h2]; exact x d
  | tearing c y =>
    have B : ∀ u : State, PendingsHold u → PendingsHold (u.beginTeardown c) := by
      intro u hu; unfold beginTeardown; split <;> exact hu
    refine B _ (P (fun d => ?_) rfl)
    rw [chan_setChan]; split
    · next e => subst e; rfl
    · rfl
  | lapsed => exact Q rfl rfl
  | enabled c e =>
    refine P (fun d => ?_) rfl
    show ((s.setChan c _).chan d).isOpen = _
    rw [chan_setChan]; split
    · next e => subst e; rfl
    · rfl
  | leased c =>
    refine P (fun d => ?_) rfl
    rw [chan_setChan]; split
    · next e => subst e; rfl
    · rfl
  | noted n hn =>
    intro c
    have h1 : (({ s with notice := n } : State).reevaluate).pendingOf c = ({ s with notice := n } : State).pendingOf c := rfl
    have h2 : (({ s with notice := n } : State).reevaluate).chan c = s.chan c := rfl
    rw [h1, h2]
    rcases hn c with e | e | ⟨a, b⟩
    · rw [e]; exact x c
    · rw [e]; exact ⟨Pending.empty_holds c, fun _ => rfl⟩
    · exact ⟨b (x c).1, fun hc => by rw [a] at hc; cases hc⟩
  | arrived => exact Q rfl rfl
  | sent => unfold responseTransmit; split <;> exact Q rfl rfl
  | staged => exact Q rfl rfl
  | torn c =>
    have B : ∀ u : State, PendingsHold u → PendingsHold u.nextTeardown := by
      intro u hu; unfold nextTeardown; split <;> exact hu
    refine B _ fun d => ?_
    by_cases e : c = d
    · subst e
      exact E c (by rw [reevaluate_pendingOf]; exact pendingOf_setPending_same _ _ _)
    · have h1 : (((s.setChan c (s.chan c).closed).emptyPending c).reevaluate).pendingOf d = s.pendingOf d := by
        rw [reevaluate_pendingOf]; exact (pendingOf_setPending_ne _ e _).trans rfl
      have h2 : (((s.setChan c (s.chan c).closed).emptyPending c).reevaluate).chan d = s.chan d := by
        show (s.setChan c _).chan d = _
        rw [chan_setChan, if_neg e]
      rw [h1, h2]; exact x d
  | loaded c =>
    refine P (fun d => ?_) rfl
    rw [chan_setChan]; split
    · next e => subst e; rfl
    · rfl
  | described => exact Q rfl rfl
  | benchReset => exact fun c => E c (by unfold State.benchReset pendingOf; fin_cases c <;> rfl)

theorem Move.keeps_frames (h s k t) (m : Move h s k t) (x : s.FramesIn h) : t.FramesIn k := by
  have P : ∀ {u : State}, u.bench.lanes = s.bench.lanes → u.bench.output = s.bench.output → u.FramesIn h := by
    intro u a b c
    have h1 : u.lane c = s.lane c := lane_congr a c
    have h2 : u.responsesOf c = s.responsesOf c := by unfold responsesOf; rw [b]
    rw [h1, h2]; exact x c
  cases m with
  | aside a => exact P a.lanes a.output
  | ended a => exact a.frames _ x
  | kept a _ => exact P (by rw [a.bench]) (by rw [a.bench])
  | placed i r a => exact P (by rw [a.bench]) (by rw [a.bench])
  | took c f hf => exact popFrame_frames hf x
  | answered f st pl a => exact answer_frames f st pl a x
  | waits f w he => exact wait_frames f w he x
  | opened => exact P rfl rfl
  | tearing c y =>
    have : ∀ u : State, u.FramesIn h → (u.beginTeardown c).FramesIn h := by
      intro u hu; unfold beginTeardown; split <;> exact hu
    exact this _ (P rfl rfl)
  | lapsed c =>
    intro d
    rw [responsesOf_setLane, lane_setLane]
    obtain ⟨h1, h2⟩ := x d
    split
    · next e => subst e; simp [lapseLane] at *; refine ⟨by omega, by omega⟩
    · exact ⟨h1, h2⟩
  | enabled => exact P rfl rfl
  | leased c => exact P rfl rfl
  | noted => exact P rfl rfl
  | arrived c f hl =>
    intro d
    rw [responsesOf_setLane, lane_setLane]
    obtain ⟨h1, h2⟩ := x d
    split
    · next e => subst e; simp at *; refine ⟨by omega, by omega⟩
    · exact ⟨h1, h2⟩
  | sent =>
    have hT : s.responseTransmit.FramesIn h := by
      cases hr : s.bench.output with
      | nil => unfold responseTransmit; simp only [hr]; exact x
      | cons r rest =>
        intro d
        have h3 : s.responsesOf d = (if r.chan = d then 1 else 0) + rest.countP (fun r => r.chan = d) := by
          unfold responsesOf; rw [hr, List.countP_cons]; by_cases hd : r.chan = d <;> simp [hd]; omega
        have h5 : s.responseTransmit.responsesOf d = rest.countP (fun r => r.chan = d) := by
          unfold responseTransmit responsesOf; simp only [hr]
        have h6 : s.responseTransmit.lane d = if r.chan = d then { s.lane r.chan with outstanding :=
            (s.lane r.chan).outstanding - 1 } else s.lane d := by
          rw [← lane_setLane s r.chan d]; unfold responseTransmit; simp only [hr]; rfl
        obtain ⟨h1, h2⟩ := x d
        rw [h5, h6]
        split
        · next e => subst e; simp at *; refine ⟨by omega, by omega⟩
        · next e => simp [e] at *; exact ⟨by omega, h2⟩
    exact hT
  | staged => exact P rfl rfl
  | torn c => unfold nextTeardown; split <;> exact P rfl rfl
  | loaded c => exact P rfl rfl
  | described => exact P rfl rfl
  | benchReset =>
    intro d
    have hl : s.benchReset.lane d = resetLane (s.lane d) := by
      unfold State.benchReset lane; fin_cases d <;> rfl
    have hr : s.benchReset.responsesOf d = s.responsesOf d := rfl
    obtain ⟨h1, h2⟩ := x d
    rw [hl, hr]; simp [resetLane]; omega

theorem KeptTo_records {c0 : Prop} {t u : WatchTable} (k : t.KeptTo c0 u) (h : t.slots.length = 96 ∧ ∀ i r,
    t.recordAt i = some r → r.countHolds) :
   u.slots.length = 96 ∧ ∀ i r, u.recordAt i = some r → r.countHolds := by
  refine ⟨k.length.trans h.1, fun i r hr => ?_⟩
  obtain ⟨r', h1, h2⟩ := k.back i r hr
  exact h2.count (h.2 i r' h1)

theorem resetTable_recordAt (t : WatchTable) (i : Nat) : (resetTable t).recordAt i = none := by
  unfold resetTable WatchTable.recordAt WatchTable.slotAt
  simp only [List.getD_eq_getElem?_getD, List.getElem?_map]
  cases h : t.slots[i]? with
  | none => rfl
  | some x => simp; split <;> simp_all

theorem beginTeardown_kept (s : State) (c) : (s.beginTeardown c).table = s.table ∧ (s.beginTeardown c).chans =
    s.chans := by
  unfold beginTeardown; split <;> exact ⟨rfl, rfl⟩
theorem nextTeardown_kept (s : State) : (s.nextTeardown).table = s.table ∧ (s.nextTeardown).chans = s.chans := by
  unfold nextTeardown; split <;> exact ⟨rfl, rfl⟩

/-- What a move leaves of the table: the same slots, slots in which records only changed as `KeptTo` allows,
    one record
more, or no record at all. -/
theorem Move.leaves_table (h s k t) (m : Move h s k t) : t.table.slots = s.table.slots ∨
    s.table.KeptTo s.Handing t.table ∨
   (∃ i r, s.table.hasRoom r = true ∧ s.table.recordAt i = none ∧ i < s.table.slots.length ∧ r.countHolds ∧
       r.tallyHolds ∧ (s.chan r.owner).isOpen = true ∧ (s.chan r.owner).teardown = none ∧ t.chans = s.chans ∧
       t.teardowns = s.teardowns ∧ t.table.slots = (s.table.setRecord i r).slots) ∨
   ((∀ i, t.table.recordAt i = none) ∧ (s.table.slots.length = 96 → t.table.slots.length = 96)) := by
  cases m with
  | aside a => exact .inl (by rw [a.table])
  | ended a => exact .inl (by rw [a.table])
  | kept a k => exact .inr (.inl k)
  | placed i r a h1 h2 h3 h4 h5 h6 h7 h8 => exact .inr (.inr (.inl ⟨i, r, h1, h2, h3, h4, h5, h6, h7, a.chans,
      a.teardowns, h8⟩))
  | tearing c y => exact .inl (by rw [(beginTeardown_kept _ _).1]; rfl)
  | torn => exact .inl (by rw [(nextTeardown_kept _).1]; rfl)
  | sent => refine .inl ?_; unfold responseTransmit; split <;> rfl
  | benchReset => 
    refine .inr (.inr (.inr ⟨fun i => resetTable_recordAt _ i, fun h => ?_⟩))
    show (resetTable s.table).slots.length = 96
    simpa [resetTable] using h
  | _ => exact .inl rfl

theorem recordAt_congr {t u : WatchTable} (h : u.slots = t.slots) (i : Nat) : u.recordAt i = t.recordAt i := by
  simp [WatchTable.recordAt, WatchTable.slotAt, h]

theorem Move.keeps_records (h s k t) (m : Move h s k t) (x : RecordsHold s) : RecordsHold t := by
  obtain ⟨x1, x2⟩ := x
  rcases Move.leaves_table _ _ _ _ m with e | e | ⟨i, r, h1, h2, h3, h4, h5, h6, h7, h7a, h7b, h8⟩ | e
  · exact ⟨by rw [e]; exact x1, fun i r hr => x2 i r (by rw [← recordAt_congr e]; exact hr)⟩
  · exact KeptTo_records e ⟨x1, x2⟩
  · refine ⟨by rw [h8]; simpa using x1, fun j r' hr => ?_⟩
    rw [recordAt_congr h8, WatchTable.recordAt_setRecord] at hr
    split at hr
    · cases hr; exact h4
    · exact x2 _ _ hr
  · exact ⟨e.2 x1, fun i r hr => by rw [e.1] at hr; cases hr⟩

theorem Move.keeps_tallies (h s k t) (m : Move h s k t) (x : TalliesHold s) : TalliesHold t := by
  rcases Move.leaves_table _ _ _ _ m with e | e | ⟨i, r, h1, h2, h3, h4, h5, h6, h7, h7a, h7b, h8⟩ | e
  · exact fun i r t hr => x i r t (by rw [← recordAt_congr e]; exact hr)
  · intro i r t hr
    obtain ⟨r', h1, h2⟩ := e.back i r hr
    exact h2.tally (fun t => x i r' t h1) t
  · intro j r' t hr
    rw [recordAt_congr h8, WatchTable.recordAt_setRecord] at hr
    split at hr
    · cases hr; exact h5 t
    · exact x _ _ t hr
  · exact fun i r t hr => by rw [e.1] at hr; cases hr

theorem entryFor_congr {t u : WatchTable} (h : u.slots = t.slots) (y : UnitId) (i : Nat) : u.entryFor y i =
    t.entryFor y i := by
  simp [WatchTable.entryFor, recordAt_congr h]

theorem Move.keeps_chains (h s k t) (m : Move h s k t) (x : ChainsHold s) : ChainsHold t := by
  intro u
  rcases Move.leaves_table _ _ _ _ m with e | e | ⟨i, r, h1, h2, h3, h4, h5, h6, h7, h7a, h7b, h8⟩ | e
  · have : t.table.chain u = s.table.chain u := by
      unfold WatchTable.chain WatchTable.indices
      rw [e]; congr 2; funext i; exact entryFor_congr e u i
    rw [this]; exact x u
  · refine le_trans ?_ (x u)
    rw [WatchTable.chain_length, WatchTable.chain_length]
    unfold WatchTable.indices
    rw [e.length]
    refine List.countP_mono_left fun i _ => ?_
    unfold WatchTable.entryFor
    cases hr : t.table.recordAt i with
    | none => simp
    | some r' =>
      obtain ⟨r, a, b⟩ := e.back i r' hr
      rw [a]
      have : r'.memberOf u = r.memberOf u := by
        cases u <;> simp [Record.memberOf, b.scope, b.cross]
      simp only [this]
      split <;> simp
  · have hlen : ∀ v : WatchTable, v.slots = (s.table.setRecord i r).slots → (v.chain u).length ≤
      (s.table.chain u).length + (if r.memberOf u then 1 else 0) := by
      intro v hv
      rw [WatchTable.chain_length, WatchTable.chain_length]
      unfold WatchTable.indices
      rw [hv, WatchTable.setRecord_length]
      have key : ∀ (l : List Nat), l.Nodup → l.countP (fun j => (v.entryFor u j).isSome) ≤ l.countP (fun j =>
          (s.table.entryFor u j).isSome) + (if r.memberOf u ∧ i ∈ l then 1 else 0) := by
        intro l hl
        induction l with
        | nil => simp
        | cons a rest ih =>
          obtain ⟨hn, hr⟩ := List.nodup_cons.1 hl
          have := ih hr
          rw [List.countP_cons, List.countP_cons]
          have ev : v.entryFor u a = if i = a ∧ i < s.table.slots.length then (if r.memberOf u then some (r.entry a)
              else none) else s.table.entryFor u a := by
            unfold WatchTable.entryFor
            rw [recordAt_congr hv, WatchTable.recordAt_setRecord]
            by_cases hc : i = a ∧ i < s.table.slots.length
            · simp only [if_pos hc]
            · simp only [if_neg hc]
          rw [ev]
          by_cases ha : i = a
          · subst ha
            have e1 : s.table.entryFor u i = none := by simp [WatchTable.entryFor, h2]
            rw [if_pos (show i = i ∧ i < s.table.slots.length from ⟨rfl, h3⟩), e1]
            by_cases hm : r.memberOf u = true <;> simp [hm, hn] at this ⊢ <;> omega
          · simp [ha] at *; omega
      refine le_trans (key _ List.nodup_range) ?_
      split <;> split <;> simp_all
    refine le_trans (hlen _ h8) ?_
    split
    · next hm =>
      have : u ∈ r.units := by
        unfold Record.units
        rw [List.mem_filter]
        refine ⟨?_, hm⟩
        cases u with
        | matchUnit p => fin_cases p <;> simp [allUnits]
        | crossLine => simp [allUnits]
      unfold WatchTable.hasRoom at h1
      rw [List.all_eq_true] at h1
      have := h1 u this
      simp at this; omega
    · exact x u
  · rw [WatchTable.chain_length]
    have : ∀ i, (t.table.entryFor u i).isSome = false := by intro i; simp [WatchTable.entryFor, e.1]
    simp [this]

theorem chan_beginTeardown (s : State) (c d) : (s.beginTeardown c).chan d = s.chan d := chan_congr
    (beginTeardown_kept s c).2 d
theorem chan_nextTeardown (s : State) (d) : (s.nextTeardown).chan d = s.chan d := chan_congr (nextTeardown_kept s).2 d

theorem Move.keeps_channels (h s k t) (m : Move h s k t) (x : ChannelsHold s) : ChannelsHold t := by
  have P : ∀ {u : State}, u.chans = s.chans → ChannelsHold u := by
    intro u a c; rw [chan_congr a]; exact x c
  have W : ∀ (c : ChanId) (y : Channel), y.holdsTo → ∀ d, (if c = d then y else s.chan d).holdsTo := by
    intro c y hy d; split; exacts [hy, x d]
  cases m with
  | aside a => exact P a.chans
  | ended a => exact P a.chans
  | kept a k => exact P a.chans
  | placed i r a h1 h2 h3 h4 h5 h6 h7 h8 => exact P a.chans
  | opened c q ht =>
    intro d
    show ((s.setChan c _).chan d).holdsTo
    rw [chan_setChan]
    exact W _ _ ⟨fun h => by simp [openedChannel] at h, fun h => by simp [openedChannel] at h⟩ d
  | tearing c y hy =>
    intro d
    rw [chan_beginTeardown, chan_setChan]
    refine W _ _ ⟨fun h => ?_, fun h => rfl⟩ d
    simp at h
    rcases hy with hy | hy
    · rw [hy.1] at h; cases h
    · rw [((x c).1 h).2.2.1] at hy; cases hy
  | enabled c e ho =>
    intro d
    show ((s.setChan c _).chan d).holdsTo
    rw [chan_setChan]
    refine W c { s.chan c with enables := e } ⟨fun h => ?_, fun h => (x c).2 h⟩ d
    simp at h; rw [ho] at h; cases h
  | leased c hl =>
    intro d
    rw [chan_setChan]
    refine W c { s.chan c with leaseTimer := (s.chan c).leaseLimit } ⟨fun h => ?_, fun h => ?_⟩ d
    · have := (x c).1 h; simp [this.2.2.1] at hl
    · have := (x c).2 h; simp [this] at hl
  | torn c =>
    intro d
    rw [chan_nextTeardown]
    show ((s.setChan c _).chan d).holdsTo
    rw [chan_setChan]
    refine W _ _ ⟨fun h => ⟨rfl, rfl, rfl, rfl, rfl⟩, fun h => rfl⟩ d
  | loaded c k l =>
    intro d
    rw [chan_setChan]
    exact W c { s.chan c with maxClass := k, defaultLease := l } (x c) d
  | sent => apply P; unfold responseTransmit; split <;> rfl
  | benchReset =>
    intro d
    have : s.benchReset.chan d = (s.chan d).closed := by
      unfold State.benchReset chan; fin_cases d <;> rfl
    rw [this]; exact ⟨fun h => ⟨rfl, rfl, rfl, rfl, rfl⟩, fun h => rfl⟩
  | _ => exact P rfl

theorem teardowns_congr {s t : State} (h1 : t.teardowns = s.teardowns) (h2 : ∀ c, (t.chan c).teardown.isSome =
    (s.chan c).teardown.isSome) (h3 : ∀ c, (s.chan c).isOpen = true → (t.chan c).isOpen = true)
  (x : TeardownsHold s) : TeardownsHold t := by
  unfold TeardownsHold teardownOrder at *
  rw [h1]
  refine ⟨x.1, fun c => ?_, fun c hc => ?_, x.2.2.2⟩
  · rw [h2]; exact x.2.1 c
  · rw [h2] at hc; exact h3 c (x.2.2.1 c hc)

theorem Move.keeps_teardowns (h s k t) (m : Move h s k t) (hc : ChannelsHold s)
    (x : TeardownsHold s) : TeardownsHold t := by
  have P : ∀ {u : State}, u.teardowns = s.teardowns → u.chans = s.chans → TeardownsHold u := by
    intro u a b; exact teardowns_congr a (fun c => by rw [chan_congr b]) (fun c => by rw [chan_congr b]; exact id) x
  have U : ∀ (c : ChanId) (y : Channel), y.teardown.isSome = (s.chan c).teardown.isSome → ((s.chan c).isOpen =
      true → y.isOpen = true) → TeardownsHold (s.setChan c y) := by
    intro c y h1 h2
    refine teardowns_congr (s := s) rfl (fun d => ?_) (fun d => ?_) x
    · rw [chan_setChan]; split
      · next e => subst e; exact h1
      · rfl
    · rw [chan_setChan]; split
      · next e => subst e; exact h2
      · exact id
  cases m with
  | aside a => exact P a.teardowns a.chans
  | ended a => exact P a.teardowns a.chans
  | kept a k => exact P a.teardowns a.chans
  | placed i r a h1 h2 h3 h4 h5 h6 h7 h8 => exact P a.teardowns a.chans
  | opened c q ht =>
    refine teardowns_congr (s := s) rfl (fun d => ?_) (fun d => ?_) x
    · show ((s.setChan c _).chan d).teardown.isSome = _
      rw [chan_setChan]; split
      · next e => subst e; rw [ht]; rfl
      · rfl
    · show _ → ((s.setChan c _).chan d).isOpen = true
      rw [chan_setChan]; split
      · exact fun _ => rfl
      · exact id
  | tearing c y hy =>
    have ho : (s.chan c).isOpen = true ∧ (s.chan c).teardown = none := by
      rcases hy with hy | hy
      · exact hy
      · constructor
        · by_contra hn
          have := ((hc c).1 (by simpa using hn)).2.2.1
          rw [this] at hy; cases hy
        · by_contra hn
          have := (hc c).2 (by cases hx : (s.chan c).teardown <;> simp_all)
          rw [this] at hy; cases hy
    have hnot : c ∉ s.teardownOrder := by
      intro hm; have := (x.2.1 c).1 hm; rw [ho.2] at this; cases this
    set u := s.setChan c { s.chan c with leaseTimer := none, teardown := some y } with hu
    have horder : (u.beginTeardown c).teardownOrder = s.teardownOrder ++ [c] := by
      unfold beginTeardown teardownOrder
      cases hcur : s.teardowns.current with
      | none => simp [hu, hcur, x.2.2.2 hcur]
      | some z => simp [hu, hcur]
    refine ⟨?_, fun d => ?_, fun d => ?_, ?_⟩
    · rw [horder, List.nodup_append]
      exact ⟨x.1, by simp, fun a ha b hb => by simp at hb; subst hb; exact fun e => hnot (e ▸ ha)⟩
    · rw [horder, chan_beginTeardown, hu, chan_setChan]
      by_cases e : c = d
      · subst e; simp
      · simp only [List.mem_append, x.2.1 d, if_neg e]; simp [Ne.symm e]
    · rw [chan_beginTeardown, hu, chan_setChan]
      split
      · intro _; exact ho.1
      · exact x.2.2.1 d
    · unfold beginTeardown; split
      · simp
      · next z hz => intro hn; simp [hz] at hn
  | enabled c e ho => exact U c { s.chan c with enables := e } rfl id
  | leased c hl => exact U c { s.chan c with leaseTimer := (s.chan c).leaseLimit } rfl id
  | torn c st hcur hst =>
    have hord : s.teardownOrder = c :: s.teardowns.queued := by simp [teardownOrder, hcur]
    set u := ((s.setChan c (s.chan c).closed).emptyPending c).reevaluate with hu
    have hut : u.teardowns = s.teardowns := rfl
    have huc : ∀ d, u.chan d = if c = d then (s.chan c).closed else s.chan d := fun d => chan_setChan s c d _
    have hn := x.1
    rw [hord] at hn
    obtain ⟨hn1, hn2⟩ := List.nodup_cons.1 hn
    have horder : u.nextTeardown.teardownOrder = s.teardowns.queued := by
      unfold nextTeardown teardownOrder; rw [hut]
      cases s.teardowns.queued <;> rfl
    refine ⟨by rw [horder]; exact hn2, fun d => ?_, fun d => ?_, ?_⟩
    · rw [horder, chan_nextTeardown, huc]
      by_cases e : c = d
      · subst e; simp [hn1, Channel.closed, Channel.reset]
      · rw [if_neg e, ← x.2.1 d, hord]; simp [Ne.symm e]
    · rw [chan_nextTeardown, huc]
      split
      · simp [Channel.closed, Channel.reset]
      · exact x.2.2.1 d
    · unfold nextTeardown; split
      · simp
      · simp
  | staged c st st' hcur hst =>
    refine ⟨?_, fun d => ?_, x.2.2.1, fun h => by simp at h⟩
    · have := x.1; simpa [teardownOrder, hcur] using this
    · show d ∈ ((some (c, st')).map Prod.fst).toList ++ s.teardowns.queued ↔ (s.chan d).teardown.isSome = true
      rw [← x.2.1 d]; simp [teardownOrder, hcur]
  | loaded c k l => exact U c { s.chan c with maxClass := k, defaultLease := l } rfl id
  | sent => apply P <;> (unfold responseTransmit; split <;> rfl)
  | benchReset =>
    have e : ∀ d, s.benchReset.chan d = (s.chan d).closed := by
      intro d; unfold State.benchReset chan; fin_cases d <;> rfl
    refine ⟨by simp [State.benchReset, teardownOrder], fun d => ?_, fun d => ?_, fun _ => rfl⟩
    · rw [e]; simp [State.benchReset, teardownOrder, Channel.closed, Channel.reset]
    · rw [e]; simp [Channel.closed, Channel.reset]
  | _ => exact P rfl rfl

theorem Move.keeps_owners (h s k t) (m : Move h s k t) (ht : TeardownsHold s) (x : OwnersHold s) : OwnersHold t := by
  obtain ⟨x1, x2⟩ := x
  have P : ∀ {u : State}, u.teardowns = s.teardowns → (∀ c, (s.chan c).isOpen = true → (u.chan c).isOpen = true) →
      u.table.slots = s.table.slots → OwnersHold u := by
    intro u a b e
    refine ⟨fun i r hr => b _ (x1 i r (by rw [← recordAt_congr e]; exact hr)), ?_⟩
    intro c st hcur hst i r hr
    rw [a] at hcur
    exact x2 c st hcur hst i r (by rw [← recordAt_congr e]; exact hr)
  have U : ∀ (c : ChanId) (y : Channel), ((s.chan c).isOpen = true → y.isOpen = true) → OwnersHold
      (s.setChan c y) := by
    intro c y h2
    refine P rfl (fun d => ?_) rfl
    rw [chan_setChan]; split
    · next e => subst e; exact h2
    · exact id
  cases m with
  | aside a => exact P a.teardowns (fun c => by rw [chan_congr a.chans]; exact id) (by rw [a.table])
  | ended a => exact P a.teardowns (fun c => by rw [chan_congr a.chans]; exact id) (by rw [a.table])
  | kept a k =>
    refine ⟨fun i r hr => ?_, fun c st hcur hst i r hr => ?_⟩
    · obtain ⟨r', h1, h2⟩ := k.back i r hr
      rw [chan_congr a.chans]
      rcases h2.owner with e | ⟨e, h0, _⟩
      · rw [e]; exact x1 i r' h1
      · rw [e]; exact h0
    · obtain ⟨r', h1, h2⟩ := k.back i r hr
      rw [a.teardowns] at hcur
      rcases h2.owner with e | ⟨e, _, c', st', hne, hcur'⟩
      · rw [e]; exact x2 c st hcur hst i r' h1
      · rw [hcur] at hcur'; cases hcur'; rw [e]; exact hne.symm
  | placed i r a h1 h2 h3 h4 h5 h6 h7 h8 =>
    refine ⟨fun j r' hr => ?_, fun c st hcur hst j r' hr => ?_⟩
    · rw [chan_congr a.chans]
      rw [recordAt_congr h8, WatchTable.recordAt_setRecord] at hr
      split at hr
      · cases hr; exact h6
      · exact x1 _ _ hr
    · rw [recordAt_congr h8, WatchTable.recordAt_setRecord] at hr
      rw [a.teardowns] at hcur
      split at hr
      · cases hr
        intro e
        have : (s.chan c).teardown.isSome = true := (ht.2.1 c).1 (by simp [teardownOrder, hcur])
        rw [← e, h7] at this; cases this
      · exact x2 _ _ hcur hst _ _ hr
  | opened c q ht => exact U c (openedChannel (s.chan c) q) (fun _ => rfl)
  | tearing c y hy =>
    have h0 : OwnersHold (s.setChan c { s.chan c with leaseTimer := none, teardown := some y }) := U c _ id
    unfold beginTeardown
    split
    · refine ⟨h0.1, fun c' st hcur hst => ?_⟩
      simp at hcur; exact (hst hcur.2.symm).elim
    · exact h0
  | enabled c e ho => exact U c { s.chan c with enables := e } id
  | leased c hl => exact U c { s.chan c with leaseTimer := (s.chan c).leaseLimit } id
  | torn c st hcur hst =>
    have h0 : ∀ u : State, u.nextTeardown.table = u.table := fun u => (nextTeardown_kept u).1
    refine ⟨fun i r hr => ?_, fun c' st' hcur' hst' i r hr => ?_⟩
    · rw [h0] at hr
      have hr' : s.table.recordAt i = some r := hr
      rw [chan_nextTeardown]
      show ((s.setChan c _).chan _).isOpen = true
      rw [chan_setChan]
      split
      · next e => exact (x2 c st hcur hst i r hr' e.symm).elim
      · exact x1 i r hr'
    · exfalso
      unfold nextTeardown at hcur'
      split at hcur'
      · simp at hcur'; exact hst' hcur'.2.symm
      · simp at hcur'
  | staged c st st' hcur hst =>
    refine ⟨x1, fun c' st'' hcur' hst' i r hr => ?_⟩
    simp at hcur'
    obtain ⟨rfl, rfl⟩ := hcur'
    by_cases e : st = .records
    · exact hst e i r hr
    · exact x2 c st hcur e i r hr
  | loaded c k l => exact U c { s.chan c with maxClass := k, defaultLease := l } id
  | sent =>
    have a : s.responseTransmit.teardowns = s.teardowns := by unfold responseTransmit; split <;> rfl
    have b : s.responseTransmit.table = s.table := by unfold responseTransmit; split <;> rfl
    have d : s.responseTransmit.chans = s.chans := by unfold responseTransmit; split <;> rfl
    exact P a (fun c => by rw [chan_congr d]; exact id) (by rw [b])
  | benchReset =>
    refine ⟨fun i r hr => ?_, fun c st hcur => by simp [State.benchReset] at hcur⟩
    have := resetTable_recordAt s.table i
    rw [show s.benchReset.table = resetTable s.table from rfl, this] at hr; cases hr
  | _ => exact P rfl (fun _ => id) rfl

theorem Move.keeps_walking (h s k t) (m : Move h s k t) : t.desc.walking = true → s.desc.walking = true := by
  cases m with
  | aside a => rw [a.desc]; exact id
  | ended a => rw [a.desc]; exact id
  | kept a k => rw [a.desc]; exact id
  | placed i r a => rw [a.desc]; exact id
  | tearing c => unfold beginTeardown; split <;> exact id
  | torn => unfold nextTeardown; split <;> exact id
  | sent => unfold responseTransmit; split <;> exact id
  | described d hd => exact hd
  | _ => exact id

end Sys2Proof.Machine.State
end

