-- ==== Sys2Proof/Laws/Layouts.lean ====
section
/-! SUPPORT. The byte layouts: what each reader of a payload takes, and the bytes of each answer (R180, R185, R187 to
R192). -/

namespace Sys2Proof.Machine

/-! ### Numbers -/

theorem byteOf_eq (n : Nat) : byteOf n = BitVec.ofNat 8 n := rfl

theorem halfAt_toNat (b : List Byte) (i : Nat) : (halfAt b i).toNat = byteAt b i + 256 * byteAt b (i + 1) := by
  unfold halfAt byteAt
  rw [BitVec.toNat_append, ← Nat.shiftLeft_add_eq_or_of_lt (BitVec.isLt _), Nat.shiftLeft_eq]
  omega

theorem wordAt_toNat (b : List Byte) (i : Nat) : (wordAt b i).toNat =
    byteAt b i + 256 * byteAt b (i + 1) + 65536 * byteAt b (i + 2) + 16777216 * byteAt b (i + 3) := by
  unfold wordAt byteAt
  rw [BitVec.toNat_append, ← Nat.shiftLeft_add_eq_or_of_lt (BitVec.isLt _), BitVec.toNat_append,
    ← Nat.shiftLeft_add_eq_or_of_lt (BitVec.isLt _), BitVec.toNat_append,
    ← Nat.shiftLeft_add_eq_or_of_lt (BitVec.isLt _)]
  simp only [Nat.shiftLeft_eq]
  omega

theorem byte_extract (n k : Nat) (w : BitVec n) : w.extractLsb' k 8 = BitVec.ofNat 8 (w.toNat / 2 ^ k) := by
  apply BitVec.eq_of_toNat_eq
  rw [BitVec.extractLsb'_toNat, BitVec.toNat_ofNat, Nat.shiftRight_eq_div_pow]

theorem halfBytes_eq (h : Half) : halfBytes h = twoBytes h.toNat := by
  unfold halfBytes twoBytes
  rw [byte_extract, byte_extract]
  simp

theorem wordBytes_eq (w : Word) : wordBytes w = fourBytes w.toNat := by
  unfold wordBytes fourBytes
  rw [byte_extract, byte_extract, byte_extract, byte_extract]
  simp

theorem twoBytes_mod (n : Nat) : twoBytes (n % 65536) = twoBytes n := by
  unfold twoBytes
  rw [List.cons.injEq, List.cons.injEq]
  refine ⟨?_, ?_, rfl⟩ <;> apply BitVec.eq_of_toNat_eq <;> simp only [BitVec.toNat_ofNat] <;> omega

theorem fourBytes_mod (n : Nat) : fourBytes (n % 4294967296) = fourBytes n := by
  unfold fourBytes
  rw [List.cons.injEq, List.cons.injEq, List.cons.injEq, List.cons.injEq]
  refine ⟨?_, ?_, ?_, ?_, rfl⟩ <;> apply BitVec.eq_of_toNat_eq <;> simp only [BitVec.toNat_ofNat] <;> omega

theorem halfBytes_halfOf (n : Nat) : halfBytes (halfOf n) = twoBytes n := by
  rw [halfBytes_eq, halfOf, BitVec.toNat_ofNat, twoBytes_mod]

theorem wordBytes_ofNat (n : Nat) : wordBytes (BitVec.ofNat 32 n) = fourBytes n := by
  rw [wordBytes_eq, BitVec.toNat_ofNat, fourBytes_mod]

theorem wordBytes_ofInt (a : Int) : wordBytes (BitVec.ofInt 32 a) = fourBytes (a % 4294967296).toNat := by
  rw [wordBytes_eq]; congr 1

theorem eq_byteOf {x : Byte} {n : Nat} (h : n < 256) : x = BitVec.ofNat 8 n ↔ x.toNat = n := by
  constructor
  · rintro rfl; rw [BitVec.toNat_ofNat]; omega
  · rintro rfl; simp

/-! ### Enumerated fields (R187) -/

theorem readFlag_iff {n : Nat} {f : Bool} : readFlag n = some f ↔ n = if f then 1 else 0 := by
  rcases n with _ | _ | n <;> cases f <;> simp [readFlag]

theorem readPort_iff {n : Nat} {p : PortId} : readPort n = some p ↔ n = p.val := by
  unfold readPort
  split
  · next h => simp only [Option.some.injEq, Fin.ext_iff]
  · next h => simp only [reduceCtorEq, false_iff]; intro e; exact h (e ▸ p.isLt)

theorem readChan_iff {n : Nat} {p : ChanId} : readChan n = some p ↔ n = p.val := by
  unfold readChan
  split
  · next h => simp only [Option.some.injEq, Fin.ext_iff]
  · next h => simp only [reduceCtorEq, false_iff]; intro e; exact h (e ▸ p.isLt)

theorem readFour_iff {n : Nat} {p : Fin 4} : readFour n = some p ↔ n = p.val := by
  unfold readFour
  split
  · next h => simp only [Option.some.injEq, Fin.ext_iff]
  · next h => simp only [reduceCtorEq, false_iff]; intro e; exact h (e ▸ p.isLt)

theorem readSixteen_iff {n : Nat} {p : Fin 16} : readSixteen n = some p ↔ n = p.val := by
  unfold readSixteen
  split
  · next h => simp only [Option.some.injEq, Fin.ext_iff]
  · next h => simp only [reduceCtorEq, false_iff]; intro e; exact h (e ▸ p.isLt)

theorem readWidth_iff {n : Nat} {w : Width} : readWidth n = some w ↔ n = w.bytes := by
  rcases n with _ | _ | _ | _ | _ | n <;> cases w <;> simp [readWidth, Width.bytes]

theorem readGuard_iff {b : List Byte} {g : Guard} : readGuard (byteAt b 3) = some g ↔ GuardAt b g := by
  unfold GuardAt
  generalize byteAt b 3 = n
  rcases n with _ | _ | _ | n <;> cases g <;> simp [readGuard]

theorem readEdgeFilter_iff {b : List Byte} {e : EdgeFilter} : readEdgeFilter (byteAt b 22) = some e ↔ EdgeAt b e := by
  unfold EdgeAt
  generalize byteAt b 22 = n
  rcases n with _ | _ | _ | n <;> cases e <;> simp [readEdgeFilter]

theorem readMode_iff {n : Nat} {m : TallyMode} : readMode n = some m ↔ n = (match m with
    | .count => 0
    | .sum => 1) := by
  rcases n with _ | _ | n <;> cases m <;> simp [readMode]

theorem readSign_iff {n : Nat} {m : TallySign} : readSign n = some m ↔ n = (match m with
    | .unsigned => 0
    | .signed => 1) := by
  rcases n with _ | _ | n <;> cases m <;> simp [readSign]

theorem readLimit_iff {n : Nat} {m : TallyLimit} : readLimit n = some m ↔ n = (match m with
    | .wrap => 0
    | .saturate => 1) := by
  rcases n with _ | _ | n <;> cases m <;> simp [readLimit]

/-! ### Short payloads (R191) -/

theorem readPortPayload_iff (b : List Byte) (p : PortId) :
    readPortPayload b = some p ↔ b = [BitVec.ofNat 8 p.val] := by
  have hp : p.val < 256 := by have := p.isLt; omega
  unfold readPortPayload
  split
  · next h =>
    obtain ⟨x, rfl⟩ := List.length_eq_one_iff.1 h
    rw [readPort_iff, List.cons.injEq, eq_byteOf hp]
    simp [byteAt]
  · next h =>
    simp only [reduceCtorEq, false_iff]
    rintro rfl
    exact h rfl

theorem readEnables_iff (x : Byte) (e : Enables) : readEnables x.toNat = some e ↔ x.toNat < 16 ∧
    e = { fired := x.getLsbD 0, portEvents := x.getLsbD 1, revokedOverrun := x.getLsbD 2,
          lapsedLinkError := x.getLsbD 3 } := by
  unfold readEnables
  split
  · next h => simp only [h, true_and, Option.some.injEq, eq_comm]; rfl
  · next h => simp [h]

theorem readNotices_iff (b : List Byte) (e : Enables) : readNotices b = some e ↔ ∃ x : Byte, b = [x] ∧ x.toNat < 16 ∧
    e = { fired := x.getLsbD 0, portEvents := x.getLsbD 1, revokedOverrun := x.getLsbD 2,
          lapsedLinkError := x.getLsbD 3 } := by
  unfold readNotices
  split
  · next h =>
    obtain ⟨x, rfl⟩ := List.length_eq_one_iff.1 h
    rw [show byteAt [x] 0 = x.toNat from rfl, readEnables_iff]
    simp
  · next h =>
    simp only [reduceCtorEq, false_iff]
    rintro ⟨x, rfl, _⟩
    exact h rfl

theorem enables_byte (e : Enables) : e.byte.toNat = (if e.fired then 1 else 0) + (if e.portEvents then 2 else 0) +
    (if e.revokedOverrun then 4 else 0) + (if e.lapsedLinkError then 8 else 0) := by
  obtain ⟨a, b, c, d⟩ := e
  revert a b c d
  decide

theorem length_five {b : List Byte} (h : b.length = 5) : ∃ x0 x1 x2 x3 x4, b = [x0, x1, x2, x3, x4] := by
  match b, h with
  | [x0, x1, x2, x3, x4], _ => exact ⟨_, _, _, _, _, rfl⟩

theorem length_four {b : List Byte} (h : b.length = 4) : ∃ x0 x1 x2 x3, b = [x0, x1, x2, x3] := by
  match b, h with
  | [x0, x1, x2, x3], _ => exact ⟨_, _, _, _, rfl⟩

theorem length_three {b : List Byte} (h : b.length = 3) : ∃ x0 x1 x2, b = [x0, x1, x2] := by
  match b, h with
  | [x0, x1, x2], _ => exact ⟨_, _, _, rfl⟩

theorem readOpen_iff (b : List Byte) (q : OpenRequest) : readOpen b = some q ↔
    ∃ cls present low high enables : Byte, b = [cls, present, low, high, enables] ∧ cls.toNat = q.cls.val ∧
      ((present = 0 ∧ q.lease = none) ∨
        (present = 1 ∧ q.lease = some (low.toNat + 256 * high.toNat) ∧ 100 ≤ low.toNat + 256 * high.toNat ∧
          low.toNat + 256 * high.toNat ≤ 60000)) ∧
      enables.toNat < 16 ∧
      q.enables = { fired := enables.getLsbD 0, portEvents := enables.getLsbD 1,
                    revokedOverrun := enables.getLsbD 2, lapsedLinkError := enables.getLsbD 3 } := by
  unfold readOpen
  split
  · next h =>
    obtain ⟨x0, x1, x2, x3, x4, rfl⟩ := length_five h
    have hl : (halfAt [x0, x1, x2, x3, x4] 2).toNat = x2.toNat + 256 * x3.toNat := halfAt_toNat _ _
    rw [show byteAt [x0, x1, x2, x3, x4] 0 = x0.toNat from rfl, show byteAt [x0, x1, x2, x3, x4] 1 = x1.toNat from rfl,
      show byteAt [x0, x1, x2, x3, x4] 4 = x4.toNat from rfl, hl]
    have e : (∃ cls present low high enables : Byte, [x0, x1, x2, x3, x4] = [cls, present, low, high, enables] ∧
        cls.toNat = q.cls.val ∧ ((present = 0 ∧ q.lease = none) ∨
        (present = 1 ∧ q.lease = some (low.toNat + 256 * high.toNat) ∧ 100 ≤ low.toNat + 256 * high.toNat ∧
          low.toNat + 256 * high.toNat ≤ 60000)) ∧ enables.toNat < 16 ∧
        q.enables = { fired := enables.getLsbD 0, portEvents := enables.getLsbD 1,
                      revokedOverrun := enables.getLsbD 2, lapsedLinkError := enables.getLsbD 3 }) ↔
        readFour x0.toNat = some q.cls ∧ ((x1 = 0 ∧ q.lease = none) ∨
        (x1 = 1 ∧ q.lease = some (x2.toNat + 256 * x3.toNat) ∧ 100 ≤ x2.toNat + 256 * x3.toNat ∧
          x2.toNat + 256 * x3.toNat ≤ 60000)) ∧ readEnables x4.toNat = some q.enables := by
      rw [readFour_iff, readEnables_iff]
      constructor
      · rintro ⟨_, _, _, _, _, h, r⟩; cases h; exact r
      · intro r; exact ⟨_, _, _, _, _, rfl, r⟩
    rw [e]
    have f0 : readFlag x1.toNat = some false ↔ x1 = 0 := by
      rw [readFlag_iff]; constructor
      · intro h; exact BitVec.eq_of_toNat_eq h
      · rintro rfl; rfl
    have f1 : readFlag x1.toNat = some true ↔ x1 = 1 := by
      rw [readFlag_iff]; constructor
      · intro h; exact BitVec.eq_of_toNat_eq h
      · rintro rfl; rfl
    rw [← f0, ← f1]
    obtain ⟨cls, lease, en⟩ := q
    cases readFour x0.toNat with
    | none => simp
    | some k =>
      cases readEnables x4.toNat with
      | none => rcases readFlag x1.toNat with _ | _ | _ <;> simp
      | some en' =>
        rcases readFlag x1.toNat with _ | _ | _
        · simp
        · simp [eq_comm (a := lease)]
        · by_cases hr : 100 ≤ x2.toNat + 256 * x3.toNat ∧ x2.toNat + 256 * x3.toNat ≤ 60000
          · simp [hr, eq_comm (a := lease)]
          · simp only [if_true, if_neg hr]
            simp only [reduceCtorEq, false_iff]
            rintro ⟨_, h | h, _⟩
            · cases h.1
            · exact hr ⟨h.2.2.1, h.2.2.2⟩
  · next h =>
    simp only [reduceCtorEq, false_iff]
    rintro ⟨_, _, _, _, _, rfl, _⟩
    exact h rfl

theorem readLevel_iff (x : Byte) (l : Option Bool) : readLevel x.toNat = some l ↔ x = (match l with
    | none => 0
    | some true => 1
    | some false => 2) := by
  have h : ∀ k : Byte, x = k ↔ x.toNat = k.toNat := fun k => ⟨fun e => e ▸ rfl, BitVec.eq_of_toNat_eq⟩
  rw [h]
  generalize x.toNat = n
  rcases n with _ | _ | _ | n <;> rcases l with _ | _ | _ <;> simp [readLevel]

/-- The byte of a level in DRIVE's payload (R191). -/
def levelCode (x : Option Bool) : Byte := match x with
  | none => 0
  | some true => 1
  | some false => 2

theorem readDrive_iff (b : List Byte) (r : DriveRequest) : readDrive b = some r ↔
    b = [BitVec.ofNat 8 r.port.val, levelCode r.reset, levelCode r.power] ∧ (r.reset ≠ none ∨ r.power ≠ none) := by
  have hp : r.port.val < 256 := by have := r.port.isLt; omega
  unfold readDrive
  split
  · next h =>
    obtain ⟨x0, x1, x2, rfl⟩ := length_three h
    rw [show byteAt [x0, x1, x2] 0 = x0.toNat from rfl, show byteAt [x0, x1, x2] 1 = x1.toNat from rfl,
      show byteAt [x0, x1, x2] 2 = x2.toNat from rfl]
    have e : [x0, x1, x2] = [BitVec.ofNat 8 r.port.val, levelCode r.reset, levelCode r.power] ↔
        readPort x0.toNat = some r.port ∧ readLevel x1.toNat = some r.reset ∧ readLevel x2.toNat = some r.power := by
      rw [readPort_iff, readLevel_iff, readLevel_iff, ← eq_byteOf hp]
      simp only [List.cons.injEq, and_true]
      rfl
    rw [e]
    obtain ⟨p, rs, pw⟩ := r
    cases readPort x0.toNat with
    | none => simp
    | some k =>
      cases readLevel x1.toNat with
      | none => simp
      | some a =>
        cases readLevel x2.toNat with
        | none => simp
        | some c =>
          simp only [Option.some.injEq]
          cases a <;> cases c <;> simp <;> (try (rintro rfl rfl rfl; simp))
  · next h =>
    simp only [reduceCtorEq, false_iff]
    rintro ⟨rfl, _⟩
    exact h rfl

theorem readGate_iff (b : List Byte) (p : PortId) (op : Option Half) : readGate b = some (p, op) ↔
    ∃ low high : Byte, (b = [BitVec.ofNat 8 p.val, 0, low, high] ∧ op = some (high ++ low)) ∨
      (b = [BitVec.ofNat 8 p.val, 1, low, high] ∧ op = none) := by
  have hp : p.val < 256 := by have := p.isLt; omega
  unfold readGate
  split
  · next h =>
    obtain ⟨x0, x1, x2, x3, rfl⟩ := length_four h
    rw [show byteAt [x0, x1, x2, x3] 0 = x0.toNat from rfl, show byteAt [x0, x1, x2, x3] 1 = x1.toNat from rfl,
      show halfAt [x0, x1, x2, x3] 2 = x3 ++ x2 from rfl]
    have e : (∃ low high : Byte, ([x0, x1, x2, x3] = [BitVec.ofNat 8 p.val, 0, low, high] ∧ op = some (high ++ low)) ∨
        ([x0, x1, x2, x3] = [BitVec.ofNat 8 p.val, 1, low, high] ∧ op = none)) ↔
        readPort x0.toNat = some p ∧ ((x1.toNat = 0 ∧ op = some (x3 ++ x2)) ∨ (x1.toNat = 1 ∧ op = none)) := by
      rw [readPort_iff, ← eq_byteOf hp]
      have z0 : x1.toNat = 0 ↔ x1 = 0 := ⟨fun h => BitVec.eq_of_toNat_eq h, fun h => h ▸ rfl⟩
      have z1 : x1.toNat = 1 ↔ x1 = 1 := ⟨fun h => BitVec.eq_of_toNat_eq h, fun h => h ▸ rfl⟩
      rw [z0, z1]
      simp only [List.cons.injEq, and_true]
      constructor
      · rintro ⟨l, h, ⟨⟨a, b, rfl, rfl⟩, c⟩ | ⟨⟨a, b, rfl, rfl⟩, c⟩⟩
        · exact ⟨a, .inl ⟨b, c⟩⟩
        · exact ⟨a, .inr ⟨b, c⟩⟩
      · rintro ⟨a, ⟨b, c⟩ | ⟨b, c⟩⟩
        · exact ⟨_, _, .inl ⟨⟨a, b, rfl, rfl⟩, c⟩⟩
        · exact ⟨_, _, .inr ⟨⟨a, b, rfl, rfl⟩, c⟩⟩
    rw [e]
    cases readPort x0.toNat with
    | none => simp
    | some k =>
      generalize x1.toNat = n
      rcases n with _ | _ | n
      · simp [eq_comm (a := op)]
      · simp [eq_comm (a := op)]
      · simp
  · next h =>
    simp only [reduceCtorEq, false_iff]
    rintro ⟨_, _, ⟨rfl, _⟩ | ⟨rfl, _⟩⟩
    · exact h rfl
    · exact h rfl

theorem length_two {α : Type} {b : List α} (h : b.length = 2) : ∃ x y, b = [x, y] := by
  match b, h with
  | [x, y], _ => exact ⟨x, y, rfl⟩

theorem readClaim_iff (b : List Byte) (p : PortId) (m : ClaimMode) : readClaim b = some (p, m) ↔
    b = [BitVec.ofNat 8 p.val, match m with
      | .shared => 0
      | .sole => 1] := by
  have hp : p.val < 256 := by have := p.isLt; omega
  unfold readClaim
  split
  · next h =>
    obtain ⟨x0, x1, rfl⟩ := length_two h
    rw [show byteAt [x0, x1] 0 = x0.toNat from rfl, show byteAt [x0, x1] 1 = x1.toNat from rfl, List.cons.injEq,
      List.cons.injEq, eq_byteOf hp, ← readPort_iff]
    have hx : ∀ k : Byte, x1 = k ↔ x1.toNat = k.toNat := fun k => ⟨fun e => e ▸ rfl, BitVec.eq_of_toNat_eq⟩
    rw [hx]
    cases readPort x0.toNat with
    | none => simp
    | some k =>
      generalize x1.toNat = n
      rcases n with _ | _ | n <;> cases m <;> simp
  · next h =>
    simp only [reduceCtorEq, false_iff]
    rintro rfl
    exact h rfl

theorem readStep_iff (b : List Byte) (p : PortId) (n : Nat) : readStep b = some (p, n) ↔
    ∃ low high : Byte, b = [BitVec.ofNat 8 p.val, low, high] ∧ n = low.toNat + 256 * high.toNat ∧ 1 ≤ n := by
  have hp : p.val < 256 := by have := p.isLt; omega
  unfold readStep
  split
  · next h =>
    obtain ⟨x0, x1, x2, rfl⟩ := length_three h
    have e : (∃ low high : Byte, [x0, x1, x2] = [BitVec.ofNat 8 p.val, low, high] ∧ n = low.toNat + 256 * high.toNat ∧
        1 ≤ n) ↔ readPort x0.toNat = some p ∧ n = x1.toNat + 256 * x2.toNat ∧ 1 ≤ n := by
      rw [readPort_iff, ← eq_byteOf hp]
      constructor
      · rintro ⟨l, k, h1, h2, h3⟩
        simp only [List.cons.injEq, and_true] at h1
        obtain ⟨h0, rfl, rfl⟩ := h1
        exact ⟨h0, h2, h3⟩
      · rintro ⟨rfl, h2, h3⟩
        exact ⟨_, _, rfl, h2, h3⟩
    rw [e, halfAt_toNat, show byteAt [x0, x1, x2] 0 = x0.toNat from rfl, show byteAt [x0, x1, x2] 1 = x1.toNat from rfl,
      show byteAt [x0, x1, x2] (1 + 1) = x2.toNat from rfl]
    generalize x1.toNat + 256 * x2.toNat = v
    cases readPort x0.toNat with
    | none => simp
    | some k =>
      simp only
      split
      · next hv => subst hv; simp
      · next hv =>
        simp only [Option.some.injEq, Prod.mk.injEq]
        constructor
        · rintro ⟨rfl, rfl⟩; exact ⟨rfl, rfl, by omega⟩
        · rintro ⟨rfl, rfl, _⟩; exact ⟨rfl, rfl⟩
  · next h =>
    simp only [reduceCtorEq, false_iff]
    rintro ⟨_, _, rfl, _⟩
    exact h rfl

/-- A handle in two bytes, its slot 0 to 95 (R2, log 28). -/
theorem handle_bytes (h : Handle) (x0 x1 : Byte) : (x0 = BitVec.ofNat 8 h.slot ∧ x1 = h.issue ∧ h.slot < 96) ↔
    h = { slot := x0.toNat, issue := x1 } ∧ x0.toNat < 96 := by
  obtain ⟨sl, is⟩ := h
  simp only [Handle.mk.injEq]
  constructor
  · rintro ⟨a, rfl, b⟩
    have := (eq_byteOf (show sl < 256 by omega)).1 a
    exact ⟨⟨this.symm, rfl⟩, by omega⟩
  · rintro ⟨⟨rfl, rfl⟩, b⟩
    exact ⟨(eq_byteOf (by omega)).2 rfl, rfl, b⟩

theorem readHandlePayload_iff (b : List Byte) (h : Handle) : readHandlePayload b = some h ↔
    h.slot < 96 ∧ b = [BitVec.ofNat 8 h.slot, h.issue] := by
  unfold readHandlePayload
  by_cases hl : b.length = 2
  · obtain ⟨x0, x1, rfl⟩ := length_two hl
    have k := handle_bytes h x0 x1
    have hr : readHandle [x0, x1] 0 = { slot := x0.toNat, issue := x1 } := rfl
    rw [hr]
    simp only [hl, true_and, List.cons.injEq, and_true]
    have hi : ({ slot := x0.toNat, issue := x1 } : Handle).inRange = true ↔ x0.toNat < 96 := by
      exact decide_eq_true_iff
    rw [and_comm, and_assoc, k]
    split
    · next c => rw [hi] at c; simp [c, eq_comm]
    · next c => rw [hi] at c; simp [c]
  · rw [if_neg (fun x => hl x.1)]
    simp only [reduceCtorEq, false_iff]
    rintro ⟨_, rfl⟩
    exact hl rfl

theorem readHandleFlag_iff (b : List Byte) (h : Handle) (flag : Bool) : readHandleFlag b = some (h, flag) ↔
    h.slot < 96 ∧ b = [BitVec.ofNat 8 h.slot, h.issue, if flag then 1 else 0] := by
  unfold readHandleFlag
  by_cases hl : b.length = 3
  · obtain ⟨x0, x1, x2, rfl⟩ := length_three hl
    have k := handle_bytes h x0 x1
    have hr : readHandle [x0, x1, x2] 0 = { slot := x0.toNat, issue := x1 } := rfl
    have hf : x2 = (if flag then 1 else 0) ↔ readFlag x2.toNat = some flag := by
      rw [readFlag_iff]
      cases flag
      · exact ⟨fun e => by rw [e]; rfl, fun e => BitVec.eq_of_toNat_eq e⟩
      · exact ⟨fun e => by rw [e]; rfl, fun e => BitVec.eq_of_toNat_eq e⟩
    rw [hr, show byteAt [x0, x1, x2] 2 = x2.toNat from rfl]
    simp only [hl, true_and, List.cons.injEq, and_true, hf]
    have hi : ({ slot := x0.toNat, issue := x1 } : Handle).inRange = true ↔ x0.toNat < 96 := by
      exact decide_eq_true_iff
    have hk : (h.slot < 96 ∧ x0 = BitVec.ofNat 8 h.slot ∧ x1 = h.issue ∧ readFlag x2.toNat = some flag) ↔
        (h = { slot := x0.toNat, issue := x1 } ∧ x0.toNat < 96) ∧ readFlag x2.toNat = some flag := by
      rw [← k]; constructor
      · rintro ⟨a, b, c, d⟩; exact ⟨⟨b, c, a⟩, d⟩
      · rintro ⟨⟨b, c, a⟩, d⟩; exact ⟨a, b, c, d⟩
    rw [hk]
    split
    · next c => rw [hi] at c; cases readFlag x2.toNat <;> simp [c, eq_comm]
    · next c => rw [hi] at c; simp [c]
  · rw [if_neg (fun x => hl x.1)]
    simp only [reduceCtorEq, false_iff]
    rintro ⟨_, rfl⟩
    exact hl rfl

theorem readList_iff (b : List Byte) (sel : Selector) : readList b = some sel ↔ (match sel with
    | .owner d => b = [0, BitVec.ofNat 8 d.val]
    | .port p => b = [1, BitVec.ofNat 8 p.val]
    | .cross => ∃ x, b = [2, x]) := by
  unfold readList
  split
  · next h =>
    obtain ⟨x0, x1, rfl⟩ := length_two h
    rw [show byteAt [x0, x1] 0 = x0.toNat from rfl, show byteAt [x0, x1] 1 = x1.toNat from rfl]
    have hx : ∀ k : Byte, x0 = k ↔ x0.toNat = k.toNat := fun k => ⟨fun e => e ▸ rfl, BitVec.eq_of_toNat_eq⟩
    cases sel with
    | owner d =>
      simp only [List.cons.injEq, and_true, hx, eq_byteOf (show d.val < 256 by omega)]
      generalize x0.toNat = n
      rcases n with _ | _ | _ | n <;> simp [readChan_iff]
    | port d =>
      simp only [List.cons.injEq, and_true, hx, eq_byteOf (show d.val < 256 by omega)]
      generalize x0.toNat = n
      rcases n with _ | _ | _ | n <;> simp [readPort_iff]
    | cross =>
      simp only [List.cons.injEq, and_true, hx, exists_and_left, exists_eq', and_true]
      generalize x0.toNat = n
      rcases n with _ | _ | _ | n <;> simp
  · next h =>
    simp only [reduceCtorEq, false_iff]
    cases sel with
    | owner d => rintro rfl; exact h rfl
    | port d => rintro rfl; exact h rfl
    | cross => rintro ⟨x, rfl⟩; exact h rfl

theorem low_toNat (w : Width) (x : Word) : (w.low x).toNat = x.toNat % 2 ^ (8 * w.bytes) := by
  have := x.isLt
  cases w <;> simp [Width.low, Width.bytes] <;> omega

theorem readDirection_iff {n : Nat} {d : Direction} : readDirection n = some d ↔ n = (match d with
    | .read => 0
    | .write => 1) := by
  rcases n with _ | _ | n <;> cases d <;> simp [readDirection]

theorem readOrigin_iff {n : Nat} {d : Origin} : readOrigin n = some d ↔ n = (match d with
    | .board => 0
    | .debug => 1) := by
  rcases n with _ | _ | n <;> cases d <;> simp [readOrigin]

theorem readFind_iff (b : List Byte) (q : FindRequest) : readFind b = some q ↔
    b.length = 18 ∧ byteAt b 0 = q.port.val ∧ q.obs.address = wordAt b 5 ∧
    q.obs.data.toNat = (wordAt b 9).toNat % 2 ^ (8 * q.obs.width.bytes) ∧
    byteAt b 13 = (match q.obs.direction with
      | .read => 0
      | .write => 1) ∧
    byteAt b 14 = q.obs.width.bytes ∧ byteAt b 15 = q.obs.initiator.val ∧
    byteAt b 16 = (match q.obs.origin with
      | .board => 0
      | .debug => 1) ∧
    FlagAt b 17 q.withData ∧ q.obs.sequence = 0 := by
  unfold FlagAt
  rw [← readPort_iff, ← readDirection_iff, ← readWidth_iff, ← readSixteen_iff, ← readOrigin_iff, ← readFlag_iff,
    ← low_toNat]
  obtain ⟨p, ⟨ad, da, di, wi, ini, og, sq⟩, wd⟩ := q
  simp only
  unfold readFind
  split
  · next h =>
    simp only [h, true_and]
    cases readPort (byteAt b 0) with
    | none => simp
    | some p' =>
    cases readDirection (byteAt b 13) with
    | none => simp
    | some d' =>
    cases readWidth (byteAt b 14) with
    | none => simp
    | some w' =>
    cases readSixteen (byteAt b 15) with
    | none => simp
    | some t' =>
    cases readOrigin (byteAt b 16) with
    | none => simp
    | some o' =>
    cases readFlag (byteAt b 17) with
    | none => simp
    | some f' =>
      simp only [Option.some.injEq, FindRequest.mk.injEq, Observation.mk.injEq]
      constructor
      · rintro ⟨rfl, ⟨rfl, rfl, rfl, rfl, rfl, rfl, rfl⟩, rfl⟩
        exact ⟨rfl, rfl, rfl, rfl, rfl, rfl, rfl, rfl, rfl⟩
      · rintro ⟨rfl, rfl, e, rfl, rfl, rfl, rfl, rfl, rfl⟩
        exact ⟨rfl, ⟨rfl, (BitVec.eq_of_toNat_eq e).symm, rfl, rfl, rfl, rfl, rfl⟩, rfl⟩
  · next h => simp [h]

theorem checkedReply_iff (tag : Nat) (res : RawResult) (data : Word) (r : ReplyFrame) :
    checkedReply tag res data = some r ↔ tag < 16 ∧ r.tag.toNat = tag ∧ r.data = data ∧
      ((res = .ok ∧ r.faultCode = none) ∨ ∃ code : Fin 16, res = .fault code.val ∧ r.faultCode = some code) := by
  obtain ⟨t, fc, d⟩ := r
  unfold checkedReply
  split
  · next h =>
    have ht : t.toNat = tag ↔ BitVec.ofNat 4 tag = t := by
      constructor
      · rintro rfl; simp
      · rintro rfl; rw [BitVec.toNat_ofNat]; omega
    cases res with
    | ok =>
      simp only [h, ht, true_and, Option.some.injEq, ReplyFrame.mk.injEq, reduceCtorEq, false_and, exists_false, or_false]
      constructor
      · rintro ⟨a, rfl, rfl⟩; exact ⟨a, rfl, rfl⟩
      · rintro ⟨a, rfl, rfl⟩; exact ⟨a, rfl, rfl⟩
    | fault code =>
      simp only [Option.map_eq_some_iff, readSixteen_iff, h, ht, true_and, reduceCtorEq, false_and, false_or,
        RawResult.fault.injEq, ReplyFrame.mk.injEq]
      constructor
      · rintro ⟨k, rfl, rfl, rfl, rfl⟩; exact ⟨rfl, rfl, _, rfl, rfl⟩
      · rintro ⟨rfl, rfl, k, rfl, rfl⟩; exact ⟨_, rfl, rfl, rfl, rfl⟩
    | unlisted => simp
  · next h => simp [h]

/-! ### Access payloads (R134, R190) -/

theorem readStepping_iff (k : Nat) (span : Nat) (st : Stepping) : readStepping k span = some st ↔
    (k = 0 ∧ st = .increment) ∨ (k = 1 ∧ st = .fixed) ∨
      (k = 2 ∧ st = .wrap span ∧ ∃ j, 3 ≤ j ∧ j ≤ 12 ∧ span = 2 ^ j) := by
  have hs : wrapSpans.contains span = true ↔ ∃ j, 3 ≤ j ∧ j ≤ 12 ∧ span = 2 ^ j := by
    rw [List.contains_iff_mem]
    unfold wrapSpans
    simp only [List.mem_cons, List.not_mem_nil, or_false]
    constructor
    · intro h
      rcases h with rfl | rfl | rfl | rfl | rfl | rfl | rfl | rfl | rfl | rfl
      · exact ⟨3, by omega, by omega, rfl⟩
      · exact ⟨4, by omega, by omega, rfl⟩
      · exact ⟨5, by omega, by omega, rfl⟩
      · exact ⟨6, by omega, by omega, rfl⟩
      · exact ⟨7, by omega, by omega, rfl⟩
      · exact ⟨8, by omega, by omega, rfl⟩
      · exact ⟨9, by omega, by omega, rfl⟩
      · exact ⟨10, by omega, by omega, rfl⟩
      · exact ⟨11, by omega, by omega, rfl⟩
      · exact ⟨12, by omega, by omega, rfl⟩
    · rintro ⟨j, h1, h2, rfl⟩
      obtain rfl | rfl | rfl | rfl | rfl | rfl | rfl | rfl | rfl | rfl :
        j = 3 ∨ j = 4 ∨ j = 5 ∨ j = 6 ∨ j = 7 ∨ j = 8 ∨ j = 9 ∨ j = 10 ∨ j = 11 ∨ j = 12 := by omega
      all_goals decide
  rcases k with _ | _ | _ | k
  · simp [readStepping, eq_comm]
  · simp [readStepping, eq_comm]
  · simp only [readStepping]
    rw [← hs]
    split <;> simp_all [eq_comm]
  · simp [readStepping]

theorem readEpochGuard_iff (k : Nat) (g : Half) (x : Option Half) : readEpochGuard k g = some x ↔
    (k = 0 ∧ x = none) ∨ (k = 1 ∧ x = some g) := by
  rcases k with _ | _ | k <;> simp [readEpochGuard, eq_comm]

theorem byteAt_drop (b : List Byte) (n i : Nat) : byteAt (b.drop n) i = byteAt b (n + i) := by
  simp [byteAt, List.getD_eq_getElem?_getD, List.getElem?_drop]

/-- Word `k` of the data of a WRITE, as a number. -/
theorem dataWord_toNat (b : List Byte) (w : Width) (k : Nat) : (dataWord (b.drop 14) w k).toNat = (match w with
    | .one => byteAt b (14 + k)
    | .two => byteAt b (14 + 2 * k) + 256 * byteAt b (15 + 2 * k)
    | .four => byteAt b (14 + 4 * k) + 256 * byteAt b (15 + 4 * k) + 65536 * byteAt b (16 + 4 * k) +
        16777216 * byteAt b (17 + 4 * k)) := by
  cases w with
  | one =>
    have h := byteAt_drop b 14 k
    have hl : byteAt (b.drop 14) k < 256 := BitVec.isLt _
    simp only [dataWord, BitVec.toNat_setWidth]
    rw [← h]
    show byteAt (b.drop 14) k % 2 ^ 32 = _
    omega
  | two =>
    have h := halfAt_toNat (b.drop 14) (2 * k)
    rw [byteAt_drop, byteAt_drop, show 14 + (2 * k + 1) = 15 + 2 * k by omega] at h
    have hl : (halfAt (b.drop 14) (2 * k)).toNat < 65536 := BitVec.isLt _
    simp only [dataWord, BitVec.toNat_setWidth]
    omega
  | four =>
    have h := wordAt_toNat (b.drop 14) (4 * k)
    rw [byteAt_drop, byteAt_drop, byteAt_drop, byteAt_drop, show 14 + (4 * k + 1) = 15 + 4 * k by omega,
      show 14 + (4 * k + 2) = 16 + 4 * k by omega, show 14 + (4 * k + 3) = 17 + 4 * k by omega] at h
    exact h

/-- A list of words is the data of a WRITE when its length and every word agree. -/
theorem data_eq {l : List Word} {n : Nat} {f : Nat → Word} :
    l = (List.range n).map f ↔ l.length = n ∧ ∀ k, k < n → (l.getD k 0).toNat = (f k).toNat := by
  constructor
  · rintro rfl
    refine ⟨by simp, fun k hk => ?_⟩
    simp [List.getD_eq_getElem?_getD, hk]
  · rintro ⟨rfl, h⟩
    refine List.ext_getElem (by simp) fun k h1 h2 => ?_
    have := h k h1
    simp only [List.getD_eq_getElem?_getD, List.getElem?_eq_getElem h1, Option.getD_some] at this
    rw [List.getElem_map, List.getElem_range]
    exact BitVec.eq_of_toNat_eq this

theorem readAccess_iff (dir : Direction) (b : List Byte) (r : AccessRequest) : readAccess dir b = some r ↔
    14 ≤ b.length ∧ r.block.direction = dir ∧ byteAt b 0 = r.port.val ∧ byteAt b 1 = r.block.width.bytes ∧
    byteAt b 2 = r.block.count ∧ 1 ≤ r.block.count ∧ r.block.count ≤ 64 ∧ wordAt b 3 = r.block.start ∧
    ((byteAt b 7 = 0 ∧ r.block.stepping = .increment) ∨ (byteAt b 7 = 1 ∧ r.block.stepping = .fixed) ∨
      (byteAt b 7 = 2 ∧ r.block.stepping = .wrap (halfAt b 8).toNat ∧ r.block.start.toNat % r.block.width.bytes = 0 ∧
        ∃ k, 3 ≤ k ∧ k ≤ 12 ∧ (halfAt b 8).toNat = 2 ^ k)) ∧
    ((byteAt b 10 = 0 ∧ r.epochGuard = none) ∨ (byteAt b 10 = 1 ∧ r.epochGuard = some (halfAt b 11))) ∧
    FlagAt b 13 r.block.haltedOnly ∧
    (dir = .read → b.length = 14 ∧ r.block.data = []) ∧
    (dir = .write → b.length = 14 + r.block.count * r.block.width.bytes ∧ r.block.data.length = r.block.count ∧
      ∀ k, k < r.block.count → (r.block.data.getD k 0).toNat = (match r.block.width with
        | .one => byteAt b (14 + k)
        | .two => byteAt b (14 + 2 * k) + 256 * byteAt b (15 + 2 * k)
        | .four => byteAt b (14 + 4 * k) + 256 * byteAt b (15 + 4 * k) + 65536 * byteAt b (16 + 4 * k) +
            16777216 * byteAt b (17 + 4 * k))) := by
  obtain ⟨p, ⟨bd, w, n, start, st, ho, data⟩, g⟩ := r
  have hd : (∀ k, k < n → (data.getD k 0).toNat = (match w with
        | .one => byteAt b (14 + k)
        | .two => byteAt b (14 + 2 * k) + 256 * byteAt b (15 + 2 * k)
        | .four => byteAt b (14 + 4 * k) + 256 * byteAt b (15 + 4 * k) + 65536 * byteAt b (16 + 4 * k) +
            16777216 * byteAt b (17 + 4 * k))) ↔
      ∀ k, k < n → (data.getD k 0).toNat = (dataWord (b.drop 14) w k).toNat := by
    simp only [dataWord_toNat]
  have hdata := data_eq (l := data) (n := n) (f := fun k => dataWord (b.drop 14) w k)
  have hst := readStepping_iff (byteAt b 7) (halfAt b 8).toNat st
  have hg := readEpochGuard_iff (byteAt b 10) (halfAt b 11) g
  simp only [FlagAt, ← readFlag_iff, ← readPort_iff, ← readWidth_iff, hd, ← hdata, ← hg]
  unfold readAccess accessHeader
  constructor
  · intro h
    split at h
    · cases h
    · next hlen =>
      split at h
      · next p' w' st' g' ho' e1 e2 e3 e4 e5 =>
        simp only [Option.ite_none_right_eq_some] at h
        obtain ⟨⟨c1, c2, c3, c4⟩, h⟩ := h
        cases h
        refine ⟨by omega, rfl, e1, e2, rfl, c1, c2, rfl, ?_, e4, e5, ?_, ?_⟩
        · rcases hst.1 e3 with ⟨x, y⟩ | ⟨x, y⟩ | ⟨x, y, z⟩
          · exact .inl ⟨x, y⟩
          · exact .inr (.inl ⟨x, y⟩)
          · subst y
            exact .inr (.inr ⟨x, rfl, by simpa using c3, z⟩)
        · rintro rfl
          simp only [List.length_drop, decide_eq_true_eq] at c4
          exact ⟨by omega, rfl⟩
        · rintro rfl
          simp only [List.length_drop, decide_eq_true_eq] at c4
          exact ⟨by omega, rfl⟩
      · cases h
  · rintro ⟨h0, rfl, h1, h2, h3, h4, h5, h6, h7, h8, h9, h10, h11⟩
    have h7' : readStepping (byteAt b 7) (halfAt b 8).toNat = some st := by
      rw [hst]; rcases h7 with h | h | ⟨a, b', _, c⟩
      · exact .inl h
      · exact .inr (.inl h)
      · exact .inr (.inr ⟨a, b', c⟩)
    rw [if_neg (by omega), h1, h2, h7', h8, h9]
    simp only at h3 h6 h4 h5 h10 h11 ⊢
    rw [if_pos]
    · rw [h3, h6]
      cases bd with
      | read => simp [(h10 rfl).2]
      | write => have := (h11 rfl).2; simp only [← this]
    · rw [h3, h6]
      refine ⟨h4, h5, ?_, ?_⟩
      · rcases h7 with ⟨_, rfl⟩ | ⟨_, rfl⟩ | ⟨_, rfl, h, _⟩
        · rfl
        · rfl
        · simpa using h
      · cases bd with
        | read => have := (h10 rfl).1; simp; omega
        | write => have := (h11 rfl).1; simp; omega

theorem remainder_bytes (r : Remainder) : r.answer =
    [match r.block.direction with
      | .read => 0
      | .write => 1, BitVec.ofNat 8 r.block.width.bytes] ++
    (match r.block.stepping with
      | .increment => 0 :: twoBytes 0
      | .fixed => 1 :: twoBytes 0
      | .wrap span => 2 :: twoBytes span) ++
    [BitVec.ofNat 8 r.block.count] ++ fourBytes r.block.start.toNat ++
    (match r.reason with
      | .timeout => [14, 0]
      | .fault code => [15, BitVec.ofNat 8 code.val]
      | .linkLost => [16, 0]) ++ twoBytes r.epoch.toNat := by
  obtain ⟨⟨d, w, n, a, st, ho, data⟩, reason, ep⟩ := r
  unfold Remainder.answer
  rw [halfBytes_halfOf, wordBytes_eq, halfBytes_eq]
  cases d <;> cases st <;> cases reason <;> rfl

theorem dataBytes_eq (w : Width) (d : Word) : w.dataBytes d = (match w with
    | .one => [BitVec.ofNat 8 d.toNat]
    | .two => twoBytes d.toNat
    | .four => fourBytes d.toNat) := by
  unfold Width.dataBytes
  rw [wordBytes_eq]
  cases w <;> rfl

theorem runningBlock_bytes (b : RunningBlock) (code : Nat) : b.answer code =
    [BitVec.ofNat 8 b.wordsDone, BitVec.ofNat 8 code] ++ b.readData.flatMap fun d => match b.block.width with
      | .one => [BitVec.ofNat 8 d.toNat]
      | .two => twoBytes d.toNat
      | .four => fourBytes d.toNat := by
  unfold RunningBlock.answer
  congr 2
  funext d
  exact dataBytes_eq _ _

/-! ### Answers of the ports and the pending sets (R191) -/

theorem flagByte_eq (f : Bool) : flagByte f = if f then 1 else 0 := rfl

theorem ChanSet.bitmap_getLsbD (s : ChanSet) (c : ChanId) : s.bitmap.getLsbD c.val = s[c] := by
  have h : ∀ a0 a1 a2 a3 a4 a5 a6 a7 : Bool, ∀ c : Fin 8,
      (ChanSet.bitmap #v[a0, a1, a2, a3, a4, a5, a6, a7]).getLsbD c.val = #v[a0, a1, a2, a3, a4, a5, a6, a7][c] := by
    decide
  have e : s = #v[s[0], s[1], s[2], s[3], s[4], s[5], s[6], s[7]] := by
    ext i hi
    interval_cases i <;> rfl
  rw [e]
  exact h _ _ _ _ _ _ _ _ c

theorem statusByte_getLsbD (v : Vector Bool 4) (l : LineId) :
    (statusByte v).getLsbD l.val = v[l] ∧ (statusByte v).toNat < 16 := by
  have h : ∀ f : Fin 4 → Bool, ∀ l : Fin 4,
      (flagByte (f 0) + 2 * flagByte (f 1) + 4 * flagByte (f 2) + 8 * flagByte (f 3)).getLsbD l.val = f l ∧
      (flagByte (f 0) + 2 * flagByte (f 1) + 4 * flagByte (f 2) + 8 * flagByte (f 3)).toNat < 16 := by
    decide
  exact h (fun k => v[k]) l

theorem pending_bytes (q : Pending) : ∃ lapsed : Byte, (∀ c : ChanId, lapsed.getLsbD c.val = q.lapsed[c]) ∧
    q.answer =
      [BitVec.ofNat 8 q.fired.length, if q.more then 1 else 0] ++
      (q.fired.flatMap fun h => [BitVec.ofNat 8 h.slot, h.issue]) ++ [BitVec.ofNat 8 q.portEvents.length] ++
      (q.portEvents.flatMap fun x => [BitVec.ofNat 8 x.1.val, match x.2 with
        | .seated => 0
        | .unseated => 1
        | .locked => 2
        | .lost => 3
        | .frozen => 4
        | .resumed => 5
        | .selfStop => 6
        | .unresponsive => 7]) ++
      [if q.revoked then 1 else 0, if q.overrun then 1 else 0, lapsed, if q.linkError then 1 else 0] := by
  refine ⟨q.lapsed.bitmap, q.lapsed.bitmap_getLsbD, ?_⟩
  unfold Pending.answer
  congr 2
  congr 1
  funext x
  cases x.2 <;> rfl

theorem gate_bytes (g : Gate) : g.answer =
    [if g.isOpen then 1 else 0] ++
    (match g.opener with
      | none => [0, 0, 0]
      | some (.record h) => [1, BitVec.ofNat 8 h.slot, h.issue]
      | some (.channel c) => [2, BitVec.ofNat 8 c.val, 0]) ++
    twoBytes g.span ++ [if g.gap then 1 else 0] := by
  unfold Gate.answer
  rw [halfBytes_halfOf]
  rcases g.opener with _ | _ | _ <;> rfl

theorem mem_claimList (a : Arbiter) (c : ChanId) (m : ClaimMode) : (c, m) ∈ a.claimList ↔ a.claims[c] = some m := by
  unfold Arbiter.claimList
  rw [List.mem_filterMap]
  constructor
  · rintro ⟨d, _, h⟩
    simp only [Option.map_eq_some_iff, Prod.mk.injEq] at h
    obtain ⟨_, h, rfl, rfl⟩ := h
    exact h
  · intro h
    refine ⟨c, ?_, by rw [h]; rfl⟩
    clear h
    revert c
    decide

theorem claimList_sorted (a : Arbiter) : (a.claimList.map (·.1)).Pairwise (· < ·) := by
  have h : (a.claimList.map (·.1)).Sublist allChans := by
    unfold Arbiter.claimList
    generalize allChans = l
    induction l with
    | nil => exact List.Sublist.refl _
    | cons c rest ih =>
      rw [List.filterMap_cons]
      cases a.claims[c] with
      | none => exact ih.cons _
      | some m => exact ih.cons_cons _
  exact List.Pairwise.sublist h (by decide)

theorem port_bytes (q : Port) : ∃ holds status : Byte, (∀ c : ChanId, holds.getLsbD c.val = q.rc.holds[c]) ∧
    (∀ l : LineId, status.getLsbD l.val = q.tlc.status[l]) ∧ status.toNat < 16 ∧
    ∃ claims : List (ChanId × ClaimMode),
      (∀ c m, (c, m) ∈ claims ↔ q.arb.claims[c] = some m) ∧ (claims.map (·.1)).Pairwise (· < ·) ∧
      q.answer =
        ([match q.tlc.seat with
          | .empty => 0
          | .arriving => 1
          | .seated => 2
          | .leaving => 3] : List Byte) ++ twoBytes q.tlc.epoch.toNat ++
        [match q.tlc.link with
          | .down => 0
          | .hunting => 1
          | .locked => 2, BitVec.ofNat 8 q.tlc.credits, status, if q.tlc.resetAsserted then 1 else 2,
         if q.tlc.powerOn then 1 else 2, if q.tlc.violation then 1 else 0,
         match q.rc.run with
          | .running => 0
          | .stopping => 1
          | .frozen => 2
          | .stepping => 3
          | .unresponsive => 4
          | .offline => 5, holds, if q.rc.boardHold then 1 else 0] ++ twoBytes q.rc.budget ++
        [BitVec.ofNat 8 claims.length] ++
        (claims.flatMap fun x => [BitVec.ofNat 8 x.1.val, match x.2 with
          | .shared => 0
          | .sole => 1]) ++ q.gate.answer := by
  refine ⟨q.rc.holds.bitmap, statusByte q.tlc.status, q.rc.holds.bitmap_getLsbD,
    fun l => (statusByte_getLsbD _ l).1, (statusByte_getLsbD _ 0).2, q.arb.claimList, mem_claimList _,
    claimList_sorted _, ?_⟩
  have h1 : byteOf q.tlc.seat.code = (match q.tlc.seat with
          | .empty => 0
          | .arriving => 1
          | .seated => 2
          | .leaving => 3) := by cases q.tlc.seat <;> rfl
  have h2 : byteOf q.tlc.link.code = (match q.tlc.link with
          | .down => 0
          | .hunting => 1
          | .locked => 2) := by cases q.tlc.link <;> rfl
  have h3 : byteOf q.rc.run.code = (match q.rc.run with
          | .running => 0
          | .stopping => 1
          | .frozen => 2
          | .stepping => 3
          | .unresponsive => 4
          | .offline => 5) := by cases q.rc.run <;> rfl
  have h4 : (q.arb.claimList.flatMap fun x => [byteOf x.1.val, byteOf x.2.code]) =
      (q.arb.claimList.flatMap fun x => [BitVec.ofNat 8 x.1.val, match x.2 with
          | .shared => 0
          | .sole => 1]) := by
    congr 1
    funext x
    cases x.2 <;> rfl
  unfold Port.answer
  rw [h1, h2, h3, h4, halfBytes_eq, halfBytes_halfOf]
  simp only [LinkController.levels, levelByte, flagByte, List.append_assoc, List.cons_append, List.nil_append]
  rfl

/-! ### Observations, snapshots and tallies (R188, R189, R191) -/

theorem captureRecord_bytes (p : PortId) (epoch : Half) (o : Observation) (missed : Nat) :
    captureRecord p epoch o missed =
      [BitVec.ofNat 8 p.val] ++ twoBytes epoch.toNat ++ twoBytes o.sequence.toNat ++ fourBytes o.address.toNat ++
      fourBytes o.data.toNat ++
      [match o.direction with
        | .read => 0
        | .write => 1, BitVec.ofNat 8 o.width.bytes, BitVec.ofNat 8 o.initiator.val,
       match o.origin with
        | .board => 0
        | .debug => 1, BitVec.ofNat 8 missed] := by
  unfold captureRecord observationImage Observation.body
  rw [halfBytes_eq, halfBytes_eq, wordBytes_eq, wordBytes_eq]
  cases o.direction <;> cases o.origin <;> rfl

theorem snapshot_bytes (n : Nat) (p : PortId) (ep : Half) (o : Observation) (l : LineId) (e : Edge) (x : CrossId) :
    ({ body := .bus p ep o, fireNumber := n } : Snapshot).bytes =
      0 :: twoBytes n ++ [BitVec.ofNat 8 p.val] ++ twoBytes ep.toNat ++ ((captureRecord p ep o 0).drop 3).take 14 ∧
    ({ body := .silence p ep, fireNumber := n } : Snapshot).bytes =
      1 :: twoBytes n ++ [BitVec.ofNat 8 p.val] ++ twoBytes ep.toNat ∧
    ({ body := .line p ep l e, fireNumber := n } : Snapshot).bytes =
      2 :: twoBytes n ++ [BitVec.ofNat 8 p.val] ++ twoBytes ep.toNat ++ [BitVec.ofNat 8 l.val, match e with
        | .rise => 0
        | .fall => 1] ∧
    ({ body := .cross x, fireNumber := n } : Snapshot).bytes =
      3 :: twoBytes n ++ [0, 0, 0] ++ [BitVec.ofNat 8 x.val] := by
  simp only [Snapshot.bytes, halfBytes_halfOf]
  refine ⟨?_, ?_, ?_, rfl⟩
  · rw [halfBytes_eq, captureRecord_bytes]
    unfold Observation.body
    rw [halfBytes_eq, wordBytes_eq, wordBytes_eq]
    cases o.direction <;> cases o.origin <;> rfl
  · rw [halfBytes_eq]; rfl
  · rw [halfBytes_eq]; cases e <;> rfl

theorem tally_bytes (t : Tally) : t.bytes =
    ([match t.mode with
      | .count => 0
      | .sum => 1,
     match t.sign with
      | .unsigned => 0
      | .signed => 1,
     match t.limit with
      | .wrap => 0
      | .saturate => 1] : List Byte) ++ fourBytes (t.accumulator % 4294967296).toNat ++ fourBytes t.contributions ++
    [if t.overflow then 1 else 0] ∧
    t.answer = t.bytes ++ (if t.contributions = 0 then [0, 0, 0, 0, 0]
      else 1 :: fourBytes (roundedMean t.accumulator t.contributions % 4294967296).toNat) := by
  constructor
  · unfold Tally.bytes
    rw [wordBytes_ofInt, wordBytes_ofNat]
    cases t.mode <;> cases t.sign <;> cases t.limit <;> rfl
  · unfold Tally.answer
    by_cases h : t.contributions = 0
    · rw [if_pos h, if_pos h]; simp [h, flagByte, wordBytes]
    · rw [if_neg h, if_neg h, wordBytes_ofInt]; simp [h, flagByte]

theorem listAnswer_bytes (l : List (Handle × RecState)) : listAnswer l =
    [BitVec.ofNat 8 l.length] ++ l.flatMap fun x => [BitVec.ofNat 8 x.1.slot, x.1.issue, match x.2 with
      | .suspended => 1
      | .waiting => 2
      | .armed => 3
      | .spent => 4] := by
  unfold listAnswer
  congr 2
  funext x
  cases x.2 <;> rfl

/-! ### The record image (R188) -/

/-- The initiator number an image carries. -/
def initiatorByte (r : Record) : Byte := match r.side.cond with
  | .bus m _ => byteOf m.initiator.tag
  | .line _ _ => 0
  | .cross _ => 0

theorem record_image (r : Record) : ∃ scopePort initiator : Byte,
    (r.scope = .all → scopePort = 0) ∧ (∀ p, r.scope = .one p ∨ r.scope = .allBut p → scopePort.toNat = p.val) ∧
    (∀ m d, r.side.cond = .bus m d → (m.initiator = .any → initiator = 0) ∧
      ∀ t, m.initiator = .only t ∨ m.initiator = .allBut t → initiator.toNat = t.val) ∧
    let part (b : Bool) (n : Byte) : Byte := if b then n else 0
    let a := r.side.actions
    r.image =
      [part r.side.cond.dataMatch.isSome 1 + part r.after.isSome 2 + part r.side.trigger.quietLimit.isSome 4 +
         part r.tally.isSome 8 + part r.snapshot.isSome 16,
       match r.state with
        | .suspended => 1
        | .waiting => 2
        | .armed => 3
        | .spent => 4, BitVec.ofNat 8 r.owner.val,
       match r.guard with
        | .guardOpen => 0
        | .guardReadable => 1
        | .guardPrivate => 2, part r.keep 1,
       match r.side.cond with
        | .bus _ _ => 0
        | .line _ _ => 1
        | .cross _ => 2,
       match r.scope with
        | .one _ => 0
        | .all => 1
        | .allBut _ => 2, scopePort, BitVec.ofNat 8 r.side.rank.val,
       match r.side.trigger with
        | .onHit => 0
        | .onSilence _ => 1, BitVec.ofNat 8 r.goal, BitVec.ofNat 8 r.hits, part r.repeats 1,
       part a.signal 1 + part a.freeze 2 + part a.gateOpen.isSome 4 + part a.gateClose 8 + part a.crossPulse.isSome 16] ++
      (match a.gateOpen with
        | some span => twoBytes span.toNat
        | none => [0, 0]) ++
      [match a.crossPulse with
        | some x => BitVec.ofNat 8 x.val
        | none => 0] ++ fourBytes r.placement.toNat ++
      (match r.side.cond with
        | .bus m _ => fourBytes m.base.toNat ++ fourBytes m.mask.toNat ++
            [match m.direction with
              | .read => 0
              | .write => 1
              | .either => 2, part m.widths.one 1 + part m.widths.two 2 + part m.widths.four 4,
             match m.initiator with
              | .any => 0
              | .only _ => 1
              | .allBut _ => 2, initiator,
             match m.origin with
              | .boardOnly => 0
              | .boardAndDebug => 1]
        | .line l e => [BitVec.ofNat 8 l.val, match e with
            | .rise => 0
            | .fall => 1
            | .either => 2] ++ List.replicate 11 0
        | .cross x => [BitVec.ofNat 8 x.val] ++ List.replicate 12 0) ++
      (match r.side.cond with
        | .bus _ (some d) => fourBytes d.pattern.toNat ++ fourBytes d.mask.toNat
        | _ => []) ++
      (match r.after with
        | some h => [BitVec.ofNat 8 h.slot, h.issue]
        | none => []) ++
      (match r.side.trigger with
        | .onSilence n => (fourBytes n).take 3
        | .onHit => []) ++
      (match r.tally with
        | some t => t.bytes
        | none => []) ++
      (match r.snapshot with
        | some x => x.bytes
        | none => []) := by
  have hp : ∀ p : PortId, (byteOf p.val).toNat = p.val := by decide
  have hi : ∀ p : Fin 16, (byteOf p.val).toNat = p.val := by decide
  refine ⟨byteOf r.scope.portByte, initiatorByte r, ?_, ?_, ?_, ?_⟩
  · intro h; rw [h]; rfl
  · rintro p (h | h) <;> rw [h] <;> exact hp p
  · intro m d h
    unfold initiatorByte
    rw [h]
    refine ⟨fun h => by simp only [h]; rfl, ?_⟩
    rintro t (h | h) <;> simp only [h] <;> exact hi t
  · unfold Record.image initiatorByte
    obtain ⟨state, owner, guard, keep, scope, ⟨rank, cond, trigger, actions⟩, placement, goal, hits, repeats, after, tally,
      snapshot⟩ := r
    simp only
    rw [wordBytes_eq]
    have hs : byteOf state.code = (match (generalizing := false) state with
        | .suspended => 1
        | .waiting => 2
        | .armed => 3
        | .spent => 4) := by cases state <;> rfl
    have hg : byteOf guard.code = (match (generalizing := false) guard with
        | .guardOpen => 0
        | .guardReadable => 1
        | .guardPrivate => 2) := by cases guard <;> rfl
    have hsc : byteOf scope.code = (match (generalizing := false) scope with
        | .one _ => 0
        | .all => 1
        | .allBut _ => 2) := by cases scope <;> rfl
    have ht : byteOf trigger.code = (match (generalizing := false) trigger with
        | .onHit => 0
        | .onSilence _ => 1) := by cases trigger <;> rfl
    have e1 : halfBytes (actions.gateOpen.getD 0) = (match (generalizing := false) actions.gateOpen with
        | some span => twoBytes span.toNat
        | none => [0, 0]) := by
      cases actions.gateOpen with
      | none => rfl
      | some x => exact halfBytes_eq x
    have e2 : byteOf ((actions.crossPulse.map Fin.val).getD 0) = (match (generalizing := false) actions.crossPulse with
        | some x => BitVec.ofNat 8 x.val
        | none => 0) := by cases actions.crossPulse <;> rfl
    have e3 : optBytes Handle.bytes after = (match (generalizing := false) after with
        | some h => [BitVec.ofNat 8 h.slot, h.issue]
        | none => []) := by cases after <;> rfl
    have e4 : optBytes (fun n => [byteOf n, byteOf (n / 256), byteOf (n / 65536)]) trigger.quietLimit =
        (match (generalizing := false) trigger with
        | .onSilence n => (fourBytes n).take 3
        | .onHit => []) := by cases trigger <;> rfl
    have e5 : optBytes Tally.bytes tally = (match (generalizing := false) tally with
        | some t => t.bytes
        | none => []) := by cases tally <;> rfl
    have e6 : optBytes Snapshot.bytes snapshot = (match (generalizing := false) snapshot with
        | some x => x.bytes
        | none => []) := by cases snapshot <;> rfl
    rw [e1, e2, e3, e4, e5, e6]
    have f1 : ∀ (b : Bool), flagByte b = if b then 1 else 0 := fun _ => rfl
    have f2 : ∀ (b : Bool), 2 * flagByte b = if b then 2 else 0 := by decide
    have f4 : ∀ (b : Bool), 4 * flagByte b = if b then 4 else 0 := by decide
    have f8 : ∀ (b : Bool), 8 * flagByte b = if b then 8 else 0 := by decide
    have f16 : ∀ (b : Bool), 16 * flagByte b = if b then 16 else 0 := by decide
    have g : actions.setByte = (if actions.signal then 1 else 0) + (if actions.freeze then 2 else 0) +
        (if actions.gateOpen.isSome then 4 else 0) + (if actions.gateClose then 8 else 0) +
        (if actions.crossPulse.isSome then 16 else 0) := by
      unfold Actions.setByte; rw [f2, f4, f8, f16]; rfl
    rw [g, f2, f4, f8, f16]
    rw [hs, hg, hsc, ht]
    cases cond with
    | bus m d =>
      have k1 : wordBytes m.base = fourBytes m.base.toNat := wordBytes_eq _
      have k2 : wordBytes m.mask = fourBytes m.mask.toNat := wordBytes_eq _
      have k3 : byteOf m.direction.code = (match m.direction with
          | .read => 0
          | .write => 1
          | .either => 2) := by cases m.direction <;> rfl
      have k4 : byteOf m.initiator.code = (match m.initiator with
          | .any => 0
          | .only _ => 1
          | .allBut _ => 2) := by cases m.initiator <;> rfl
      have k5 : byteOf m.origin.code = (match m.origin with
          | .boardOnly => 0
          | .boardAndDebug => 1) := by cases m.origin <;> rfl
      have k6 : m.widths.byte = (if m.widths.one then 1 else 0) + (if m.widths.two then 2 else 0) +
          (if m.widths.four then 4 else 0) := by unfold WidthSet.byte; rw [f2, f4]; rfl
      simp only [Cond.bytes, Cond.dataMatch]
      rw [k1, k2, k3, k4, k5, k6]
      cases d with
      | none => rfl
      | some x =>
        simp only [optBytes]
        rw [wordBytes_eq, wordBytes_eq]
        rfl
    | line l e => cases e <;> rfl
    | cross x => rfl

/-! ### Reading a record image (R14, R187, R188) -/

theorem readDirFilter_iff {n : Nat} {d : DirFilter} : readDirFilter n = some d ↔ n = (match d with
    | .read => 0
    | .write => 1
    | .either => 2) := by
  rcases n with _ | _ | _ | n <;> cases d <;> simp [readDirFilter]

theorem readOriginFilter_iff {n : Nat} {d : OriginFilter} : readOriginFilter n = some d ↔ n = (match d with
    | .boardOnly => 0
    | .boardAndDebug => 1) := by
  rcases n with _ | _ | n <;> cases d <;> simp [readOriginFilter]

theorem readWidths_iff {n : Nat} {w : WidthSet} : readWidths n = some w ↔
    (w.one = true ∨ w.two = true ∨ w.four = true) ∧
    n = (if w.one then 1 else 0) + (if w.two then 2 else 0) + (if w.four then 4 else 0) := by
  obtain ⟨a, b, c⟩ := w
  by_cases h : n < 8
  · have : ∀ n : Fin 8, ∀ a b c : Bool, readWidths n.val = some ⟨a, b, c⟩ ↔ (a = true ∨ b = true ∨ c = true) ∧
        n.val = (if a then 1 else 0) + (if b then 2 else 0) + (if c then 4 else 0) := by decide
    exact this ⟨n, h⟩ a b c
  · simp only [readWidths, if_neg (show ¬ (0 < n ∧ n < 8) by omega), reduceCtorEq, false_iff]
    rintro ⟨_, h2⟩
    cases a <;> cases b <;> cases c <;> simp at h2 <;> omega

theorem readInitiator_iff {f t : Nat} {i : InitiatorFilter} : readInitiator f t = some i ↔ (match i with
    | .any => f = 0
    | .only x => f = 1 ∧ t = x.val
    | .allBut x => f = 2 ∧ t = x.val) := by
  rcases f with _ | _ | _ | f
  · cases i <;> simp [readInitiator]
  · simp only [readInitiator, Option.map_eq_some_iff, readSixteen_iff]
    cases i <;> simp
  · simp only [readInitiator, Option.map_eq_some_iff, readSixteen_iff]
    cases i <;> simp
  · cases i <;> simp [readInitiator]

theorem readScope_iff {k t : Nat} {i : Scope} : readScope k t = some i ↔ (match i with
    | .one p => k = 0 ∧ t = p.val
    | .all => k = 1
    | .allBut p => k = 2 ∧ t = p.val) := by
  rcases k with _ | _ | _ | k
  · simp only [readScope, Option.map_eq_some_iff, readPort_iff]
    cases i <;> simp
  · cases i <;> simp [readScope]
  · simp only [readScope, Option.map_eq_some_iff, readPort_iff]
    cases i <;> simp
  · cases i <;> simp [readScope]

/-- The bits of a number below 32, and the number they give. -/
theorem bits_below_32 (n : Nat) (h : n < 32) (a b c d e : Bool) :
    n = (if a then 1 else 0) + (if b then 2 else 0) + (if c then 4 else 0) + (if d then 8 else 0) + (if e then 16 else 0) ↔
      a = bitOf n 0 ∧ b = bitOf n 1 ∧ c = bitOf n 2 ∧ d = bitOf n 3 ∧ e = bitOf n 4 := by
  have : ∀ n : Fin 32, ∀ a b c d e : Bool, n.val = (if a then 1 else 0) + (if b then 2 else 0) + (if c then 4 else 0) +
      (if d then 8 else 0) + (if e then 16 else 0) ↔
      a = bitOf n.val 0 ∧ b = bitOf n.val 1 ∧ c = bitOf n.val 2 ∧ d = bitOf n.val 3 ∧ e = bitOf n.val 4 := by decide
  exact this ⟨n, h⟩ a b c d e

theorem readActions_iff {b : List Byte} {a : Actions} :
    readActions (byteAt b 13) (halfAt b 14) (byteAt b 16) = some a ↔ ActionsAt b a := by
  obtain ⟨sg, fz, go, gc, cp⟩ := a
  unfold ActionsAt
  generalize byteAt b 13 = n, halfAt b 14 = span, byteAt b 16 = line
  have eg : (if go = none then 0 else 4) = (if go.isSome = true then 4 else 0) := by cases go <;> rfl
  have ec : (if cp = none then 0 else 16) = (if cp.isSome = true then 16 else 0) := by cases cp <;> rfl
  simp only [eg, ec]
  by_cases h : n < 32
  · rw [bits_below_32 n h]
    have hgo : ∀ x : Bool, (if x then some span else none) = go ↔ go.isSome = x ∧ ∀ y, go = some y → span = y := by
      intro x
      cases x <;> cases go <;> simp
    unfold readActions
    rw [if_pos h]
    split
    · next h4 =>
      simp only [Option.map_eq_some_iff, Actions.mk.injEq, readFour_iff, hgo, h4]
      constructor
      · rintro ⟨x, rfl, rfl, rfl, ⟨h1, h2⟩, rfl, rfl⟩
        exact ⟨⟨rfl, rfl, h1, rfl, rfl⟩, h2, fun y hy => by cases hy; rfl⟩
      · rintro ⟨⟨rfl, rfl, h1, rfl, h5⟩, h2, h3⟩
        obtain ⟨x, rfl⟩ := Option.isSome_iff_exists.1 h5
        exact ⟨x, h3 x rfl, rfl, rfl, ⟨h1, h2⟩, rfl, rfl⟩
    · next h4 =>
      simp only [Option.some.injEq, Actions.mk.injEq, hgo, Bool.not_eq_true] at h4 ⊢
      constructor
      · rintro ⟨rfl, rfl, ⟨h1, h2⟩, rfl, rfl⟩
        exact ⟨⟨rfl, rfl, h1, rfl, h4.symm⟩, h2, fun y hy => by cases hy⟩
      · rintro ⟨⟨rfl, rfl, h1, rfl, h5⟩, h2, h3⟩
        rw [h4] at h5
        exact ⟨rfl, rfl, ⟨h1, h2⟩, rfl, by cases cp with
          | none => rfl
          | some y => cases h5⟩
  · unfold readActions
    rw [if_neg h]
    simp only [reduceCtorEq, false_iff]
    rintro ⟨h1, _⟩
    cases sg <;> cases fz <;> cases go <;> cases gc <;> cases cp <;> simp at h1 <;> omega

theorem readBusMatch_iff {b : List Byte} {m : BusMatch} : readBusMatch b = some m ↔ BusAt b m := by
  obtain ⟨base, mask, d, w, i, og⟩ := m
  unfold BusAt readBusMatch
  refine Iff.trans ?_ (and_congr_right fun _ => and_congr_right fun _ => and_congr readDirFilter_iff
    (Iff.trans (and_congr readWidths_iff (and_congr readInitiator_iff readOriginFilter_iff)) and_assoc))
  cases readDirFilter (byteAt b 29) with
  | none => simp
  | some d' =>
    cases readWidths (byteAt b 30) with
    | none => simp
    | some w' =>
      cases readInitiator (byteAt b 31) (byteAt b 32) with
      | none => simp
      | some i' =>
        cases readOriginFilter (byteAt b 33) with
        | none => simp
        | some o' => simp

theorem partAt_one (b : List Byte) : partAt b 1 = afterOffset (byteAt b 0) := by
  unfold partAt afterOffset imageFixed bitOf; simp
theorem partAt_two (b : List Byte) : partAt b 2 = quietOffset (byteAt b 0) := by
  unfold partAt quietOffset afterOffset imageFixed bitOf; simp
theorem partAt_three (b : List Byte) : partAt b 3 = tallyOffset (byteAt b 0) := by
  unfold partAt tallyOffset quietOffset afterOffset imageFixed bitOf; simp
theorem partAt_four (b : List Byte) : partAt b 4 = imageLength (byteAt b 0) := by
  unfold partAt imageLength tallyOffset quietOffset afterOffset imageFixed bitOf; simp

theorem imageShaped_iff (b : List Byte) : imageShaped b = true ↔ ImageShaped b := by
  unfold imageShaped ImageShaped
  rw [partAt_four]
  simp

theorem dataMatch_iff (b : List Byte) (x : DataMatch) : readDataMatch b = x ↔ DataAt b x := by
  obtain ⟨p, m⟩ := x
  unfold readDataMatch DataAt imageFixed
  simp

theorem readQuiet_iff (b : List Byte) (n : Nat) :
    partOf (bitOf (byteAt b 0) 2) (readQuiet b) = some n ↔ QuietLimitAt b n := by
  unfold QuietLimitAt partOf readQuiet bitOf
  rw [partAt_two]
  by_cases h : (byteAt b 0).testBit 2 = true
  · simp only [h, if_true, true_and]
    split
    · next h => simp only [reduceCtorEq, false_iff]; omega
    · next h => simp only [Option.some.injEq]; omega
  · simp [h]

theorem readModePart_iff (b : List Byte) (m : TallyMode) :
    partOf (bitOf (byteAt b 0) 3) (readMode (byteAt b (tallyOffset (byteAt b 0)))) = some m ↔ ModeAt b m := by
  unfold ModeAt partOf bitOf
  rw [partAt_three]
  refine Iff.trans ?_ (and_congr_right fun _ => readMode_iff)
  split <;> simp_all

theorem readTallyKind_iff (b : List Byte) (x : TallyMode × TallySign × TallyLimit) :
    partOf (bitOf (byteAt b 0) 3) (readTallyKind b) = some x ↔ TallyAt b x.1 x.2.1 x.2.2 := by
  obtain ⟨m, sg, l⟩ := x
  unfold TallyAt readTallyKind
  simp only [partAt_three]
  refine Iff.trans ?_ (and_congr (readModePart_iff b m) (and_congr readSign_iff readLimit_iff))
  unfold partOf
  split
  · cases readMode (byteAt b (tallyOffset (byteAt b 0))) with
    | none => simp
    | some m' =>
      cases readSign (byteAt b (tallyOffset (byteAt b 0) + 1)) with
      | none => simp
      | some s' =>
        cases readLimit (byteAt b (tallyOffset (byteAt b 0) + 2)) with
        | none => simp
        | some l' => simp
  · simp

theorem imageValid_iff (scope : Scope) (cond : Cond) (trigger : Trigger) (goal : Nat) (a : Actions)
    (mode : Option TallyMode) : imageValid scope cond trigger goal a mode = true ↔
      ImageHolds scope cond trigger goal a mode := by
  unfold imageValid ImageHolds
  obtain ⟨sg, fz, go, gc, cp⟩ := a
  simp only [Bool.and_eq_true, decide_eq_true_eq, Bool.or_eq_true, Bool.not_eq_true', and_assoc]
  refine and_congr_right fun _ => and_congr_right fun _ => ?_
  have e1 : (trigger.isSilence = false ∨ (cond.isBus = true ∧ scope.isOne = true ∧ goal = 1 ∧ mode.isNone = true)) ↔
      ∀ n, trigger = .onSilence n → (∃ m d, cond = .bus m d) ∧ (∃ p, scope = .one p) ∧ goal = 1 ∧ mode = none := by
    cases trigger <;> cases cond <;> cases scope <;> cases mode <;> simp [Trigger.isSilence, Cond.isBus, Scope.isOne]
  have e2 : (go.isSome && gc) = false ↔ ¬ (go ≠ none ∧ gc = true) := by
    cases go <;> cases gc <;> simp
  rw [e1, e2]
  refine and_congr_right fun _ => and_congr_right fun _ => ?_
  cases cond with
  | bus m d => cases mode <;> simp [Cond.isCross]
  | line l e => cases mode with
    | none => simp [Cond.isCross]
    | some m => cases m <;> simp [Cond.isCross]
  | cross x => cases mode <;> cases cp <;> simp [Cond.isCross]

end Sys2Proof.Machine
end

