-- ==== Sys2Proof/Laws/Lines.lean ====
section
/-! SUPPORT. Lemmas for the proofs: holds, the stop of a board, the reset line and the link outputs of one port. -/

namespace Sys2Proof.Machine

open Host State

theorem addHold_run (q : Port) (c) : (q.addHold c).rc.run = q.rc.run := by unfold Port.addHold; split <;> rfl

theorem addHold_budget (q : Port) (c) : (q.addHold c).rc.budget = q.rc.budget := by unfold Port.addHold; split <;> rfl

theorem stopBoard_eq (q : Port) : q.stopBoard = (match q.rc.run with
  | .running => q.startStop
  | .stepping => ({ q with rc := { q.rc with budget := 0 } } : Port).startStop
  | .stopping => { q with rc := { q.rc with budget := 0 } }
  | .frozen => q | .unresponsive => q | .offline => q) := rfl

theorem setResetLine_eq (q : Port) (a : Bool) : q.setResetLine a =
    { q with tlc := { q.tlc with resetAsserted := a }, rc := { q.rc with reports := if q.tlc.resetAsserted = a then q.rc.reports else q.rc.reports ++ [if a then .resetAsserted else .resetReleased] } } := by
  unfold Port.setResetLine
  split
  · next h => subst h; rfl
  · rfl

/-- The link outputs by the link state (R115). -/
theorem outputs_eq (t : LinkController) : t.outputs =
    if t.link = .down then { clock := .low, dataOut := .low, strobe := .low }
    else { clock := .driven, dataOut := .driven, strobe := .driven } := by
  unfold LinkController.outputs
  cases t.link <;> rfl

/-- A port that keeps to its seat holds the link outputs low exactly while no board is counted as present (R110, R115). -/
theorem seatHolds_outputs {q : Port} (h : q.seatHolds) :
    q.tlc.outputs = { clock := .low, dataOut := .low, strobe := .low } ↔ q.tlc.seat.present = false := by
  rw [← h.1, outputs_eq]
  split <;> simp [*]

end Sys2Proof.Machine
end

