-- ==== Sys2Proof/Laws/PortKept.lean ====
section
/-! SUPPORT. Each step of `Port.StepTo` keeps each invariant of a port. -/

namespace Sys2Proof.Machine.Port

open Relation Host

theorem StepsTo.lift {P : Port → Prop} {w : Phase} (hP : ∀ q r, Port.StepTo w q r → P q → P r) {q r : Port}
    (h : Port.StepsTo w q r) (hq : P q) : P r := by
  induction h with
  | refl => exact hq
  | tail _ h ih => exact hP _ _ h ih

theorem StepTo.keeps_credits (w q r) (h : Port.StepTo w q r) : q.creditsEverywhere = 8 → r.creditsEverywhere = 8 := by
  intro hq
  cases h with
  | matched h => rw [h.credits, hq]
  | lines h => rw [h.credits, hq]
  | ran h _ => rw [h.credits, hq]
  | observed o ep rest he hm =>
    have hx := hm.credits
    have h1 : q.mu.events.countP MatchEvent.isObs = rest.countP MatchEvent.isObs + 1 := by rw [he,
        List.countP_cons_of_pos rfl]
    simp only [Port.creditsEverywhere, List.countP_append, h1] at *
    have h2 : List.countP GateMsg.isHandOver [GateMsg.handOver o ep] = 1 := rfl
    omega
  | gate g h1 h2 h3 => simp [Port.creditsEverywhere, Port.setGate, h1] at *; exact hq
  | decided p o ep rest ready he =>
    have h2 : ({ q.gate with fromMatch := rest }.decide p o ep ready).fromMatch = rest := by
      unfold Gate.decide; simp only; split
      · split <;> rfl
      · rfl
    have h3 : q.gate.fromMatch.countP GateMsg.isHandOver = rest.countP GateMsg.isHandOver + 1 := by rw [he,
        List.countP_cons_of_pos rfl]
    simp only [Port.creditsEverywhere, h2, h3] at *
    omega
  | link t h1 h2 h3 h4 h5 => simp [Port.creditsEverywhere, Port.setLink, h4, h5] at *; exact hq
  | creditBack h => simp [Port.creditsEverywhere, Port.setLink] at *; omega
  | accepted o rr h => simp [Port.creditsEverywhere, MatchEvent.isObs] at *; omega
  | seat t _ h1 h2 h3 h4 h5 => simp [Port.creditsEverywhere, Port.setLink, h4, h5] at *; exact hq
  | seated => exact hq
  | unseated =>
    have h1 : q.unseat.creditsEverywhere = q.creditsEverywhere := by
      unfold Port.unseat
      rw [(Port.toSafeLevels_lines _).credits]
      simp only [Port.creditsEverywhere]
      split <;> rfl
    rw [h1, hq]
  | locked => exact hq
  | lost => exact hq
  | arbiter => exact hq
  | claimed => exact hq
  | unclaimed => exact hq
  | settings => exact hq
  | walkEnd pins =>
    unfold State.portAtWalkEnd
    rw [(Port.toSafeLevels_lines _).credits]; exact hq
  | benchReset =>
    have h1 : (State.resetPort q).creditsEverywhere = q.creditsEverywhere := by
      unfold State.resetPort
      simp only
      rw [(Port.toSafeLevels_lines _).credits]
      have h3 := (Port.runBenchReset_ran q)
      have h2 := h3.credits
      have hx : (List.countP MatchEvent.isObs (State.resetMatch q.runBenchReset.mu).events) =
          List.countP MatchEvent.isObs q.runBenchReset.mu.events := by
        unfold State.resetMatch
        simp only [List.countP_map]; congr 1; funext e; cases e <;> rfl
      simp only [Port.creditsEverywhere, Port.setLink, Gate.benchReset, Gate.closeOff, hx] at *
      exact h2
    rw [h1, hq]
  | pinReset => decide

theorem StepTo.keeps_claims (w q r) (h : Port.StepTo w q r) : q.claimsHold → r.claimsHold := by
  intro hq
  cases h with
  | matched h => exact h.claims hq
  | lines h => exact h.claims hq
  | ran h _ => exact h.claims hq
  | observed o ep rest he hm => exact (hm.claims hq : _)
  | arbiter a h => simpa [Port.claimsHold, Port.hasSole, Port.hasClaim, Port.setArb, h] using hq
  | claimed c m m' h =>
    intro a b ha hb
    simp only [Port.hasSole, Port.hasClaim, Port.setArb, Fin.getElem_fin, Vector.getElem_set] at ha hb
    have any_of (P : ChanId → Bool) (d : ChanId) (h : P d = true) : allChans.any P = true := by
      refine List.any_eq_true.2 ⟨d, ?_, h⟩
      revert d; intro d _; fin_cases d <;> decide
    by_cases hca : c = a <;> by_cases hcb : c = b
    · rw [← hca, ← hcb]
    · subst hca
      simp [Fin.val_ne_of_ne hcb] at ha hb
      subst ha
      have hb' : q.hasClaim b = true := hb
      have hb1 := any_of (fun d => d ≠ c && q.hasClaim d) b (by simp [hb', Ne.symm hcb])
      unfold State.claimResult at h
      simp only [hb1] at h
      split at h
      · split at h <;> cases h
      · cases h
      · cases h
      · cases h
      · next hs =>
        exact hq c b (by simp [Port.hasSole, hs]) hb'
    · subst hcb
      simp [Fin.val_ne_of_ne hca] at ha
      have hs : q.hasSole a = true := by simp [Port.hasSole, ha]
      have hc' : q.hasClaim a = true := by simp [Port.hasClaim, ha]
      have hb1 := any_of (fun d => d ≠ c && q.hasClaim d) a (by simp [hc', Ne.symm hca])
      have hb2 : q.foreignSole c = true := any_of _ a (by simp [hs, Ne.symm hca])
      unfold State.claimResult at h
      simp only [hb1, hb2] at h
      split at h
      · cases h
      · cases h
      · next hs' => exact (hca (hq a c hs (by simp [Port.hasClaim, hs'])).symm).elim
      · cases h
      · next hs' => exact (hca (hq c a (by simp [Port.hasSole, hs']) hc')).elim
    · simp [Fin.val_ne_of_ne hca, Fin.val_ne_of_ne hcb] at ha hb
      exact hq a b (by simp [Port.hasSole, ha]) (by simp [Port.hasClaim, hb])
  | unclaimed c a h =>
    intro x y hx hy
    simp only [Port.hasSole, Port.hasClaim, Port.setArb, h, Fin.getElem_fin, Vector.getElem_set] at hx hy
    split at hx
    · simp at hx
    · split at hy
      · simp at hy
      · exact hq x y hx hy
  | unseated =>
    unfold Port.unseat
    refine (Port.toSafeLevels_lines _).claims ?_
    simp only
    split <;> exact hq
  | walkEnd pins => exact (Port.toSafeLevels_lines _).claims hq
  | benchReset =>
    unfold State.resetPort
    refine (Port.toSafeLevels_lines _).claims ?_
    intro x y hx hy
    simp [Port.hasSole, Port.setLink, State.resetArbiter] at hx
  | pinReset => intro x y hx hy; simp [Port.hasSole, Port.reset, Arbiter.reset] at hx
  | _ => exact hq

theorem StepTo.keeps_run (w q r) (h : Port.StepTo w q r) : q.rc.holdsTo → r.rc.holdsTo := by
  intro hq
  cases h with
  | matched h => exact h.runs hq
  | lines h => exact h.runs hq
  | ran h k => exact k hq
  | observed o ep rest he hm => exact (hm.runs hq : _)
  | unseated =>
    unfold Port.unseat
    refine (Port.toSafeLevels_lines _).runs ?_
    simp only
    split <;> exact hq
  | walkEnd pins => exact (Port.toSafeLevels_lines _).runs hq
  | benchReset =>
    unfold State.resetPort
    exact (Port.toSafeLevels_lines _).runs (Port.runBenchReset_holds q hq)
  | pinReset => exact ⟨fun _ _ => rfl, by decide, by decide⟩
  | _ => exact hq

theorem StepTo.keeps_seat (w q r) (h : Port.StepTo w q r) : q.seatHolds ∧ (w = .ending → q.tlc.seat = .empty) →
    r.seatHolds := by
  rintro ⟨hq, hw⟩
  obtain ⟨h1, h2, h3, h4, h5⟩ := hq
  cases h with
  | matched h => exact h.seat ⟨h1, h2, h3, h4, h5⟩
  | lines h => exact h.seat ⟨h1, h2, h3, h4, h5⟩
  | ran h k => exact h.seat ⟨h1, h2, h3, h4, h5⟩
  | observed o ep rest he hm =>
    have := (hm.seat ⟨h1, h2, h3, h4, h5⟩ : _)
    exact this
  | gate g a b c d =>
    refine ⟨h1, h2, fun x => ?_, fun x => ?_, fun x => h5 (Nat.lt_of_lt_of_le x d)⟩
    · rcases b x with y | y
      · exact y
      · exact h3 y
    · rcases c x with y | ⟨y, z⟩
      · exact y
      · rw [show (q.setGate g).gate.span = g.span from rfl, z]; exact h4 y
  | decided p o ep rest ready he =>
    refine ⟨h1, h2, fun x => ?_, fun x => ?_, fun x => h5 ?_⟩
    · apply h3
      unfold Gate.decide at x
      simp only at x
      split at x
      · split at x
        · simp at x; exact x.1
        · exact x
      · exact x
    · unfold Gate.decide at *
      simp only at *
      split at x
      · next hf =>
        simp only [hf] at *
        split at x
        · next hr =>
          simp only [hr] at *
          cases hg : q.gate.isOpen <;> simp [hg] at x ⊢
          · exact h4 hg
          · exact x.2
        · next hr => simp only [hr] at *; simp at *; exact h4 x
      · next hf => simp only [hf] at *; simp at *; exact h4 x
    · have hu : ({ q.gate with fromMatch := rest }.decide p o ep ready).unseats = q.gate.unseats := by
        unfold Gate.decide
        simp only
        split
        · split <;> rfl
        · rfl
      exact hu ▸ x
  | link t a b c d e =>
    refine ⟨?_, ?_, ?_, h4, fun x => ?_⟩
    · show t.link = _ ↔ t.seat.present = _; rw [a, b]; exact h1
    · show t.debounce.isSome = true → t.seat = _ ∨ t.seat = _; rw [b, c]; exact h2
    · show q.gate.isOpen = true → t.link = _; rw [a]; exact h3
    · show t.seat.present = false; rw [b]; exact h5 x
  | creditBack => exact ⟨h1, h2, h3, h4, h5⟩
  | accepted => exact ⟨h1, h2, h3, h4, h5⟩
  | seat t w' a b c d e =>
    refine ⟨?_, c, ?_, h4, fun x => b.trans (h5 x)⟩
    · show t.link = _ ↔ t.seat.present = _; rw [a, b]; exact h1
    · show q.gate.isOpen = true → t.link = _; rw [a]; exact h3
  | seated hs hu =>
    have hd : q.tlc.link = .down := h1.2 (by rw [hs]; rfl)
    refine ⟨by simp [Port.seatBoard, Port.setLink, Port.reportMatch, SeatState.present],
        fun h => by simp [Port.seatBoard, Port.setLink, Port.reportMatch] at h, fun h => ?_, h4, fun h => ?_⟩
    · have := h3 h; rw [hd] at this; cases this
    · exact absurd (show 0 < q.gate.unseats from h) (by omega)
  | unseated =>
    unfold Port.unseat
    refine (Port.toSafeLevels_lines _).seat ?_
    simp only
    refine ⟨?_, ?_, ?_, ?_, fun _ => ?_⟩
    · simp [Port.setGate, Port.reportArbiter, Port.reportMatch, Port.reportRun, Port.setRun]; split <;>
        simp [Port.setLink, SeatState.present]
    · simp [Port.setGate, Port.reportArbiter, Port.reportMatch, Port.reportRun, Port.setRun]; split <;>
        simp [Port.setLink]
    · intro h
      exfalso
      split at h
      · cases h
      · next hn => exact hn (h3 h)
    · intro h
      split at h
      · next hn => simp [hn, Port.setGate, Port.reportArbiter, Port.reportMatch, Port.reportRun, Port.setRun,
          Gate.closeOff]
      · next hn => simp [hn, Port.setGate, Port.reportArbiter, Port.reportMatch, Port.reportRun,
          Port.setRun] ; exact h4 h
    · simp [Port.setGate, Port.reportArbiter, Port.reportMatch, Port.reportRun, Port.setRun]; split <;>
        simp [Port.setLink, SeatState.present]
  | locked sent hl =>
    refine ⟨?_, h2, fun h => rfl, h4, h5⟩
    have hp : q.tlc.seat.present = true := by
      cases hx : q.tlc.seat.present with
      | true => rfl
      | false => have := h1.2 hx; rw [hl] at this; cases this
    show LinkState.locked = .down ↔ q.tlc.seat.present = false
    simp [hp]
  | lost hl =>
    have hp : q.tlc.seat.present = true := by
      cases hx : q.tlc.seat.present with
      | true => rfl
      | false => have := h1.2 hx; rw [hl] at this; cases this
    refine ⟨?_, h2, fun h => Bool.noConfusion (show false = true from h), fun _ => rfl, h5⟩
    show LinkState.hunting = .down ↔ q.tlc.seat.present = false
    simp [hp]
  | walkEnd pins hw' =>
    have he := hw hw'
    have hd : q.tlc.link = .down := h1.2 (by rw [he]; rfl)
    refine (Port.toSafeLevels_lines _).seat ⟨?_, ?_, h3, h4, fun _ => ?_⟩
    · show q.tlc.link = .down ↔ (if pins.seat then SeatState.arriving else .empty).present = false
      simp [hd]; split <;> rfl
    · simp [Port.setLink]; split <;> simp
    · show (if pins.seat then SeatState.arriving else .empty).present = false
      split <;> rfl
  | benchReset =>
    unfold State.resetPort
    refine (Port.toSafeLevels_lines _).seat ?_
    have h0 := (Port.runBenchReset_ran q).seat ⟨h1, h2, h3, h4, h5⟩
    exact ⟨h0.1, h0.2.1, fun h => Bool.noConfusion (show false = true from h), fun _ => rfl, h0.2.2.2.2⟩
  | pinReset => refine ⟨by decide, by decide, by decide, by decide, by decide⟩
  | _ => exact ⟨h1, h2, h3, h4, h5⟩

theorem StepTo.keeps_empty (w q r) (h : Port.StepTo w q r) (hw : w = .walking) : q.tlc.seat = .empty → r.tlc.seat =
    .empty := by
  intro hq
  cases h with
  | matched h => rw [h.tlc]; exact hq
  | lines h => rw [show r.tlc.seat = q.tlc.seat from by rw [h.tlc]]; exact hq
  | ran h k => rw [show r.tlc.seat = q.tlc.seat from by rw [h.tlc]]; exact hq
  | observed o ep rest he hm => rw [show _ = _ from hm.tlc]; exact hq
  | link t a b => exact b.trans hq
  | seat t a => rw [hw] at a; cases a
  | seated h => rw [hq] at h; cases h
  | unseated =>
    unfold Port.unseat
    rw [show (Port.toSafeLevels _).tlc.seat = _ from by rw [(Port.toSafeLevels_lines _).tlc]]
    simp only
    split <;> rfl
  | walkEnd p a => rw [hw] at a; cases a
  | benchReset =>
    unfold State.resetPort
    rw [show (Port.toSafeLevels _).tlc.seat = _ from by rw [(Port.toSafeLevels_lines _).tlc]]
    show (q.runBenchReset).tlc.seat = _
    rw [show (q.runBenchReset).tlc.seat = q.tlc.seat from by rw [(Port.runBenchReset_ran q).tlc]]
    exact hq
  | pinReset => rfl
  | _ => exact hq

end Sys2Proof.Machine.Port
end

