-- ==== Sys2Proof/Laws/Timers.lean ====
section
/-! SUPPORT. The quiet timers: what starting and stopping one leaves, and what a change of the records does to them. -/

namespace Sys2Proof.Machine

open Host

/-- A slot has a limit at a port when the first entry of it in the copy there is that of a silence record (R51). -/
theorem copyLimit_iff (m : MatchUnit) (i n : Nat) : m.copyLimit i = some n ↔ ∃ before e after,
    m.view.copy = before ++ e :: after ∧ e.slot = i ∧ (∀ x ∈ before, x.slot ≠ i) ∧ e.side.trigger = .onSilence n := by
  have hq : ∀ x : Trigger, x.quietLimit = some n ↔ x = .onSilence n := by
    intro x; cases x <;> simp [Trigger.quietLimit]
  unfold MatchUnit.copyLimit
  constructor
  · intro h
    split at h
    · next e he =>
      obtain ⟨h1, before, after, h2, h3⟩ := List.find?_eq_some_iff_append.1 he
      exact ⟨before, e, after, h2, by simpa using h1, fun x hx => by simpa using h3 x hx, (hq _).1 h⟩
    · cases h
  · rintro ⟨before, e, after, h1, h2, h3, h4⟩
    have he : m.view.copy.find? (fun e => e.slot = i) = some e :=
      List.find?_eq_some_iff_append.2 ⟨by simpa using h2, before, after, h1, fun x hx => by simpa using h3 x hx⟩
    rw [he]
    exact (hq _).2 h4

/-- The entry of a slot in a chain is that of its record, once. -/
theorem find_chain (t : WatchTable) (u : UnitId) {i : Nat} {r : Record} (hr : t.recordAt i = some r)
    (hm : r.memberOf u = true) : (t.chain u).find? (fun e => e.slot = i) = some (r.entry i) := by
  have hin : r.entry i ∈ t.chain u := by
    rw [WatchTable.mem_chain]
    exact ⟨i, WatchTable.lt_of_recordAt _ hr, by unfold WatchTable.entryFor; rw [hr]; simp [hm]⟩
  have huniq : ∀ e ∈ t.chain u, e.slot = i → e = r.entry i := by
    intro e he hsl
    rw [WatchTable.mem_chain] at he
    obtain ⟨j, -, hj⟩ := he
    have : e.slot = j := entryFor_slot hj
    have hji : j = i := this ▸ hsl
    subst hji
    unfold WatchTable.entryFor at hj
    rw [hr] at hj
    simpa [hm] using hj.symm
  cases hf : (t.chain u).find? (fun e => e.slot = i) with
  | none =>
    rw [List.find?_eq_none] at hf
    have := hf _ hin
    simp [Record.entry] at this
  | some e =>
    rw [huniq e (List.mem_of_find?_eq_some hf) (by simpa using List.find?_some hf)]

namespace State

variable {s t : State}

theorem silencePort_iff {r : Record} {p : PortId} :
    r.silencePort = some p ↔ (∃ n, r.side.trigger = .onSilence n) ∧ r.scope = .one p := by
  unfold Record.silencePort
  split
  · next h1 h2 => simp [h1, h2]
  · next h =>
    simp only [reduceCtorEq, false_iff, not_and]
    rintro ⟨n, hn⟩ hs
    exact h n p hn hs

theorem memberOf_silence {r : Record} {p : PortId} (hs : r.scope = .one p) (hc : r.side.cond.isCross = false) :
    r.memberOf (.matchUnit p) = true := by
  unfold Record.memberOf; simp [hc, hs, Scope.covers]

/-- Two states with the same timers and events at a port. -/
theorem QuietStopped.congr {p : PortId} {i : Nat} (h1 : (t.port p).mu.timers = (s.port p).mu.timers)
    (h2 : (t.port p).mu.events = (s.port p).mu.events) (h : s.QuietStopped p i) : t.QuietStopped p i := by
  unfold QuietStopped quietOf at *; rw [h1, h2]; exact h

theorem QuietAt.congr {p : PortId} {i n : Nat} (h1 : (t.port p).mu.timers = (s.port p).mu.timers)
    (h2 : (t.port p).mu.events = (s.port p).mu.events) (h : s.QuietAt p i n) : t.QuietAt p i n := by
  unfold QuietAt quietOf at *; rw [h1, h2]; exact h

theorem live_of_recordsOnly (h : s.RecordsOnly t) (p : PortId) : (t.port p).mu.live = (s.port p).mu.live := by
  rw [h.ports p]; rfl

theorem mem_discardExpiry (i j : Nat) (l : List MatchEvent) :
    .quiet j true ∈ MatchUnit.discardExpiry i l ↔ j ≠ i ∧ .quiet j true ∈ l := by
  unfold MatchUnit.discardExpiry
  simp only [List.mem_map]
  constructor
  · rintro ⟨x, hx, he⟩
    cases x with
    | obs o ep => cases he
    | edge n d ep => cases he
    | quiet k b =>
      simp only at he
      split at he
      · cases he
      · next hk => cases he; exact ⟨hk, hx⟩
  · rintro ⟨h1, h2⟩
    exact ⟨_, h2, by simp [h1]⟩

/-- A stopped timer is stopped. -/
theorem stopQuiet_stopped (s : State) (i : Nat) {r : Record} {p : PortId} (h : r.silencePort = some p) :
    (s.stopQuiet i r).QuietStopped p i := by
  unfold stopQuiet
  rw [h]
  simp only [QuietStopped, quietOf, setMatch, port_setPort, if_true, MatchUnit.stopQuiet, mem_discardExpiry]
  simp

/-- Stopping one timer starts no other. -/
theorem stopQuiet_keeps (s : State) (i j : Nat) (r : Record) (p : PortId) (h : s.QuietStopped p j) :
    (s.stopQuiet i r).QuietStopped p j := by
  unfold stopQuiet
  split
  · exact h
  · next q hq =>
    unfold QuietStopped quietOf setMatch at *
    rw [port_setPort]
    split
    · next e =>
      subst e
      simp only [MatchUnit.stopQuiet, mem_discardExpiry]
      refine ⟨?_, fun hh => h.2 hh.2⟩
      rw [List.filter_filter]
      rw [List.filter_eq_nil_iff] at h ⊢
      intro x hx
      have := h.1 x hx
      simp_all
    · exact h

/-- A timer set running has the full limit of its port's copy (R51). -/
theorem restartQuiet_at (s : State) (i n : Nat) {r : Record} {p : PortId} (h : r.silencePort = some p)
    (hl : (s.port p).mu.live = true) (hc : (s.port p).mu.copyLimit i = some n) : (s.restartQuiet i r).QuietAt p i n
        := by
  unfold restartQuiet
  rw [h]
  simp only [hl, hc, QuietAt, quietOf, setMatch, port_setPort, if_true, MatchUnit.startQuiet, mem_discardExpiry]
  simp

theorem restartQuiet_stopped (s : State) (i : Nat) {r : Record} {p : PortId} (h : r.silencePort = some p)
    (hl : (s.port p).mu.live = false) : (s.restartQuiet i r).QuietStopped p i := by
  unfold restartQuiet
  rw [h]
  simp only [hl, QuietStopped, quietOf, setMatch, port_setPort, if_true, MatchUnit.stopQuiet, mem_discardExpiry]
  simp

/-- The timers of the records that stood in the freed slots are stopped (R21, R30). -/
theorem stopFreed_stopped (w : WatchTable) (freed : List Nat) (s : State) (p : PortId) (i : Nat)
    (h : s.QuietStopped p i ∨ (i ∈ freed ∧ ∃ r, w.recordAt i = some r ∧ r.silencePort = some p)) :
    (s.stopFreed w freed).QuietStopped p i := by
  unfold stopFreed
  induction freed generalizing s with
  | nil => exact h.resolve_right (by simp)
  | cons a rest ih =>
    rw [List.foldl_cons]
    apply ih
    rcases h with h | ⟨hm, r, hr, hp⟩
    · left
      split
      · exact stopQuiet_keeps _ _ _ _ _ h
      · exact h
    · rcases List.mem_cons.1 hm with rfl | hm
      · left
        rw [hr]
        exact stopQuiet_stopped _ _ hp
      · exact .inr ⟨hm, r, hr, hp⟩

theorem revoke_port (s : State) (o c : ChanId) (p : PortId) : (s.revoke o c).port p = s.port p := by
  unfold revoke; split <;> rfl

theorem revokeOwners_port (s : State) (is : List Nat) (c : ChanId) (p : PortId) :
    (s.revokeOwners is c).port p = s.port p := by
  unfold revokeOwners
  induction is generalizing s with
  | nil => rfl
  | cons a rest ih =>
    rw [List.foldl_cons, ih]
    split
    · exact revoke_port ..
    · rfl

/-- After a change, the copy of a unit concerned has the limit of the table's record. -/
theorem copyLimit_changeTable (s : State) (us : List UnitId) (hn : us.Nodup) (w : WatchTable) {p : PortId} {i : Nat}
    {r : Record} (hu : .matchUnit p ∈ us) (hr : w.recordAt i = some r) (hm : r.memberOf (.matchUnit p) = true) :
    ((s.changeTable us w).port p).mu.copyLimit i = r.side.trigger.quietLimit := by
  have hv := changeTable_view_mem s us hn w hu
  have hc : ((s.changeTable us w).port p).mu.view.copy = w.chain (.matchUnit p) := by
    have : ((s.changeTable us w).port p).mu.view = (s.changeTable us w).view (.matchUnit p) := rfl
    rw [this, hv]; rfl
  unfold MatchUnit.copyLimit
  rw [hc, find_chain w _ hr hm]
  rfl

/-- A unit of the record is in the middle of an event, so that a change of the record waits (R35). -/
theorem busy_units (s : State) (c : ChanId) (r : Record) (h : ∃ u, r.memberOf u = true ∧ s.InEvent u) :
    (s.popFrame c).anyBusy r.units = true := by
  obtain ⟨u, hu, hb⟩ := h
  exact (anyBusy_iff _ _).2 ⟨u, (mem_units r u).2 hu, hb⟩
theorem free_units (s : State) (c : ChanId) (r : Record) (h : ∀ u, r.memberOf u = true → ¬ s.InEvent u) :
    (s.popFrame c).anyBusy r.units = false :=
  (anyBusy_false _ _).2 fun u hu => h u ((mem_units r u).1 hu)

/-- What a change of a silence record's state does to its quiet timer (R50, R51). -/
theorem restate_quiet (s : State) (i : Nat) (r : Record) (hi : i < s.table.slots.length) (p : PortId)
    (limit : Nat) (htr : r.side.trigger = .onSilence limit) (hsc : r.scope = .one p) (hcr : r.side.cond.isCross =
        false) :
    (r.state = .armed → (s.port p).mu.live = true → (s.restate i r).QuietAt p i limit) ∧
              (r.state ≠ .armed ∨ (s.port p).mu.live = false → (s.restate i r).QuietStopped p i) := by
  have hmem := memberOf_silence hsc hcr
  have hsp : r.silencePort = some p := silencePort_iff.2 ⟨⟨_, htr⟩, hsc⟩
  have hro := changeTable_recordsOnly s r.units (s.table.setRecord i r)
  have hcl := copyLimit_changeTable s r.units (units_nodup r) (s.table.setRecord i r) ((mem_units r _).2 hmem) (by rw
      [WatchTable.recordAt_setRecord, if_pos ⟨rfl, hi⟩]) hmem
  rw [htr] at hcl
  have hlv := live_of_recordsOnly hro p
  unfold restate
  simp only
  refine ⟨fun ha hl => ?_, fun hh => ?_⟩
  · rw [if_pos ha]; exact restartQuiet_at _ _ _ hsp (hlv.trans hl) hcl
  · by_cases ha : r.state = .armed
    · rw [if_pos ha]; exact restartQuiet_stopped _ _ hsp (hlv.trans (hh.resolve_left (fun x => x ha)))
    · rw [if_neg ha]; exact stopQuiet_stopped _ _ hsp

/-! ### Changes of the match side (R18, R31, R35) -/

/-- Bringing a unit up to date takes every change it had not taken, in order (R35). -/
theorem view_bringUpToDate (s : State) (u : UnitId) : (s.bringUpToDate u).view u =
    { s.view u with copy := (s.view u).upToDate, tokens := (s.view u).tokens.map fun k => { k with update := none } } := by
  have h : ∀ (l : List Token) (x : State), ((l.foldl (fun t k => match k.update with
      | some upd => t.takeUpdate u upd
      | none => t) x).view u).copy = l.foldl (fun copy k => match k.update with
      | some y => putEntry y.1 copy
      | none => copy) (x.view u).copy := by
    intro l
    induction l with
    | nil => intro x; rfl
    | cons k rest ih =>
      intro x
      rw [List.foldl_cons, List.foldl_cons, ih]
      cases k.update with
      | none => rfl
      | some y => simp only; rw [takeUpdate_view]; rfl
  unfold bringUpToDate
  simp only
  rw [view_setView, if_pos rfl]
  rw [← begun_bringUpToDate s u]
  unfold bringUpToDate
  simp only
  rw [view_setView, if_pos rfl]
  exact congrArg (fun l => ({ copy := l, tokens := _, begun := _ } : RecordView)) (h _ s)

theorem bring_view_mem (us : List UnitId) (hn : us.Nodup) (s : State) {u : UnitId} (hu : u ∈ us) :
    (us.foldl bringUpToDate s).view u =
      { s.view u with copy := (s.view u).upToDate, tokens := (s.view u).tokens.map fun k => { k with update := none } } :=
  foldl_view_mem bringUpToDate (fun x _ _ h => view_bringUpToDate_ne x h)
    (fun a b => b = { a with copy := a.upToDate, tokens := a.tokens.map fun k => { k with update := none } }) (fun _ => True)
    (fun _ _ _ => trivial) (fun x a _ => view_bringUpToDate x a) us hn s trivial hu

/-- An idle unit takes a match side at once and keeps its report; another keeps it until its next boundary (R31, R35). -/
theorem view_offerUpdate (s : State) (u : UnitId) (n : Nat) (x : CopyEntry × Bool) :
    (s.unitIdle u = true → (s.offerUpdate u n x).view u = { s.view u with
      copy := putEntry x.1 (s.view u).upToDate,
      tokens := ((s.view u).tokens.map fun k => { k with update := none }) ++ [{ change := n, update := none }] }) ∧
    (s.unitIdle u = false → (s.offerUpdate u n x).view u = { s.view u with
      begun := !s.unitBusy u, tokens := (s.view u).tokens ++ [{ change := n, update := some x }] }) := by
  unfold offerUpdate
  refine ⟨fun h => ?_, fun h => ?_⟩
  · rw [if_pos h, view_addToken, takeUpdate_view, view_bringUpToDate]; rfl
  · rw [if_neg (by rw [h]; decide), view_addToken, view_setView, if_pos rfl]

theorem announce_some_view (s : State) (us : List UnitId) (hn : us.Nodup) (x : CopyEntry × Bool) {u : UnitId} (hu : u ∈ us) :
    (s.unitIdle u = true → (s.announce us (some x)).view u = { s.view u with
      copy := putEntry x.1 (s.view u).upToDate,
      tokens := ((s.view u).tokens.map fun k => { k with update := none }) ++
        [{ change := s.table.nextChange, update := none }] }) ∧
    (s.unitIdle u = false → (s.announce us (some x)).view u = { s.view u with
      begun := !s.unitBusy u,
      tokens := (s.view u).tokens ++ [{ change := s.table.nextChange, update := some x }] }) := by
  obtain ⟨y, ⟨hv, hb, hw⟩, he⟩ := foldl_view_at (fun t v => t.meetChange v s.table.nextChange (some x))
    (fun z _ _ h => view_meetChange_ne z h _ _) us hn (y := u)
    (fun z => z.view u = s.view u ∧ z.unitBusy u = s.unitBusy u ∧ z.unitWaits u = s.unitWaits u)
    (fun z a ha hz => ⟨(view_meetChange_ne z ha _ _).trans hz.1,
      ((meetChange_recordsOnly z a _ _).unitBusy u).trans hz.2.1,
      ((meetChange_recordsOnly z a _ _).unitWaits u).trans hz.2.2⟩) s ⟨rfl, rfl, rfl⟩ hu
  have hi : y.unitIdle u = s.unitIdle u := by unfold unitIdle; rw [hv, hb, hw]
  have hs : (s.announce us (some x)).view u = (y.offerUpdate u s.table.nextChange x).view u := by
    rw [show y.offerUpdate u s.table.nextChange x = y.meetChange u s.table.nextChange (some x) from rfl, ← he]
    unfold announce
    cases u <;> rfl
  have h := view_offerUpdate y u s.table.nextChange x
  rw [hi, hv, hb] at h
  rw [hs]
  exact h

/-- What the units take at once stands in the copy of each of them, and in no other (R35). -/
theorem takeAtOnce_view_mem (s : State) (us : List UnitId) (hn : us.Nodup) (x : CopyEntry × Bool)
    {u : UnitId} (hu : u ∈ us) :
    (s.takeAtOnce us (some x)).view u = { s.view u with copy := putEntry x.1 (s.view u).copy } :=
  foldl_view_mem (fun t u => t.takeUpdate u x) (fun y _ _ h => view_takeUpdate_ne y h x)
    (fun a b => b = { a with copy := putEntry x.1 a.copy }) (fun _ => True)
    (fun _ _ _ => trivial) (fun y a _ => takeUpdate_view y a x) us hn s trivial hu

theorem takeAtOnce_view_other (s : State) (us : List UnitId) (x : Option (CopyEntry × Bool))
    {u : UnitId} (hu : u ∉ us) :
    (s.takeAtOnce us x).view u = s.view u := by
  unfold takeAtOnce
  split
  · next upd =>
    exact foldl_view_other (fun t u => t.takeUpdate u upd) (fun y _ _ h => view_takeUpdate_ne y h upd) us s hu
  · rfl

theorem takeAtOnce_recordsOnly (s : State) (us : List UnitId) (x : Option (CopyEntry × Bool)) :
    s.RecordsOnly (s.takeAtOnce us x) := by
  unfold takeAtOnce
  split
  · exact RecordsOnly.foldl _ (fun y u => takeUpdate_recordsOnly y u _) us s
  · exact .rfl' s

theorem takeAtOnce_notice (s : State) (us : List UnitId) (x : Option (CopyEntry × Bool)) :
    (s.takeAtOnce us x).notice = s.notice := by
  unfold takeAtOnce
  split
  · exact foldl_notice _ (fun y u => takeUpdate_notice y u _) us s
  · rfl

/-- A change of the quiet limit that a unit takes restarts the timer of an ARMED record at the new limit (R18, R35). -/
theorem takeUpdate_quiet (s : State) (p : PortId) {e : CopyEntry} {r : Record} {n : Nat}
    (hr : s.table.recordAt e.slot = some r)
    (ha : r.state = .armed) (hp : r.silencePort = some p) (he : e.side.trigger = .onSilence n) :
    ((s.port p).mu.live = true → (s.takeUpdate (.matchUnit p) (e, true)).QuietAt p e.slot n) ∧
    ((s.port p).mu.live = false → (s.takeUpdate (.matchUnit p) (e, true)).QuietStopped p e.slot) := by
  have key : s.takeUpdate (.matchUnit p) (e, true) = (s.setView (.matchUnit p) { s.view (.matchUnit p) with
      copy := insertEntry e ((s.view (.matchUnit p)).copy.filter fun x => x.slot ≠ e.slot) }).restartQuiet e.slot r
          := by
    unfold takeUpdate
    simp only [setView_table, hr, ha, if_true]
  rw [key]
  set x := s.setView (.matchUnit p) { s.view (.matchUnit p) with
      copy := insertEntry e ((s.view (.matchUnit p)).copy.filter fun x => x.slot ≠ e.slot) } with hx
  have hl : (x.port p).mu.live = (s.port p).mu.live := (setView_mu s _ _ p).1
  have hc : (x.port p).mu.copyLimit e.slot = some n := by
    have : (x.port p).mu.view = x.view (.matchUnit p) := rfl
    unfold MatchUnit.copyLimit
    rw [this, hx, view_setView, if_pos rfl]
    simp only
    rw [find_insertEntry e _ (fun y hy => by simpa using (List.mem_filter.1 hy).2)]
    simp only [he, Trigger.quietLimit]
  exact ⟨fun h => restartQuiet_at _ _ _ hp (hl.trans h) hc, fun h => restartQuiet_stopped _ _ hp (hl.trans h)⟩

/-- A silence record concerns one unit. -/
theorem silence_units {r : Record} {p : PortId} (hs : r.scope = .one p) (hc : r.side.cond.isCross = false) :
    r.units = [.matchUnit p] := by
  have h1 : ∀ u ∈ r.units, u = .matchUnit p := by
    intro u hu
    rw [mem_units] at hu
    cases u with
    | crossLine => simp [Record.memberOf, hc] at hu
    | matchUnit q => simpa [Record.memberOf, hc, hs, Scope.covers] using hu
  have h2 : .matchUnit p ∈ r.units := (mem_units r _).2 (memberOf_silence hs hc)
  have h3 := units_nodup r
  cases hu : r.units with
  | nil => rw [hu] at h2; cases h2
  | cons a rest =>
    rw [hu] at h1 h3
    have ha := h1 a (List.mem_cons_self ..)
    cases rest with
    | nil => rw [ha]
    | cons b l =>
      have hb := h1 b (by simp)
      rw [ha, hb] at h3
      simp at h3

/-! ### Dependents armed by a fire (R28, R51, R58) -/

/-- Setting one timer running keeps the others. -/
theorem restartQuiet_other (s : State) (i j : Nat) (r : Record) (hij : j ≠ i) (p : PortId) :
    ((s.restartQuiet i r).quietOf p j = s.quietOf p j) ∧
    (.quiet j true ∈ ((s.restartQuiet i r).port p).mu.events ↔ .quiet j true ∈ (s.port p).mu.events) ∧
    ((s.restartQuiet i r).port p).mu.live = (s.port p).mu.live ∧
    ((s.restartQuiet i r).port p).mu.view = (s.port p).mu.view := by
  have f1 : ∀ l : List QuietTimer, (l.filter (fun t => t.slot ≠ i)).filter (fun t => t.slot = j) =
      l.filter (fun t => t.slot = j) := by
    intro l
    rw [List.filter_filter]
    apply List.filter_congr
    intro x _
    by_cases h : x.slot = j
    · simp [h, hij]
    · simp [h]
  unfold restartQuiet
  split
  · exact ⟨rfl, Iff.rfl, rfl, rfl⟩
  · next q hq =>
    simp only
    split
    · unfold quietOf setMatch
      rw [port_setPort]
      split
      · next e =>
        subst e
        refine ⟨?_, ?_, rfl, rfl⟩
        · simp only [MatchUnit.startQuiet, List.filter_append, f1]
          simp [Ne.symm hij]
        · simp only [MatchUnit.startQuiet, mem_discardExpiry]
          exact ⟨fun h => h.2, fun h => ⟨hij, h⟩⟩
      · exact ⟨rfl, Iff.rfl, rfl, rfl⟩
    · unfold quietOf setMatch
      rw [port_setPort]
      split
      · next e =>
        subst e
        refine ⟨?_, ?_, rfl, rfl⟩
        · simp only [MatchUnit.stopQuiet, f1]
        · simp only [MatchUnit.stopQuiet, mem_discardExpiry]
          exact ⟨fun h => h.2, fun h => ⟨hij, h⟩⟩
      · exact ⟨rfl, Iff.rfl, rfl, rfl⟩

/-- Arming one dependent keeps the timer of every other slot, and of a slot whose record is not WAITING. -/
theorem armDependent_other (s : State) (i j : Nat) (hij : j ≠ i ∨ ∀ r, s.table.recordAt i = some r → r.state ≠ .waiting)
    (p : PortId) :
    ((s.armDependent i).quietOf p j = s.quietOf p j) ∧
    (.quiet j true ∈ ((s.armDependent i).port p).mu.events ↔ .quiet j true ∈ (s.port p).mu.events) ∧
    ((s.armDependent i).port p).mu.live = (s.port p).mu.live ∧
    ((s.armDependent i).port p).mu.view = (s.port p).mu.view := by
  unfold armDependent
  split
  · next r hr =>
    split
    · next hw =>
      have h := hij.resolve_right (fun h => h r hr hw)
      exact restartQuiet_other (s.setTable _) i j _ h p
    · exact ⟨rfl, Iff.rfl, rfl, rfl⟩
  · exact ⟨rfl, Iff.rfl, rfl, rfl⟩

/-- Arming the dependents keeps the timer of a slot whose record is not WAITING. -/
theorem armAll_other (ks : List Nat) (s : State) (j : Nat)
    (hj : ∀ r, s.table.recordAt j = some r → r.state ≠ .waiting) (p : PortId) :
    ((ks.foldl armDependent s).quietOf p j = s.quietOf p j) ∧
    (.quiet j true ∈ ((ks.foldl armDependent s).port p).mu.events ↔ .quiet j true ∈ (s.port p).mu.events) := by
  induction ks generalizing s with
  | nil => exact ⟨rfl, Iff.rfl⟩
  | cons k rest ih =>
    rw [List.foldl_cons]
    have hk : j ≠ k ∨ ∀ r, s.table.recordAt k = some r → r.state ≠ .waiting := by
      by_cases e : j = k
      · subst e; exact .inr hj
      · exact .inl e
    obtain ⟨a, b, -, -⟩ := armDependent_other s k j hk p
    have hj' : ∀ r, (s.armDependent k).table.recordAt j = some r → r.state ≠ .waiting := by
      intro r hr
      have h2 : (s.armDependent k).table.recordAt j = ((s.armDependent k).table.slotAt j).record := rfl
      rw [h2, armDependent_slotAt] at hr
      split at hr
      · cases hx : s.table.recordAt j with
        | none => rw [hx] at hr; cases hr
        | some x =>
          rw [hx] at hr; cases hr
          have := hj x hx
          simp [armedRec, this]
      · exact hj r hr
    obtain ⟨c, d⟩ := ih (s.armDependent k) hj'
    exact ⟨c.trans a, d.trans b⟩

/-- The quiet timer of an ON_SILENCE dependent that is armed (R28, R51, R58). -/
theorem armAll_quiet (ks : List Nat) (s : State) {j : Nat} {r : Record} {p : PortId} (hm : j ∈ ks)
    (hr : s.table.recordAt j = some r) (hw : r.state = .waiting) (hp : r.silencePort = some p) :
    (∀ n, (s.port p).mu.live = true → (s.port p).mu.copyLimit j = some n → (ks.foldl armDependent s).QuietAt p j n) ∧
    ((s.port p).mu.live = false → (ks.foldl armDependent s).QuietStopped p j) := by
  induction ks generalizing s with
  | nil => cases hm
  | cons k rest ih =>
    rw [List.foldl_cons]
    by_cases e : j = k
    · subst e
      have hl := WatchTable.lt_of_recordAt _ hr
      have hrec : ∀ x, (s.armDependent j).table.recordAt j = some x → x.state ≠ .waiting := by
        intro x hx
        have h2 : (s.armDependent j).table.recordAt j = ((s.armDependent j).table.slotAt j).record := rfl
        rw [h2, armDependent_slotAt, if_pos rfl, hr] at hx
        cases hx
        simp [armedRec, hw]
      obtain ⟨a, b⟩ := armAll_other rest (s.armDependent j) j hrec p
      have key : s.armDependent j = (s.setTable (s.table.setRecord j { r with state := .armed, hits := 0
          })).restartQuiet j
          { r with state := .armed, hits := 0 } := by
        unfold armDependent
        rw [hr]
        simp [hw]
      have hp' : ({ r with state := .armed, hits := 0 } : Record).silencePort = some p := hp
      refine ⟨fun n h1 h2 => ?_, fun h1 => ?_⟩
      · have := restartQuiet_at (s.setTable (s.table.setRecord j { r with state := .armed, hits := 0 })) j n hp' h1 h2
        rw [← key] at this
        unfold QuietAt at *
        rw [a, b]; exact this
      · have := restartQuiet_stopped (s.setTable (s.table.setRecord j { r with state := .armed, hits := 0 })) j hp' h1
        rw [← key] at this
        unfold QuietStopped at *
        rw [a, b]; exact this
    · obtain ⟨-, -, c, d⟩ := armDependent_other s k j (.inl e) p
      have hr' : (s.armDependent k).table.recordAt j = some r := by
        have h2 : (s.armDependent k).table.recordAt j = ((s.armDependent k).table.slotAt j).record := rfl
        rw [h2, armDependent_slotAt, if_neg e]; exact hr
      have hc : ((s.armDependent k).port p).mu.copyLimit j = (s.port p).mu.copyLimit j := by
        unfold MatchUnit.copyLimit; rw [d]
      have := ih (s.armDependent k) ((List.mem_cons.1 hm).resolve_left e) hr'
      rw [c, hc] at this
      exact this

theorem takeActions_mu (q : Port) (ev : HitEvent) (a : Actions) (h : Handle) (o : ChanId) :
    (q.takeActions ev a h o).mu = q.mu := by
  unfold Port.takeActions Port.pushFreeze Port.pushGate
  split
  · rfl
  · cases ev.takenBy <;> cases a.freeze <;> cases a.gateOpen <;> cases a.gateClose <;> rfl

/-! ### Step 1 of a teardown (R30, R166) -/

theorem stopFreed_recordsOnly (s : State) (w : WatchTable) (l : List Nat) : s.RecordsOnly (s.stopFreed w l) := by
  unfold stopFreed
  refine RecordsOnly.foldl _ (fun x i => ?_) _ _
  split
  · exact stopQuiet_recordsOnly _ _ _
  · exact .rfl' x

theorem stopFreed_notice (s : State) (w : WatchTable) (l : List Nat) : (s.stopFreed w l).notice = s.notice := by
  unfold stopFreed
  refine foldl_notice _ (fun x i => ?_) _ _
  split
  · exact stopQuiet_notice ..
  · rfl

/-- Step 1 changes the records, and what follows a change of them, only. -/
theorem disposeRecords_recordsOnly (s : State) (c : ChanId) : s.RecordsOnly (s.disposeRecords c) := by
  unfold disposeRecords
  exact ((changeTable_recordsOnly _ _ _).trans (stopFreed_recordsOnly _ _ _)).trans (revokeOwners_ro _ _ _)

/-- Step 1 hands over REVOKED for the owners of the records it cut loose, and nothing else. -/
theorem disposeRecords_additions (s : State) (c : ChanId) :
    ∃ l, (s.disposeRecords c).notice.additions = s.notice.additions ++ l ∧
      ∀ a, a ∈ l ↔ ∃ j ∈ cutSlots s.table (s.freedSlots c), ∃ x, (s.disposeRecords c).table.recordAt j = some x ∧
        x.owner ≠ c ∧ a = .revoked x.owner := by
  unfold disposeRecords
  simp only [revokeOwners_table]
  obtain ⟨l, h1, h2⟩ := revokeOwners_additions _ _ _
  refine ⟨l, h1.trans ?_, h2⟩
  rw [stopFreed_notice, changeTable_notice]

/-- The views after step 1 are those after its change of the table. -/
theorem disposeRecords_view (s : State) (c : ChanId) (u : UnitId) :
    (s.disposeRecords c).view u = (s.changeTable (s.disposalUnits c) (((s.freedSlots c).foldl WatchTable.freeSlot
      ((s.keptSlots c).foldl handOver s.table)).cutLinks (cutSlots s.table (s.freedSlots c)))).view u := by
  unfold disposeRecords
  simp only [revokeOwners_view]
  have : ∀ (w : WatchTable) (l : List Nat) (x : State), (x.stopFreed w l).view u = x.view u := by
    intro w l
    unfold stopFreed
    induction l with
    | nil => intro x; rfl
    | cons a rest ih =>
      intro x
      rw [List.foldl_cons, ih]
      split
      · exact view_stopQuiet ..
      · rfl
  rw [this]

/-- The units step 1 concerns. -/
theorem mem_disposalUnits (s : State) (c : ChanId) (u : UnitId) : u ∈ s.disposalUnits c ↔
    ∃ i r, s.table.recordAt i = some r ∧ r.memberOf u = true ∧ (r.owner = c ∨
      ∃ h j x, r.after = some h ∧ s.table.recordAt j = some x ∧ x.owner = c ∧
        ¬ (c ≠ 0 ∧ (s.chan 0).isOpen = true ∧ x.keep = true) ∧ s.table.handleAt j = h) := by
  unfold disposalUnits
  rw [mem_unitsOf_iff]
  constructor
  · rintro ⟨i, hi, r, hr, hm⟩
    refine ⟨i, r, hr, hm, ?_⟩
    by_cases ho : r.owner = c
    · exact .inl ho
    · rcases List.mem_append.1 hi with hi | hi
      · unfold ownedSlots at hi
        rw [List.mem_filter, hr] at hi
        exact absurd (by simpa using hi.2) ho
      · have hf : i ∉ s.freedSlots c := fun h => ho ((mem_freedSlots s c hr).1 h).1
        exact .inr ((mem_cutSlots s c hr hf).1 hi)
  · rintro ⟨i, r, hr, hm, ho⟩
    by_cases hc : r.owner = c
    · exact ⟨i, List.mem_append_left _ (mem_ownedSlots hr hc), r, hr, hm⟩
    · have hf : i ∉ s.freedSlots c := fun h => hc ((mem_freedSlots s c hr).1 h).1
      exact ⟨i, List.mem_append_right _ ((mem_cutSlots s c hr hf).2 (ho.resolve_left hc)), r, hr, hm⟩

end State

end Sys2Proof.Machine
end

