-- ==== Sys2Proof/Laws/Quiet.lean ====
section
/-! SUPPORT. Which quiet timers a change of the records, a match side taken and a fire leave as they were: every one but
those of the slots they name. -/

namespace Sys2Proof.Machine

open Host

namespace MatchUnit.QuietKept

variable {named other : Nat → Prop} {m n o : MatchUnit}

theorem same (ht : n.timers = m.timers) (he : n.events = m.events) : m.QuietKept named n := by
  refine ⟨fun i _ => by rw [ht], ?_⟩
  rw [he]
  induction m.events with
  | nil => exact .nil
  | cons a l ih => exact .cons (.inl rfl) ih

theorem mono (h : m.QuietKept named n) (hs : ∀ i, named i → other i) : m.QuietKept other n :=
  ⟨fun i hi => h.timers i fun x => hi (hs i x),
    h.events.imp fun _ _ x => x.imp id fun ⟨i, a, b⟩ => ⟨i, hs i a, b⟩⟩

theorem trans (h : m.QuietKept named n) (k : n.QuietKept named o) : m.QuietKept named o := by
  refine ⟨fun i hi => (k.timers i hi).trans (h.timers i hi), ?_⟩
  have h1 := h.events
  have h2 := k.events
  generalize m.events = a, n.events = b, o.events = c at *
  induction h1 generalizing c with
  | nil => exact h2
  | cons hx _ ih =>
    cases h2 with
    | cons hy hl =>
      refine .cons ?_ (ih _ hl)
      rcases hx with rfl | ⟨i, hi, rfl, rfl⟩
      · exact hy
      · rcases hy with rfl | ⟨j, _, hj, _⟩
        · exact .inr ⟨i, hi, rfl, rfl⟩
        · cases hj

theorem discard (i : Nat) (l : List MatchEvent) :
    List.Forall₂ (fun x y => y = x ∨ ∃ j, j = i ∧ x = .quiet j true ∧ y = .quiet j false) l (discardExpiry i l) := by
  induction l with
  | nil => exact .nil
  | cons e rest ih =>
    refine .cons ?_ ih
    cases e with
    | obs _ _ => exact .inl rfl
    | edge _ _ _ => exact .inl rfl
    | quiet j b =>
      by_cases h : j = i
      · cases b with
        | true => exact .inr ⟨j, h, rfl, by simp [h]⟩
        | false => exact .inl (by simp [h])
      · exact .inl (by simp [h])

theorem filter_other {i j : Nat} (h : j ≠ i) (l : List QuietTimer) :
    (l.filter fun t => t.slot ≠ i).filter (fun t => t.slot = j) = l.filter fun t => t.slot = j := by
  rw [List.filter_filter]
  apply List.filter_congr
  intro x _
  by_cases e : x.slot = j
  · simp [e, h]
  · simp [e]

/-- Stopping the timer of a slot keeps every other one. -/
theorem stop (m : MatchUnit) (i : Nat) : m.QuietKept (fun j => j = i) (m.stopQuiet i) :=
  ⟨fun _ h => filter_other h _, discard i _⟩

/-- Setting the timer of a slot running keeps every other one. -/
theorem start (m : MatchUnit) (i limit : Nat) : m.QuietKept (fun j => j = i) (m.startQuiet i limit) := by
  refine ⟨fun j h => ?_, discard i _⟩
  unfold startQuiet
  rw [List.filter_append, filter_other h]
  simp [Ne.symm h]

end MatchUnit.QuietKept

namespace State

variable {named other : PortId → Nat → Prop} {s t u : State}

namespace QuietKept

theorem same (ht : ∀ p, (t.port p).mu.timers = (s.port p).mu.timers) (he : ∀ p, (t.port p).mu.events = (s.port p).mu.events) :
    s.QuietKept named t := fun p => .same (ht p) (he p)

theorem ofPorts (h : t.ports = s.ports) : s.QuietKept named t :=
  same (fun p => by unfold port; rw [h]) fun p => by unfold port; rw [h]

theorem rfl' (s : State) : s.QuietKept named s := ofPorts rfl

theorem setTable (s : State) (w : WatchTable) : s.QuietKept named (s.setTable w) := ofPorts rfl

theorem mono (h : s.QuietKept named t) (hs : ∀ p i, named p i → other p i) : s.QuietKept other t :=
  fun p => (h p).mono (hs p)

theorem trans (h : s.QuietKept named t) (k : t.QuietKept named u) : s.QuietKept named u := fun p => (h p).trans (k p)

/-- A fold keeps the timers that none of its steps names, where what a step names does not grow with what came before. -/
theorem foldl {α : Type} (f : State → α → State) (inv : State → Prop) (l : List α)
    (hi : ∀ x, ∀ a ∈ l, inv x → inv (f x a)) (hf : ∀ x, ∀ a ∈ l, inv x → x.QuietKept named (f x a)) (s : State) (h : inv s) :
    s.QuietKept named (l.foldl f s) := by
  induction l generalizing s with
  | nil => exact rfl' s
  | cons a rest ih =>
    exact (hf s a List.mem_cons_self h).trans (ih (fun x b hb => hi x b (List.mem_cons_of_mem _ hb))
      (fun x b hb => hf x b (List.mem_cons_of_mem _ hb)) _ (hi s a List.mem_cons_self h))

theorem setMatch (s : State) (p : PortId) {m : MatchUnit} (i : Nat) (h : (s.port p).mu.QuietKept (fun j => j = i) m) :
    s.QuietKept (fun q j => q = p ∧ j = i) (s.setMatch p m) := by
  intro q
  unfold State.setMatch
  rw [port_setPort]
  split
  · next e => subst e; exact h.mono fun _ hj => ⟨rfl, hj⟩
  · exact .same rfl rfl

theorem setView (s : State) (v : UnitId) (x : RecordView) : s.QuietKept named (s.setView v x) := by
  cases v with
  | matchUnit p =>
    intro q
    unfold State.setView
    rw [port_setPort]
    split
    · next e => subst e; exact .same rfl rfl
    · exact .same rfl rfl
  | crossLine => exact ofPorts rfl

theorem stopQuiet (s : State) (i : Nat) (r : Record) :
    s.QuietKept (fun p j => j = i ∧ r.scope = .one p) (s.stopQuiet i r) := by
  unfold State.stopQuiet
  split
  · exact rfl' s
  · next p hp =>
    exact (setMatch s p i (.stop _ i)).mono fun q j h => ⟨h.2, h.1 ▸ (silencePort_iff.1 hp).2⟩

theorem restartQuiet (s : State) (i : Nat) (r : Record) :
    s.QuietKept (fun p j => j = i ∧ r.silencePort = some p) (s.restartQuiet i r) := by
  unfold State.restartQuiet
  split
  · exact rfl' s
  · next p hp =>
    have h : ∀ q j, (q = p ∧ j = i) → j = i ∧ r.silencePort = some q := fun q j h => ⟨h.2, h.1 ▸ hp⟩
    simp only
    split
    · exact (setMatch s p i (.start _ i _)).mono h
    · exact (setMatch s p i (.stop _ i)).mono h

/-- Taking a match side restarts the timer of its own slot only, and only when it names the quiet limit. -/
theorem takeUpdate (s : State) (v : UnitId) (x : CopyEntry × Bool) :
    s.QuietKept (fun p j => x.2 = true ∧ j = x.1.slot ∧ s.TimedAt p j) (s.takeUpdate v x) := by
  unfold State.takeUpdate
  simp only
  split
  · next r h2 hr =>
    rw [setView_table] at hr
    split
    · next ha =>
      refine (setView s v _).trans ((restartQuiet _ _ _).mono fun p j h => ?_)
      obtain ⟨⟨n, hn⟩, hs⟩ := silencePort_iff.1 h.2
      exact ⟨h2, h.1, r, n, h.1 ▸ hr, ha, hn, hs⟩
    · exact setView s v _
  · exact setView s v _

theorem takeToken (s : State) (v : UnitId) (k : Token) :
    s.QuietKept (fun p j => ∃ e, k.update = some (e, true) ∧ j = e.slot ∧ s.TimedAt p j) (s.takeToken v k) := by
  unfold State.takeToken
  split
  · next x hx =>
    refine (takeUpdate s v x).mono fun p j h => ⟨x.1, ?_, h.2⟩
    rw [hx, ← h.1]
  · exact rfl' s

theorem timedAt (h : t.table.slots = s.table.slots) (p : PortId) (i : Nat) : t.TimedAt p i ↔ s.TimedAt p i := by
  unfold State.TimedAt WatchTable.recordAt WatchTable.slotAt
  rw [h]

theorem retimes_congr (h : t.table.slots = s.table.slots) {v : UnitId} (hv : t.view v = s.view v) (p : PortId) (i : Nat) :
    t.Retimes v p i ↔ s.Retimes v p i := by
  unfold State.Retimes
  rw [hv, timedAt h]

/-- Bringing a unit up to date restarts the timers that its changes retime. -/
theorem bringUpToDate (s : State) (v : UnitId) : s.QuietKept (s.Retimes v) (s.bringUpToDate v) := by
  unfold State.bringUpToDate
  refine trans ?_ (setView _ v _)
  refine foldl _ (fun x => x.table = s.table) _ (fun x k _ h => ?_) (fun x k hk h => ?_) s rfl
  · split
    · exact (takeUpdate_table ..).trans h
    · exact h
  · refine (takeToken x v k).mono fun p j ⟨e, he, hj, ht⟩ => ⟨⟨k, hk, e, he, hj.symm⟩, ?_⟩
    exact (timedAt (by rw [h]) p j).1 ht

theorem retimes_bringUpToDate (s : State) (v w : UnitId) (p : PortId) (i : Nat)
    (h : (s.bringUpToDate v).Retimes w p i) : s.Retimes w p i := by
  obtain ⟨⟨k, hk, e, he, hi⟩, ht⟩ := h
  have ht' : s.TimedAt p i := (timedAt (by rw [bringUpToDate_table]) p i).1 ht
  by_cases hvw : v = w
  · subst hvw
    rw [tokens_bringUpToDate] at hk
    obtain ⟨y, _, rfl⟩ := List.mem_map.1 hk
    cases he
  · rw [view_bringUpToDate_ne s hvw] at hk
    exact ⟨⟨k, hk, e, he, hi⟩, ht'⟩

theorem addToken (s : State) (v : UnitId) (n : Nat) (x : Option (CopyEntry × Bool)) :
    s.QuietKept named (s.addToken v n x) := setView s v _

theorem announceNone (s : State) (us : List UnitId) : s.QuietKept named (s.announce us none) := by
  unfold State.announce
  exact (foldl _ (fun _ => True) us (fun _ _ _ _ => trivial) (fun x v _ _ => addToken x v _ _) s trivial).trans (ofPorts rfl)

theorem revoke (s : State) (o c : ChanId) : s.QuietKept named (s.revoke o c) := by
  unfold State.revoke
  split
  · exact rfl' s
  · exact ofPorts rfl

theorem revokeOwners (s : State) (is : List Nat) (c : ChanId) : s.QuietKept named (s.revokeOwners is c) :=
  same (fun p => by rw [revokeOwners_port]) fun p => by rw [revokeOwners_port]

theorem stopFreed (s : State) (t : WatchTable) (freed : List Nat) :
    s.QuietKept (fun p j => j ∈ freed ∧ ∃ r, t.recordAt j = some r ∧ r.scope = .one p) (s.stopFreed t freed) := by
  unfold State.stopFreed
  refine foldl _ (fun _ => True) freed (fun _ _ _ _ => trivial) (fun x i hi _ => ?_) s trivial
  split
  · next r hr => exact (stopQuiet x i r).mono fun p j ⟨h1, h2⟩ => ⟨h1 ▸ hi, r, h1 ▸ hr, h2⟩
  · exact rfl' x

theorem takeAtOnce (s : State) (us : List UnitId) (x : Option (CopyEntry × Bool)) :
    s.QuietKept (fun p j => ∃ v ∈ us, ∃ e, x = some (e, true) ∧ j = e.slot ∧ s.TimedAt p j) (s.takeAtOnce us x) := by
  unfold State.takeAtOnce
  split
  · next y =>
    refine foldl _ (fun z => z.table = s.table) us (fun z v _ h => (takeUpdate_table ..).trans h) (fun z v hv h => ?_) s rfl
    refine (takeUpdate z v y).mono fun p j ⟨h1, h2, h3⟩ => ⟨v, hv, y.1, by rw [← h1], h2, (timedAt (by rw [h]) p j).1 h3⟩
  · exact rfl' s

/-- A change that does not name a timer keeps what it was set to. -/
theorem quietSet {x : State} (h : t.QuietKept named u) {p : PortId} {i n : Nat} (hi : ¬ named p i) (hs : x.QuietSet t p i n) :
    x.QuietSet u p i n := by
  have h1 : u.quietOf p i = t.quietOf p i := (h p).timers i hi
  have h2 : .quiet i true ∈ (u.port p).mu.events → .quiet i true ∈ (t.port p).mu.events := by
    have := (h p).events
    generalize (t.port p).mu.events = a, (u.port p).mu.events = b at *
    induction this with
    | nil => exact id
    | cons hx _ ih =>
      intro hm
      rcases List.mem_cons.1 hm with e | e
      · rcases hx with rfl | ⟨j, _, _, hy⟩
        · exact e ▸ List.mem_cons_self
        · rw [hy] at e; cases e
      · exact List.mem_cons_of_mem _ (ih e)
  refine ⟨fun hl => ?_, fun hl => ?_⟩
  · obtain ⟨a, b⟩ := hs.1 hl
    exact ⟨h1.trans a, fun hh => b (h2 hh)⟩
  · obtain ⟨a, b⟩ := hs.2 hl
    exact ⟨h1.trans a, fun hh => b (h2 hh)⟩

theorem timedAt_setRecord {i : Nat} {r r' : Record} (hr : s.table.recordAt i = some r) (hs : r'.scope = r.scope)
    (ha : r'.state = r.state) (hq : r'.side.trigger.isSilence = r.side.trigger.isSilence)
    (h : t.table.slots = (s.table.setRecord i r').slots) (p : PortId) (j : Nat) : t.TimedAt p j ↔ s.TimedAt p j := by
  have hk : ∀ x : Trigger, (∃ n, x = .onSilence n) ↔ x.isSilence = true := by
    intro x; cases x <;> simp [Trigger.isSilence]
  unfold State.TimedAt
  have e : t.table.recordAt j = (s.table.setRecord i r').recordAt j := by
    unfold WatchTable.recordAt WatchTable.slotAt; rw [h]
  rw [e, WatchTable.recordAt_setRecord]
  split
  · next hj =>
    obtain ⟨rfl, _⟩ := hj
    simp only [hr, Option.some.injEq]
    constructor
    · rintro ⟨x, n, rfl, h1, h2, h3⟩
      obtain ⟨m, hm⟩ := (hk _).2 (hq ▸ (hk _).1 ⟨n, h2⟩)
      exact ⟨r, m, rfl, ha ▸ h1, hm, hs ▸ h3⟩
    · rintro ⟨x, n, rfl, h1, h2, h3⟩
      obtain ⟨m, hm⟩ := (hk _).2 (hq.symm ▸ (hk _).1 ⟨n, h2⟩)
      exact ⟨r', m, rfl, ha.trans h1, hm, hs.trans h3⟩
  · rfl

end QuietKept

/-! ### Changes of the records -/

namespace QuietAfter

variable {own own' : PortId → Nat → Prop} {takes takes' : UnitId → Prop}

theorem mono (h : s.QuietAfter own takes t) (ho : ∀ p i, own p i → own' p i) (ht : ∀ v, takes v ↔ takes' v) :
    s.QuietAfter own' takes' t where
  kept := h.kept.mono fun p i x => x.imp (ho p i) fun ⟨v, a, b⟩ => ⟨v, (ht v).1 a, b⟩
  retimed p i n a b := h.retimed p i n ((ht _).2 a) fun x => b (ho p i x)

/-- What comes after a change names timers of its own. -/
theorem andThen (h : s.QuietAfter own takes t) (k : t.QuietKept own' u) (ho : ∀ p i, own p i → own' p i) :
    s.QuietAfter own' takes u where
  kept := (h.kept.mono fun p i x => x.imp_left (ho p i)).trans (k.mono fun _ _ => .inl)
  retimed p i n a b c d := k.quietSet b (h.retimed p i n a (fun x => b (ho p i x)) c d)

/-- What comes after a change and names no timer. -/
theorem same (h : s.QuietAfter own takes t) (k : t.QuietKept own u) : s.QuietAfter own takes u := h.andThen k fun _ _ => id

/-- A fold over units that a change comes to, each of which acts on its own view. -/
theorem fold (f : State → UnitId → State) (us : List UnitId) (hn : us.Nodup) (s : State)
    (hf : ∀ (y : State), ∀ a ∈ us, y.table.slots = s.table.slots → y.view a = s.view a → y.unitIdle a = s.unitIdle a →
      y.QuietAfter own (fun v => v = a ∧ takes a) (f y a))
    (hw : ∀ (y : State) a p i, y.table.slots = s.table.slots → (∃ v ∈ us, takes v) → (f y a).Retimes a p i →
      y.Retimes a p i ∨ own p i)
    (hr : ∀ (y : State) a, y.RecordsOnly (f y a)) (ht : ∀ (y : State) a, (f y a).table.slots = y.table.slots)
    (hv : ∀ (y : State) {a b : UnitId}, a ≠ b → (f y a).view b = y.view b) :
    s.QuietAfter own (fun v => v ∈ us ∧ takes v) (us.foldl f s) := by
  have key : ∀ (l : List UnitId) (y : State), l.Nodup → (∀ v ∈ l, v ∈ us) → y.table.slots = s.table.slots →
      (∀ v ∈ l, y.view v = s.view v ∧ y.unitIdle v = s.unitIdle v) →
      y.QuietAfter own (fun v => v ∈ l ∧ takes v) (l.foldl f y) := by
    intro l
    induction l with
    | nil =>
      intro y _ _ _ _
      exact ⟨.rfl' y, fun p i n h => absurd h.1 (by simp)⟩
    | cons a rest ih =>
      intro y hl hm hts hvs
      rw [List.nodup_cons] at hl
      obtain ⟨hva, hia⟩ := hvs a List.mem_cons_self
      have A := hf y a (hm a List.mem_cons_self) hts hva hia
      have hne : ∀ v ∈ rest, a ≠ v := fun v h e => hl.1 (e ▸ h)
      have B := ih (f y a) hl.2 (fun v h => hm v (List.mem_cons_of_mem _ h)) ((ht y a).trans hts) fun v h => by
        obtain ⟨h1, h2⟩ := hvs v (List.mem_cons_of_mem _ h)
        refine ⟨(hv y (hne v h)).trans h1, ?_⟩
        rw [← h2]
        unfold unitIdle
        rw [(hr y a).unitBusy, (hr y a).unitWaits, hv y (hne v h)]
      have hcongr : ∀ v, a ≠ v → ∀ p i, (f y a).Retimes v p i ↔ y.Retimes v p i := fun v h =>
        QuietKept.retimes_congr (ht y a) (hv y h)
      refine ⟨(A.kept.mono fun p i x => x.imp_right ?_).trans (B.kept.mono fun p i x => x.imp_right ?_), ?_⟩
      · rintro ⟨v, ⟨rfl, hk⟩, h⟩
        exact ⟨v, ⟨List.mem_cons_self, hk⟩, h⟩
      · rintro ⟨v, ⟨hm, hk⟩, h⟩
        exact ⟨v, ⟨List.mem_cons_of_mem _ hm, hk⟩, (hcongr v (hne v hm) p i).1 h⟩
      · rintro p i n ⟨hm', hk⟩ ho hu hre
        rcases List.mem_cons.1 hm' with e | e
        · subst e
          refine B.kept.quietSet ?_ (A.retimed p i n ⟨rfl, hk⟩ ho hu hre)
          rintro (h | ⟨v, ⟨hvm, _⟩, h⟩)
          · exact ho h
          · exact hu v (Ne.symm (hne v hvm)) ((hcongr v (hne v hvm) p i).1 h)
        · have hap := hne _ e
          have h := B.retimed p i n ⟨e, hk⟩ ho (fun v hvp h => ?_) ?_
          · unfold QuietSet at h ⊢
            rwa [live_of_recordsOnly (hr y a)] at h
          · by_cases hav : a = v
            · subst hav
              rcases hw y a p i hts ⟨_, hm _ (List.mem_cons_of_mem _ e), hk⟩ h with h | h
              · exact hu a hvp h
              · exact ho h
            · exact hu v hvp ((hcongr v hav p i).1 h)
          · obtain ⟨h1, h2⟩ := hre
            refine ⟨(QuietKept.timedAt (ht y a) p i).2 h1, ?_⟩
            rwa [hv y hap]
  exact key us s hn (fun _ h => h) rfl fun _ _ => ⟨rfl, rfl⟩

/-- Bringing a unit up to date restarts the timers that its changes retime, at the limits they give (R18). -/
theorem bringUpToDate (s : State) (v : UnitId) : s.QuietAfter (fun _ _ => False) (fun w => w = v) (s.bringUpToDate v) := by
  refine ⟨(QuietKept.bringUpToDate s v).mono fun p i h => .inr ⟨v, rfl, h⟩, ?_⟩
  rintro p i n rfl - - ⟨⟨r, m, hr, ha, hq, hs⟩, before, k, after, e, htok, hk, hi, hn, hlast⟩
  unfold State.bringUpToDate
  refine QuietKept.quietSet (named := fun _ _ => False) (.setView _ _ _) id ?_
  rw [htok, List.foldl_append, List.foldl_cons]
  have ht : ∀ (l : List Token) (x : State), (l.foldl (fun t k => match k.update with
      | some upd => t.takeUpdate (.matchUnit p) upd
      | none => t) x).table = x.table :=
    foldl_table _ fun x k => by
      split
      · exact takeUpdate_table ..
      · rfl
  have hl : ∀ (l : List Token) (x : State), x.RecordsOnly (l.foldl (fun t k => match k.update with
      | some upd => t.takeUpdate (.matchUnit p) upd
      | none => t) x) := fun l x => RecordsOnly.foldl _ (fun x k => by
        split
        · exact takeUpdate_recordsOnly ..
        · exact .rfl' x) l x
  set x := before.foldl (fun t k => match k.update with
      | some upd => t.takeUpdate (.matchUnit p) upd
      | none => t) s with hx
  have hxt : x.table = s.table := ht before s
  have hset := takeUpdate_quiet x p (e := e) (r := r) (n := n) (by rw [hxt, hi]; exact hr) ha
    (silencePort_iff.2 ⟨⟨m, hq⟩, hs⟩) hn
  rw [hi] at hset
  have hset' : s.QuietSet (x.takeUpdate (.matchUnit p) (e, true)) p i n := by
    unfold QuietSet
    rwa [live_of_recordsOnly (hl before s)] at hset
  simp only [hk]
  refine QuietKept.quietSet (named := fun q j => ∃ y ∈ after, ∃ w, y.update = some (w, true) ∧ j = w.slot) ?_ ?_ hset'
  · exact QuietKept.foldl _ (fun _ => True) after (fun _ _ _ _ => trivial) (fun z y hy _ =>
      (QuietKept.takeToken z (.matchUnit p) y).mono fun q j ⟨w, h1, h2, _⟩ => ⟨y, hy, w, h1, h2⟩) _ trivial
  · rintro ⟨y, hy, w, h1, h2⟩
    exact hlast y hy w h1 h2.symm

theorem bringAll (s : State) (us : List UnitId) (hn : us.Nodup) :
    s.QuietAfter (fun _ _ => False) (fun v => v ∈ us) (us.foldl State.bringUpToDate s) :=
  (fold (takes := fun _ => True) State.bringUpToDate us hn s
    (fun y a _ _ _ _ => (bringUpToDate y a).mono (fun _ _ => id) fun v => by simp)
    (fun y a p i _ _ h => .inl (QuietKept.retimes_bringUpToDate y a a p i h)) bringUpToDate_recordsOnly
    (fun y a => by rw [bringUpToDate_table]) view_bringUpToDate_ne).mono (fun _ _ => id) fun v => by simp

/-- A count-side or membership change restarts the timers that the units concerned had still to retime. -/
theorem changeTable (s : State) (us : List UnitId) (hn : us.Nodup) (w : WatchTable) :
    s.QuietAfter (fun _ _ => False) (fun v => v ∈ us) (s.changeTable us w) := by
  unfold State.changeTable
  refine (((bringAll s us hn).same (.setTable _ w)).same ?_).same (.announceNone _ us)
  exact QuietKept.foldl syncCopy (fun _ => True) us (fun _ _ _ _ => trivial) (fun x v _ _ => .setView x v _) _ trivial

theorem placeAt (s : State) (i : Nat) (r : Record) :
    s.QuietAfter (fun p j => j = i ∧ r.scope = .one p) (fun v => r.memberOf v = true) (s.placeAt i r) := by
  unfold State.placeAt
  simp only
  have h := (changeTable s r.units (units_nodup r) { s.table.setRecord i r with counter := s.table.counter + 1 }).mono
    (own' := fun p j => j = i ∧ r.scope = .one p) (fun _ _ => False.elim) (mem_units r)
  split
  · exact h.same ((QuietKept.restartQuiet _ _ _).mono fun _ _ x => ⟨x.1, (silencePort_iff.1 x.2).2⟩)
  · exact h

theorem restate (s : State) (i : Nat) (r : Record) :
    s.QuietAfter (fun p j => j = i ∧ r.scope = .one p) (fun v => r.memberOf v = true) (s.restate i r) := by
  unfold State.restate
  simp only
  have h := (changeTable s r.units (units_nodup r) (s.table.setRecord i r)).mono
    (own' := fun p j => j = i ∧ r.scope = .one p) (fun _ _ => False.elim) (mem_units r)
  split
  · exact h.same ((QuietKept.restartQuiet _ _ _).mono fun _ _ x => ⟨x.1, (silencePort_iff.1 x.2).2⟩)
  · exact h.same (.stopQuiet _ _ _)

theorem unitsOf_nodup (w : WatchTable) (is : List Nat) : (w.unitsOf is).Nodup := List.Nodup.filter _ (by decide)

theorem retireAt (s : State) (h : Handle) (r : Record) (c : ChanId) :
    s.QuietAfter (fun p j => j = h.slot ∧ r.scope = .one p) (fun v => v ∈ retireUnits s.table h) (s.retireAt h r c) := by
  unfold State.retireAt
  exact (((changeTable s _ (unitsOf_nodup _ _) _).andThen (.stopQuiet _ _ _) fun _ _ => False.elim).same (.revoke _ _ _)).same
    (.revokeOwners _ _ _)

theorem disposeRecords (s : State) (c : ChanId) :
    s.QuietAfter (fun p j => j ∈ s.freedSlots c ∧ s.ScopedAt p j) (fun v => v ∈ s.disposalUnits c) (s.disposeRecords c) := by
  unfold State.disposeRecords
  exact ((changeTable s _ (unitsOf_nodup _ _) _).andThen (.stopFreed _ _ _) fun _ _ => False.elim).same (.revokeOwners _ _ _)

/-- A match side that comes to the units restarts, at those that are idle, the timer its own quiet limit names and those that
the changes not yet taken name. -/
theorem announceSome (s : State) (us : List UnitId) (hn : us.Nodup) (x : CopyEntry × Bool) :
    s.QuietAfter (fun p j => (x.2 = true ∧ j = x.1.slot ∧ s.TimedAt p j) ∧ ∃ v ∈ us, s.unitIdle v = true)
      (fun v => v ∈ us ∧ s.unitIdle v = true) (s.announce us (some x)) := by
  unfold State.announce
  refine same (t := us.foldl (fun t v => t.meetChange v s.table.nextChange (some x)) s) ?_ (.ofPorts rfl)
  refine fold (takes := fun v => s.unitIdle v = true) (fun t v => t.meetChange v s.table.nextChange (some x)) us hn s (fun y a ha ht hv hi => ?_)
    (fun y a p i ht he h => ?_) (fun y a => meetChange_recordsOnly y a _ _) (fun y a => by rw [meetChange_table])
    (fun y a b h => view_meetChange_ne y h _ _)
  · show y.QuietAfter _ _ (y.offerUpdate a s.table.nextChange x)
    unfold offerUpdate
    split
    · next hid =>
      refine (((bringUpToDate y a).andThen ((QuietKept.takeUpdate _ a x).mono fun p j h => ?_) fun _ _ => False.elim).same
        (.addToken _ a _ none)).mono (fun _ _ => id) fun v => by simp [← hi, hid]
      refine ⟨⟨h.1, h.2.1, (QuietKept.timedAt ?_ p j).1 h.2.2⟩, a, ha, hi ▸ hid⟩
      rw [bringUpToDate_table, ht]
    · next hid =>
      exact ⟨(QuietKept.setView y a _).trans (.addToken _ a _ _), fun p i n h => absurd (hi.trans h.2) hid⟩
  · change (y.offerUpdate a s.table.nextChange x).Retimes a p i at h
    obtain ⟨⟨k, hk, e, hu, hs⟩, htime⟩ := h
    have hts : (y.offerUpdate a s.table.nextChange x).table.slots = y.table.slots := by
      have := meetChange_table y a s.table.nextChange (some x)
      exact congrArg WatchTable.slots this
    rw [QuietKept.timedAt hts] at htime
    obtain ⟨v1, v2⟩ := view_offerUpdate y a s.table.nextChange x
    cases hid : y.unitIdle a with
    | true =>
      rw [v1 hid] at hk
      rcases List.mem_append.1 hk with hk | hk
      · obtain ⟨z, _, rfl⟩ := List.mem_map.1 hk
        cases hu
      · rw [List.mem_singleton.1 hk] at hu
        cases hu
    | false =>
      rw [v2 hid] at hk
      rcases List.mem_append.1 hk with hk | hk
      · exact .inl ⟨⟨k, hk, e, hu, hs⟩, htime⟩
      · rw [List.mem_singleton.1 hk] at hu
        simp only [Option.some.injEq] at hu
        exact .inr ⟨⟨by rw [hu], by rw [hu]; exact hs.symm, (QuietKept.timedAt ht p i).1 htime⟩, he⟩

/-- An AMEND restarts the timer of its own record when it names the quiet limit, and those that the units which take it at
once had still to retime. -/
theorem amendAt (s : State) (i : Nat) (r : Record) (a : AmendRequest) (hr : s.table.recordAt i = some r) :
    let takes (v : UnitId) : Prop := r.memberOf v = true ∧ (a.namesCount = true ∨ (a.namesMatch = true ∧ s.unitIdle v = true))
    s.QuietAfter (fun p j => a.quiet.isSome = true ∧ j = i ∧ r.scope = .one p ∧ ∃ v, takes v) takes (s.amendAt i r a) := by
  intro takes
  have hq : (amended r a).side.trigger.isSilence = r.side.trigger.isSilence := by
    show (match r.side.trigger with
      | .onHit => Trigger.onHit
      | .onSilence n => .onSilence (a.quiet.getD n)).isSilence = _
    cases r.side.trigger <;> rfl
  have ht : ∀ (t : State), t.table.slots = (s.table.setRecord i (amended r a)).slots → ∀ p j, t.TimedAt p j ↔ s.TimedAt p j :=
    fun t h => QuietKept.timedAt_setRecord (r' := amended r a) hr rfl rfl hq h
  have hs : ∀ p, s.TimedAt p i → r.scope = .one p := by
    rintro p ⟨x, _, hx, _, _, hp⟩
    rw [hr] at hx
    cases hx
    exact hp
  unfold State.amendAt amendUpdate
  simp only
  split
  · next hc =>
    have h0 : s.QuietAfter (fun p j => a.quiet.isSome = true ∧ j = i ∧ r.scope = .one p ∧ ∃ v, takes v) takes
        (r.units.foldl State.bringUpToDate s) := (bringAll s r.units (units_nodup r)).mono (fun _ _ => False.elim) fun v => by
      simp [takes, mem_units, hc]
    refine ((h0.same (.setTable _ _)).same ((QuietKept.takeAtOnce _ r.units _).mono fun p j ⟨v, hv, e, he, hj, h⟩ => ?_)).same
      (.announceNone _ _)
    split at he
    · simp only [Option.some.injEq, Prod.mk.injEq] at he
      have hji : j = i := by rw [hj, ← he.1]; rfl
      subst hji
      refine ⟨he.2, rfl, hs p ((ht _ ?_ p j).1 h), v, (mem_units r v).1 hv, .inl hc⟩
      rw [setTable_table, bring_table]
    · cases he
  · next hc =>
    have hidle : ∀ w v, (s.setTable w).unitIdle v = s.unitIdle v := by
      intro w v
      unfold unitIdle unitBusy unitWaits
      cases v <;> rfl
    split
    · next hm =>
      have h := announceSome (s.setTable (s.table.setRecord i (amended r a))) r.units (units_nodup r)
        (Record.entry (amended r a) i, a.quiet.isSome)
      have hre : ∀ v p j, (s.setTable (s.table.setRecord i (amended r a))).Retimes v p j ↔ s.Retimes v p j := by
        intro v p j
        unfold State.Retimes
        rw [setTable_view, ht _ rfl]
      have h' : s.QuietAfter (fun p j => (a.quiet.isSome = true ∧ j = i ∧ s.TimedAt p j) ∧
          ∃ v ∈ r.units, s.unitIdle v = true) (fun v => v ∈ r.units ∧ s.unitIdle v = true)
          ((s.setTable (s.table.setRecord i (amended r a))).announce r.units
            (some (Record.entry (amended r a) i, a.quiet.isSome))) := by
        refine ⟨(QuietKept.setTable s _).trans (h.kept.mono fun p j x => x.imp (fun ⟨⟨h1, h2, h3⟩, v, hv, h4⟩ =>
          ⟨⟨h1, h2, (ht _ rfl p j).1 h3⟩, v, hv, (hidle _ v) ▸ h4⟩) fun ⟨v, ⟨hv, h4⟩, h5⟩ => ⟨v, ⟨hv, (hidle _ v) ▸ h4⟩, (hre v p j).1 h5⟩),
          fun p j n h1 h2 h3 h4 => ?_⟩
        refine h.retimed p j n ⟨h1.1, (hidle _ _).trans h1.2⟩ (fun x => h2 ?_) (fun v hv x => h3 v hv ((hre v p j).1 x)) ?_
        · obtain ⟨⟨y1, y2, y3⟩, v, hv, y4⟩ := x
          exact ⟨⟨y1, y2, (ht _ rfl p j).1 y3⟩, v, hv, (hidle _ v) ▸ y4⟩
        · exact ⟨(ht _ rfl p j).2 h4.1, h4.2⟩
      refine h'.mono (fun p j ⟨⟨h1, h2, h3⟩, v, hv, h4⟩ => ?_) fun v => by simp [takes, mem_units, hc, hm]
      subst h2
      exact ⟨h1, rfl, hs p h3, v, (mem_units r v).1 hv, .inr ⟨hm, h4⟩⟩
    · next hm =>
      refine ⟨(QuietKept.setTable s _).trans (.announceNone _ _), fun p j n h => absurd h.2 ?_⟩
      simp [hc, hm]

end QuietAfter

/-! ### Fires (R28, R51) -/

namespace QuietKept

theorem scopedAt_setRecord {i : Nat} {r r' : Record} (hr : s.table.recordAt i = some r) (hs : r'.scope = r.scope)
    (h : t.table.slots = (s.table.setRecord i r').slots) (p : PortId) (j : Nat) : t.ScopedAt p j ↔ s.ScopedAt p j := by
  unfold State.ScopedAt
  have e : t.table.recordAt j = (s.table.setRecord i r').recordAt j := by
    unfold WatchTable.recordAt WatchTable.slotAt; rw [h]
  rw [e, WatchTable.recordAt_setRecord]
  split
  · next hj =>
    obtain ⟨rfl, _⟩ := hj
    simp [hr, hs]
  · rfl

theorem armDependent (s : State) (i : Nat) : s.QuietKept (fun p j => j = i ∧ s.ScopedAt p j) (s.armDependent i) := by
  unfold State.armDependent
  split
  · next r hr =>
    split
    · exact (setTable s _).trans ((restartQuiet _ i _).mono fun p j h => ⟨h.1, r, h.1 ▸ hr, (silencePort_iff.1 h.2).2⟩)
    · exact rfl' s
  · exact rfl' s

/-- Arming the dependents keeps the timer of every other slot. -/
theorem armAll (s : State) (l : List Nat) : s.QuietKept (fun p j => j ∈ l ∧ s.ScopedAt p j) (l.foldl State.armDependent s) := by
  refine foldl _ (fun x => ∀ p j, x.ScopedAt p j → s.ScopedAt p j) l (fun x i _ h p j hx => h p j ?_) (fun x i hi h =>
    (armDependent x i).mono fun p j ⟨h1, h2⟩ => ⟨h1 ▸ hi, h p j h2⟩) s fun _ _ h => h
  unfold State.armDependent at hx
  split at hx
  · next r hr =>
    split at hx
    · exact (scopedAt_setRecord (r' := { r with state := .armed, hits := 0 }) hr rfl (by rw [restartQuiet_table]; rfl) p j).1 hx
    · exact hx
  · exact hx

theorem dispatch (s : State) (ev : HitEvent) (a : Actions) (h : Handle) (o : ChanId) (ps : List PortId) :
    s.QuietKept named (s.dispatch ev a h o ps) := by
  have hf : ∀ x : State, x.QuietKept named (ps.foldl (fun t q => t.setPort q ((t.port q).takeActions ev a h o)) x) := by
    intro x
    refine foldl _ (fun _ => True) ps (fun _ _ _ _ => trivial) (fun y q _ _ p => ?_) x trivial
    rw [port_setPort]
    split
    · next e => subst e; exact .same (by rw [takeActions_mu]) (by rw [takeActions_mu])
    · exact .same rfl rfl
  have h1 : s.QuietKept named (if a.signal then s.sendSignal ev.takenBy h o else s) := by
    split
    · exact ofPorts rfl
    · exact rfl' s
  unfold State.dispatch
  simp only
  split
  · refine (h1.trans (hf _)).trans ?_
    unfold pushPulse
    cases ev.takenBy <;> exact ofPorts rfl
  · exact h1.trans (hf _)

/-- A hit keeps the timer of every slot but those of the dependents its fire arms. -/
theorem hit (s : State) (e : CopyEntry) (ev : HitEvent) :
    s.QuietKept (fun p j => j ∈ (s.hit e ev).2 ∧ s.ScopedAt p j) (s.hit e ev).1 := by
  unfold State.hit
  split
  · exact rfl' s
  · next r hr =>
    split
    · simp only
      split
      · unfold State.fire
        simp only
        refine ((setTable s _).trans (dispatch _ ev _ _ _ _)).trans ((armAll _ _).mono fun p j ⟨h1, h2⟩ => ⟨h1, ?_⟩)
        refine (scopedAt_setRecord (r' := (r.counted ev).fired ev) hr ?_ ?_ p j).1 h2
        · unfold Record.fired Record.counted; simp only; split <;> rfl
        · rw [dispatch_table]; rfl
      · exact setTable s _
    · exact rfl' s

end QuietKept

/-! ### What a fire leaves of the units -/

/-- The Match Units as they were but for their events and timers, and the Cross Line Unit but for its pulse requests. -/
structure UnitsKept (s t : State) : Prop where
  mu : ∀ p, (t.port p).mu = { (s.port p).mu with events := (t.port p).mu.events, timers := (t.port p).mu.timers }
  cross : t.cross = { s.cross with requests := t.cross.requests }

namespace UnitsKept

theorem rfl' (s : State) : s.UnitsKept s := ⟨fun _ => rfl, rfl⟩

theorem trans (h : s.UnitsKept t) (k : t.UnitsKept u) : s.UnitsKept u :=
  ⟨fun p => by rw [k.mu p, h.mu p], by rw [k.cross, h.cross]⟩

theorem ofPorts (h : t.ports = s.ports) (hc : t.cross = { s.cross with requests := t.cross.requests }) : s.UnitsKept t :=
  ⟨fun p => by unfold port; rw [h], hc⟩

theorem setTable (s : State) (w : WatchTable) : s.UnitsKept (s.setTable w) := ofPorts rfl rfl

theorem foldl {α : Type} (f : State → α → State) (hf : ∀ (x : State) a, x.UnitsKept (f x a)) (l : List α) (s : State) :
    s.UnitsKept (l.foldl f s) := by
  induction l generalizing s with
  | nil => exact rfl' s
  | cons a rest ih => exact (hf s a).trans (ih _)

theorem setPort (s : State) (p : PortId) (q : Port) (h : q.mu = (s.port p).mu) : s.UnitsKept (s.setPort p q) := by
  refine ⟨fun x => ?_, rfl⟩
  rw [port_setPort]
  split
  · next e => subst e; rw [h]
  · rfl

theorem restartQuiet (s : State) (i : Nat) (r : Record) : s.UnitsKept (s.restartQuiet i r) := by
  have h := restartQuiet_recordsOnly s i r
  refine ⟨fun p => ?_, ?_⟩
  · have hv := view_restartQuiet s i r (.matchUnit p)
    have hp := h.ports p
    unfold view at hv
    simp only at hv
    rw [hp]
    simp only [hv]
  · have hv := view_restartQuiet s i r .crossLine
    unfold view at hv
    simp only at hv
    rw [h.cross, hv]

theorem armDependent (s : State) (i : Nat) : s.UnitsKept (s.armDependent i) := by
  unfold State.armDependent
  split
  · split
    · exact (setTable s _).trans (restartQuiet _ _ _)
    · exact rfl' s
  · exact rfl' s

theorem dispatch (s : State) (ev : HitEvent) (a : Actions) (h : Handle) (o : ChanId) (ps : List PortId) :
    s.UnitsKept (s.dispatch ev a h o ps) := by
  have hf := fun x => foldl (fun t q => t.setPort q ((t.port q).takeActions ev a h o))
    (fun y q => setPort y q _ (takeActions_mu ..)) ps x
  have h1 : s.UnitsKept (if a.signal then s.sendSignal ev.takenBy h o else s) := by
    split
    · exact ofPorts rfl rfl
    · exact rfl' s
  unfold State.dispatch
  simp only
  split
  · refine (h1.trans (hf _)).trans ?_
    unfold pushPulse
    cases ev.takenBy <;> exact ofPorts rfl rfl
  · exact h1.trans (hf _)

theorem hit (s : State) (e : CopyEntry) (ev : HitEvent) : s.UnitsKept (s.hit e ev).1 := by
  unfold State.hit
  split
  · exact rfl' s
  · split
    · simp only
      split
      · unfold State.fire
        simp only
        exact ((setTable s _).trans (dispatch ..)).trans (foldl _ armDependent _ _)
      · exact ofPorts rfl rfl
    · exact rfl' s

end UnitsKept

end State

end Sys2Proof.Machine
end

