-- ==== Sys2Proof/Laws/Readers.lean ====
section
/-! SUPPORT. What the readers of PLACE, of AMEND and of the fixture description read: each field at its place, and when. -/

namespace Sys2Proof.Machine

open Host

/-! ### PLACE and AMEND (R14, R16, R188) -/

/-- The start field is ARMED or SUSPENDED (R187). -/
theorem readStart_iff {n : Nat} {a : Bool} : readStart n = some a ↔ n = if a then 3 else 1 := by
  rcases n with _ | _ | _ | _ | n <;> cases a <;> simp [readStart]

/-- The source of an image, its match part and its data match (R188). -/
theorem readCond_iff (b : List Byte) (x : Cond) : readCond b = some x ↔ (match x with
    | .bus m d => byteAt b 5 = 0 ∧ BusAt b m ∧ ((byteAt b 0).testBit 0 = false → d = none) ∧
        ((byteAt b 0).testBit 0 = true → ∃ x, d = some x ∧ DataAt b x)
    | .line l e => byteAt b 5 = 1 ∧ byteAt b 21 = l.val ∧ EdgeAt b e ∧ (byteAt b 0).testBit 0 = false
    | .cross x => byteAt b 5 = 2 ∧ byteAt b 21 = x.val ∧ (byteAt b 0).testBit 0 = false) := by
  unfold readCond bitOf
  simp only [← readBusMatch_iff, ← readEdgeFilter_iff, ← dataMatch_iff, ← readFour_iff]
  generalize byteAt b 5 = k
  rcases k with _ | _ | _ | k
  · cases x <;> cases h : (byteAt b 0).testBit 0 <;> simp [eq_comm]
  · cases x <;> cases h : (byteAt b 0).testBit 0 <;> cases readFour (byteAt b 21) <;> cases readEdgeFilter (byteAt b 22) <;> simp
  · cases x <;> cases h : (byteAt b 0).testBit 0 <;> cases readFour (byteAt b 21) <;> simp
  · cases x <;> simp

/-- The trigger of an image, with the quiet limit exactly when it is ON_SILENCE (R14). -/
theorem readTrigger_iff (b : List Byte) (x : Trigger) : readTrigger b = some x ↔ (match x with
    | .onHit => byteAt b 9 = 0 ∧ (byteAt b 0).testBit 2 = false
    | .onSilence n => byteAt b 9 = 1 ∧ QuietLimitAt b n) := by
  unfold readTrigger
  simp only [← readQuiet_iff, partOf]
  unfold bitOf
  generalize byteAt b 9 = k
  rcases k with _ | _ | k
  · cases x <;> cases h : (byteAt b 0).testBit 2 <;> simp
  · cases x <;> cases h : (byteAt b 0).testBit 2 <;> simp
  · cases x <;> simp

/-- The tally of a PLACE image, at its start values (R15, R188). -/
theorem readPlaceTally_iff (b : List Byte) (x : Option Tally) : readPlaceTally b = some x ↔
    ((byteAt b 0).testBit 3 = false → x = none) ∧
    ((byteAt b 0).testBit 3 = true → ∃ m sg l, TallyAt b m sg l ∧ x = some { mode := m, sign := sg, limit := l, accumulator := 0, contributions := 0, overflow := false }) := by
  unfold readPlaceTally
  have e : ∀ m sg l, TallyAt b m sg l ↔ partOf (bitOf (byteAt b 0) 3) (readTallyKind b) = some (m, sg, l) :=
    fun m sg l => (readTallyKind_iff b (m, sg, l)).symm
  simp only [e, partOf]
  unfold bitOf
  cases h : (byteAt b 0).testBit 3
  · simp [eq_comm]
  · simp only [if_true, reduceCtorEq, false_implies, true_and, Option.map_eq_some_iff, Prod.exists, true_implies]
    constructor
    · rintro ⟨m, sg, l, h1, rfl⟩; exact ⟨m, sg, l, h1, rfl⟩
    · rintro ⟨m, sg, l, h1, rfl⟩; exact ⟨m, sg, l, h1, rfl⟩

/-- The after-link of an image (R2, R188). -/
theorem readAfter_iff (b : List Byte) (x : Option Handle) : (readAfter b = x ∧ x.all Handle.inRange = true) ↔
    ((byteAt b 0).testBit 1 = false → x = none) ∧
    ((byteAt b 0).testBit 1 = true → ∃ h, x = some h ∧ h.slot = byteAt b (partAt b 1) ∧ h.slot < 96 ∧
      h.issue = b.getD (partAt b 1 + 1) 0) := by
  unfold readAfter bitOf
  rw [partAt_one]
  cases h : (byteAt b 0).testBit 1
  · cases x <;> simp
  · cases x with
    | none => simp
    | some y =>
      obtain ⟨sl, is⟩ := y
      simp [readHandle, Handle.inRange, Config.slotCount]
      constructor
      · rintro ⟨⟨rfl, rfl⟩, h⟩; exact ⟨rfl, of_decide_eq_true h, rfl⟩
      · rintro ⟨rfl, h, rfl⟩; exact ⟨⟨rfl, rfl⟩, decide_eq_true h⟩

/-- A PLACE image is read when each of its fields is, and is valid (R14). -/
theorem readPlace_parts (b : List Byte) (q : PlaceRequest) : readPlace b = some q ↔
    imageShaped b = true ∧ readStart (byteAt b 1) = some q.armed ∧ readGuard (byteAt b 3) = some q.guard ∧
    readFlag (byteAt b 4) = some q.keep ∧ readCond b = some q.side.cond ∧ readScope (byteAt b 6) (byteAt b 7) = some q.scope ∧
    readSixteen (byteAt b 8) = some q.side.rank ∧ readTrigger b = some q.side.trigger ∧ byteAt b 10 = q.goal ∧
    readFlag (byteAt b 12) = some q.repeats ∧ readActions (byteAt b 13) (halfAt b 14) (byteAt b 16) = some q.side.actions ∧
    (readAfter b = q.after ∧ q.after.all Handle.inRange = true) ∧ readPlaceTally b = some q.tally ∧
    imageValid q.scope q.side.cond q.side.trigger q.goal q.side.actions (q.tally.map (·.mode)) = true := by
  obtain ⟨st, g, k, sc, gl, rp, ⟨rk, cd, tr, ac⟩, af, tl⟩ := q
  unfold readPlace
  by_cases h : imageShaped b = true
  · rw [if_pos h]
    simp only [h, true_and]
    cases readStart (byteAt b 1) with
    | none => simp
    | some st' => cases readGuard (byteAt b 3) with
      | none => simp
      | some g' => cases readFlag (byteAt b 4) with
        | none => simp
        | some k' => cases readScope (byteAt b 6) (byteAt b 7) with
          | none => simp
          | some sc' => cases readSixteen (byteAt b 8) with
            | none => simp
            | some rk' => cases readTrigger b with
              | none => simp
              | some tr' => cases readFlag (byteAt b 12) with
                | none => simp
                | some rp' => cases readActions (byteAt b 13) (halfAt b 14) (byteAt b 16) with
                  | none => simp
                  | some ac' => cases readCond b with
                    | none => simp
                    | some cd' => cases readPlaceTally b with
                      | none => simp
                      | some tl' =>
                        simp only [Option.some.injEq]
                        constructor
                        · intro h
                          split at h
                          · next hv =>
                            simp only [Bool.and_eq_true] at hv
                            simp only [Option.some.injEq, PlaceRequest.mk.injEq, MatchSide.mk.injEq] at h
                            obtain ⟨rfl, rfl, rfl, rfl, rfl, rfl, ⟨rfl, rfl, rfl, rfl⟩, rfl, rfl⟩ := h
                            exact ⟨rfl, rfl, rfl, rfl, rfl, rfl, rfl, rfl, rfl, rfl, ⟨rfl, hv.2⟩, rfl, hv.1⟩
                          · cases h
                        · rintro ⟨rfl, rfl, rfl, rfl, rfl, rfl, rfl, rfl, rfl, rfl, ⟨rfl, h1⟩, rfl, h2⟩
                          rw [if_pos (by rw [h1, h2]; rfl)]
  · rw [if_neg h]
    simp [h]

/-- A PLACE image, byte by byte (R14, R187, R188). -/
theorem readPlace_iff (b : List Byte) (q : PlaceRequest) : readPlace b = some q ↔
    let has (k : Nat) : Bool := (byteAt b 0).testBit k
    ImageShaped b ∧ byteAt b 1 = (if q.armed then 3 else 1) ∧ GuardAt b q.guard ∧ FlagAt b 4 q.keep ∧
    (match q.side.cond with
      | .bus m d => byteAt b 5 = 0 ∧ BusAt b m ∧ (has 0 = false → d = none) ∧
          (has 0 = true → ∃ x, d = some x ∧ DataAt b x)
      | .line l e => byteAt b 5 = 1 ∧ byteAt b 21 = l.val ∧ EdgeAt b e ∧ has 0 = false
      | .cross x => byteAt b 5 = 2 ∧ byteAt b 21 = x.val ∧ has 0 = false) ∧
    (match q.scope with
      | .one p => byteAt b 6 = 0 ∧ byteAt b 7 = p.val
      | .all => byteAt b 6 = 1
      | .allBut p => byteAt b 6 = 2 ∧ byteAt b 7 = p.val) ∧
    byteAt b 8 = q.side.rank.val ∧
    (match q.side.trigger with
      | .onHit => byteAt b 9 = 0 ∧ has 2 = false
      | .onSilence n => byteAt b 9 = 1 ∧ QuietLimitAt b n) ∧
    byteAt b 10 = q.goal ∧ FlagAt b 12 q.repeats ∧ ActionsAt b q.side.actions ∧
    (has 1 = false → q.after = none) ∧
    (has 1 = true → ∃ h, q.after = some h ∧ h.slot = byteAt b (partAt b 1) ∧ h.slot < 96 ∧
      h.issue = b.getD (partAt b 1 + 1) 0) ∧
    (has 3 = false → q.tally = none) ∧
    (has 3 = true → ∃ m sg l, TallyAt b m sg l ∧ q.tally = some { mode := m, sign := sg, limit := l, accumulator := 0, contributions := 0, overflow := false }) ∧
    ImageHolds q.scope q.side.cond q.side.trigger q.goal q.side.actions (q.tally.map (·.mode)) := by
  rw [readPlace_parts]
  refine and_congr (imageShaped_iff b) (and_congr readStart_iff (and_congr readGuard_iff (and_congr readFlag_iff
    (and_congr (readCond_iff b _) (and_congr readScope_iff (and_congr readSixteen_iff (and_congr (readTrigger_iff b _)
      (and_congr Iff.rfl (and_congr readFlag_iff (and_congr readActions_iff ?_))))))))))
  refine Iff.trans (and_congr (readAfter_iff b _) (and_congr (readPlaceTally_iff b _) (imageValid_iff _ _ _ _ _ _))) ?_
  simp only [and_assoc]

/-- A named field is read by its reader, and no other is (R188). -/
theorem named_iff {α : Type} {bit : Bool} {r : Option α} {o : Option α} {holds : α → Prop} (h : ∀ x, r = some x ↔ holds x) :
    named bit r = some o ↔ Named bit o holds := by
  unfold named Named
  cases bit
  · simp [eq_comm]
  · simp only [if_true, Option.map_eq_some_iff, reduceCtorEq, false_implies, true_and, true_implies, h]
    constructor
    · rintro ⟨x, hx, rfl⟩; exact ⟨x, rfl, hx⟩
    · rintro ⟨x, rfl, hx⟩; exact ⟨x, hx, rfl⟩

/-- An AMEND is read when each field its mask names is (R188). -/
theorem readAmend_parts (p : List Byte) (a : AmendRequest) : readAmend p = some a ↔
    let b := p.drop 4
    let m := (halfAt p 2).toNat
    let pr := byteAt b 0
    (38 ≤ p.length ∧ imageShaped b = true ∧ (readHandle p 0).inRange = true) ∧ readHandle p 0 = a.handle ∧
    named (bitOf m 0) (readGuard (byteAt b 3)) = some a.guard ∧ named (bitOf m 1) (readFlag (byteAt b 4)) = some a.keep ∧
    named (bitOf m 2) (readSixteen (byteAt b 8)) = some a.rank ∧
    named (bitOf m 3) (if byteAt b 10 = 0 then none else some (byteAt b 10)) = some a.goal ∧
    named (bitOf m 4) (readFlag (byteAt b 12)) = some a.repeats ∧
    named (bitOf m 5) (readActions (byteAt b 13) (halfAt b 14) (byteAt b 16)) = some a.actions ∧
    named (bitOf m 6) (readBusMatch b) = some a.bus ∧
    (if bitOf m 7 then some (if bitOf pr 0 then some (readDataMatch b) else none) else none) = a.data ∧
    named (bitOf m 8) (readEdgeFilter (byteAt b 22)) = some a.edge ∧
    named (bitOf m 9) (partOf (bitOf pr 2) (readQuiet b)) = some a.quiet ∧
    named (bitOf m 10) (partOf (bitOf pr 3) (readMode (byteAt b (tallyOffset pr)))) = some a.mode ∧
    named (bitOf m 11) (partOf (bitOf pr 3) (some (wordAt b (tallyOffset pr + 3)))) = some a.load ∧
    named (bitOf m 12) (partOf (bitOf pr 3) (readTallyKind b)) = some a.newTally ∧
    a.namesFixed = (bitOf m 13 || bitOf m 14 || bitOf m 15) := by
  obtain ⟨hd, g, k, rk, gl, rp, ac, bm, da, ed, qu, md, ld, nt, nf⟩ := a
  unfold readAmend
  extract_lets b m pr
  show _ ↔ (38 ≤ p.length ∧ imageShaped b = true ∧ (readHandle p 0).inRange = true) ∧ _
  by_cases hc : 38 ≤ p.length ∧ imageShaped b = true ∧ (readHandle p 0).inRange = true
  · rw [if_neg (by
      obtain ⟨h1, h2, h3⟩ := hc
      simp only [Bool.or_eq_true, decide_eq_true_eq, Bool.not_eq_true', not_or, Bool.not_eq_false]
      exact ⟨⟨by unfold imageFixed; omega, h2⟩, h3⟩)]
    simp only [hc, true_and]
    generalize named (bitOf m 0) (readGuard (byteAt b 3)) = x0, named (bitOf m 1) (readFlag (byteAt b 4)) = x1,
      named (bitOf m 2) (readSixteen (byteAt b 8)) = x2,
      named (bitOf m 3) (if byteAt b 10 = 0 then none else some (byteAt b 10)) = x3,
      named (bitOf m 4) (readFlag (byteAt b 12)) = x4,
      named (bitOf m 5) (readActions (byteAt b 13) (halfAt b 14) (byteAt b 16)) = x5,
      named (bitOf m 6) (readBusMatch b) = x6,
      named (bitOf m 8) (readEdgeFilter (byteAt b 22)) = x8,
      named (bitOf m 9) (partOf (bitOf pr 2) (readQuiet b)) = x9,
      named (bitOf m 10) (partOf (bitOf pr 3) (readMode (byteAt b (tallyOffset pr)))) = x10,
      named (bitOf m 11) (partOf (bitOf pr 3) (some (wordAt b (tallyOffset pr + 3)))) = x11,
      named (bitOf m 12) (partOf (bitOf pr 3) (readTallyKind b)) = x12
    constructor
    · intro h
      split at h
      · simp only [Option.some.injEq, AmendRequest.mk.injEq] at h
        obtain ⟨rfl, rfl, rfl, rfl, rfl, rfl, rfl, rfl, rfl, rfl, rfl, rfl, rfl, rfl, rfl⟩ := h
        exact ⟨rfl, rfl, rfl, rfl, rfl, rfl, rfl, rfl, rfl, rfl, rfl, rfl, rfl, rfl, rfl⟩
      · cases h
    · rintro ⟨rfl, rfl, rfl, rfl, rfl, rfl, rfl, rfl, rfl, rfl, rfl, rfl, rfl, rfl, rfl⟩
      rfl
  · rw [if_pos (by
      simp only [Bool.or_eq_true, decide_eq_true_eq, Bool.not_eq_true']
      by_cases h1 : 38 ≤ p.length
      · by_cases h2 : imageShaped b = true
        · exact Or.inr (by simpa using fun h3 => hc ⟨h1, h2, h3⟩)
        · exact Or.inl (Or.inr (by simpa using h2))
      · exact Or.inl (Or.inl (by unfold imageFixed; omega)))]
    simp only [reduceCtorEq, false_iff]
    exact fun h => hc h.1

/-- The payload of AMEND, byte by byte (R16, R188). -/
theorem readAmend_iff (b : List Byte) (a : AmendRequest) : readAmend b = some a ↔
    let image := b.drop 4
    let bit (k : Nat) : Bool := (halfAt b 2).toNat.testBit k
    38 ≤ b.length ∧ ImageShaped image ∧ a.handle = { slot := byteAt b 0, issue := b.getD 1 0 } ∧ a.handle.slot < 96 ∧
    Named (bit 0) a.guard (GuardAt image) ∧ Named (bit 1) a.keep (FlagAt image 4) ∧
    Named (bit 2) a.rank (fun x => byteAt image 8 = x.val) ∧
    Named (bit 3) a.goal (fun x => 1 ≤ x ∧ byteAt image 10 = x) ∧ Named (bit 4) a.repeats (FlagAt image 12) ∧
    Named (bit 5) a.actions (ActionsAt image) ∧ Named (bit 6) a.bus (BusAt image) ∧
    Named (bit 7) a.data (fun x => ((byteAt image 0).testBit 0 = false → x = none) ∧
      ((byteAt image 0).testBit 0 = true → ∃ d, x = some d ∧ DataAt image d)) ∧
    Named (bit 8) a.edge (EdgeAt image) ∧ Named (bit 9) a.quiet (QuietLimitAt image) ∧
    Named (bit 10) a.mode (ModeAt image) ∧
    Named (bit 11) a.load (fun x => (byteAt image 0).testBit 3 = true ∧ x = wordAt image (partAt image 3 + 3)) ∧
    Named (bit 12) a.newTally (fun x => TallyAt image x.1 x.2.1 x.2.2) ∧
    a.namesFixed = (bit 13 || bit 14 || bit 15) := by
  rw [readAmend_parts]
  extract_lets image m pr bit
  have hd : ((38 ≤ b.length ∧ imageShaped image = true ∧ (readHandle b 0).inRange = true) ∧ readHandle b 0 = a.handle) ↔
      (38 ≤ b.length ∧ ImageShaped image ∧ a.handle = { slot := byteAt b 0, issue := b.getD 1 0 } ∧ a.handle.slot < 96) := by
    rw [imageShaped_iff]
    constructor
    · rintro ⟨⟨h1, h2, h3⟩, h4⟩
      rw [← h4]
      exact ⟨h1, h2, rfl, of_decide_eq_true h3⟩
    · rintro ⟨h1, h2, h3, h4⟩
      rw [h3] at h4 ⊢
      exact ⟨⟨h1, h2, decide_eq_true h4⟩, rfl⟩
  have hdata : (if bitOf (halfAt b 2).toNat 7 then some (if bitOf (byteAt image 0) 0 then some (readDataMatch image) else none) else none) = a.data ↔
      Named (bit 7) a.data (fun x => ((byteAt image 0).testBit 0 = false → x = none) ∧
      ((byteAt image 0).testBit 0 = true → ∃ d, x = some d ∧ DataAt image d)) := by
    unfold Named bitOf
    simp only [← dataMatch_iff]
    show _ ↔ (((halfAt b 2).toNat.testBit 7 = false → _) ∧ ((halfAt b 2).toNat.testBit 7 = true → _))
    cases (halfAt b 2).toNat.testBit 7 <;> cases (byteAt image 0).testBit 0 <;> cases a.data <;> simp [eq_comm]
  have hgoal : ∀ x, (if byteAt image 10 = 0 then none else some (byteAt image 10)) = some x ↔ 1 ≤ x ∧ byteAt image 10 = x := by
    intro x
    split
    · next h => simp only [reduceCtorEq, false_iff]; omega
    · next h => simp only [Option.some.injEq]; omega
  have hload : ∀ x, partOf (bitOf (byteAt image 0) 3) (some (wordAt image (tallyOffset (byteAt image 0) + 3))) = some x ↔
      (byteAt image 0).testBit 3 = true ∧ x = wordAt image (partAt image 3 + 3) := by
    intro x
    rw [partAt_three]
    unfold partOf bitOf
    cases (byteAt image 0).testBit 3 <;> simp [eq_comm]
  refine Iff.trans and_assoc.symm (Iff.trans (and_congr hd (and_congr (named_iff fun _ => readGuard_iff) (and_congr (named_iff fun _ => readFlag_iff)
    (and_congr (named_iff fun _ => readSixteen_iff) (and_congr (named_iff hgoal) (and_congr (named_iff fun _ => readFlag_iff)
    (and_congr (named_iff fun _ => readActions_iff) (and_congr (named_iff fun _ => readBusMatch_iff) (and_congr hdata
    (and_congr (named_iff fun _ => readEdgeFilter_iff) (and_congr (named_iff (readQuiet_iff image)) (and_congr (named_iff (readModePart_iff image))
    (and_congr (named_iff hload) (and_congr (named_iff (readTallyKind_iff image)) Iff.rfl)))))))))))))) ?_)
  simp only [and_assoc]
  rfl


/-- When an AMEND is valid for its record (R16, R14). -/
theorem amendValid_iff (r : Record) (a : AmendRequest) : State.amendValid r a = true ↔
    let r' := State.amended r a
    a.namesFixed = false ∧
    (a.bus ≠ none ∨ a.data ≠ none → ∃ m d, r.side.cond = .bus m d) ∧
    (a.edge ≠ none → ∃ l e, r.side.cond = .line l e) ∧
    (a.quiet ≠ none → ∃ n, r.side.trigger = .onSilence n) ∧
    (a.mode ≠ none ∨ a.load ≠ none → r.tally ≠ none) ∧
    (a.newTally ≠ none → r.tally = none ∧ r.side.trigger = .onHit ∧ ∀ x, r.side.cond ≠ .cross x) ∧
    ImageHolds r'.scope r'.side.cond r'.side.trigger r'.goal r'.side.actions (r'.tally.map (·.mode)) := by
  unfold State.amendValid State.amendFits
  simp only [Bool.and_eq_true, imageValid_iff]
  have e1 : (!(a.bus.isSome || a.data.isSome) || r.side.cond.isBus) = true ↔
      (a.bus ≠ none ∨ a.data ≠ none → ∃ m d, r.side.cond = .bus m d) := by
    cases a.bus <;> cases a.data <;> cases r.side.cond <;> simp [Cond.isBus]
  have e2 : (!a.edge.isSome || (match r.side.cond with
    | .line _ _ => true
    | .bus _ _ => false
    | .cross _ => false)) = true ↔ (a.edge ≠ none → ∃ l e, r.side.cond = .line l e) := by
    cases a.edge <;> cases r.side.cond <;> simp
  have e3 : (!a.quiet.isSome || r.side.trigger.isSilence) = true ↔ (a.quiet ≠ none → ∃ n, r.side.trigger = .onSilence n) := by
    cases a.quiet <;> cases r.side.trigger <;> simp [Trigger.isSilence]
  have e4 : (!(a.mode.isSome || a.load.isSome) || r.tally.isSome) = true ↔
      (a.mode ≠ none ∨ a.load ≠ none → r.tally ≠ none) := by
    cases a.mode <;> cases a.load <;> cases r.tally <;> simp
  have e5 : (!a.newTally.isSome || (!r.side.cond.isCross && !r.side.trigger.isSilence && r.tally.isNone)) = true ↔
      (a.newTally ≠ none → r.tally = none ∧ r.side.trigger = .onHit ∧ ∀ x, r.side.cond ≠ .cross x) := by
    cases a.newTally <;> cases r.side.cond <;> cases r.side.trigger <;> cases r.tally <;> simp [Cond.isCross, Trigger.isSilence]
  have e0 : (!a.namesFixed) = true ↔ a.namesFixed = false := by simp
  refine Iff.trans (and_congr (and_congr (and_congr (and_congr (and_congr (and_congr e0 e1) e2) e3) e4) e5) Iff.rfl) ?_
  simp only [and_assoc]

/-! ### The fixture description (R192) -/

/-- Bytes of the memory are read when each one is acknowledged (R192). -/
theorem memBytes_iff (m : List (Nat × Byte)) (n : Nat) : ∀ (a : Nat) (bytes : List Byte), memBytes m a n = some bytes ↔
    bytes.length = n ∧ ∀ i, i < n → memByte m (a + i) = some (bytes.getD i 0) := by
  induction n with
  | zero =>
    intro a bytes
    cases bytes <;> simp [memBytes]
  | succ n ih =>
    intro a bytes
    unfold memBytes
    cases bytes with
    | nil => simp; split <;> simp
    | cons b rest =>
      constructor
      · intro h
        split at h
        · next b' r' h1 h2 =>
          simp only [Option.some.injEq, List.cons.injEq] at h
          obtain ⟨rfl, rfl⟩ := h
          obtain ⟨h3, h4⟩ := (ih (a + 1) r').1 h2
          refine ⟨by simp [h3], fun i hi => ?_⟩
          cases i with
          | zero => simpa using h1
          | succ i =>
            have := h4 i (by omega)
            rw [show a + (i + 1) = a + 1 + i by omega, this]; simp
        · cases h
      · rintro ⟨h1, h2⟩
        have h0 : memByte m a = some b := by simpa using h2 0 (by omega)
        have hr : memBytes m (a + 1) n = some rest := (ih (a + 1) rest).2 ⟨by simpa using h1, fun i hi => by
          have := h2 (i + 1) (by omega)
          rw [show a + 1 + i = a + (i + 1) by omega, this]; simp⟩
        rw [h0, hr]

/-- A read of the memory in two parts. -/
theorem memBytes_append (m : List (Nat × Byte)) (a n k : Nat) (x y : List Byte) (hx : x.length = n) :
    memBytes m a (n + k) = some (x ++ y) ↔ memBytes m a n = some x ∧ memBytes m (a + n) k = some y := by
  simp only [memBytes_iff, List.length_append, hx]
  constructor
  · rintro ⟨h1, h2⟩
    refine ⟨⟨trivial, fun i hi => ?_⟩, by omega, fun i hi => ?_⟩
    · rw [h2 i (by omega), List.getD_append _ _ _ _ (by omega)]
    · have := h2 (n + i) (by omega)
      rw [← Nat.add_assoc] at this
      rw [this, List.getD_append_right _ _ _ _ (by omega), hx, show n + i - n = i by omega]
  · rintro ⟨⟨_, h1⟩, h2, h3⟩
    refine ⟨by omega, fun i hi => ?_⟩
    by_cases h : i < n
    · rw [h1 i h, List.getD_append _ _ _ _ (by omega)]
    · have := h3 (i - n) (by omega)
      rw [show a + n + (i - n) = a + i by omega] at this
      rw [this, List.getD_append_right _ _ _ _ (by omega), hx]

/-- A byte of a prefix. -/
theorem getD_take_lt (b : List Byte) (n i : Nat) (h : i < n) : (b.take n).getD i 0 = b.getD i 0 := by
  simp [List.getD_eq_getElem?_getD, h]

/-- The fields of a node (R192). -/
theorem readNode_iff (m : List (Nat × Byte)) (a : Nat) (n : Node) : readNode m a = some n ↔
    ∃ bytes, memBytes m a (n.body.length + 7) = some bytes ∧ n.id = (halfAt bytes 0).toNat ∧ n.next = halfAt bytes 2 ∧
      byteAt bytes 4 = n.body.length ∧ n.body = (bytes.drop 5).take n.body.length ∧
      n.check = halfAt bytes (n.body.length + 5) := by
  unfold readNode
  constructor
  · intro h
    split at h
    · cases h
    · next h5 hh =>
      simp only at h
      split at h
      · cases h
      · next b hb =>
        simp only [Option.some.injEq] at h
        obtain ⟨l5, -⟩ := (memBytes_iff m 5 a h5).1 hh
        obtain ⟨lb, -⟩ := (memBytes_iff m _ _ b).1 hb
        have hl : (b.take (byteAt h5 4)).length = byteAt h5 4 := by simp [lb]
        subst h
        refine ⟨h5 ++ b, ?_, ?_, ?_, ?_, ?_, ?_⟩
        · simp only [hl]
          rw [show byteAt h5 4 + 7 = 5 + (byteAt h5 4 + 2) by omega]
          exact (memBytes_append m a 5 _ h5 b l5).2 ⟨hh, hb⟩
        · obtain ⟨x0, x1, x2, x3, x4, rfl⟩ := length_five l5; rfl
        · obtain ⟨x0, x1, x2, x3, x4, rfl⟩ := length_five l5; rfl
        · simp only [hl]; obtain ⟨x0, x1, x2, x3, x4, rfl⟩ := length_five l5; rfl
        · simp only [hl]; rw [List.drop_append_of_le_length (by omega), List.drop_of_length_le (by omega)]; rfl
        · simp only [hl]; unfold halfAt
          rw [List.getD_append_right _ _ _ _ (by omega), List.getD_append_right _ _ _ _ (by omega), l5]
          congr 2
  · rintro ⟨bytes, hb, h1, h2, h3, h4, h5⟩
    obtain ⟨hl, -⟩ := (memBytes_iff m _ _ _).1 hb
    have hs : bytes = bytes.take 5 ++ bytes.drop 5 := (List.take_append_drop 5 bytes).symm
    rw [show n.body.length + 7 = 5 + (n.body.length + 2) by omega, hs] at hb
    obtain ⟨hp, hq⟩ := (memBytes_append m a 5 _ _ _ (by simp; omega)).1 hb
    rw [hp]
    have hb4 : byteAt (bytes.take 5) 4 = n.body.length := by rw [← h3]; unfold byteAt; rw [getD_take_lt _ _ _ (by omega)]
    simp only [hb4, hq]
    obtain ⟨id, nx, body, ck⟩ := n
    simp only [Option.some.injEq, Node.mk.injEq]
    simp only at h1 h2 h3 h4 h5 hq
    refine ⟨?_, ?_, h4.symm, ?_⟩
    · rw [h1]; unfold halfAt; rw [getD_take_lt _ _ _ (by omega), getD_take_lt _ _ _ (by omega)]
    · rw [h2]; unfold halfAt; rw [getD_take_lt _ _ _ (by omega), getD_take_lt _ _ _ (by omega)]
    · rw [h5]; unfold halfAt
      simp only [List.getD_eq_getElem?_getD, List.getElem?_drop]
      congr 3 <;> omega

/-- A filter code (R192). -/
theorem readFilter_iff {n : Nat} {f : StatusFilter} : readFilter n = some f ↔ n = (match f with
    | .none => 0
    | .us2 => 1
    | .us200 => 2
    | .ms20 => 3) := by
  rcases n with _ | _ | _ | _ | n <;> cases f <;> simp [readFilter]

/-- A safe level (R192). -/
theorem readSafe_iff {n : Nat} {f : Bool} : readSafe n = some f ↔ n = if f then 1 else 2 := by
  rcases n with _ | _ | _ | n <;> cases f <;> simp [readSafe]

/-- A number in its range. -/
theorem inRange_iff {lo hi n x : Nat} : inRange lo hi n = some x ↔ n = x ∧ lo ≤ x ∧ x ≤ hi := by
  unfold inRange
  split
  · simp only [Option.some.injEq]; omega
  · simp only [reduceCtorEq, false_iff]; omega

/-- The body of a PORT node (R192). -/
theorem readPortBody_iff (b : List Byte) (x : Setting) : readPortBody b = some x ↔ ∃ (p : PortId) (s : PortSettings), x = .port p s ∧
    let filter (f : StatusFilter) : Nat := match f with
      | .none => 0
      | .us2 => 1
      | .us200 => 2
      | .ms20 => 3
    byteAt b 0 = p.val ∧ byteAt b 1 = s.debounce ∧ 1 ≤ s.debounce ∧
    (∀ l : LineId, byteAt b (2 + l.val) = filter s.filters[l]) ∧ byteAt b 6 = (if s.safeResetAsserted then 1 else 2) ∧
    byteAt b 7 = (if s.safePowerOn then 1 else 2) ∧ (halfAt b 8).toNat = s.replyLimit ∧ 1 ≤ s.replyLimit ∧
    s.replyLimit ≤ 650 ∧ byteAt b 10 = s.stopLimit ∧ 1 ≤ s.stopLimit := by
  have lt : ∀ i, byteAt b i ≤ 255 := fun i => Nat.le_of_lt_succ (BitVec.isLt _)
  unfold readPortBody
  constructor
  · intro h
    split at h
    · next p db f0 f1 f2 f3 r w rl sl h0 h1 h2 h3 h4 h5 h6 h7 h8 h9 =>
      simp only [Option.some.injEq] at h
      rw [readPort_iff] at h0
      rw [inRange_iff] at h1 h8 h9
      rw [readFilter_iff] at h2 h3 h4 h5
      rw [readSafe_iff] at h6 h7
      refine ⟨p, _, h.symm, h0, h1.1, h1.2.1, ?_, h6, h7, h8.1, h8.2.1, h8.2.2, h9.1, h9.2.1⟩
      intro l
      match l with
      | ⟨0, _⟩ => exact h2
      | ⟨1, _⟩ => exact h3
      | ⟨2, _⟩ => exact h4
      | ⟨3, _⟩ => exact h5
    · cases h
  · rintro ⟨p, ⟨db, fs, r, w, rl, sl⟩, rfl, h0, h1, h1', hf, h6, h7, h8, h8', h8'', h9, h9'⟩
    simp only at *
    have e0 := readPort_iff.2 h0
    have e1 := inRange_iff.2 ⟨h1, h1', (h1 ▸ lt 1 : db ≤ 255)⟩
    have e2 := readFilter_iff.2 (hf 0)
    have e3 := readFilter_iff.2 (hf 1)
    have e4 := readFilter_iff.2 (hf 2)
    have e5 := readFilter_iff.2 (hf 3)
    have e6 := readSafe_iff.2 h6
    have e7 := readSafe_iff.2 h7
    have e8 := inRange_iff.2 ⟨h8, h8', h8''⟩
    have e9 := inRange_iff.2 ⟨h9, h9', (h9 ▸ lt 10 : sl ≤ 255)⟩
    simp only [show (2 : Nat) + (0 : LineId).val = 2 from rfl, show (2 : Nat) + (1 : LineId).val = 3 from rfl,
      show (2 : Nat) + (2 : LineId).val = 4 from rfl, show (2 : Nat) + (3 : LineId).val = 5 from rfl] at e2 e3 e4 e5
    rw [e0, e1, e2, e3, e4, e5, e6, e7, e8, e9]
    simp only [Option.some.injEq, Setting.port.injEq, PortSettings.mk.injEq, true_and, and_true]
    refine Vector.ext fun i hi => ?_
    match i, hi with
    | 0, _ => rfl
    | 1, _ => rfl
    | 2, _ => rfl
    | 3, _ => rfl

/-- The body of a CHANNEL node (R192). -/
theorem readChannelBody_iff (b : List Byte) (x : Setting) : readChannelBody b = some x ↔ ∃ (c : ChanId) (cls : Fin 4) (lease : Nat),
    x = .channel c cls lease ∧ byteAt b 0 = c.val ∧ byteAt b 1 = cls.val ∧ (halfAt b 2).toNat = lease ∧ 100 ≤ lease ∧
    lease ≤ 60000 := by
  unfold readChannelBody
  constructor
  · intro h
    split at h
    · next c k l h0 h1 h2 =>
      simp only [Option.some.injEq] at h
      rw [inRange_iff] at h2
      exact ⟨c, k, l, h.symm, readChan_iff.1 h0, readFour_iff.1 h1, h2.1, h2.2.1, h2.2.2⟩
    · cases h
  · rintro ⟨c, k, l, rfl, h0, h1, h2, h3, h4⟩
    rw [readChan_iff.2 h0, readFour_iff.2 h1, inRange_iff.2 ⟨h2, h3, h4⟩]

/-- The reads of a walk, the address most significant byte first (R192). -/
theorem walk_reads (w : Walk) : w.reads = (0 :: w.nodes).map fun a =>
    { device := 0x50, sent := [BitVec.ofNat 8 (a / 256), BitVec.ofNat 8 a] } := by
  unfold Walk.reads
  refine List.map_congr_left fun a _ => ?_
  unfold memoryRead
  rw [byte_extract, byte_extract]
  simp [halfOf]
  constructor
  · apply BitVec.eq_of_toNat_eq
    simp
    omega
  · apply BitVec.eq_of_toNat_eq
    simp

end Sys2Proof.Machine
end

