-- ==== Sys2Proof/Laws/Receiver.lean ====
section
/-! SUPPORT. Lemmas for the proofs: the receiver on the bytes of a frame. -/

namespace Sys2Proof.Machine

open Host State

theorem halfAt_append (a b : List Byte) (h : 2 ≤ a.length) : halfAt (a ++ b) 0 = halfAt a 0 := by
  match a, h with
  | x :: y :: r, _ => rfl

theorem receive_more (total : List Byte) (hl : (halfAt total 0).toNat ≤ 1024)
    (ht : total.length = (halfAt total 0).toNat + 7) :
    ∀ (l : List RxByte) (got : List Byte) (st : Bool) (s : State),
      s.bench.receiver = .reading got st → (∃ r, total = got ++ l.map (·.value) ++ r ∧ r ≠ []) →
      l.foldl State.receiveByte s = s.setReceiver (.reading (got ++ l.map (·.value)) (st && l.all (·.stopHigh))) := by
  intro l
  induction l with
  | nil =>
    intro got st s h _
    cases s; rename_i b _ _ _ _ _ _ _ _; cases b; simp_all [State.setReceiver]
  | cons b l ih =>
    intro got st s h ⟨r, hr, hn⟩
    have hstep : s.receiveByte b = s.setReceiver (.reading (got ++ [b.value]) (st && b.stopHigh)) := by
      unfold State.receiveByte
      rw [h]
      simp only
      split
      · rfl
      · rename_i h2
        have e : halfAt (got ++ [b.value]) 0 = halfAt total 0 := by
          rw [hr]
          have := halfAt_append (got ++ [b.value]) (l.map (·.value) ++ r) (by omega)
          simpa using this.symm
        rw [e, if_neg (by simp [Config.payloadLimit]; omega), if_pos]
        have : total.length = got.length + (l.length + 1) + r.length := by rw [hr]; simp; omega
        have : 0 < r.length := List.length_pos_iff.mpr hn
        simp [frameOverhead]; omega
    rw [List.foldl_cons, hstep, ih (got ++ [b.value]) (st && b.stopHigh) _ rfl ⟨r, by simpa using hr, hn⟩]
    simp [State.setReceiver, Bool.and_assoc]

theorem setReceiver_same {s : State} {r} (h : s.bench.receiver = r) : s.setReceiver r = s := by
  cases s; rename_i b _ _ _ _ _ _ _ _; cases b; simp_all [State.setReceiver]

theorem setReceiver_twice (s : State) (a b) : (s.setReceiver a).setReceiver b = s.setReceiver b := rfl

theorem receive_start {s : State} {b : RxByte} (hh : s.bench.receiver = .hunting) (hs : b.value = 0xA5) :
    s.receiveByte b = s.setReceiver (.reading [] b.stopHigh) := by
  unfold State.receiveByte; rw [hh]; exact if_pos hs

theorem receive_last (s : State) (got : List Byte) (st : Bool) (b : RxByte)
    (h : s.bench.receiver = .reading got st)
    (hl : (halfAt (got ++ [b.value]) 0).toNat ≤ 1024)
    (ht : (got ++ [b.value]).length = (halfAt (got ++ [b.value]) 0).toNat + 7) :
    s.receiveByte b = (s.setReceiver .hunting).endFrame (got ++ [b.value]) (st && b.stopHigh) := by
  unfold State.receiveByte
  rw [h]
  dsimp only
  rw [if_neg (by omega), if_neg (by simp only [Config.payloadLimit]; omega), if_neg
      (by simp only [frameOverhead]; omega)]

theorem receive_whole (s : State) (hh : s.bench.receiver = .hunting) (start : RxByte) (got : List RxByte)
    (hs : start.value = 0xA5) (hl : (halfAt (got.map (·.value)) 0).toNat ≤ 1024)
    (ht : got.length = (halfAt (got.map (·.value)) 0).toNat + 7) :
    s.benchFrame (start :: got) =
      s.endFrame (got.map (·.value)) (start.stopHigh && got.all (·.stopHigh)) := by
  have hne : got ≠ [] := by intro h; subst h; simp at ht
  obtain ⟨l, b, hlb⟩ : ∃ l b, got = l ++ [b] := ⟨got.dropLast, got.getLast hne,
      (List.dropLast_concat_getLast hne).symm⟩
  clear hne
  subst hlb
  unfold State.benchFrame
  have e : (l ++ [b]).map (·.value) = l.map (·.value) ++ [b.value] := by simp
  rw [List.foldl_cons, receive_start hh hs, List.foldl_append]
  have hT : ((l ++ [b]).map (·.value)).length = (halfAt ((l ++ [b]).map (·.value)) 0).toNat + 7 :=
    (List.length_map _).trans ht
  generalize htot : (l ++ [b]).map (·.value) = total at *
  have hsplit : total = [] ++ l.map (·.value) ++ [b.value] := by rw [e]; rfl
  have h0 : (s.setReceiver (.reading [] start.stopHigh)).bench.receiver = .reading [] start.stopHigh := rfl
  have h1 := receive_more total hl hT l [] start.stopHigh _ h0 ⟨[b.value], hsplit, List.cons_ne_nil _ _⟩
  rw [List.nil_append, setReceiver_twice] at h1
  rw [h1]
  subst e
  generalize hgt : (start.stopHigh && l.all (·.stopHigh)) = st
  have h3 : (s.setReceiver (.reading (l.map (·.value)) st)).bench.receiver = .reading (l.map (·.value)) st := rfl
  have h2 := receive_last _ _ st b h3 hl hT
  rw [setReceiver_twice, setReceiver_same hh] at h2
  rw [List.foldl_cons, List.foldl_nil, h2, List.all_append]
  rw [← hgt]
  simp [Bool.and_assoc]

theorem halfAt_halfBytes (h : Half) (r : List Byte) : halfAt (halfBytes h ++ r) 0 = h := by
  show h.extractLsb' 8 8 ++ h.extractLsb' 0 8 = h
  apply BitVec.eq_of_getLsbD_eq
  intro i hi
  rw [BitVec.getLsbD_append]
  rcases Nat.lt_or_ge i 8 with h' | h'
  · simp [h']
  · rw [BitVec.getLsbD_extractLsb', BitVec.getLsbD_extractLsb']
    have : 8 + (i - 8) = i := by omega
    simp [this, Nat.not_lt.mpr h']
    intro _; omega

end Sys2Proof.Machine
end

