-- ==== Sys2Proof/Laws/Resets.lean ====
section
/-! SUPPORT. Lemmas for the proofs: the bench reset, the description walk and the settings it applies. -/

namespace Sys2Proof.Machine

open Host State

theorem mapEight_get {α : Type} (f : α → α) (v : Vector α 8) (c : ChanId) : (mapEight f v)[c] = f v[c] := by
  revert c
  simp only [mapEight]
  intro c
  match c with
  | 0 => rfl
  | 1 => rfl
  | 2 => rfl
  | 3 => rfl
  | 4 => rfl
  | 5 => rfl
  | 6 => rfl
  | 7 => rfl

theorem mapPorts_get (f : Port → Port) (v : Vector Port 6) (c : PortId) : (mapPorts f v)[c] = f v[c] := by
  revert c
  simp only [mapPorts]
  intro c
  match c with
  | 0 => rfl
  | 1 => rfl
  | 2 => rfl
  | 3 => rfl
  | 4 => rfl
  | 5 => rfl

theorem resetTable_slotAt (t : WatchTable) (i : Nat) : (resetTable t).slotAt i =
    { issue := if t.recordAt i = none then (t.slotAt i).issue else (t.slotAt i).issue + 1, record := none } := by
  unfold resetTable WatchTable.recordAt WatchTable.slotAt
  simp only [List.getD_eq_getElem?_getD, List.getElem?_map]
  cases h : t.slots[i]? with
  | none => simp
  | some x =>
    obtain ⟨iss, r⟩ := x
    cases r <;> simp

theorem enter_running_eq (q : Port) : (q.enter .running) = { q with
      rc := { q.rc with run := .running, stopTimer := none, budget := 0 },
      mu := { q.mu with runReports := if q.rc.run = .running then q.mu.runReports else q.mu.runReports ++ [.running] } } := by
  unfold Port.enter
  obtain ⟨st, mu, rc, gate, tlc, arb⟩ := q
  obtain ⟨run, holds, bh, bud, tim, ex, res, ll, ra, fu, reps, rem⟩ := rc
  cases run <;> rfl

theorem toSafeLevels_eq (q : Port) :  q.toSafeLevels = { q with
   tlc := { q.tlc with resetAsserted := q.settings.safeResetAsserted, powerOn := q.settings.safePowerOn },
   rc := { q.rc with reports := (if q.tlc.resetAsserted = q.settings.safeResetAsserted then q.rc.reports
        else q.rc.reports ++ [if q.settings.safeResetAsserted then .resetAsserted else .resetReleased]) } } := by
  unfold Port.toSafeLevels Port.setResetLine Port.setPowerLine Port.setLink Port.reportRun Port.setRun
  obtain ⟨st, mu, rc, gate, tlc, arb⟩ := q
  by_cases h : tlc.resetAsserted = st.safeResetAsserted
  · simp only [h, if_true]
  · simp only [h, if_false]

theorem resetPort_spec (q : Port) (runs : Prop) [Decidable runs] (h : runs ↔ q.rc.run = .frozen ∨ q.rc.run =
    .stepping ∨ q.rc.run = .unresponsive) :
        (resetPort q).settings = q.settings ∧
        (resetPort q).gate = { q.gate with
          isOpen := false, span := 0, closingMark := false, opener := none, gap := false, missed := 0 } ∧
        (resetPort q).arb = { q.arb with
          claims := Vector.replicate 8 none, queue := [], lifts := ChanSet.empty, parked := Vector.replicate 8 none,
          use := match q.arb.use with
            | .executing _ w => .draining w
            | .draining w => .draining w
            | .idle => .idle } ∧
        (resetPort q).mu = { q.mu with
          view := { copy := [], tokens := [], begun := false }, timers := [],
          events := q.mu.events.map fun x => match x with
            | .quiet n _ => .quiet n false
            | .obs o ep => .obs o ep
            | .edge l d ep => .edge l d ep,
          runReports := if runs then q.mu.runReports ++ [.running] else q.mu.runReports } ∧
        (resetPort q).rc = { q.rc with
          run := if runs then .running else q.rc.run, stopTimer := if runs then none else q.rc.stopTimer,
          holds := ChanSet.empty, boardHold := false, budget := 0, resumers := ChanSet.empty, removals := [],
          reports := if q.tlc.resetAsserted = q.settings.safeResetAsserted then q.rc.reports
            else q.rc.reports ++ [if q.settings.safeResetAsserted then .resetAsserted else .resetReleased] } ∧
        (resetPort q).tlc = { q.tlc with
          resetAsserted := q.settings.safeResetAsserted, powerOn := q.settings.safePowerOn, safeRequests := [],
          outgoing := if runs ∧ q.tlc.link = .locked then q.tlc.outgoing ++ [.run] else q.tlc.outgoing } := by
  unfold resetPort
  simp only
  rw [toSafeLevels_eq]
  obtain ⟨st, mu, rc, gate, tlc, arb⟩ := q
  have hb : runs ∨ ¬ runs := Classical.em _
  have hrun : (Port.runBenchReset ⟨st, mu, rc, gate, tlc, arb⟩) = if runs then
      (((⟨st, mu, { rc with holds := ChanSet.empty, boardHold := false, budget := 0, resumers := ChanSet.empty, removals := [] }, gate, tlc, arb⟩ : Port).sendFrame .run).enter .running)
      else ⟨st, mu, { rc with holds := ChanSet.empty, boardHold := false, budget := 0, resumers := ChanSet.empty, removals := [] }, gate, tlc, arb⟩ := by
    unfold Port.runBenchReset Port.setRun
    simp only at h
    obtain ⟨run, holds, bh, bud, tim, ex, res, ll, ra, fu, reps, rem⟩ := rc
    cases run <;> simp only at h ⊢ <;>
      first | (rw [if_pos (h.2 (by simp))]; done) | (rw [if_neg (fun hh => by simpa using h.1 hh)]; done)
  rw [hrun]
  rcases hb with hr | hr
  · simp only [if_pos hr]
    rw [enter_running_eq, Port.sendFrame_eq]
    have hne : rc.run ≠ .running := by
      intro e; have := h.1 hr; simp only [e] at this; simp at this
    simp only [hr, true_and]
    refine ⟨rfl, rfl, rfl, ?_, ?_, ?_⟩
    · simp [resetMatch, RecordView.reset, Port.setLink, hne]
      try (intro a _; cases a <;> rfl)
    · by_cases hl : tlc.link = .locked <;> simp [Port.setLink, hl]
    · by_cases hl : tlc.link = .locked <;> simp [Port.setLink, hl]
  · simp only [if_neg hr]
    refine ⟨rfl, rfl, rfl, ?_, ?_, ?_⟩
    · simp [resetMatch, RecordView.reset, Port.setLink]
      try (intro a _; cases a <;> rfl)
    · simp [Port.setLink]; rfl
    · simp [Port.setLink, hr]

/-- RESETBENCH does not wait when every action and notice handed over has been taken and every observation decided
(R195, R35, log 18). -/
theorem resetWaits_false (s : State) : (s.popFrame 0).resetWaits = false ↔
    (∀ p, (s.port p).rc.fromUnits = [] ∧ (s.port p).gate.fromMatch = [] ∧ (s.port p).gate.fromCross = []) ∧
    s.cross.requests = [] ∧ s.notice.signals = [] ∧ s.notice.events = [] ∧ s.notice.additions = [] := by
  have h1 : ∀ p, (s.popFrame 0).port p = s.port p := fun _ => rfl
  unfold resetWaits
  simp only [Bool.or_eq_false_iff, List.any_eq_false, h1, Bool.not_eq_true, List.isEmpty_iff, Bool.not_eq_eq_eq_not,
    Bool.not_false]
  have h2 : ∀ p, p ∈ allPorts := by decide
  constructor
  · rintro ⟨⟨⟨⟨a, b⟩, c⟩, d⟩, e⟩
    exact ⟨fun p => ⟨(a p (h2 p)).1.1, (a p (h2 p)).1.2, (a p (h2 p)).2⟩, b, c, d, e⟩
  · rintro ⟨a, b, c, d, e⟩
    exact ⟨⟨⟨⟨fun p _ => ⟨⟨(a p).1, (a p).2.1⟩, (a p).2.2⟩, b⟩, c⟩, d⟩, e⟩

/-- The byte at an address is that of the first pair listed there, below 65536 (log 29). -/
theorem memByte_some (m : List (Nat × Byte)) (a : Nat) (b : Byte) : memByte m a = some b ↔
    a < 65536 ∧ ∃ before after, m = before ++ (a, b) :: after ∧ ∀ x ∈ before, x.1 ≠ a := by
  unfold memByte
  split
  · next h =>
    simp only [h, true_and, Option.map_eq_some_iff, List.find?_eq_some_iff_append]
    constructor
    · rintro ⟨⟨a', b'⟩, ⟨ha, x, y, hm, hx⟩, rfl⟩
      obtain rfl : a' = a := by simpa using ha
      exact ⟨x, y, hm, fun z hz => by simpa using hx z hz⟩
    · rintro ⟨x, y, hm, hx⟩
      exact ⟨(a, b), ⟨by simp, x, y, hm, fun z hz => by simpa using hx z hz⟩, rfl⟩
  · next h => simp [h]

theorem memByte_none (m : List (Nat × Byte)) (a : Nat) :
    memByte m a = none ↔ 65536 ≤ a ∨ ∀ x ∈ m, x.1 ≠ a := by
  unfold memByte
  split
  · next h => simp [Nat.not_le.2 h]
  · next h => simp [Nat.not_lt.1 h]

theorem memBytes_none (m : List (Nat × Byte)) (a n : Nat) (h : memByte m a = none) : memBytes m a (n+1) = none := by
  rw [memBytes, h]

theorem take_count (w : Walk) (a : Nat) (x : Option Setting) : (w.take a x).taken = w.taken + 1 ∧
    (w.take a x).settings.length + (w.take a x).skipped = w.settings.length + w.skipped + 1 := by
  cases x <;> simp [Walk.take] <;> omega

theorem walkFrom_count (m : List (Nat × Byte)) (fuel : Nat) : ∀ a w, (walkFrom m fuel a w).1.taken ≤ w.taken + fuel ∧
   (walkFrom m fuel a w).1.settings.length + (walkFrom m fuel a w).1.skipped + w.taken =
       w.settings.length + w.skipped + (walkFrom m fuel a w).1.taken := by
  induction fuel with
  | zero => intro a w; exact ⟨Nat.le_refl _, by simp [walkFrom]⟩
  | succ n ih =>
    intro a w
    rw [walkFrom]
    have t1 := fun x => take_count w a x
    cases hr : readNode m a with
    | none =>
      simp only
      obtain ⟨a1, a2⟩ := t1 none
      omega
    | some nd =>
      simp only
      obtain ⟨a1, a2⟩ := t1 nd.setting
      cases hp : nextPointer a nd.next with
      | listEnd => simp only; omega
      | bad => simp only; omega
      | node b =>
        simp only
        obtain ⟨b1, b2⟩ := ih b (w.take a nd.setting)
        omega

/-- A walk records the address of every node it takes (log 11). -/
theorem walkFrom_nodes (m : List (Nat × Byte)) (fuel : Nat) : ∀ a w,
    (walkFrom m fuel a w).1.nodes.length + w.taken = (walkFrom m fuel a w).1.taken + w.nodes.length := by
  have t1 : ∀ (w : Walk) (a : Nat) x, (w.take a x).nodes.length = w.nodes.length + 1 := by
    intro w a x; cases x <;> simp [Walk.take]
  induction fuel with
  | zero => intro a w; exact Nat.add_comm _ _
  | succ n ih =>
    intro a w
    rw [walkFrom]
    cases hr : readNode m a with
    | none =>
      simp only
      rw [t1, (take_count w a none).1]; omega
    | some nd =>
      simp only
      have h1 := t1 w a nd.setting
      have h2 := (take_count w a nd.setting).1
      cases hp : nextPointer a nd.next with
      | listEnd => simp only; omega
      | bad => simp only; omega
      | node b =>
        simp only
        have := ih b (w.take a nd.setting)
        omega

theorem nextPointer_cases (a : Nat) (v : Half) : (v.toNat % 4 = 3 → nextPointer a v = .listEnd) ∧ (v.toNat % 4 =
    0 → nextPointer a v = .node v.toNat) ∧ (v.toNat % 4 = 2 → nextPointer a v = .node ((a +
    (v.toNat - 2)) % 65536)) ∧ (v.toNat % 4 = 1 → nextPointer a v = .bad) := by
  unfold nextPointer
  refine ⟨fun h => by simp [h], fun h => by simp [h], fun h => by simp [h], fun h => by simp [h]⟩

def lastPort (l : List Setting) (p : PortId) : Option PortSettings := l.reverse.findSome? fun x => match x with
        | .port p' y => if p' = p then some y else none
        | _ => none

def lastChannel (l : List Setting) (c : ChanId) : Option (Fin 4 × Nat) := l.reverse.findSome? fun x => match x with
        | .channel c' k l => if c' = c then some (k, l) else none
        | _ => none

def lastName (l : List Setting) : Option (List Byte) := l.reverse.findSome? fun x => match x with
        | .ident n => some n
        | _ => none

theorem apply_spec (l : List Setting) (s : State) :
   let t := l.foldl applySetting s
   t.pending = s.pending ∧ t.bench = s.bench ∧ t.teardowns = s.teardowns ∧ t.table = s.table ∧ t.cross = s.cross ∧
       t.notice = s.notice ∧ t.fresh = s.fresh ∧
   t.desc = { s.desc with name := (lastName l).getD s.desc.name } ∧
   (∀ c, t.chan c =
       match lastChannel l c with | some (k, l) => { s.chan c with maxClass := k, defaultLease := l } | none => s.chan c) ∧
   (∀ p, t.port p = { s.port p with settings := (lastPort l p).getD (s.port p).settings }) := by
  induction l generalizing s with
  | nil => exact ⟨rfl, rfl, rfl, rfl, rfl, rfl, rfl, rfl, fun _ => rfl, fun _ => rfl⟩
  | cons x rest ih =>
    intro t
    have hn : lastName (x :: rest) = (lastName rest).or (match x with | .ident n => some n | _ => none) := by
      unfold lastName; rw [List.reverse_cons, List.findSome?_append]; cases x <;> rfl
    have hc : ∀ c, lastChannel (x :: rest) c = (lastChannel rest c).or
        (match x with | .channel c' k l => if c' = c then some (k, l) else none | _ => none) := by
      intro c; unfold lastChannel; rw [List.reverse_cons, List.findSome?_append]
      cases x <;> try rfl
      simp only [List.findSome?_cons, List.findSome?_nil]; split <;> simp_all
    have hp : ∀ p, lastPort (x :: rest) p = (lastPort rest p).or
        (match x with | .port c' k => if c' = p then some k else none | _ => none) := by
      intro c; unfold lastPort; rw [List.reverse_cons, List.findSome?_append]
      cases x <;> try rfl
      simp only [List.findSome?_cons, List.findSome?_nil]; split <;> simp_all
    obtain ⟨a1, a2, a3, a4, a5, a6, a7, a8, a9, a10⟩ := ih (s.applySetting x)
    have ht : t = rest.foldl applySetting (s.applySetting x) := rfl
    rw [ht]
    cases x with
    | port p y =>
      refine ⟨a1, a2, a3, a4, a5, a6, a7, ?_, fun c => ?_, fun q => ?_⟩
      · rw [a8, hn]; cases lastName rest <;> rfl
      · rw [a9, hc]; cases lastChannel rest c <;> rfl
      · rw [a10, hp]
        have : (s.applySetting (.port p y)).port q = if p = q then
            { s.port p with settings := y } else s.port q := port_setPort _ _ _ _
        rw [this]
        cases lastPort rest q with
        | none => by_cases e : p = q <;> simp [e]
        | some z => by_cases e : p = q <;> simp [e]
    | channel c k l =>
      refine ⟨a1, a2, a3, a4, a5, a6, a7, ?_, fun d => ?_, fun q => ?_⟩
      · rw [a8, hn]; cases lastName rest <;> rfl
      · rw [a9, hc]
        have : (s.applySetting (.channel c k l)).chan d = if c = d then
            { s.chan c with maxClass := k, defaultLease := l } else s.chan d := chan_setChan _ _ _ _
        rw [this]
        cases lastChannel rest d with
        | none => by_cases e : c = d <;> simp [e]
        | some z => by_cases e : c = d <;> simp [e]
      · rw [a10, hp]; cases lastPort rest q <;> rfl
    | ident n =>
      refine ⟨a1, a2, a3, a4, a5, a6, a7, ?_, fun d => ?_, fun q => ?_⟩
      · rw [a8, hn]; cases lastName rest <;> rfl
      · rw [a9, hc]; cases lastChannel rest d <;> rfl
      · rw [a10, hp]; cases lastPort rest q <;> rfl

theorem foldl_setPort_each (f : PortId → Port → Port) (ps : List PortId) (hn : ps.Nodup) (s : State) :
    let t := (ps.foldl (fun t q => t.setPort q (f q (t.port q))) s)
    (∀ p, t.port p = if p ∈ ps then f p (s.port p) else s.port p) ∧ t = { s with ports := t.ports } := by
  induction ps generalizing s with
  | nil => exact ⟨fun p => rfl, rfl⟩
  | cons q rest ih =>
    rw [List.nodup_cons] at hn
    obtain ⟨i1, i2⟩ := ih hn.2 (s.setPort q (f q (s.port q)))
    refine ⟨fun p => ?_, ?_⟩
    · rw [List.foldl_cons, i1, port_setPort]
      by_cases e : q = p
      · subst e; simp [hn.1]
      · simp [e, Ne.symm e]
    · rw [List.foldl_cons, i2]; rfl

theorem reset_recordAt (i : Nat) : State.reset.table.recordAt i = none := by
  unfold WatchTable.recordAt WatchTable.slotAt State.reset WatchTable.reset
  simp only [List.getD_eq_getElem?_getD, List.getElem?_replicate]
  split <;> rfl

end Sys2Proof.Machine
end

