-- ==== Sys2Proof/Laws/StepMoves.lean ====
section
/-! SUPPORT. One step as an idle step,
    a pin reset or moves; the channels and records after a pin reset; a port at the end
of the walk. -/

namespace Sys2Proof.Machine

open Host Relation State

theorem isPinReset_or (i : Instr) : (∃ a b, i = .pinReset a b) ∨ ∀ a b, i ≠ .pinReset a b := by
  cases i <;> first | exact Or.inl ⟨_, _, rfl⟩ | (right; intro _ _ h; cases h)
/-- What a step does: it idles, it is a pin reset, or its command moves the state by `Moves`. -/
theorem step_moves {s t : State} (h : step s = .next t) : t = s ∨ (∃ (a b : Bool) (x : State), t =
    x.pinReset a b) ∨ ∃ i rest, s.pending = i :: rest ∧ (∀ a b, i ≠ .pinReset a b) ∧ exec i { s with pending :=
    rest } = .next t ∧ Moves none { s with pending := rest } none t := by
  unfold step at h
  split at h
  · cases h; exact Or.inl rfl
  · next c rest he =>
    rcases isPinReset_or c with ⟨a, b, rfl⟩ | hp
    · have : (Outcome.next (({ s with pending := rest } : State).pinReset a b) : Outcome State Fault Refusal) =
        .next t := h
      cases this; exact Or.inr (Or.inl ⟨a, b, _, rfl⟩)
    · exact Or.inr (Or.inr ⟨c, rest, he, hp, h, exec_moves c _ t hp h⟩)

theorem pinReset_chan (x : State) (a b) (c : ChanId) : (x.pinReset a b).chan c = Channel.reset := by
  revert c; intro c
  have : (x.pinReset a b).chan c = State.reset.chan c := rfl
  rw [this]; clear this; revert c; decide

theorem pinReset_recordAt (x : State) (a b) (i) : (x.pinReset a b).table.recordAt i = none := by
  have : (x.pinReset a b).table.recordAt i = State.reset.table.recordAt i := rfl
  rw [this]
  exact reset_recordAt i

theorem walkEnd_port (memory : List (Nat × Byte)) (pins : Vector PinLevels 6) (s : State) (h : s.desc.walking =
    true) (p : PortId) :
   ∃ set, (s.walkEnd memory pins).port p = portAtWalkEnd { s.port p with settings := set } pins[p] := by
  have ha : ∀ (l : List Setting) (x : State), ∃ set, (l.foldl applySetting x).port p = { x.port p with settings :=
      set } := by
    intro l
    induction l with
    | nil => intro x; exact ⟨_, rfl⟩
    | cons a rest ih =>
      intro x
      obtain ⟨set, hs⟩ := ih (x.applySetting a)
      rw [List.foldl_cons, hs]
      cases a with
      | port p' y =>
        refine ⟨set, ?_⟩
        have : (x.applySetting (.port p' y)).port p = if p' = p then { x.port p' with settings := y }
            else x.port p := port_setPort _ _ _ _
        rw [this]; split
        · next e => subst e; rfl
        · rfl
      | channel _ _ _ => exact ⟨set, rfl⟩
      | ident _ => exact ⟨set, rfl⟩
  unfold State.walkEnd
  rw [if_pos h]
  simp only
  obtain ⟨set, hs⟩ := ha (walkDescription memory (statusOfCode (Config.headerStatus s.fresh))).1.settings s
  refine ⟨set, ?_⟩
  have hf : ∀ (ps : List PortId) (_ : ps.Nodup) (x : State), (ps.foldl (fun t p => t.setPort p (portAtWalkEnd
      (t.port p) pins[p])) x).port p = if p ∈ ps then portAtWalkEnd (x.port p) pins[p] else x.port p := by
    intro ps
    induction ps with
    | nil => intro _ x; rfl
    | cons q rest ih =>
      intro hn x
      rw [List.nodup_cons] at hn
      rw [List.foldl_cons, ih hn.2, port_setPort]
      by_cases e : q = p
      · subst e; simp [hn.1]
      · simp [e, Ne.symm e]
  have hp : p ∈ allPorts := by clear hs ha hf; revert p; decide
  have := hf allPorts (by decide) ((walkDescription memory (statusOfCode
      (Config.headerStatus s.fresh))).1.settings.foldl applySetting s)
  rw [if_pos hp, hs] at this
  exact this

end Sys2Proof.Machine
end

