-- ==== Sys2Proof/Laws/Values.lean ====
section
/-! SUPPORT. Lemmas for the proofs: numbers: addresses under WRAP, the bits of a word, the value of a datum. -/

namespace Sys2Proof.Machine

open Host State

theorem wrapSpans_divide {S : Nat} (h : S ∈ wrapSpans) : 0 < S ∧ 4294967296 % S = 0 := by
  simp only [wrapSpans, List.mem_cons, List.not_mem_nil, or_false] at h
  rcases h with h|h|h|h|h|h|h|h|h|h <;> subst h <;> decide

theorem wrapAddress_shift (b : Nat) (S i k w : Nat) (hb : b < 4294967296) (hS : 0 < S) (hd : 4294967296 % S = 0) :
    let base := b - b % S
    let b' := (base + (b - base + k * w) % S) % 4294967296
    (b' - b' % S) + (b' - (b' - b' % S) + i * w) % S = base + (b - base + (k + i) * w) % S := by
  intro base b'
  obtain ⟨m, hm⟩ := Nat.dvd_of_mod_eq_zero hd
  have hbase : base = S * (b / S) := by
    have := Nat.div_add_mod b S; simp only [base]; omega
  have hq : b / S < m := by
    rw [hm] at hb
    exact (Nat.div_lt_iff_lt_mul hS).2 (by rwa [Nat.mul_comm] at hb)
  have hx : (b - base + k * w) % S < S := Nat.mod_lt _ hS
  generalize hxx : (b - base + k * w) % S = x at *
  have hlt : base + x < 4294967296 := by
    rw [hbase, hm]
    have : S * (b / S) + S ≤ S * m := by
      rw [← Nat.mul_succ]; exact Nat.mul_le_mul_left _ hq
    omega
  have hb' : b' = base + x := by
    show (base + (b - base + k * w) % S) % 4294967296 = _
    rw [hxx]; exact Nat.mod_eq_of_lt hlt
  have hmod : b' % S = x := by
    rw [hb', hbase, Nat.mul_add_mod, Nat.mod_eq_of_lt hx]
  have hsub : b' - b' % S = base := by rw [hmod, hb']; omega
  rw [hsub]
  have h2 : b' - base = (b - base + k * w) % S := by rw [hb', hxx]; omega
  rw [h2, Nat.mod_add_mod]
  congr 2
  rw [Nat.add_mul]; omega

theorem low_getLsbD (w : Width) (d : Word) (i : Nat) (hi : i < 32) : (w.low d).getLsbD i = (decide
    (i < 8 * w.bytes) && d.getLsbD i) := by
  cases w
  · simp only [Width.low, Width.bytes, BitVec.getLsbD_setWidth, BitVec.getLsbD_extractLsb', Nat.zero_add, hi,
      decide_true, Bool.true_and, Nat.mul_one]
  · simp only [Width.low, Width.bytes, BitVec.getLsbD_setWidth, BitVec.getLsbD_extractLsb', Nat.zero_add, hi,
      decide_true, Bool.true_and, show 8 * 2 = 16 from rfl]
  · simp [Width.low, Width.bytes, hi]

theorem eq_zero_iff (x : Word) : x = 0 ↔ ∀ i, i < 32 → x.getLsbD i = false := by
  constructor
  · rintro rfl; intro i _; simp
  · intro h
    apply BitVec.eq_of_getLsbD_eq
    intro i hi
    rw [h i hi]; simp

theorem numberOf_spec (w : Width) (d : Word) :
  let n := d.toNat % 2 ^ (8 * w.bytes)
  w.number .unsigned d = n ∧ (n < 2 ^ (8 * w.bytes - 1) → w.number .signed d = n) ∧ (2 ^ (8 * w.bytes - 1) ≤ n →
      w.number .signed d = (n : Int) - 2 ^ (8 * w.bytes)) := by
  have hd := d.isLt
  cases w <;> simp only [Width.bytes, Width.number, Width.low, BitVec.toNat_setWidth, BitVec.extractLsb'_toNat,
      BitVec.toInt_eq_toNat_cond] <;> norm_num <;> omega

end Sys2Proof.Machine
end

