-- ==== Sys2Proof/WellFormed.lean ====
section
/-! DEFINITION. Which commands are well formed: the bounds their operands keep that the types do not say. -/

namespace Sys2Proof

/-- Addresses strictly rising and below `bound`. -/
def risingBelow (bound : Nat) : List (Nat × Byte) → Bool
  | [] => true
  | [(a, _)] => a < bound
  | (a, _) :: (b, v) :: rest => (a < b) && risingBelow bound ((b, v) :: rest)

/-- A command is well formed when its operands can come from outside the part: a frame has at most 1032
bytes and at least one (R180), a quiet timer is named by a slot (R1), the description memory holds at most
64 KiB, each address once (R192). Every other operand is bounded by its type. -/
def Instr.wellFormed : Instr → Bool
  | .benchFrame bytes => 1 ≤ bytes.length && bytes.length ≤ Config.payloadLimit + 8
  | .quietTimerZero _ slot => slot < Config.slotCount
  | .walkEnd memory _ => risingBelow 65536 memory
  | .frameGapTimeout | .unknownKind _ | .starting _ | .responseTransmit => true
  | .openChannel _ | .closeChannel _ | .renew _ | .poll _ | .notices _ | .claim _ | .release _ => true
  | .halt _ | .resume _ | .stepBoard _ | .drive _ | .gate _ | .portstat _ => true
  | .read _ | .write _ | .replay _ | .drop _ => true
  | .place _ | .amend _ | .suspend _ | .arm _ | .retire _ | .lookup _ | .list _ | .find _ | .tally _ => true
  | .partstat _ | .resetbench _ | .leaseExpiry _ | .teardownRecords | .teardownAtArbiter _ => true
  | .teardownAtRunControl _ | .teardownClose | .changeBoundary _ | .observation _ | .lineEdge _ => true
  | .quietExpiry _ | .runStateReport _ | .linkStateReport _ | .unseatAtMatchUnit _ => true
  | .signal _ | .freeze _ _ | .observationTaken _ | .gateOpen _ _ | .gateClose _ _ => true
  | .gateDecision _ _ | .endOfSending _ | .unseatAtGate _ | .creditReturn _ => true
  | .crossPulse _ | .pulseTimerExpiry _ | .crossFallingEdge _ | .crossEdge | .crossRisingEdge _ => true
  | .seatChange _ _ | .debounceExpiry _ | .statusEdge _ _ _ | .boardSuperframe _ _ => true
  | .outgoingSuperframe _ _ | .stopped _ | .stopTimerExpiry _ | .resetAsserted _ | .resetReleased _ => true
  | .linkLossAtRunControl _ | .linkLockAtRunControl _ | .unseatAtRunControl _ | .holdRemoval _ => true
  | .safeLevels _ | .grant _ | .reply _ | .replyLimitExpiry _ | .linkLossAtArbiter _ => true
  | .linkLockAtArbiter _ | .unseatAtArbiter _ | .portEvent _ _ | .noticeAddition _ | .pinReset _ _ => true

end Sys2Proof
end

