-- ==== Sys2Proof/Tests/Slice0.lean ====
section
/-! SUPPORT. Tests: the checks of WellFormed, the frame check, and for each obligation states that meet its premises,
with what one command does there. -/

namespace Sys2Proof.Tests

open Sys2Proof Sys2Proof.Machine Host

set_option Elab.async false

/-! ### States -/

/-- The state after one command. -/
def run (i : Instr) (s : State) : State :=
  match exec i s with
  | .next t => t
  | .fault _ => s
  | .refused _ => s

/-- The last response handed over. -/
def answerOf (s : State) : Option (Status × List Byte) := s.bench.output.getLast?.map fun r => (r.status, r.payload)

/-- What command `i` answers. -/
def answered (i : Instr) (s : State) : Option (Status × List Byte) := answerOf (run i s)

/-- After the description walk, with nothing else changed. -/
def walked : State := { State.reset with desc := { Description.reset with walking := false } }

/-- Channel `c` OPEN. -/
def opened (c : ChanId) (s : State) : State :=
  s.setChan c { s.chan c with isOpen := true, leaseLimit := some 2000, leaseTimer := some 2000 }

def frame (kind : Byte) (payload : List Byte) : Frame := { tag := 7, kind := kind, payload := payload }

/-- A frame at the head of the queue of channel `c`. -/
def queued (c : ChanId) (kind : Byte) (payload : List Byte) (s : State) : State :=
  s.setLane c { outstanding := 1, queue := [frame kind payload], executing := none }

/-- The same on an OPEN channel. -/
def asked (c : ChanId) (kind : Byte) (payload : List Byte) (s : State) : State := queued c kind payload (opened c s)

/-- Channel `c` waits for `w`. -/
def waiting (c : ChanId) (w : Wait) (s : State) : State :=
  (opened c s).setLane c { outstanding := 1, queue := [], executing := some { tag := 7, kind := 0, wait := w, silent := false } }

def onPort (p : PortId) (f : Port → Port) (s : State) : State := s.setPort p (f (s.port p))

def claimed (c : ChanId) (m : ClaimMode) (q : Port) : Port :=
    { q with arb := { q.arb with claims := q.arb.claims.set c (some m) } }

/-- A seated board with a LOCKED link, its reset line released, RUNNING, known to every block. -/
def board (q : Port) : Port :=
  { q with
    tlc := { q.tlc with seatHigh := true, seat := .seated, link := .locked, epoch := 1, resetAsserted := false, powerOn := true }
    rc := { q.rc with run := .running, linkLocked := true, resetAsserted := false }
    mu := { q.mu with run := .running, link := .locked }
    arb := { q.arb with linkLocked := true } }

def inRun (r : RunState) (q : Port) : Port := { q with rc := { q.rc with run := r } }
def held (c : ChanId) (q : Port) : Port := { q with rc := { q.rc with holds := q.rc.holds.insert c } }

/-- A bus record of C0 on P0 that accepts every transaction and raises SIGNAL at its goal. -/
def anyBus : BusMatch :=
  { base := 0, mask := 0xFFFFFFFF, direction := .either, widths := { one := true, two := true, four := true },
    initiator := .any, origin := .boardAndDebug }
def onlySignal : Actions :=
    { signal := true, freeze := false, gateOpen := none, gateClose := false, crossPulse := none }
def record : Record :=
  { state := .armed, owner := 0, guard := .guardOpen, keep := false, scope := .one 0,
    side := { rank := 0, cond := .bus anyBus none, trigger := .onHit, actions := onlySignal },
    placement := 0, goal := 1, hits := 0, repeats := false, after := none, tally := none, snapshot := none }

/-- Record `r` in slot `i`, with every copy up to date. -/
def holding (i : Nat) (r : Record) (s : State) : State := allUnits.foldl State.syncCopy (s.setTable
    (s.table.setRecord i r))

def obs : Observation :=
  { address := 0x1000, data := 0x80, direction := .write, width := .one, initiator := 0, origin := .board, sequence := 1 }

def handle (i : Nat) : Handle := { slot := i, issue := 0 }

def withGate (f : Gate → Gate) (q : Port) : Port := { q with gate := f q.gate }

/-- The Match Unit of P0 is in the middle of an event. -/
def busy (s : State) : State := onPort 0 (withGate fun g => { g with fromMatch := [.handOver obs 1] }) s

/-- Two observations wait at the Match Unit of P0. -/
def eventful (s : State) : State := onPort 0 (fun q => { q with mu := { q.mu with events := [.obs obs 1, .obs obs 1] } }) s

/-- Notices that wait at the Notice Unit, all for C1. -/
def noticesForC1 : List (State → State) :=
  [fun s => s.sendAddition (.overrun 1), fun s => s.sendSignal (.matchUnit 0) (handle 0) 1,
   fun s => s.sendEvent { port := 0, block := .runControl, kind := .frozen, chans := ChanSet.single 1 }]

/-! ### Readiness, as a test -/

def atHead (c : ChanId) (kind : Byte) (s : State) : Bool :=
  !s.desc.walking && (s.lane c).executing.isNone && (s.chan c).teardown.isNone &&
      (s.headFrame c).any fun f => f.kind = kind

def ready (c : ChanId) (kind : Byte) (s : State) : Bool := atHead c kind s && (s.chan c).isOpen

theorem atHead_of_test {c : ChanId} {kind : Byte} {s : State} (h : atHead c kind s = true) : ∃ f,
    s.AtHead c kind f := by
  simp only [atHead, Bool.and_eq_true, Bool.not_eq_true', Option.isNone_iff_eq_none, Option.any_eq_true,
      decide_eq_true_eq] at h
  obtain ⟨⟨⟨h1, h2⟩, h3⟩, f, h4, h5⟩ := h
  refine ⟨f, h1, h2, h3, ?_, h5⟩
  simpa [State.headFrame, h1, h2, h3] using h4

/-- A state that passes the test is `Ready`, as the statements ask. -/
theorem ready_of_test {c : ChanId} {kind : Byte} {s : State} (h : ready c kind s = true) : ∃ f, s.Ready c kind f := by
  rw [ready, Bool.and_eq_true] at h
  obtain ⟨f, hf⟩ := atHead_of_test h.1
  exact ⟨f, { toAtHead := hf, opened := h.2 }⟩

/-! ### Well-formedness -/

theorem test_empty_frame_is_ill_formed : (Instr.benchFrame []).wellFormed = false := by decide
theorem test_long_frame_is_ill_formed :
    (Instr.benchFrame (List.replicate 1033 { value := 0, stopHigh := true })).wellFormed = false := by decide +kernel
theorem test_longest_frame_is_well_formed :
    (Instr.benchFrame (List.replicate 1032 { value := 0, stopHigh := true })).wellFormed = true := by decide +kernel
theorem test_slot_96_is_ill_formed :
    (Instr.quietTimerZero 0 96).wellFormed = false ∧ (Instr.quietTimerZero 0 95).wellFormed = true := by decide
def lowPins : Vector PinLevels 6 := Vector.replicate 6 { seat := false, status := Vector.replicate 4 false }
theorem test_memory_out_of_order_is_ill_formed :
    (Instr.walkEnd [(4, 0), (4, 1)] lowPins).wellFormed = false ∧ (Instr.walkEnd [(3, 0), (4,
        1)] lowPins).wellFormed = true := by
  decide +kernel
theorem test_memory_above_64_KiB_is_ill_formed :
    (Instr.walkEnd [(65536, 0)] lowPins).wellFormed = false ∧ (Instr.walkEnd [(65535, 0)] lowPins).wellFormed =
        true := by
  decide +kernel
theorem test_no_word_spells_a_command (n w : Nat) : decodeTableWord n w = none ∧ State.reset.withFetchWord n w =
    State.reset :=
  ⟨rfl, rfl⟩

/-! ### The step and the pin reset -/

theorem test_step_runs_the_front_command :
    step { walked with pending := [.crossRisingEdge 0, .pinReset true true] } =
      exec (.crossRisingEdge 0) { walked with pending := [.pinReset true true] } := rfl
theorem test_step_idles : step State.reset = .next State.reset := rfl
theorem test_pin_reset :
    let t := run (.pinReset true false) (holding 0 record (opened 1 walked))
    t.bench.rate1 = true ∧ t.bench.rate0 = false ∧ t.desc.walking = true ∧ (t.chan 1).isOpen = false ∧
      t.table.recordAt 0 = none := by
  decide +kernel

/-! ### The bench port -/

/-- R180: the check of the nine ASCII digits. -/
theorem test_frame_check :
    crc16 [0x31, 0x32, 0x33, 0x34, 0x35, 0x36, 0x37, 0x38, 0x39] = 0x29B1 := by decide +kernel

def rx (l : List Byte) : List RxByte := l.map fun b => { value := b, stopHigh := true }

theorem test_good_frame_joins_its_queue :
    walked.bench.receiver = .hunting ∧
    ((run (.benchFrame (rx (requestBytes 2 9 kindPoll []))) walked).lane 2).queue =
      [{ tag := 9, kind := kindPoll, payload := [] }] ∧
    ((run (.benchFrame (rx (requestBytes 2 9 kindClaim [0, 1]))) walked).lane 2).outstanding = 1 := by
  decide +kernel
theorem test_fourth_and_fifth_frame :
    let three := walked.setLane 2 { outstanding := 3, queue := [], executing := none }
    let four := walked.setLane 2 { outstanding := 4, queue := [], executing := none }
    ((run (.benchFrame (rx (requestBytes 2 9 kindPoll []))) three).lane 2).outstanding = 4 ∧
    (run (.benchFrame (rx (requestBytes 2 9 kindPoll []))) four).notice.additions = [.overrun 2] := by
  decide +kernel
theorem test_failed_frames :
    let bad (l : List RxByte) := (run (.benchFrame l) walked).notice.additions
    bad (rx (requestBytes 0 9 kindPoll []).dropLast ++ [{ value := 0, stopHigh := true }]) = [.linkError] ∧
    bad ({ value := 0xA5, stopHigh := false } :: rx (requestBytes 0 9 kindPoll []).tail) = [.linkError] ∧
    bad (rx [0xA5, 0x01, 0x04]) = [.linkError] ∧ bad (rx [0x00]) = [] ∧ bad (rx [0xA5, 0x00, 0x04]) = [] ∧
    (run .frameGapTimeout (run (.benchFrame (rx [0xA5, 0x00])) walked)).notice.additions = [.linkError] ∧
    (run .frameGapTimeout walked).notice.additions = [] := by
  decide +kernel
theorem test_frame_of_channel_8_fails :
    let body : List Byte := [0, 0, 8, 9, kindPoll]
    (run (.benchFrame (rx (0xA5 :: (body ++ halfBytes (crc16 body))))) walked).notice.additions = [.linkError] := by
  decide +kernel
theorem test_unknown_kind_and_starting :
    atHead 1 0x06 (queued 1 0x06 [] walked) = true ∧
    answered (.unknownKind 1) (queued 1 0x06 [] walked) = some (.bad, []) ∧
    answered (.unknownKind 1) (asked 1 kindPoll [] walked) = none ∧
    answered (.starting 1) (queued 1 kindPoll [] State.reset) = some (.starting, []) := by
  decide +kernel
theorem test_closed_and_missing_frame :
    atHead 1 kindPoll (queued 1 kindPoll [] walked) = true ∧
    (allPorts.all fun p => !((queued 1 kindPoll [] walked).port p).choiceDue) = true ∧
    answered (.poll 1) (queued 1 kindPoll [] walked) = some (.closed, []) ∧
    answered (.claim 1) (queued 1 kindClaim [0, 0] walked) = some (.closed, []) ∧
    answered (.halt 1) (queued 1 kindHalt [0] walked) = some (.closed, []) ∧
    answered (.resume 1) (queued 1 kindResume [0] walked) = some (.closed, []) ∧
    answered (.stepBoard 1) (queued 1 kindStep [0, 1, 0] walked) = some (.closed, []) ∧
    answered (.gate 1) (queued 1 kindGate [0, 0, 0, 0] walked) = some (.closed, []) ∧
    answered (.poll 1) (asked 1 kindRenew [] walked) = none ∧ answered (.poll 1) walked = none := by
  decide +kernel
theorem test_transmit :
    let s := run (.poll 1) (queued 1 kindPoll [] walked)
    (run .responseTransmit s).bench.output = [] ∧ ((run .responseTransmit s).lane 1).outstanding = 0 ∧
    (run .responseTransmit s).bench.sentFrames.map (fun x => (x.rate, x.levels.length)) = [(1, 80)] ∧
    ((run .responseTransmit s).bench.sentFrames.map (fun x => x.levels.take 10)) =
      [[false, true, false, true, false, false, true, false, true, true]] ∧
    (run .responseTransmit { s with bench := { s.bench with rate1 := true } }).bench.sentFrames.map (·.rate) = [6] ∧
    [benchRate false true, benchRate true true] = [3, 12] ∧
    (run .responseTransmit walked).bench.sentFrames = [] := by
  decide +kernel

/-! ### Channels, leases and notices -/

theorem test_open :
    let s (pl : List Byte) := queued 1 kindOpen pl walked
    atHead 1 kindOpen (s [2, 1, 100, 0, 15]) = true ∧
    answered (.openChannel 1) (s [2, 1, 100, 0, 15]) = some (.done, [2, 100, 0, 15]) ∧
    answered (.openChannel 1) (s [3, 0, 0, 0, 0]) = some (.done, [3, 0xD0, 0x07, 0]) ∧
    answered (.openChannel 1) (s [2, 1, 99, 0, 15]) = some (.bad, []) ∧
    answered (.openChannel 1) (s [4, 0, 0, 0, 0]) = some (.bad, []) ∧
    answered (.openChannel 1) (asked 1 kindOpen [2, 0, 0, 0, 0] walked) = some (.busy, []) ∧
    answered (.openChannel 1) (queued 1 kindOpen [3, 0, 0, 0, 0]
      (walked.setChan 1 { Channel.reset with maxClass := 2 })) = some (.denied, []) := by
  decide +kernel
theorem test_open_waits_for_the_notices_of_its_channel :
    let s := queued 1 kindOpen [2, 0, 0, 0, 0] walked
    (noticesForC1.all fun f => run (.openChannel 1) (f s) = f s) = true ∧
    answered (.openChannel 2) (s.sendAddition (.overrun 1)) = none ∧
    answered (.openChannel 2) ((queued 2 kindOpen [2, 0, 0, 0, 0] walked).sendAddition (.overrun 1)) =
      some (.done, [2, 0xD0, 0x07, 0]) := by
  decide +kernel
theorem test_renew_notices_poll_partstat :
    let s (k : Byte) (pl : List Byte) := asked 1 k pl walked
    ready 1 kindRenew (s kindRenew []) = true ∧ ready 1 kindNotices (s kindNotices [15]) = true ∧
    ready 1 kindPoll (s kindPoll []) = true ∧ ready 1 kindPartstat (s kindPartstat []) = true ∧
    answered (.renew 1) (s kindRenew []) = some (.done, [0xD0, 0x07]) ∧
    answered (.renew 1) (s kindRenew [0]) = some (.bad, []) ∧
    answered (.notices 1) (s kindNotices [15]) = some (.done, [15]) ∧
    answered (.notices 1) (s kindNotices [16]) = some (.bad, []) ∧
    answered (.poll 1) (s kindPoll []) = some (.done, [0, 0, 0, 0, 0, 0, 0]) ∧
    answered (.poll 1) (s kindPoll [0]) = some (.bad, []) ∧
    answered (.partstat 1) (s kindPartstat []) =
      some (.done, [0x47, 0x57, 0x48, 0x36, 0x38, 0, 0, 0, 0x41, 3, 0, 0, 0]) ∧
    answered (.partstat 1) (s kindPartstat [0]) = some (.bad, []) := by
  decide +kernel
theorem test_close :
    let s := asked 1 kindClose [] walked
    ready 1 kindClose s = true ∧ s.teardowns.current = none ∧
    (run (.closeChannel 1) s).teardowns.current = some (1, .records) ∧
    (run (.closeChannel 2) (asked 2 kindClose [] (run (.closeChannel 1) s))).teardowns.queued = [2] ∧
    answered (.closeChannel 1) (asked 1 kindClose [1] walked) = some (.bad, []) := by
  decide +kernel
theorem test_lease_expiry :
    let s := opened 2 (opened 0 walked)
    (run (.leaseExpiry 2) s).teardowns.current = some (2, .records) ∧
    (run (.leaseExpiry 2) s).notice.additions = [.lapsed 2] ∧
    (run (.leaseExpiry 0) (run (.leaseExpiry 2) s)).teardowns.queued = [0] ∧
    (run (.leaseExpiry 1) s) = s := by
  decide +kernel

def tearing (c : ChanId) (st : TeardownStage) (s : State) : State :=
  { (opened c s).setChan c { (opened c s).chan c with leaseTimer := none, teardown := some .closing } with
    teardowns := { current := some (c, st), queued := [] } }

/-- Three records of C1: kept, not kept, and kept with an after-link to the second; one of C2 with that after-link. -/
def threeRecords : State :=
  let r : Record := { record with owner := 1 }
  holding 3 { r with owner := 2, state := .waiting, after := some (handle 1) }
    (holding 2 { r with keep := true, after := some (handle 1) } (holding 1 r (holding 0 { r with keep := true }
      (opened 2 (opened 0 walked)))))

theorem test_records_step :
    let s := tearing 1 .records threeRecords
    let t := run .teardownRecords s
    t.notice.additions = [.revoked 0, .revoked 2] ∧ t.teardowns.current = some (1, .changing 0) ∧ (t.table.recordAt 0).map (·.owner) = some 0 ∧
    t.table.slotAt 1 = { issue := 1, record := none } ∧
    (t.table.recordAt 2).map (fun r => (r.owner, r.after)) = some (0, none) ∧
    (t.table.recordAt 3).map (fun r => (r.state, r.after)) = some (.suspended, none) ∧
    (run .teardownRecords (tearing 5 .records walked)).teardowns.current = some (5, .ports allPorts allPorts) ∧
    run .teardownRecords (busy s) = busy s ∧
    (run .teardownRecords (busy (tearing 5 .records walked))).teardowns.current = some (5, .ports allPorts allPorts) := by
  decide +kernel
theorem test_port_steps :
    let s := tearing 1 (.ports [0, 2] [0]) (onPort 0 (fun q => held 1 (claimed 1 .sole (board q))) walked)
    (s.port 0).choiceDue = false ∧
    (run (.teardownAtArbiter 0) s).teardowns.current = some (1, .ports [2] [0]) ∧
    ((run (.teardownAtArbiter 0) s).port 0).hasClaim 1 = false ∧
    ((run (.teardownAtArbiter 0) s).port 0).tlc.resetAsserted = true ∧
    ((run (.teardownAtArbiter 0) s).port 0).rc.reports = [.resetAsserted] ∧
    ((run (.teardownAtArbiter 0) (onPort 0 (claimed 1 .shared) s)).port 0).tlc.resetAsserted = false ∧
    ((run (.teardownAtArbiter 0) s).port 0).tlc.safeRequests = [] ∧
    (run (.teardownAtRunControl 0) s).teardowns.current = some (1, .ports [0, 2] []) ∧
    ((run (.teardownAtRunControl 0) s).port 0).rc.holds.has 1 = false ∧
    (run (.teardownAtRunControl 2) s) = s ∧
    (let named := onPort 0 (fun q => { q with rc := { q.rc with fromUnits := [.taken, .freeze true 1] } }) s
     run (.teardownAtRunControl 0) named = named) := by
  decide +kernel
theorem test_last_step :
    let s := tearing 1 (.ports [] []) (waiting 1 .teardown walked)
    s.notice.signals = [] ∧ answered .teardownClose s = some (.done, []) ∧
    ((run .teardownClose s).chan 1).isOpen = false ∧ (run .teardownClose s).teardowns.current = none ∧
    (run .teardownClose { s with teardowns := { s.teardowns with queued := [4] } }).teardowns.current =
      some (4, .records) ∧
    (noticesForC1.all fun f => run .teardownClose (f s) = f s) = true := by
  decide +kernel

/-! ### Claims and access -/

theorem test_claim :
    let s (pl : List Byte) (f : Port → Port) := asked 1 kindClaim pl (onPort 0 f walked)
    ready 1 kindClaim (s [0, 0] id) = true ∧
    answered (.claim 1) (s [0, 0] id) = some (.done, [0]) ∧ answered (.claim 1) (s [0, 1] id) = some (.done, [1]) ∧
    answered (.claim 1) (s [0, 0] (claimed 2 .sole)) = some (.busy, []) ∧
    answered (.claim 1) (s [0, 0] (claimed 2 .shared)) = some (.done, [0]) ∧
    answered (.claim 1) (s [0, 1] (claimed 2 .shared)) = some (.busy, []) ∧
    answered (.claim 1) (s [0, 0] (claimed 1 .shared)) = some (.done, [0]) ∧
    answered (.claim 1) (s [0, 1] (claimed 1 .shared)) = some (.done, [1]) ∧
    answered (.claim 1) (s [0, 1] fun q => claimed 1 .shared (claimed 2 .shared q)) = some (.busy, []) ∧
    answered (.claim 1) (s [0, 0] (claimed 1 .sole)) = some (.done, [0]) ∧
    answered (.claim 1) (s [6, 0] id) = some (.bad, []) ∧ answered (.claim 1) (s [5, 2] id) = some (.bad, []) := by
  decide +kernel
theorem test_release :
    let s (m : ClaimMode) := asked 1 kindRelease [0] (onPort 0 (claimed 1 m) walked)
    ready 1 kindRelease (s .sole) = true ∧
    answered (.release 1) (asked 1 kindRelease [0] walked) = some (.notHeld, []) ∧
    answered (.release 1) (asked 1 kindRelease [6] walked) = some (.bad, []) ∧
    answered (.holdRemoval 0) (run (.release 1) (s .shared)) = some (.done, []) ∧
    answered (.holdRemoval 0) (run (.release 1) (s .sole)) = none ∧
    answered (.safeLevels 0) (run (.holdRemoval 0) (run (.release 1) (s .sole))) = some (.done, []) ∧
    answered (.safeLevels 0) (run (.release 1) (s .sole)) = none ∧
    answered (.holdRemoval 0) (run (.safeLevels 0) (run (.release 1) (s .sole))) = some (.done, []) := by
  decide +kernel

/-- READ of one word of 4 bytes at 0x1000 on P0, INCREMENT. -/
def readOne : List Byte := [0, 4, 1, 0, 0x10, 0, 0, 0, 0, 0, 0, 0, 0, 0]
def guarded : List Byte := [0, 4, 1, 0, 0x10, 0, 0, 0, 0, 0, 1, 2, 0, 0]
def haltedOnly : List Byte := [0, 4, 1, 0, 0x10, 0, 0, 0, 0, 0, 0, 0, 0, 1]
def writeOne : List Byte := [0, 1, 2, 0, 0x10, 0, 0, 1, 0, 0, 0, 0, 0, 0, 0xAB, 0xCD]
def block : Block :=
  { direction := .read, width := .four, count := 1, start := 0x1000, stepping := .increment, haltedOnly := false, data := [] }
def left : Remainder := { block := block, reason := .timeout, epoch := 1 }
def parkedFor (c : ChanId) (r : Remainder) (q : Port) : Port :=
    { q with arb := { q.arb with parked := q.arb.parked.set c (some r) } }
def withTlc (f : LinkController → LinkController) (q : Port) : Port := { q with tlc := f q.tlc }
def withArb (f : Arbiter → Arbiter) (q : Port) : Port := { q with arb := f q.arb }

theorem test_read_refusals :
    let s (pl : List Byte) (f : Port → Port) := asked 1 kindRead pl (onPort 0 (fun q => f (claimed 1 .shared
        (board q))) walked)
    ready 1 kindRead (s readOne id) = true ∧ ((s readOne id).port 0).choiceDue = false ∧
    answered (.read 1) (asked 1 kindRead readOne walked) = some (.noClaim, []) ∧
    answered (.read 1) (s readOne (parkedFor 1 left)) = some (.parked, []) ∧
    answered (.read 1) (s readOne (withTlc fun t => { t with seat := .arriving })) = some (.absent, []) ∧
    answered (.read 1) (s readOne (withArb fun a => { a with linkLocked := false })) = some (.noLink, []) ∧
    answered (.read 1) (s readOne (withTlc fun t => { t with resetAsserted := true })) = some (.inReset, []) ∧
    answered (.read 1) (s guarded id) = some (.epoch, []) ∧
    answered (.read 1) (s haltedOnly id) = some (.running, []) ∧
    answered (.read 1) (s [] id) = some (.bad, []) := by
  decide +kernel
theorem test_read_and_write_join :
    let s (k : Byte) (pl : List Byte) := asked 1 k pl (onPort 0 (fun q => claimed 1 .shared (board q)) walked)
    answered (.read 1) (s kindRead readOne) = none ∧
    ((run (.read 1) (s kindRead readOne)).port 0).arb.queue.map (·.block.count) = [1] ∧
    ((run (.write 1) (s kindWrite writeOne)).port 0).arb.queue.map (fun e => (e.age, e.block.data)) = [(0, [0xAB,
        0xCD])] ∧
    ((run (.read 1) (s kindRead readOne)).port 0).choiceDue = true := by
  decide +kernel
theorem test_joining_waits_for_a_choice_that_is_due :
    let due := onPort 0 (fun q => withArb (fun a => { a with queue := [{ chan := 2, block := block, epochGuard := none, replayOf := none, age := 0 }] }) (board q)) walked
    let replay := onPort 0 (parkedFor 1 left) due
    (due.port 0).choiceDue = true ∧
    run (.read 1) (asked 1 kindRead readOne due) = asked 1 kindRead readOne due ∧
    run (.write 1) (asked 1 kindWrite writeOne due) = asked 1 kindWrite writeOne due ∧
    run (.replay 1) (asked 1 kindReplay [0] replay) = asked 1 kindReplay [0] replay ∧
    run (.read 1) (queued 1 kindRead readOne due) = queued 1 kindRead readOne due ∧
    run (.replay 1) (queued 1 kindReplay [0] due) = queued 1 kindReplay [0] due ∧
    answered (.read 1) (asked 1 kindRead [] due) = some (.bad, []) ∧
    answered (.read 1) (queued 1 kindRead (1 :: readOne.tail) walked) = some (.closed, []) := by
  decide +kernel
theorem test_replay_and_drop :
    let s (k : Byte) (f : Port → Port) := asked 1 k [0] (onPort 0 (fun q => f (parkedFor 1 left (board q))) walked)
    ready 1 kindReplay (s kindReplay id) = true ∧ ready 1 kindDrop (s kindDrop id) = true ∧
    ((s kindReplay id).port 0).choiceDue = false ∧
    ((run (.replay 1) (s kindReplay id)).port 0).arb.queue.map (·.replayOf) = [some left] ∧
    answered (.replay 1) (s kindReplay (withArb fun a => { a with linkLocked := false })) = some (.noLink, []) ∧
    answered (.replay 1) (s kindReplay (withTlc fun t => { t with resetAsserted := true })) = some (.inReset, []) ∧
    answered (.replay 1) (s kindReplay (parkedFor 1 { left with block := { block with haltedOnly := true } })) =
      some (.running, []) ∧
    answered (.replay 1) (asked 1 kindReplay [0] walked) = some (.notHeld, []) ∧
    answered (.replay 1) (run (.unseatAtArbiter 0) (s kindReplay (withArb fun a => { a with fromLink := [.report .unseat] }))) =
      some (.notHeld, []) ∧
    answered (.drop 1) (s kindDrop id) = some (.done, [0, 4, 0, 0, 0, 1, 0, 0x10, 0, 0, 14, 0, 1, 0]) ∧
    answered (.drop 1) (asked 1 kindDrop [0] walked) = some (.notHeld, []) := by
  decide +kernel

def entry (c : ChanId) (age : Nat) : QueueEntry :=
    { chan := c, block := block, epochGuard := none, replayOf := none, age := age }
def queueing (l : List QueueEntry) : State :=
  l.foldl (fun s e => waiting e.chan (.access 0) s) (onPort 0 (fun q => withArb
      (fun a => { a with queue := l }) (board q)) walked)

theorem test_choice :
    let cls : ChanId → Fin 4 := fun c => if c = 1 then 1 else 2
    (chooseEntry cls ChanSet.empty [entry 2 0, entry 1 0, entry 3 0]).map (·.chan) = some 1 ∧
    (chooseEntry cls ChanSet.empty [entry 2 5, entry 1 0]).map (·.chan) = some 1 ∧
    (chooseEntry cls ChanSet.empty [entry 2 6, entry 1 6]).map (·.chan) = some 2 ∧
    (chooseEntry cls (ChanSet.single 2) [entry 2 0, entry 3 0]).map (·.chan) = some 3 ∧
    chooseEntry cls ChanSet.empty [] = none := by
  decide +kernel
theorem test_grant :
    let s := queueing [entry 1 0, entry 2 4]
    (s.port 0).choiceDue = true ∧ (s.port 0).arb.use = .idle ∧
    ((run (.grant 0) s).port 0).tlc.outgoing = [.access 0 .read 0x1000 .four 0] ∧
    ((run (.grant 0) s).port 0).arb.queue.map (fun e => (e.chan, e.age)) = [(2, 5)] ∧
    ((run (.grant 0) s).port 0).arb.replyTimer = some 20 ∧
    answered (.grant 0) (onPort 0 (withTlc fun t => { t with resetAsserted := true }) s) = some (.inReset, []) ∧
    answered (.grant 0)
        (queueing [{ entry 1 0 with block := { block with haltedOnly := true } }]) = some (.running, []) ∧
    run (.grant 0) walked = walked := by
  decide +kernel
theorem test_word_addresses :
    let wrap : Block := { block with start := 0x100C, stepping := .wrap 16, count := 3 }
    (List.range 3).map wrap.wordAddress = [0x100C, 0x1000, 0x1004] ∧
    (List.range 3).map block.wordAddress = [0x1000, 0x1004, 0x1008] ∧
    ({ block with stepping := .fixed } : Block).wordAddress 2 = 0x1000 ∧
    ({ block with start := 0xFFFFFFFC } : Block).wordAddress 1 = 0 ∧ (16 ∈ wrapSpans) := by
  decide +kernel

/-- C1's block of `n` words in flight on P0, with replies waiting at the arbiter. -/
def inFlight (n : Nat) (l : List ReplyFrame) : State :=
  waiting 1 (.access 0) (onPort 0 (fun q => withArb (fun a => { a with
    use := .executing { chan := 1, block := { block with count := n }, wordsDone := 0, readData := [], epoch := 1 }
      { tag := 3, index := 0, address := 0x1000, data := 0 }
    replyTimer := some 20
    fromLink := l.map .reply }) (board q)) walked)
def drained (s : State) : State :=
  onPort 0 (withArb fun a => { a with use := .draining { tag := 3, index := 0, address := 0, data := 0 } }) s

theorem test_replies :
    let ok : ReplyFrame := { tag := 3, faultCode := none, data := 0x11223344 }
    answered (.reply 0) (inFlight 1 [ok]) = some (.done, [1, 0, 0x44, 0x33, 0x22, 0x11]) ∧
    answered (.reply 0) (inFlight 2 [ok]) = none ∧
    ((run (.reply 0) (inFlight 2 [ok])).port 0).tlc.outgoing.length = 1 ∧
    answered (.reply 0) (inFlight 2 [{ ok with faultCode := some 9 }]) = some (.fault, [0, 9]) ∧
    ((run (.reply 0) (inFlight 2 [{ ok with faultCode := some 9 }])).port 0).arb.parked[1].isSome = true ∧
    ((run (.reply 0) (drained (inFlight 1 [ok]))).port 0).arb.use = .idle ∧
    ((run (.reply 0) (inFlight 1 [{ ok with tag := 4 }])).port 0).arb.replyTimer = some 20 ∧
    ((run (.reply 0) (onPort 0
        (withArb fun a => { a with use := .idle }) (inFlight 1 [ok]))).port 0).arb.fromLink = [] := by
  decide +kernel
theorem test_reply_limit :
    answered (.replyLimitExpiry 0) (inFlight 1 []) = some (.timeout, [0, 0]) ∧
    ((run (.replyLimitExpiry 0) (drained (inFlight 1 []))).port 0).arb.use = .idle ∧
    run (.replyLimitExpiry 0) walked = walked := by
  decide +kernel
theorem test_reports_at_the_arbiter :
    let reports (r : ArbiterReport) (s : State) := onPort 0 (withArb fun a => { a with fromLink := [.report r] }) s
    let offered := onPort 0
        (withArb fun a => { a with linkLocked := false }) (queueing [entry 1 0, { entry 2 0 with replayOf := some left }])
    ((reports .linkLost (queueing [entry 1 0])).port 0).choiceDue = true ∧
    answered (.linkLossAtArbiter 0) (reports .linkLost (queueing [entry 1 0])) = some (.noLink, []) ∧
    ((run (.linkLockAtArbiter 0) (reports .linkLocked walked)).port 0).arb.linkLocked = true ∧
    answered (.linkLossAtArbiter 0) (reports .linkLost (inFlight 1 [])) = some (.linkLost, [0, 0]) ∧
    (run (.linkLossAtArbiter 0) (reports .linkLost offered)).bench.output.map (·.status) = [.noLink, .noLink] ∧
    ((run (.linkLossAtArbiter 0) (reports .linkLost offered)).port 0).arb.parked[2].isSome = true ∧
    answered (.unseatAtArbiter 0) (reports .unseat (inFlight 1 [])) = some (.absent, [0, 0]) ∧
    (run (.unseatAtArbiter 0) (reports .unseat offered)).bench.output.map (·.status) = [.absent, .absent] := by
  decide +kernel
/-- R117, R119, R156: a REPLY waits for the loss and the lock handed over before it; a loss may overtake the REPLY before it,
which is then discarded, and a lock may not. -/
theorem test_replies_and_reports_keep_their_order :
    let ok : ReplyFrame := { tag := 3, faultCode := none, data := 0 }
    let s (l : List ArbiterMsg) := onPort 0 (withArb fun a => { a with fromLink := l }) (inFlight 2 [])
    let late := s [.report .linkLost, .report .linkLocked, .reply ok]
    let lost := s [.reply ok, .report .linkLost, .report .linkLocked]
    let overtaken := run (.linkLossAtArbiter 0) lost
    run (.reply 0) late = late ∧ run (.linkLockAtArbiter 0) late = late ∧
    answered (.linkLossAtArbiter 0) late = some (.linkLost, [0, 0]) ∧
    run (.linkLockAtArbiter 0) lost = lost ∧ answerOf overtaken = some (.linkLost, [0, 0]) ∧
    (overtaken.port 0).arb.fromLink = [.reply ok, .report .linkLocked] ∧ run (.linkLockAtArbiter 0) overtaken = overtaken ∧
    ((run (.linkLockAtArbiter 0) (run (.reply 0) overtaken)).port 0).arb.linkLocked = true ∧
    ((run (.reply 0) lost).port 0).tlc.outgoing.length = 1 := by
  decide +kernel

/-! ### Run control -/

/-- C1 holds P0, whose run state is `r`, with a claim. -/
def inState (r : RunState) : State := onPort 0 (fun q => inRun r (held 1 (claimed 1 .shared (board q)))) walked

theorem test_hold_set :
    let q := (inState .frozen).port 0
    ((q.removeHolds (ChanSet.single 1) false).raised).isSome = true ∧
    (q.removeHolds (ChanSet.single 1) false).port.rc.run = .running ∧
    ((inState .stopping).port 0 |>.removeHolds (ChanSet.single 1) false).port.rc.run = .stopping ∧
    (q.removeHolds (ChanSet.single 2) false).port = q ∧ (board Port.reset).unheld = true ∧ q.unheld = false ∧
    (q.addHold 1) = q ∧ ((q.addHold 7).rc.holds.has 7) = true := by
  decide +kernel
theorem test_halt :
    let s (r : RunState) := asked 1 kindHalt [0] (onPort 0 (fun q => inRun r (claimed 1 .shared (board q))) walked)
    ready 1 kindHalt (s .running) = true ∧
    answered (.halt 1) (s .running) = none ∧ ((run (.halt 1) (s .running)).port 0).rc.run = .stopping ∧
    ((run (.halt 1) (s .running)).port 0).tlc.outgoing = [.stop] ∧
    ((run (.halt 1) (s .stepping)).port 0).rc.run = .stopping ∧
    (((run (.halt 1) (s .stopping)).lane 1).executing.map (·.wait)) = some (.settle 0) ∧
    answered (.halt 1) (s .frozen) = some (.done, []) ∧
    answered (.halt 1) (s .unresponsive) = some (.unresponsive, []) ∧
    answered (.halt 1) (s .offline) = some (.noLink, []) ∧
    answered (.halt 1) (onPort 0 (fun q => { q with rc := { q.rc with resetAsserted := true } }) (s .offline)) =
      some (.inReset, []) ∧
    answered (.halt 1) (asked 1 kindHalt [0] walked) = some (.noClaim, []) ∧
    answered (.halt 1) (asked 1 kindHalt [6] walked) = some (.bad, []) := by
  decide +kernel
theorem test_settling :
    let s := waiting 5 (.settle 1) (waiting 2 (.settle 0) walked)
    (s.settleHalts 0 .done).bench.output = [{ chan := 2, tag := 7, status := .done, payload := [] }] ∧
    ((s.settleHalts 0 .done).lane 5).executing.isSome = true ∧ (s.settleHalts 3 .done).bench.output = [] := by
  decide +kernel
/-- R163, R169, R182: the ends of a request that is to end without response, and of one that its teardown ends. -/
theorem test_ends_of_a_request :
    let s := waiting 1 (.settle 0) walked
    let marked := s.setLane 1 { s.lane 1 with executing := some { tag := 7, kind := 0, wait := .settle 0, silent := true } }
    let done (x : State) := (x.bench.output.length, (x.lane 1).outstanding, (x.lane 1).executing.isSome)
    done (s.finish 1 .done []) = (1, 1, false) ∧ done (marked.finish 1 .done []) = (0, 0, false) ∧
    done (s.endWait 1 (.settle 0)) = (0, 0, false) ∧ s.endWait 1 (.settle 1) = s ∧ walked.finish 1 .done [] = walked := by
  decide +kernel
/-- R81, R92: RESUMED is raised, for the claimants and the resumers, when the last hold goes, and at no other moment. -/
theorem test_the_last_hold_raises_resumed :
    let s := inState .frozen
    let two := onPort 0 (held 2) s
    let leave (x : State) := x.applyRun 0 ((x.port 0).removeHold 1 false)
    (leave s).notice.events = [{ port := 0, block := .runControl, kind := .resumed, chans := ChanSet.single 1 }] ∧
    ((leave s).port 0).rc.run = .running ∧ (leave two).notice.events = [] ∧ ((leave two).port 0).rc.run = .frozen := by
  decide +kernel
theorem test_resume :
    let s (q : Port → Port) := asked 1 kindResume [0] (onPort 0 (fun x => q (board x)) walked)
    let boardHeld (q : Port) : Port := inRun .frozen { q with rc := { q.rc with boardHold := true } }
    ready 1 kindResume (s id) = true ∧
    answered (.resume 1) (s fun q => inRun .frozen (held 1 q)) = some (.done, [0, 0]) ∧
    answered (.resume 1) (s fun q => inRun .frozen (held 2 (held 1 q))) = some (.done, [2, 1]) ∧
    answered (.resume 1) (s fun q => boardHeld (claimed 1 .shared q)) = some (.done, [0, 0]) ∧
    answered (.resume 1) (s boardHeld) = some (.noClaim, []) ∧ answered (.resume 1) (s id) = some (.notHeld, []) ∧
    answered (.resume 1) (asked 1 kindResume [] walked) = some (.bad, []) := by
  decide +kernel
theorem test_step :
    let s (r : RunState) (pl : List Byte) := asked 1 kindStep pl (inState r)
    let free (r : RunState) := asked 1 kindStep [0, 1, 0] (onPort 0 (fun q => inRun r (board q)) walked)
    ready 1 kindStep (s .frozen [0, 1, 0]) = true ∧
    answered (.stepBoard 1) (s .frozen [0, 0xFF, 0xFF]) = some (.done, [0xFF, 0xFF]) ∧
    ((run (.stepBoard 1) (s .frozen [0, 2, 0])).port 0).rc.budget = 2 ∧
    answered (.stepBoard 1) (s .stepping [0, 0xFF, 0xFF]) = some (.done, [0xFF, 0xFF]) ∧
    answered (.stepBoard 1) (s .stopping [0, 1, 0]) = some (.done, [1, 0]) ∧
    answered (.stepBoard 1) (onPort 0 (fun q => { q with rc := { q.rc with budget := 65000 } }) (s .stepping [0, 0, 4])) =
      some (.done, [0xFF, 0xFF]) ∧
    answered (.stepBoard 1) (s .running [0, 1, 0]) = some (.running, []) ∧
    answered (.stepBoard 1) (s .offline [0, 1, 0]) = some (.noLink, []) ∧
    answered (.stepBoard 1) (s .unresponsive [0, 1, 0]) = some (.unresponsive, []) ∧
    answered (.stepBoard 1) (free .frozen) = some (.notHeld, []) ∧
    answered (.stepBoard 1) (s .frozen [0, 0, 0]) = some (.bad, []) := by
  decide +kernel
theorem test_freeze_and_observation_reports :
    let s (m : List UnitToRun) (r : RunState) (n : Nat) := opened 3 (onPort 0 (fun q =>
      { inRun r (board q) with rc := { (inRun r (board q)).rc with fromUnits := m, budget := n } }) walked)
    let rc (x : State) := (x.port 0).rc
    (rc (run (.freeze 0 false) (s [.freeze false 3, .taken] .running 0))).run = .stopping ∧
    (rc (run (.freeze 0 false) (s [.freeze false 3] .running 0))).holds.has 3 = true ∧
    (rc (run (.freeze 0 false) (s [.freeze false 4] .running 0))).run = .running ∧
    (rc (run (.freeze 0 true) (s [.taken, .freeze true 3] .frozen 0))).holds.has 3 = true ∧
    (rc (run (.freeze 0 true) (s [.taken, .freeze true 3, .freeze false 4] .frozen 0))).fromUnits =
      [.taken, .freeze false 4] ∧
    run (.freeze 0 true) (s [.freeze false 3, .freeze true 3] .running 0) =
      s [.freeze false 3, .freeze true 3] .running 0 ∧
    run (.freeze 0 false) (s [.freeze true 3, .freeze false 3] .running 0) =
      s [.freeze true 3, .freeze false 3] .running 0 ∧
    run (.freeze 0 false) (s [.taken, .freeze false 3] .running 0) = s [.taken, .freeze false 3] .running 0 ∧
    run (.freeze 0 true) (s [.taken] .running 0) = s [.taken] .running 0 ∧
    run (.observationTaken 0) (s [.freeze true 3, .freeze false 3, .taken] .running 0) =
      s [.freeze true 3, .freeze false 3, .taken] .running 0 ∧
    run (.observationTaken 0) (s [.freeze true 3] .running 0) = s [.freeze true 3] .running 0 ∧
    (rc (run (.observationTaken 0) (s [.freeze true 3, .taken] .stepping 2))).budget = 1 ∧
    (rc (run (.observationTaken 0) (s [.taken] .stepping 1))).run = .stopping ∧
    (rc (run (.observationTaken 0) (s [.taken] .running 0))).run = .running := by
  decide +kernel
theorem test_stopped :
    let s (r : RunState) (f : Port → Port) := onPort 0 (fun q =>
      f { inRun r (board q) with rc := { (inRun r (board q)).rc with reports := [.stopped, .linkLocked], stopTimer := some 5 } }) walked
    let after (x : State) := ((run (.stopped 0) x).port 0).rc.run
    after (s .stopping id) = .running ∧ after (s .stopping (held 1)) = .frozen ∧
    after (s .stopping fun q => held 1 { q with rc := { q.rc with budget := 3 } }) = .stepping ∧
    after (s .unresponsive id) = .frozen ∧ after (s .running id) = .frozen ∧ after (s .stepping (held 1)) = .frozen ∧
    (run (.stopped 0) (s .running id)).notice.events.map (·.kind) = [.selfStop] ∧
    after (s .frozen id) = .frozen ∧ run (.stopped 0) walked = walked ∧
    (let behind := onPort 0 (fun q => { q with rc := { q.rc with reports := [.resetReleased, .stopped] } }) walked
     run (.stopped 0) behind = behind) := by
  decide +kernel
theorem test_stop_timer :
    let s (n : Nat) (f : Port → Port) := onPort 0 (fun q =>
      f { inRun .stopping (board q) with rc := { (inRun .stopping (board q)).rc with stopTimer := some 5, expiries := n } }) walked
    ((run (.stopTimerExpiry 0) (s 0 id)).port 0).tlc.outgoing = [.stop] ∧
    ((run (.stopTimerExpiry 0) (s 1 id)).port 0).rc.run = .running ∧
    ((run (.stopTimerExpiry 0) (s 1 (held 2))).port 0).rc.run = .unresponsive ∧
    run (.stopTimerExpiry 0) walked = walked := by
  decide +kernel
theorem test_reports_at_run_control :
    let s (r : RunReport) (f : Port → Port) := onPort 0 (fun q =>
      f { board q with rc := { (board q).rc with reports := [r] } }) walked
    let after (i : Instr) (x : State) := ((run i x).port 0).rc.run
    let unlinked (q : Port) : Port := { q with rc := { q.rc with run := .offline, linkLocked := false } }
    let inReset (q : Port) : Port := { q with rc := { q.rc with run := .offline, resetAsserted := true } }
    after (.linkLossAtRunControl 0) (s .linkLost id) = .offline ∧ after (.resetAsserted 0) (s .resetAsserted id) =
        .offline ∧
    after (.unseatAtRunControl 0) (s .unseat id) = .offline ∧
    after (.linkLockAtRunControl 0) (s .linkLocked unlinked) = .running ∧
    after (.linkLockAtRunControl 0) (s .linkLocked fun q => held 1 (unlinked q)) = .stopping ∧
    after (.linkLockAtRunControl 0) (s .linkLocked fun q => inReset (unlinked q)) = .offline ∧
    after (.resetReleased 0) (s .resetReleased inReset) = .running ∧
    after (.resetReleased 0) (s .resetReleased fun q => inReset (unlinked q)) = .offline ∧
    ((run (.linkLossAtRunControl 0) (s .linkLost fun q => { q with rc := { q.rc with
      reports := [.stopped, .stopped, .linkLost, .linkLocked, .stopped] } })).port 0).rc.reports =
      [.linkLocked, .stopped] ∧
    ((run (.unseatAtRunControl 0) (s .unseat fun q => { q with rc := { q.rc with
      reports := [.stopped, .unseat] } })).port 0).rc.reports = [] ∧
    (let late := s .linkLost fun q => { q with rc := { q.rc with reports := [.stopped, .resetAsserted] } }
     run (.resetAsserted 0) late = late) := by
  decide +kernel

/-! ### Target links and fixture lines -/

theorem test_drive_safe_levels_portstat :
    let s (k : Byte) (pl : List Byte) (f : Port → Port) := asked 1 k pl (onPort 0 f walked)
    ready 1 kindDrive (s kindDrive [0, 2, 1] id) = true ∧ ready 1 kindPortstat (s kindPortstat [0] id) = true ∧
    answered (.drive 1) (s kindDrive [0, 2, 1] (claimed 1 .sole)) = some (.done, [2, 1]) ∧
    ((run (.drive 1) (s kindDrive [0, 2, 1] (claimed 1 .sole))).port 0).rc.reports = [.resetReleased] ∧
    answered (.drive 1) (s kindDrive [0, 0, 1] (claimed 1 .sole)) = some (.done, [1, 1]) ∧
    answered (.drive 1) (s kindDrive [0, 2, 1] (claimed 1 .shared)) = some (.noClaim, []) ∧
    answered (.drive 1) (s kindDrive [0, 0, 0] (claimed 1 .sole)) = some (.bad, []) ∧
    answered (.portstat 1) (s kindPortstat [0] (claimed 1 .sole)) =
      some (.done, [0, 0, 0, 0, 8, 0, 1, 2, 0, 5, 0, 0, 0, 0, 1, 1, 1, 0, 0, 0, 0, 0, 0, 0]) ∧
    answered (.portstat 1) (s kindPortstat [] id) = some (.bad, []) ∧
    (board Port.reset).toSafeLevels.rc.reports = [.resetAsserted] := by
  decide +kernel
theorem test_seat :
    let s (st : SeatState) (timer : Option Nat) (high : Bool) := onPort 0 (withTlc fun t =>
      { t with seat := st, debounce := timer, seatHigh := high }) walked
    let seat (x : State) := (x.port 0).tlc.seat
    seat (run (.seatChange 0 true) (s .empty none false)) = .arriving ∧
    seat (run (.seatChange 0 false) (s .arriving (some 20) true)) = .empty ∧
    seat (run (.seatChange 0 false) (s .seated none true)) = .leaving ∧
    seat (run (.seatChange 0 true) (s .leaving (some 20) false)) = .seated ∧
    run (.seatChange 0 true) (s .seated none true) = s .seated none true ∧
    run (.seatChange 0 true) State.reset = State.reset ∧
    seat (run (.debounceExpiry 0) (s .arriving (some 20) true)) = .seated ∧
    ((run (.debounceExpiry 0) (s .arriving (some 20) true)).port 0).tlc.epoch = 1 ∧
    seat (run (.debounceExpiry 0) (s .leaving (some 20) false)) = .empty ∧
    run (.debounceExpiry 0) walked = walked := by
  decide +kernel
/-- R148, R95: a board is not seated while an unseat is on its way to the arbiter or to the gate. -/
theorem test_a_seating_waits_for_the_unseat_before_it :
    let early := onPort 0 (fun q => withArb (fun a => { a with fromLink := [.report .unseat] })
      (withGate (fun g => { g with unseats := 1 })
        (withTlc (fun t => { t with seat := .arriving, debounce := some 20, seatHigh := true }) (parkedFor 1 left q)))) walked
    let atGate := run (.unseatAtArbiter 0) early
    let atArbiter := run (.unseatAtGate 0) early
    let after := run (.debounceExpiry 0) (run (.unseatAtGate 0) atGate)
    run (.debounceExpiry 0) early = early ∧ run (.debounceExpiry 0) atGate = atGate ∧
    run (.debounceExpiry 0) atArbiter = atArbiter ∧ (after.port 0).tlc.seat = .seated ∧ (after.port 0).arb.parked[(1 : ChanId)] = none := by
  decide +kernel
theorem test_status_edges :
    let s := onPort 0 board walked
    let t := run (.statusEdge 0 2 true) s
    ((t.port 0).mu.events) = [.edge 2 .rise 1] ∧ ((run (.statusEdge 0 2 false) t).port 0).mu.events = [] ∧
    ((run (.statusEdge 0 1 true) t).port 0).mu.events.length = 2 ∧
    ((run (.statusEdge 0 2 false) (onPort 0 (fun q => { q with mu := { q.mu with
      events := [.obs obs 1, .edge 2 .rise 1, .obs obs 1] } }) t)).port 0).mu.events = [.obs obs 1, .obs obs 1] ∧
    ((run (.statusEdge 0 2 true) walked).port 0).mu.events = [] ∧
    ((run (.statusEdge 0 2 true) walked).port 0).tlc.status[2] = true ∧
    run (.statusEdge 0 2 false) walked = walked := by
  decide +kernel

def good (l : List BoardFrame) : BoardSuperframe :=
    { sync := .atExpected, checkAgrees := true, sentCount := 0, frames := l }
def bad : BoardSuperframe := { sync := .missing, checkAgrees := false, sentCount := 0, frames := [] }

theorem test_superframes :
    let s (f : LinkController → LinkController) := onPort 0 (fun q => withTlc f (board q)) walked
    let tlc (x : State) := (x.port 0).tlc
    (tlc (run (.boardSuperframe 0 (good [])) (s fun t => { t with link := .hunting, goodSync := 1 }))).goodSync = 2 ∧
    (tlc (run (.boardSuperframe 0 (good []))
        (s fun t => { t with link := .hunting, goodSync := 2 }))).link = .locked ∧
    (tlc (run (.boardSuperframe 0 bad) (s fun t => { t with link := .hunting, goodSync := 2 }))).goodSync = 0 ∧
    (tlc (run (.boardSuperframe 0 bad) (s id))).badSync = 1 ∧
    (tlc (run (.boardSuperframe 0 bad) (s fun t => { t with badSync := 2 }))).link = .hunting ∧
    (tlc (run (.boardSuperframe 0 { good [] with sentCount := 9 }) (s id))).violation = true ∧
    (tlc (run (.boardSuperframe 0 { good [] with sentCount := 8 }) (s id))).violation = false ∧
    run (.boardSuperframe 0 (good [])) walked = walked := by
  decide +kernel

def rawObs : RawObs :=
  { address := 0x1000, data := 0x1234, direction := some .write, width := 1, initiator := 15, origin := some .debug, sequence := 7 }

theorem test_frames_and_credits :
    let q := board Port.reset
    (q.takeFrame (.obs rawObs)).mu.events =
      [.obs { address := 0x1000, data := 0x34, direction := .write, width := .one, initiator := 15, origin := .debug,
              sequence := 7 } 1] ∧
    (q.takeFrame (.obs rawObs)).tlc.credits = 7 ∧
    ((withTlc (fun t => { t with credits := 0 }) q).takeFrame (.obs rawObs)).tlc.violation = true ∧
    checkedObs { rawObs with initiator := 16 } = none ∧ checkedObs { rawObs with width := 3 } = none ∧
    (checkedReply 15 (.fault 15) 0).isSome = true ∧ checkedReply 16 .ok 0 = none ∧ checkedReply 0 (.fault 16) 0 =
        none ∧
    (q.takeFrame .stopped).rc.reports = [.stopped] ∧ q.takeFrame .otherKind = q := by
  decide +kernel
theorem test_outgoing_superframe_and_credit_return :
    let s := onPort 0 (fun q => withTlc
        (fun t => { t with outgoing := [.stop, .run], creditReturns := 1, credits := 7 }) (board q)) walked
    ((run (.outgoingSuperframe 0 1) s).port 0).tlc.outgoing = [.run] ∧
    ((run (.outgoingSuperframe 0 1) s).port 0).tlc.sentFrames = [{ creditTotal := 7, frames := [.stop] }] ∧
    run (.outgoingSuperframe 0 1) walked = walked ∧
    ((run (.creditReturn 0) s).port 0).tlc.credits = 8 ∧ run (.creditReturn 0) walked = walked ∧
    (Port.reset.sendFrame .run) = Port.reset := by
  decide +kernel

/-- R115: low in DOWN and before a board is SEATED, driven in HUNTING and LOCKED. -/
theorem test_link_outputs :
    let held : LinkOutputs := { clock := .low, dataOut := .low, strobe := .low }
    let driven : LinkOutputs := { clock := .driven, dataOut := .driven, strobe := .driven }
    let arriving := withTlc (fun t => { t with seatHigh := true, seat := .arriving, debounce := some 20 }) Port.reset
    let s := onPort 0 (fun _ => arriving) walked
    arriving.tlc.outputs = held ∧ ((run (.debounceExpiry 0) s).port 0).tlc.outputs = driven ∧
    (board Port.reset).tlc.outputs = driven ∧ (board Port.reset).unseat.tlc.outputs = held := by
  decide +kernel
theorem test_seat_kept_before_seating : Port.reset.seatHolds ∧ Port.reset.tlc.seat = .empty := by
  unfold Port.seatHolds; decide

/-! ### Capture gates -/

theorem test_gate_request :
    let s (pl : List Byte) (f : Port → Port) := asked 1 kindGate pl (onPort 0 (fun q => f (board q)) walked)
    ready 1 kindGate (s [0, 0, 5, 0] id) = true ∧
    answered (.gate 1) (s [0, 0, 5, 0] (claimed 1 .shared)) = some (.done, [1, 2, 1, 0, 5, 0, 0]) ∧
    answered (.gate 1) (s [0, 0, 5, 0] id) = some (.noClaim, []) ∧
    answered (.gate 1) (s [0, 0, 5, 0] fun q => withTlc
        (fun t => { t with link := .hunting }) (claimed 1 .shared q)) =
      some (.noLink, []) ∧
    answered (.gate 1) (s [0, 1, 5, 0] (claimed 1 .shared)) = some (.done, [0, 0, 0, 0, 0, 0, 0]) ∧
    answered (.gate 1) (asked 1 kindGate [0, 1, 0, 0] (run (.gate 1) (s [0, 0, 5, 0] (claimed 1 .shared)))) =
      some (.done, [0, 2, 1, 0, 0, 0, 0]) ∧
    answered (.gate 1) (s [0, 2, 0, 0] id) = some (.bad, []) := by
  decide +kernel

theorem test_gate_actions :
    let s (f : Gate → Gate) := onPort 0 (fun q => withGate f (board q)) walked
    let open3 : GateMsg := .openGate 3 (handle 0) .lineEdge
    let gate (x : State) := (x.port 0).gate
    (gate (run (.gateOpen 0 false) (s fun g => { g with fromMatch := [open3] }))).span = 3 ∧
    (gate (run (.gateOpen 0 true) (s fun g => { g with fromCross := [open3] }))).isOpen = true ∧
    (gate (run (.gateOpen 0 false) (onPort 0
        (withGate fun g => { g with fromMatch := [open3] }) walked))).isOpen = false ∧
    (gate (run (.gateClose 0 false)
        (s fun g => { g with isOpen := true, fromMatch := [.closeGate .observation] }))).closingMark = true ∧
    (gate (run (.gateClose 0 true)
        (s fun g => { g with isOpen := true, fromCross := [.closeGate .crossEdge] }))).closingMark = false ∧
    (gate (run (.gateClose 0 false)
        (s fun g => { g with fromMatch := [.closeGate .observation] }))).closingMark = false ∧
    (gate (run (.unseatAtGate 0) (s fun g => { g with isOpen := true, unseats := 1 }))).isOpen = false := by
  decide +kernel
theorem test_gate_decision :
    let s (f : Gate → Gate) := onPort 0 (fun q => withGate
        (fun g => f { g with fromMatch := [.handOver obs 1] }) (board q)) walked
    let gate (x : State) := (x.port 0).gate
    (gate (run (.gateDecision 0 true) (s id))).sent = [] ∧
    ((run (.gateDecision 0 true) (s id)).port 0).tlc.creditReturns = 1 ∧
    (gate (run (.gateDecision 0 true) (s fun g => { g with isOpen := true }))).sent.map List.length = [18] ∧
    (gate (run (.gateDecision 0 true) (s fun g => { g with closingMark := true }))).sent.length = 1 ∧
    (gate (run (.gateDecision 0 true) (s fun g => { g with isOpen := true, span := 2 }))).span = 1 ∧
    (gate (run (.gateDecision 0 true) (s fun g => { g with isOpen := true, span := 1 }))).isOpen = false ∧
    (gate (run (.gateDecision 0 false) (s fun g => { g with isOpen := true, missed := 255 }))).missed = 255 ∧
    run (.gateDecision 0 true) (s fun g => { g with sending := true }) = s (fun g => { g with sending := true }) ∧
    (gate (run (.endOfSending 0) (s fun g => { g with sending := true }))).sending = false := by
  decide +kernel

/-! ### The bytes of a payload -/

/-- R82, R187, R189, R191: readers at the ends of their ranges. -/
theorem test_readers :
    readClaim [5, 0] = some (5, .shared) ∧ readClaim [5, 1] = some (5, .sole) ∧ readClaim [5, 2] = none ∧
    readStep [0, 1, 0] = some (0, 1) ∧ readStep [5, 255, 255] = some (5, 65535) ∧ readStep [0, 0, 0] = none ∧
    readHandlePayload [95, 255] = some { slot := 95, issue := 255 } ∧ readHandlePayload [96, 0] = none ∧
    readHandleFlag [95, 3, 1] = some ({ slot := 95, issue := 3 }, true) ∧ readHandleFlag [0, 0, 2] = none ∧
    readList [0, 7] = some (.owner 7) ∧ readList [0, 8] = none ∧ readList [1, 5] = some (.port 5) ∧
    readList [1, 6] = none ∧ readList [2, 255] = some .cross ∧ readList [3, 0] = none ∧
    readFind (observationImage 5 9 { obs with data := 0x180 } ++ [0]) =
      some { port := 5, obs := { obs with sequence := 0 }, withData := false } ∧
    readFind (observationImage 0 0 obs ++ [2]) = none := by
  decide +kernel

/-! ### Watch records -/

/-- The image of `record`, as PLACE takes it: ARMED, OPEN guard, P0, rank 0, goal 1, ONCE, SIGNAL. -/
def image : List Byte :=
  [0, 3, 0, 0, 0, 0, 0, 0, 0, 0, 1, 0, 0, 1, 0, 0, 0, 0, 0, 0, 0, 0, 0, 0, 0, 0xFF, 0xFF, 0xFF, 0xFF, 2, 7, 0, 0, 1]
/-- The same with an after-link to slot `n`. -/
def linkedImage (n : Byte) : List Byte := 2 :: image.tail ++ [n, 0]
/-- A silence record of 5 us. -/
def silentImage : List Byte := [4] ++ image.tail.take 8 ++ [1] ++ image.drop 10 ++ [5, 0, 0]
def silent : Record := { record with side := { record.side with trigger := .onSilence 5 } }

theorem test_place :
    let s (pl : List Byte) := asked 1 kindPlace pl walked
    let other := asked 1 kindPlace (linkedImage 0) (holding 0 { record with guard := .guardPrivate } walked)
    ready 1 kindPlace (s image) = true ∧
    ((run (.place 1) (s image)).table.recordAt 0) = some { record with owner := 1 } ∧
    (run (.place 1) (s image)).table.counter = 1 ∧
    (((run (.place 1) (s image)).lane 1).executing.map (·.wait)) = some (.change 0 [0, 0]) ∧
    answered (.changeBoundary (.matchUnit 0)) (run (.place 1) (s image)) = some (.done, [0, 0]) ∧
    ((run (.place 1) (asked 1 kindPlace silentImage (onPort 0 board walked))).port 0).mu.timers =
        [{ slot := 0, left := 5 }] ∧
    answered (.place 1) (s (linkedImage 95)) = some (.stale, []) ∧ answered (.place 1) other = some (.denied, []) ∧
    answered (.place 1) (s (linkedImage 96)) = some (.bad, []) ∧ answered (.place 1) (s []) = some (.bad, []) ∧
    run (.place 1) (busy (s image)) = busy (s image) ∧
    ((run (.place 1) (asked 1 kindPlace silentImage walked)).port 0).mu.timers = [] := by
  decide +kernel
/-- R2, R33: a handle resolves to the record of its slot while its issue number is the slot's; members by source and scope. -/
theorem test_handles_and_membership :
    let w := (holding 3 record walked).table
    let crossed : Record := { record with side := { record.side with cond := .cross 2 } }
    let lined : Record := { record with scope := .allBut 1, side := { record.side with cond := .line 2 .rise } }
    w.resolve (handle 3) = some record ∧ w.resolve { slot := 3, issue := 1 } = none ∧ w.resolve (handle 4) = none ∧
    w.resolve (handle 96) = none ∧ allUnits.filter record.memberOf = [.matchUnit 0] ∧
    allUnits.filter crossed.memberOf = [.crossLine] ∧
    allUnits.filter lined.memberOf = [.matchUnit 0, .matchUnit 2, .matchUnit 3, .matchUnit 4, .matchUnit 5] := by
  decide +kernel
theorem test_place_on_a_full_chain :
    let full := (List.range 40).foldl (fun s i => s.setTable (s.table.setRecord i record)) walked
    answered (.place 1) (asked 1 kindPlace image full) = some (.full, []) ∧
    answered (.place 1) (asked 1 kindPlace (image.take 7 ++ [5] ++ image.drop 8) full) = none := by
  decide +kernel

/-- AMEND of slot 0 by the mask, with the image of rank 9, goal 4. -/
def amending (mask : Half) : List Byte :=
  [0, 0] ++ halfBytes mask ++ (image.take 8 ++ [9, 0, 4] ++ image.drop 11)

theorem test_amend :
    let s (mask : Half) (f : Record → Record) := asked 1 kindAmend (amending mask) (holding 0
        (f { record with owner := 2 }) walked)
    ready 1 kindAmend (s 0 id) = true ∧
    ((run (.amend 1) (s 0x000C id)).table.recordAt 0).map (fun r => (r.side.rank, r.goal)) = some (9, 4) ∧
    (run (.amend 1) (s 0x0004 id)).notice.additions = [.revoked 2] ∧
    ((run (.amend 1)
        (s 0x0008 fun r => { r with state := .spent, hits := 1 })).table.recordAt 0).map (·.hits) = some 4 ∧
    ((run (.amend 1)
        (s 0x0008 fun r => { r with goal := 200, hits := 100 })).table.recordAt 0).map (·.hits) = some 3 ∧
    answered (.amend 1) (s 0x0008 fun r => { silent with owner := r.owner }) = some (.bad, []) ∧
    answered (.amend 1) (s 0x8000 id) = some (.bad, []) ∧
    answered (.amend 1) (s 4 fun r => { r with guard := .guardReadable }) = some (.denied, []) ∧
    answered (.amend 1) (asked 1 kindAmend (amending 4) walked) = some (.stale, []) ∧
    answered (.amend 1) (asked 1 kindAmend [] walked) = some (.bad, []) ∧
    run (.amend 1) (busy (s 0x0008 id)) = busy (s 0x0008 id) ∧
    ((run (.amend 1) (busy (s 0x0004 id))).view (.matchUnit 0)).tokens.map (·.update.isSome) = [true] ∧
    ((run (.amend 1) (s 0x0001 id)).view (.matchUnit 0)).tokens.map (·.update.isSome) = [false] ∧
    ((run (.amend 1) (s 0x000C id)).view (.matchUnit 0)).copy.map (·.side.rank) = [9] ∧
    ((run (.amend 1) (s 0x0008 id)).view (.matchUnit 0)).copy.map (·.side.rank) = [0] := by
  decide +kernel

/-- AMEND of slot 0 with every part in the image: a data match, an after-link, a quiet limit of 9, a signed COUNT tally
that saturates, to be loaded with 0xFFFFFFFE. -/
def amendingParts (mask : Half) : List Byte :=
  [0, 0] ++ halfBytes mask ++ ([15] ++ image.tail ++ [0x80, 0, 0, 0, 0xFF, 0, 0, 0] ++ [3, 0] ++ [9, 0, 0] ++
    [0, 1, 1, 0xFE, 0xFF, 0xFF, 0xFF, 0, 0, 0, 0, 0])

def tallied : Tally :=
    { mode := .sum, sign := .unsigned, limit := .wrap, accumulator := 5, contributions := 2, overflow := false }

theorem test_amend_of_the_parts :
    let s (mask : Half) (r : Record) := asked 1 kindAmend (amendingParts mask) (holding 0 r (onPort 0 board walked))
    let after (mask : Half) (r : Record) := (run (.amend 1) (s mask r)).table.recordAt 0
    let tally (mask : Half) (r : Record) := (after mask r).bind (·.tally)
    let with5 : Record := { record with tally := some tallied }
    let lined : Record := { record with side := { record.side with cond := .line 2 .fall } }
    let timers (mask : Half) (r : Record) := ((run (.amend 1) (s mask r)).port 0).mu.timers
    (after 0x0080 record).map (·.side.cond) = some (.bus anyBus (some { pattern := 0x80, mask := 0xFF })) ∧
    (after 0x0040 { record with side := { record.side with cond := .bus { anyBus with base := 4 } none } }).map
      (·.side.cond) = some (.bus anyBus none) ∧
    (after 0x0100 lined).map (·.side.cond) = some (.line 2 .rise) ∧
    (after 0x0200 silent).map (·.side.trigger) = some (.onSilence 9) ∧
    timers 0x0208 silent = [{ slot := 0, left := 9 }] ∧ timers 0x0200 silent = [{ slot := 0, left := 9 }] ∧
    ((run (.amend 1) (eventful (s 0x0200 silent))).port 0).mu.timers = [] ∧
    tally 0x1000 record = some (Tally.start .count .signed .saturate) ∧
    tally 0x0008 record = none ∧ tally 0x0008 with5 = some tallied ∧
    tally 0x0400 with5 = some { tallied with mode := .count, accumulator := 0, contributions := 0 } ∧
    tally 0x0800 with5 = some { tallied with accumulator := 0xFFFFFFFE } ∧
    tally 0x0C00 with5 = some { tallied with mode := .count, accumulator := 0xFFFFFFFE, contributions := 0 } ∧
    answered (.amend 1) (s 0x0400 record) = some (.bad, []) ∧ answered (.amend 1) (s 0x1000 with5) = some (.bad, []) := by
  decide +kernel
theorem test_suspend_and_arm :
    let s (k : Byte) (f : Record → Record) := asked 1 k [0, 0] (holding 0 (f { record with owner := 1 }) walked)
    let state (x : State) := (x.table.recordAt 0).map (·.state)
    ready 1 kindSuspend (s kindSuspend id) = true ∧ ready 1 kindArm (s kindArm id) = true ∧
    state (run (.suspend 1) (s kindSuspend id)) = some .suspended ∧
    answered (.suspend 1) (s kindSuspend fun r => { r with state := .spent }) = some (.done, []) ∧
    state (run (.arm 1) (s kindArm fun r => { r with state := .spent })) = some .armed ∧
    state (run (.arm 1) (s kindArm fun r => { r with after := some (handle 5) })) = some .waiting ∧
    answered (.arm 1) (s kindArm fun r => { r with owner := 2, guard := .guardReadable }) = some (.denied, []) ∧
    answered (.arm 1) (asked 1 kindArm [0, 0] walked) = some (.stale, []) ∧
    answered (.suspend 1) (asked 1 kindSuspend [96, 0] walked) = some (.bad, []) ∧
    run (.suspend 1) (busy (s kindSuspend id)) = busy (s kindSuspend id) ∧
    run (.arm 1) (busy (s kindArm id)) = busy (s kindArm id) := by
  decide +kernel
theorem test_quiet_timers_under_requests :
    let s (k : Byte) (pl : List Byte) (r : Record) := asked 1 k ([0, 0] ++ pl) (onPort 0 (fun q => { board q with
      mu := { (board q).mu with timers := [{ slot := 0, left := 2 }], events := [.quiet 0 true] } }) (holding 0 r walked))
    let mu (x : State) := (x.port 0).mu
    (mu (run (.suspend 1) (s kindSuspend [] silent))).timers = [] ∧
    (mu (run (.suspend 1) (s kindSuspend [] silent))).events = [.quiet 0 false] ∧
    (mu (run (.arm 1) (s kindArm [] silent))).timers = [{ slot := 0, left := 5 }] ∧
    (mu (run (.arm 1) (onPort 0 (fun q => { q with mu := { q.mu with run := .frozen } }) (s kindArm [] silent)))).timers =
      [] ∧
    (mu (run (.retire 0) (asked 0 kindRetire [0, 0, 0] (s kindRetire [] silent)))).timers = [] := by
  decide +kernel
/-- The freed slot of a record has no timer, also where a change of its quiet limit was not yet taken (R18, R21, R30). -/
theorem test_a_freed_slot_keeps_no_timer :
    let amended := run (.amend 1) (asked 1 kindAmend (amendingParts 0x0200) (holding 0 { silent with owner := 1 }
      (eventful (onPort 0 board walked))))
    let free (x : State) := x.setLane 1 { outstanding := 0, queue := [], executing := none }
    (amended.view (.matchUnit 0)).tokens.map (·.update.isSome) = [true] ∧
    ((run (.retire 0) (asked 0 kindRetire [0, 0, 0] amended)).port 0).mu.timers = [] ∧
    ((run .teardownRecords (tearing 1 .records (free amended))).port 0).mu.timers = [] ∧
    (run (.retire 0) (asked 0 kindRetire [0, 0, 0] amended)).table.slotAt 0 = { issue := 1, record := none } := by
  decide +kernel
theorem test_retire :
    let s (c : ChanId) (force : Byte) := asked c kindRetire [1, 0, force] threeRecords
    let t := run (.retire 1) (s 1 1)
    ready 1 kindRetire (s 1 1) = true ∧ answered (.retire 1) (s 1 0) = some (.inUse, []) ∧
    t.table.slotAt 1 = { issue := 1, record := none } ∧
    (t.table.recordAt 3).map (fun r => (r.state, r.after)) = some (.suspended, none) ∧
    t.notice.additions = [.revoked 2] ∧ answered (.retire 2) (s 2 1) = some (.denied, []) ∧
    answered (.retire 1) (asked 1 kindRetire [9, 0, 0] threeRecords) = some (.stale, []) ∧
    answered (.retire 1) (s 1 2) = some (.bad, []) ∧ run (.retire 1) (busy (s 1 1)) = busy (s 1 1) := by
  decide +kernel
theorem test_reports_of_records :
    let s (k : Byte) (pl : List Byte) (f : Record → Record) := asked 1 k pl (holding 0 (f record) walked)
    ready 1 kindLookup (s kindLookup [0, 0] id) = true ∧ ready 1 kindList (s kindList [1, 0] id) = true ∧
    ready 1 kindFind (s kindFind [] id) = true ∧ ready 1 kindTally (s kindTally [0, 0, 0] id) = true ∧
    answered (.lookup 1) (s kindLookup [0, 0] id) = some (.done, image) ∧
    (run (.lookup 1) (s kindLookup [0, 0] id)).bench.output.map (·.handle) = [some { slot := 0, issue := 0 }] ∧
    answered (.lookup 1) (s kindLookup [0, 0] fun r => { r with guard := .guardPrivate }) = some (.denied, []) ∧
    answered (.lookup 1) (s kindLookup [0, 1] id) = some (.stale, []) ∧
    answered (.list 1) (s kindList [0, 0] id) = some (.done, [1, 0, 0, 3]) ∧
    answered (.list 1) (s kindList [1, 0] id) = some (.done, [1, 0, 0, 3]) ∧
    answered (.list 1) (s kindList [2, 9] id) = some (.done, [0]) ∧ answered (.list 1) (s kindList [3, 0] id) = some
        (.bad, []) ∧
    answered (.find 1) (s kindFind (observationImage 0 0 obs ++ [1]) id) = some (.done, [1, 0, 0, 3]) ∧
    answered (.find 1) (s kindFind (observationImage 1 0 obs ++ [1]) id) = some (.done, [0]) ∧
    answered (.find 1) (s kindFind [] id) = some (.bad, []) := by
  decide +kernel
theorem test_tally_report :
    let s (flag : Byte) (f : Record → Record) := asked 1 kindTally [0, 0, flag] (holding 0
        (f { record with tally := some tallied }) walked)
    answered (.tally 1) (s 0 id) = some (.done, [1, 0, 0, 5, 0, 0, 0, 2, 0, 0, 0, 0, 1, 2, 0, 0, 0]) ∧
    ((run (.tally 1) (s 1 id)).table.recordAt 0).bind (·.tally) =
        some { tallied with accumulator := 0, contributions := 0 } ∧
    answered (.tally 1) (s 0 fun r => { r with tally := none }) = some (.bad, []) ∧
    answered (.tally 1) (s 1 fun r => { r with guard := .guardReadable }) = some (.denied, []) ∧
    answered (.tally 1) (s 2 id) = some (.bad, []) ∧ run (.tally 1) (busy (s 1 id)) = busy (s 1 id) ∧
    answered (.tally 1) (busy (s 0 id)) = some (.done, [1, 0, 0, 5, 0, 0, 0, 2, 0, 0, 0, 0, 1, 2, 0, 0, 0]) ∧
    answered (.tally 1) (s 0 fun r => { r with tally := some { tallied with contributions := 0 } }) =
      some (.done, [1, 0, 0, 5, 0, 0, 0, 0, 0, 0, 0, 0, 0, 0, 0, 0, 0]) ∧
    answered (.tally 1) (asked 1 kindTally [0, 0, 0] walked) = some (.stale, []) := by
  decide +kernel
theorem test_chain_order :
    let r (n : Fin 16) (k : Word) : Record := { record with side := { record.side with rank := n }, placement := k }
    let s := holding 2 (r 1 7) (holding 1 (r 1 8) (holding 0 (r 3 0) walked))
    (s.table.chain (.matchUnit 0)).map (·.slot) = [2, 1, 0] ∧ s.table.chain (.matchUnit 1) = [] := by
  decide +kernel

/-! ### Matching -/

theorem test_acceptance :
    let m : BusMatch :=
        { anyBus with base := 0x1000, mask := 0xFF, direction := .write, initiator := .allBut 3, origin := .boardOnly }
    m.accepts (some { pattern := 0x80, mask := 0xFFFFFFFF }) obs = true ∧
    m.accepts none { obs with address := 0x1100 } = false ∧ m.accepts none { obs with address := 0x10FF } = true ∧
    m.accepts none { obs with initiator := 3 } = false ∧ m.accepts none { obs with origin := .debug } = false ∧
    m.accepts none { obs with direction := .read } = false ∧
    ({ m with widths := { one := false, two := true, four := true } } : BusMatch).accepts none obs = false ∧
    m.accepts (some { pattern := 0x180, mask := 0x1FF }) { obs with data := 0x180 } = false ∧
    EdgeFilter.rise.accepts .fall = false ∧ EdgeFilter.either.accepts .fall = true := by
  decide +kernel
theorem test_tallies :
    let signed : Tally := { tallied with sign := .signed, accumulator := 0 }
    (signed.contribution (some obs)) = -128 ∧ (tallied.contribute (some obs)).accumulator = 133 ∧
    ({ tallied with accumulator := 4294967295 } : Tally).contribute (some obs) =
      { tallied with accumulator := 127, contributions := 3, overflow := true } ∧
    (({ tallied with accumulator := 4294967295, limit := .saturate } : Tally).contribute (some obs)).accumulator = 4294967295 ∧
    (({ signed with accumulator := -2147483648, limit := .saturate } : Tally).contribute (some obs)).accumulator = -2147483648 ∧
    (({ tallied with mode := .count, contributions := 4294967295 } : Tally).contribute none).contributions = 4294967295 ∧
    roundedMean 5 2 = 2 ∧ roundedMean 7 2 = 4 ∧ roundedMean (-5) 2 = -2 ∧ roundedMean (-7) 3 = -2 := by
  decide +kernel

def firing : Record :=
  { record with owner := 1, repeats := true,
                side := { record.side with actions := { signal := true, freeze := true, gateOpen := some 2, gateClose := false, crossPulse := some 3 } } }
def watching (r : Record) : State :=
  holding 0 r
      (holding 1 { record with state := .waiting, after := some (handle 0), side := { record.side with rank := 1 } } (onPort 0 board walked))

theorem test_hits_and_fires :
    let s := watching firing
    let e := firing.entry 0
    let t := (s.hit e (.obs 0 obs 1)).1
    let held2 := onPort 0 (claimed 2 .sole) s
    (s.hit e (.obs 0 obs 1)).2 = [1] ∧ (t.table.recordAt 1).map (·.state) = some .armed ∧
    (t.table.recordAt 0).map (fun r => (r.state, r.hits, r.snapshot.map (·.fireNumber))) = some (.armed, 0, some 1) ∧
    t.notice.signals = [(.matchUnit 0, handle 0, 1)] ∧ t.cross.requests = [(0, 3)] ∧
    (t.port 0).rc.fromUnits = [.freeze false 1] ∧ (t.port 0).gate.fromMatch = [.openGate 2 (handle 0) .observation] ∧
    ((held2.hit e (.obs 0 obs 1)).1.port 0).rc.fromUnits = [] ∧
    ((watching { firing with goal := 2 }).hit e (.obs 0 obs 1)).2 = [] ∧
    (((watching { firing with goal := 2 }).hit e (.obs 0 obs 1)).1.table.recordAt 0).map (·.hits) = some 1 ∧
    ((watching { firing with state := .suspended }).hit e (.obs 0 obs 1)) = (watching { firing with state := .suspended }, []) := by
  decide +kernel
/-- R28, R51, R58: the timer of an ON_SILENCE dependent that a fire arms. -/
theorem test_a_fire_starts_the_timer_of_its_dependent :
    let s := holding 0 firing (holding 1 { silent with state := .waiting, after := some (handle 0) } (onPort 0 board walked))
    let stopped := onPort 0 (fun q => { q with mu := { q.mu with run := .frozen, timers := [{ slot := 1, left := 2 }] } }) s
    let timers (x : State) := ((x.hit (firing.entry 0) (.obs 0 obs 1)).1.port 0).mu.timers
    timers s = [{ slot := 1, left := 5 }] ∧ timers stopped = [] := by
  decide +kernel
theorem test_cross_fire_reaches_every_port_of_its_scope :
    let r : Record :=
        { firing with scope := .allBut 1, side := { firing.side with cond := .cross 2, actions := { firing.side.actions with crossPulse := none } } }
    let s := holding 0 r (onPort 0 board walked)
    let t := (s.hit (r.entry 0) (.cross 2)).1
    (t.port 0).rc.fromUnits = [.freeze true 1] ∧ (t.port 1).rc.fromUnits = [] ∧ (t.port 5).gate.fromCross.length = 1 ∧
    t.cross.requests = s.cross.requests := by
  decide +kernel
theorem test_walks :
    let s (l : List MatchEvent) := onPort 0 (fun q => { q with mu := { q.mu with events := l } }) (watching firing)
    let lined := holding 0 { record with side := { record.side with cond := .line 2 .rise } }
      (onPort 0 (fun q => { q with mu := { q.mu with events := [.edge 2 .rise 1] } }) walked)
    let crossed := holding 0 { record with side := { record.side with cond := .cross 2 } }
      { walked with cross := { walked.cross with edges := [2] } }
    let t := run (.observation 0) (s [.obs obs 1])
    ((s [.obs obs 1]).port 0).matchBusy = false ∧
    (t.port 0).gate.fromMatch = [.openGate 2 (handle 0) .observation, .handOver obs 1] ∧
    (t.port 0).rc.fromUnits = [.freeze false 1, .taken] ∧ (t.table.recordAt 1).map (·.hits) = some 0 ∧
    run (.observation 0) t = t ∧ run (.lineEdge 0) t = t ∧ run (.quietExpiry 0) t = t ∧
    (run (.lineEdge 0) lined).notice.signals.length = 1 ∧ (run .crossEdge crossed).notice.signals.length = 1 ∧
    run .crossEdge walked = walked := by
  decide +kernel

/-- P0 with silence records in slot 0, its timer with `n` us left, and `l` waiting. -/
def quiet (r : Record) (n : Nat) (l : List MatchEvent) : State :=
  onPort 0 (fun q => { q with mu := { q.mu with timers := [{ slot := 0, left := n }], events := l } })
    (holding 0 r (onPort 0 board walked))

theorem test_quiet_timers :
    let mu (s : State) := (s.port 0).mu
    (mu (quiet silent 5 [])).live = true ∧ (mu (run (.quietTimerZero 0 0) (quiet silent 5 []))).events =
        [.quiet 0 true] ∧
    run (.quietTimerZero 0 0) (quiet silent 0 []) = quiet silent 0 [] ∧
    (mu (run (.quietExpiry 0) (quiet silent 0 [.quiet 0 true]))).timers = [] ∧
    (run (.quietExpiry 0) (quiet silent 0 [.quiet 0 true])).notice.signals.length = 1 ∧
    (mu (run (.quietExpiry 0)
        (quiet { silent with repeats := true } 0 [.quiet 0 true]))).timers = [{ slot := 0, left := 5 }] ∧
    (run (.quietExpiry 0) (quiet silent 0 [.quiet 0 false])).notice.signals = [] ∧
    (mu (run (.observation 0) (quiet silent 1 [.obs obs 1]))).timers = [{ slot := 0, left := 5 }] := by
  decide +kernel
theorem test_reports_at_a_match_unit :
    let s (f : MatchUnit → MatchUnit) := onPort 0 (fun q => { q with mu := f q.mu }) (quiet silent 2 [])
    let mu (x : State) := (x.port 0).mu
    (mu (run (.runStateReport 0) (s fun m => { m with runReports := [.frozen] }))).timers = [] ∧
    (mu (run (.runStateReport 0)
        (s fun m => { m with runReports := [.stepping] }))).timers = [{ slot := 0, left := 2 }] ∧
    (mu (run (.runStateReport 0)
        (s fun m => { m with timers := [], run := .frozen, runReports := [.running] }))).timers =
      [{ slot := 0, left := 5 }] ∧
    (mu (run (.linkStateReport 0) (s fun m => { m with linkReports := [.link .hunting] }))).timers = [] ∧
    (mu (run (.unseatAtMatchUnit 0) (s fun m => { m with linkReports := [.unseat] }))).link = .down := by
  decide +kernel
theorem test_change_boundary :
    let s := run (.amend 1) (asked 1 kindAmend (amending 4) (eventful (holding 0 { record with owner := 1 } walked)))
    let step1 := run .teardownRecords (tearing 1 .records (holding 0 { record with owner := 1 } walked))
    answerOf s = none ∧ answered (.changeBoundary (.matchUnit 0)) s = some (.done, []) ∧
    (s.view (.matchUnit 0)).copy.map (·.side.rank) = [0] ∧
    ((run (.changeBoundary (.matchUnit 0)) s).view (.matchUnit 0)).copy.map (·.side.rank) = [9] ∧
    run (.changeBoundary .crossLine) s = s ∧
    (run (.changeBoundary (.matchUnit 0)) step1).teardowns.current = some (1, .ports allPorts allPorts) ∧
    run (.changeBoundary (.matchUnit 0)) (busy s) = busy s ∧
    ((run (.changeBoundary (.matchUnit 0)) (run (.amend 1) (asked 1 kindAmend (amendingParts 0x0200)
      (holding 0 silent (eventful (onPort 0 board walked)))))).port 0).mu.timers = [{ slot := 0, left := 9 }] := by
  decide +kernel

/-- R18, R50: a change keeps the timers it does not name, and restarts one whose new limit the unit had still to take. -/
theorem test_other_quiet_timers_stay :
    let running (l : List Nat) (s : State) := onPort 0 (fun q => { q with mu := { q.mu with
      timers := l.map fun i => { slot := i, left := 2 } } }) s
    let amended := run (.amend 1) (asked 1 kindAmend (amendingParts 0x0200) (eventful (running [0, 7]
      (holding 0 silent (onPort 0 board walked)))))
    let timers (s : State) := (s.port 0).mu.timers
    timers amended = [{ slot := 0, left := 2 }, { slot := 7, left := 2 }] ∧
    timers (run (.place 2) (asked 2 kindPlace image amended)) = [{ slot := 7, left := 2 }, { slot := 0, left := 9 }] ∧
    timers (run (.changeBoundary (.matchUnit 0)) amended) = [{ slot := 7, left := 2 }, { slot := 0, left := 9 }] ∧
    timers (run (.place 2) (asked 2 kindPlace (image.take 7 ++ [5] ++ image.drop 8) amended)) = timers amended ∧
    timers ((running [7] (watching firing)).hit (firing.entry 0) (.obs 0 obs 1)).1 = [{ slot := 7, left := 2 }] := by
  decide +kernel
/-- R31: an idle unit takes a match side at once; one with an event waiting ends at most that one under the old copy. -/
theorem test_match_sides_between_two_events :
    let s := asked 1 kindAmend (amending 4) (holding 0 { record with owner := 1 } walked)
    let ranks (x : State) := (x.view (.matchUnit 0)).copy.map (·.side.rank)
    let left (x : State) := (x.view (.matchUnit 0)).tokens.map (·.update.isSome)
    let begun (x : State) := (x.view (.matchUnit 0)).begun
    let waits := run (.amend 1) (eventful s)
    let first := run (.observation 0) waits
    let ended := run (.gateDecision 0 false) first
    let reported := run (.runStateReport 0) (onPort 0 (fun q => { q with mu := { q.mu with runReports := [.frozen] } }) waits)
    (ranks (run (.amend 1) s), left (run (.amend 1) s)) = ([9], [false]) ∧
    (ranks waits, left waits, begun waits) = ([0], [true], true) ∧
    first.notice.signals.length = 1 ∧ begun first = false ∧
    run (.observation 0) ended = ended ∧ (ended.port 0).mu.events.length = 1 ∧
    (run (.observation 0) (run (.changeBoundary (.matchUnit 0)) ended)).port 0 ≠ ended.port 0 ∧
    left (run (.amend 1) (asked 1 kindAmend (amending 4) ended)) = [false, false] ∧
    begun (run (.amend 1) (busy (eventful s))) = false ∧
    begun reported = false ∧ run (.observation 0) reported = reported ∧
    begun (run (.statusEdge 0 2 false) (onPort 0 (fun q => { board q with
      tlc := { (board q).tlc with status := q.tlc.status.set 2 true },
      mu := { q.mu with events := [.edge 2 .rise 1, .obs obs 1] } }) waits)) = false := by
  decide +kernel
theorem test_match_sides_between_two_cross_edges :
    let s := asked 1 kindAmend (amending 4) (holding 0 { record with side := { record.side with cond := .cross 2 } }
      { walked with cross := { walked.cross with edges := [2, 2] } })
    let waits := run (.amend 1) s
    let first := run .crossEdge waits
    waits.cross.view.begun = true ∧ first.notice.signals.length = 1 ∧ run .crossEdge first = first ∧
    (run .crossEdge (run (.changeBoundary .crossLine) first)).cross.edges = [] := by
  decide +kernel

/-! ### Notices and cross lines -/

theorem test_notices :
    let o := (opened 0
        (opened 1 walked)).setChan 1 { (opened 1 walked).chan 1 with enables := { Enables.empty with fired := true } }
    let s (f : NoticeUnit → NoticeUnit) : State := { o with notice := f o.notice }
    let sixteen := (List.range 16).map handle
    ((run (.signal (.matchUnit 2))
        (s fun n => { n with signals := [(.matchUnit 2, handle 3, 1)] })).pendingOf 1).fired = [handle 3] ∧
    (run (.signal (.matchUnit 2))
        (s fun n => { n with signals := [(.matchUnit 2, handle 3, 1)] })).notice.attn = true ∧
    ((run (.signal .crossLine) ((s fun n => { n with signals := [(.crossLine, handle 20, 1)] }).setPending 1
      { Pending.empty with fired := sixteen })).pendingOf 1).more = true ∧
    (run (.signal .crossLine)
        (s fun n => { n with signals := [(.crossLine, handle 20, 5)] })).pendingOf 5 = Pending.empty ∧
    ((run (.portEvent 4 .runControl) ((s fun n => { n with events :=
      [{ port := 4, block := .runControl, kind := .frozen, chans := ChanSet.single 1 }] }).setPending 1
        { Pending.empty with portEvents := [(4, .unresponsive)] })).pendingOf 1).portEvents =
      [(4, .frozen), (4, .unresponsive)] ∧
    ((run (.portEvent 4 .runControl) (s fun n => { n with events :=
      [{ port := 4, block := .runControl, kind := .frozen, chans := ChanSet.single 1 }] })).pendingOf 1).portEvents = [(4, .frozen)] ∧
    ((run (.noticeAddition .watchTable)
        (s fun n => { n with additions := [.linkError, .revoked 1] })).pendingOf 1).revoked = true ∧
    ((run (.noticeAddition .benchPort)
        (s fun n => { n with additions := [.overrun 1] })).pendingOf 1).overrun = true ∧
    ((run (.noticeAddition .benchPort)
        (s fun n => { n with additions := [.linkError] })).pendingOf 0).linkError = true ∧
    ((run (.noticeAddition .channelTable)
        (s fun n => { n with additions := [.lapsed 6] })).pendingOf 0).lapsed.has 6 = true := by
  decide +kernel
/-- R177: the attention line by the enables of an OPEN channel and the members of its pending set. -/
theorem test_attention_follows_the_enables :
    let s (e : Enables) (q : Pending) := (((opened 1 walked).setChan 1 { (opened 1 walked).chan 1 with enables := e }).setPending
      1 q).reevaluate.notice.attn
    let none := Enables.empty
    let empty := Pending.empty
    s { none with fired := true } { empty with fired := [handle 0] } = true ∧ s { none with fired := true } { empty with more := true } = true ∧
    s { none with portEvents := true } { empty with portEvents := [(0, .seated)] } = true ∧
    s { none with revokedOverrun := true } { empty with revoked := true } = true ∧
    s { none with revokedOverrun := true } { empty with overrun := true } = true ∧
    s { none with lapsedLinkError := true } { empty with lapsed := ChanSet.single 3 } = true ∧
    s { none with lapsedLinkError := true } { empty with linkError := true } = true ∧
    s { none with fired := true } { empty with overrun := true } = false ∧ s none { empty with linkError := true } = false := by
  decide +kernel
theorem test_cross_lines :
    let s : State := { walked with cross := { walked.cross with requests := [(2, 3), (1, 0)] } }
    let t := run (.crossPulse 2) s
    let fall := run (.crossFallingEdge 3) t
    (t.crossLine 3).driving = some 1 ∧ t.cross.requests = [(1, 0)] ∧ run (.crossPulse 1) s = s ∧
    run (.crossPulse 2) { t with cross := { t.cross with requests := [(2, 3)] } } =
      { t with cross := { t.cross with requests := [] } } ∧
    run (.crossPulse 0) walked = walked ∧
    ((run (.pulseTimerExpiry 3) t).crossLine 3).driving = none ∧ fall.cross.edges = [3] ∧
    run (.crossFallingEdge 3) fall = fall ∧ (run (.crossFallingEdge 3) (run
        (.crossRisingEdge 3) fall)).cross.edges = [3] := by
  decide +kernel

/-! ### The bench reset, the description and the invariants -/

theorem test_resetbench :
    let s (c : ChanId) (pl : List Byte) := asked c kindResetbench pl (watching firing)
    let t := run (.resetbench 0) (s 0 [])
    ready 0 kindResetbench (s 0 []) = true ∧ answerOf t = some (.done, []) ∧ t.table.slotAt 0 =
        { issue := 1, record := none } ∧
    t.table.slotAt 2 = { issue := 0, record := none } ∧ (t.chan 0).isOpen = false ∧
    answered (.resetbench 1) (s 1 []) = some (.denied, []) ∧ answered (.resetbench 0) (s 0 [0]) = some (.bad,
        []) := by
  decide +kernel
theorem test_resetbench_waits_for_what_was_handed_over :
    let s := asked 0 kindResetbench [] walked
    let kept (x : State) : Bool := run (.resetbench 0) x = x
    kept (onPort 0 (withGate fun g => { g with fromMatch := [.closeGate .observation, .handOver obs 1] }) s) = true ∧
    kept (onPort 5 (withGate fun g => { g with fromCross := [.closeGate .crossEdge] }) s) = true ∧
    kept (onPort 5 (fun q => { q with rc := { q.rc with fromUnits := [.taken] } }) s) = true ∧
    kept { s with cross := { s.cross with requests := [(0, 0)] } } = true ∧
    (noticesForC1.all fun f => kept (f s)) = true := by
  decide +kernel
/-- R35, R45, R101: a RESETBENCH waits for an observation that is undecided at its gate, behind a record being sent or not;
the record that is then being sent does not hold it back. -/
theorem test_resetbench_waits_for_an_observation_at_its_gate :
    let s := asked 0 kindResetbench [] (onPort 0 (withGate fun g => { g with isOpen := true, sending := true }) (busy walked))
    let free := run (.endOfSending 0) s
    let decided := run (.gateDecision 0 true) free
    let t := run (.resetbench 0) decided
    run (.resetbench 0) s = s ∧ run (.resetbench 0) free = free ∧ (decided.port 0).gate.sending = true ∧
    answerOf t = some (.done, []) ∧ (t.port 0).gate.sending = true ∧ (t.port 0).gate.isOpen = false ∧
    (t.port 0).tlc.creditReturns = 1 := by
  decide +kernel

/-- The bytes of a list at an address of the description memory. -/
def at' (a : Nat) (l : List Byte) : List (Nat × Byte) := (List.range l.length).zip l |>.map fun x => (a + x.1, x.2)

def header (pointer : Half) : List (Nat × Byte) := at' 0 ([0x47, 0x57, 0x46, 0x44] ++ halfBytes pointer)
/-- A node at address `a`: its ID, its next pointer and its body. -/
def nodeAt (a : Nat) (id next : Half) (body : List Byte) : List (Nat × Byte) :=
  at' a (halfBytes id ++ halfBytes next ++ [byteOf body.length] ++ body ++ halfBytes (crc16 body))
def portBody : List Byte := [1, 30, 0, 1, 2, 3, 2, 1, 0x8A, 0x02, 255]
def channelBody : List Byte := [7, 2, 100, 0]

theorem test_description_walk :
    let m := header 8 ++ nodeAt 8 0x0101 34 portBody ++ nodeAt 40 0x0102 0x0103 channelBody
    let loop := header 8 ++ nodeAt 8 0x0103 8 [0x41]
    walkDescription [] .loaded = ({ nodes := [], taken := 0, skipped := 0, settings := [] }, .absent) ∧
    (walkDescription (at' 0 [1, 2, 3, 4]) .loaded).2 = .defective ∧ (walkDescription (at' 0 [0x47]) .loaded).2 =
        .loaded ∧
    (walkDescription (header 3) .loaded).2 = .partlyLoaded ∧ (walkDescription m .absent).2 = .loaded ∧
    (walkDescription m .absent).1.taken = 2 ∧ (walkDescription m .absent).1.settings.length = 2 ∧
    (walkDescription (header 8 ++ nodeAt 8 0x0104 3 []) .absent).1.skipped = 1 ∧
    (walkDescription (header 8 ++ nodeAt 8 0x0101 3 portBody.dropLast) .absent).1.skipped = 1 ∧
    (walkDescription (header 8 ++ nodeAt 8 0x0102 3 (channelBody ++ [0])) .absent).1.skipped = 1 ∧
    (walkDescription (header 8 ++ nodeAt 8 0x0103 3 []) .absent).1.skipped = 1 ∧
    (walkDescription (header 8 ++ at' 8 [1, 1, 3, 0]) .absent) =
      ({ nodes := [8], taken := 1, skipped := 1, settings := [] }, .partlyLoaded) ∧
    (let edge := walkDescription (header 0xFFFC ++ nodeAt 0xFFFC 0x0103 3 [0x41]) .absent
     edge = ({ nodes := [0xFFFC], taken := 1, skipped := 1, settings := [] }, .partlyLoaded)) ∧
    (walkDescription (header 0xFFF8 ++ nodeAt 0xFFF8 0x0103 3 [0x41]) .absent).2 = .loaded ∧
    memByte (at' 65535 [1, 2]) 65535 = some 1 ∧ memByte (at' 65535 [1, 2]) 65536 = none ∧ memByte [(4, 1)] 5 = none ∧
    (walkDescription loop .absent).1.taken = 64 ∧ (walkDescription loop .absent).2 = .partlyLoaded := by
  decide +kernel
theorem test_walk_end :
    let m := header 8 ++ nodeAt 8 0x0101 34 portBody ++ nodeAt 40 0x0102 3 channelBody
    let pins : Vector PinLevels 6 := lowPins.set 1 { seat := true, status := #v[true, false, false, true] }
    let t := run (.walkEnd m pins) State.reset
    State.reset.desc.walking = true ∧ t.desc.walking = false ∧ t.desc.status = .loaded ∧
    (t.port 1).settings.replyLimit = 650 ∧ (t.port 1).tlc.seat = .arriving ∧ (t.port 1).tlc.debounce = some 30 ∧
    (t.port 1).tlc.resetAsserted = false ∧ (t.port 1).tlc.powerOn = true ∧ (t.port 1).tlc.status = #v[true, false,
        false, true] ∧
    (t.port 0).tlc.seat = .empty ∧ (t.port 0).settings = PortSettings.reset ∧
    (t.chan 7).maxClass = 2 ∧ (t.chan 7).defaultLease = 100 ∧ run (.walkEnd m pins) t = t ∧
    t.desc.reads = [{ device := 0x50, sent := [0, 0] }, { device := 0x50, sent := [0, 8] },
      { device := 0x50, sent := [0, 40] }] ∧
    (run (.walkEnd m pins) { State.reset with cross := { State.reset.cross with edges := [2] } }).cross.edges = [] := by
  decide +kernel

/-- A part after its walk with one command at the front of its queue. -/
def stepping : State := { walked with pending := [.crossRisingEdge 0] }

/-- The premises of the four invariant statements are met together: `stepping` keeps to every invariant and its step
answers a next state. -/
theorem test_a_step_from_a_state_with_every_invariant :
    step stepping = .next (run (.crossRisingEdge 0) walked) ∧ AttentionHolds stepping ∧ PendingsHold stepping ∧
      FramesHold stepping ∧
      CreditsHold stepping ∧ ClaimsHold stepping ∧ RunControlHolds stepping ∧ SeatsHold stepping := by
  have hc : ∀ (p : PortId) (c : ChanId), (walked.port p).hasSole c = false := by decide +kernel
  have hr : ∀ p : PortId, (walked.port p).rc = RunControl.reset := by decide +kernel
  have hs : ∀ p : PortId, (walked.port p).tlc = LinkController.reset ∧ (walked.port p).gate = Gate.reset :=
      by decide +kernel
  refine ⟨rfl, ?_, ?_, ?_, ?_, ?_, ?_, ?_⟩
  · rw [attentionHolds_iff]
    show walked.notice.attn = walked.attentionCondition
    decide +kernel
  · have h : ∀ c : ChanId, walked.pendingOf c = Pending.empty := by decide +kernel
    intro c
    show (walked.pendingOf c).holdsTo c ∧ _
    rw [h]
    exact ⟨Pending.empty_holds c, fun _ => h c⟩
  · have h : ∀ c : ChanId, walked.lane c = Lane.reset := by decide +kernel
    intro c
    show (walked.lane c).outstanding = (walked.lane c).queue.length + (if (walked.lane c).executing.isSome then 1
        else 0) + 0 ∧
      (walked.lane c).outstanding ≤ Config.outstandingLimit
    rw [h]
    decide
  · have h : ∀ p : PortId, (walked.port p).creditsEverywhere = Config.creditLimit := by decide +kernel
    exact h
  · intro p c d h
    have h' : (walked.port p).hasSole c = true := h
    rw [hc] at h'
    cases h'
  · intro p
    show (walked.port p).rc.holdsTo
    rw [hr]
    exact ⟨fun _ _ => rfl, Nat.zero_le _, fun h => nomatch h⟩
  · intro p
    show (walked.port p).seatHolds ∧ (walked.desc.walking = true → (walked.port p).tlc.seat = .empty)
    unfold Port.seatHolds
    rw [(hs p).1, (hs p).2]
    decide
theorem test_a_step_from_a_state_with_every_record_and_channel_invariant :
    RecordsHold stepping ∧ TalliesHold stepping ∧ ChainsHold stepping ∧ ChannelsHold stepping ∧
        TeardownsHold stepping ∧
      OwnersHold stepping := by
  have hn : ∀ i, stepping.table.recordAt i = none := reset_recordAt
  have hd : ∀ u ∈ allUnits, stepping.table.chain u = [] := by decide +kernel
  have hk : ∀ c : ChanId, walked.chan c = Channel.reset := by decide +kernel
  refine ⟨⟨rfl, fun i r h => ?_⟩, fun i r k h => ?_, fun u => ?_, fun c => ?_, ⟨List.nodup_nil, fun c => ?_, fun c h => ?_, fun _ => rfl⟩,
    fun i r h => ?_, fun c st h => ?_⟩
  · rw [hn] at h; cases h
  · rw [hn] at h; cases h
  · rw [hd u (mem_allUnits u)]; exact Nat.zero_le _
  · show (walked.chan c).holdsTo
    rw [hk]
    exact ⟨fun _ => ⟨rfl, rfl, rfl, rfl, rfl⟩, fun h => nomatch h⟩
  · show c ∈ [] ↔ (walked.chan c).teardown.isSome = true
    rw [hk]
    simp [Channel.reset]
  · have h' : (walked.chan c).teardown.isSome = true := h
    rw [hk] at h'
    cases h'
  · rw [hn] at h; cases h
  · cases h

end Sys2Proof.Tests
end

section
/-! PROOFS. The invariants after a pin reset (O56), and the invariants of the Watch Table over one step (O59). -/

namespace Sys2Proof.Machine

open Host State

/-! ### Each part of the state after a pin reset -/

@[simp] theorem reset_port (p : PortId) : State.reset.port p = Port.reset := by revert p; decide
@[simp] theorem reset_chan (c : ChanId) : State.reset.chan c = Channel.reset := by revert c; decide
@[simp] theorem reset_lane (c : ChanId) : State.reset.lane c = Lane.reset := by revert c; decide
@[simp] theorem reset_pendingOf (c : ChanId) : State.reset.pendingOf c = Pending.empty := by revert c; decide
@[simp] theorem reset_responsesOf (c : ChanId) : State.reset.responsesOf c = 0 := rfl
@[simp] theorem reset_slots_length : State.reset.table.slots.length = Config.slotCount := List.length_replicate

/-- With every slot FREE no unit has a member (R33). -/
theorem chain_length_of_no_records {t : WatchTable} (h : ∀ i, t.recordAt i = none) (u : UnitId) :
    (t.chain u).length = 0 := by
  have hfree : ∀ i, t.entryFor u i = none := fun i => by simp [WatchTable.entryFor, h i]
  simp [WatchTable.chain_length, hfree]

/-! ### Each invariant after a pin reset -/

theorem reset_attentionHolds : AttentionHolds State.reset := by
  have hclosed : State.reset.attentionCondition = false := by
    simp [attentionCondition, attentionOf, Channel.reset]
  rw [attentionHolds_iff, hclosed]
  rfl

theorem reset_pendingsHold : PendingsHold State.reset := fun c => by
  rw [reset_pendingOf]
  exact ⟨Pending.empty_holds c, fun _ => rfl⟩

theorem reset_framesHold : FramesHold State.reset := fun c => by
  simp [Lane.reset]

theorem reset_creditsHold : CreditsHold State.reset := fun p => by
  rw [reset_port]
  rfl

theorem reset_claimsHold : ClaimsHold State.reset := fun p => by
  rw [reset_port]
  intro c d hsole
  simp [Port.hasSole, Port.reset, Arbiter.reset] at hsole

theorem reset_runControlHolds : RunControlHolds State.reset := fun p => by
  rw [reset_port]
  exact ⟨fun _ _ => rfl, by decide, by decide⟩

theorem reset_seatsHold : SeatsHold State.reset := fun p => by
  rw [reset_port]
  exact ⟨by unfold Port.seatHolds; decide, fun _ => rfl⟩

/-- The three invariants of the Watch Table, which a table without records keeps when it has its 96 slots. -/
theorem tableHolds_of_no_records {s : State} (hl : s.table.slots.length = Config.slotCount)
    (h : ∀ i, s.table.recordAt i = none) : RecordsHold s ∧ TalliesHold s ∧ ChainsHold s := by
  refine ⟨⟨hl, fun i r hr => ?_⟩, fun i r t hr => ?_, fun u => ?_⟩
  · rw [h i] at hr; cases hr
  · rw [h i] at hr; cases hr
  · rw [chain_length_of_no_records h u]; exact Nat.zero_le _

theorem reset_tableHolds : RecordsHold State.reset ∧ TalliesHold State.reset ∧ ChainsHold State.reset :=
  tableHolds_of_no_records reset_slots_length reset_recordAt

theorem reset_channelsHold : ChannelsHold State.reset := fun c => by
  rw [reset_chan]
  exact ⟨fun _ => ⟨rfl, rfl, rfl, rfl, rfl⟩, fun h => nomatch h⟩

theorem reset_teardownsHold : TeardownsHold State.reset := by
  have hempty : State.reset.teardownOrder = [] := rfl
  refine ⟨by rw [hempty]; exact List.nodup_nil, fun c => ?_, fun c h => ?_, fun _ => rfl⟩
  · simp [hempty, Channel.reset]
  · rw [reset_chan] at h; cases h

theorem reset_ownersHold : OwnersHold State.reset := by
  refine ⟨fun i r hr => ?_, fun c stage hcur => ?_⟩
  · rw [reset_recordAt] at hr; cases hr
  · cases hcur

/-! ### The Watch Table over one step -/

/-- A pin reset leaves the table of `State.reset`. -/
theorem pinReset_tableHolds (x : State) (a b : Bool) :
    RecordsHold (x.pinReset a b) ∧ TalliesHold (x.pinReset a b) ∧ ChainsHold (x.pinReset a b) :=
  tableHolds_of_no_records reset_slots_length (pinReset_recordAt x a b)

/-- What every move keeps, and a pin reset makes true, every step keeps; the command queue does not matter to it. -/
theorem step_keeps {P : State → Prop} (hq : ∀ (s : State) rest, P s → P { s with pending := rest })
    (hm : ∀ h s k t, Move h s k t → P s → P t) (hr : ∀ (x : State) a b, P (x.pinReset a b))
    {s t : State} (hstep : step s = .next t) (hs : P s) : P t := by
  obtain rfl | ⟨a, b, x, rfl⟩ | ⟨_, rest, _, _, _, moves⟩ := step_moves hstep
  · exact hs
  · exact hr x a b
  · exact moves.lift (P := fun _ => P) hm (hq s rest hs)

end Sys2Proof.Machine

open Sys2Proof.Machine Sys2Proof.Machine.State

/-- Settles O56: each block's reset value meets its invariant, and with every slot FREE so does the table. -/
theorem invariantsHoldAtReset : Obligations.InvariantsHoldAtReset := by
  obtain ⟨records, tallies, chains⟩ := reset_tableHolds
  exact ⟨reset_attentionHolds, reset_pendingsHold, reset_framesHold, reset_creditsHold, reset_claimsHold,
    reset_runControlHolds, reset_seatsHold, records, tallies, chains, reset_channelsHold, reset_teardownsHold,
    reset_ownersHold⟩

/-- Settles O59: a step idles, is a pin reset, or is a chain of moves, and each of the three invariants is kept by every
move (`Move.leaves_table` says what a move can do to the table). -/
theorem stepKeepsTheRecords : Obligations.StepKeepsTheRecords := fun _ _ hstep =>
  ⟨step_keeps (fun _ _ => id) Move.keeps_records (fun x a b => (pinReset_tableHolds x a b).1) hstep,
   step_keeps (fun _ _ => id) Move.keeps_tallies (fun x a b => (pinReset_tableHolds x a b).2.1) hstep,
   step_keeps (fun _ _ => id) Move.keeps_chains (fun x a b => (pinReset_tableHolds x a b).2.2) hstep⟩
end

section
/-! PROOFS. What the requests on watch records share: how a request that names one record begins, and what the frame it
takes leaves as it was. -/

namespace Sys2Proof.Machine

open Host State

variable {s t : State} {c : ChanId} {f : Frame}

/-! ### The state without the frame taken -/

/-- The frame taken plays no part in the quiet timers. -/
theorem State.QuietAfter.of_popFrame {own : PortId → Nat → Prop} {takes : UnitId → Prop}
    (h : (s.popFrame c).QuietAfter own takes t) : s.QuietAfter own takes t := ⟨h.kept, h.retimed⟩

@[simp] theorem State.view_popFrame (s : State) (c : ChanId) (u : UnitId) : (s.popFrame c).view u = s.view u := by
  cases u <;> rfl

/-- REVOKED moves no quiet timer. -/
theorem State.QuietAt.revoke {p : PortId} {i n : Nat} (h : t.QuietAt p i n) (o d : ChanId) :
    (t.revoke o d).QuietAt p i n := h.congr (by rw [revoke_port]) (by rw [revoke_port])

theorem State.QuietStopped.revoke {p : PortId} {i : Nat} (h : t.QuietStopped p i) (o d : ChanId) :
    (t.revoke o d).QuietStopped p i := h.congr (by rw [revoke_port]) (by rw [revoke_port])

/-! ### A request that names one record (R12) -/

/-- A request whose record is current, and which the channel may take, is its body on that record. -/
theorem onRecord_resolved {h : Handle} {r : Record} {may : Record → Bool} (hs : s.table.resolve h = some r)
    (hm : may r = true) (body : Record → State) : (s.popFrame c).onRecord c f h may body = body r :=
  resolve_body hs hm

/-- How a request that names one record begins: a payload that is not read is BAD, and one that is read names a record,
which the channel may take when `may` says so. -/
structure ActsOnRecord {α : Type} (i : Instr) (c : ChanId) (kind : Byte) (read : List Byte → Option α)
    (handle : α → Handle) (may : α → Record → Bool) : Prop where
  bad : ∀ {s f}, s.Ready c kind f → read f.payload = none → AnswersOnly i s c f .bad []
  onRecord : ∀ {s f x}, s.Ready c kind f → read f.payload = some x →
    ∃ body, exec i s = .next ((s.popFrame c).onRecord c f (handle x) (may x) body)

namespace ActsOnRecord

variable {α : Type} {i : Instr} {kind : Byte} {read : List Byte → Option α} {handle : α → Handle}
  {may : α → Record → Bool} {x : α} {r : Record}

theorem stale (a : ActsOnRecord i c kind read handle may) (hr : s.Ready c kind f) (hp : read f.payload = some x)
    (hs : s.table.resolve (handle x) = none) : AnswersOnly i s c f .stale [] := by
  obtain ⟨body, hb⟩ := a.onRecord hr hp
  exact hb.trans (next_congr (resolve_stale hs))

theorem denied (a : ActsOnRecord i c kind read handle may) (hr : s.Ready c kind f) (hp : read f.payload = some x)
    (hs : s.table.resolve (handle x) = some r) (hm : may x r = false) : AnswersOnly i s c f .denied [] := by
  obtain ⟨body, hb⟩ := a.onRecord hr hp
  exact hb.trans (next_congr (resolve_denied hs hm))

end ActsOnRecord

theorem actsOnRecord_amend (c : ChanId) :
    ActsOnRecord (.amend c) c kindAmend readAmend (·.handle) fun _ r => r.mayChange c where
  bad hr hp := next_congr (by rw [State.amend, hr.openRequest]; simp only [hp])
  onRecord hr hp := ⟨_, next_congr (by rw [State.amend, hr.openRequest]; simp only [hp]; rfl)⟩

theorem actsOnRecord_suspend (c : ChanId) :
    ActsOnRecord (.suspend c) c kindSuspend readHandlePayload id fun _ r => r.mayChange c where
  bad hr hp := next_congr (by rw [State.suspend, hr.openRequest]; simp only [hp])
  onRecord hr hp := ⟨_, next_congr (by rw [State.suspend, hr.openRequest]; simp only [hp]; rfl)⟩

theorem actsOnRecord_arm (c : ChanId) :
    ActsOnRecord (.arm c) c kindArm readHandlePayload id fun _ r => r.mayChange c where
  bad hr hp := next_congr (by rw [State.arm, hr.openRequest]; simp only [hp])
  onRecord hr hp := ⟨_, next_congr (by rw [State.arm, hr.openRequest]; simp only [hp]; rfl)⟩

theorem actsOnRecord_retire (c : ChanId) :
    ActsOnRecord (.retire c) c kindRetire readHandleFlag Prod.fst fun _ r => r.mayRetire c where
  bad hr hp := next_congr (by rw [State.retire, hr.openRequest]; simp only [hp])
  onRecord hr hp := ⟨_, next_congr (by rw [State.retire, hr.openRequest]; simp only [hp]; rfl)⟩

theorem actsOnRecord_lookup (c : ChanId) :
    ActsOnRecord (.lookup c) c kindLookup readHandlePayload id fun _ r => r.mayRead c where
  bad hr hp := next_congr (by rw [State.lookup, hr.openRequest]; simp only [hp])
  onRecord hr hp := ⟨_, next_congr (by rw [State.lookup, hr.openRequest]; simp only [hp]; rfl)⟩

theorem actsOnRecord_tally (c : ChanId) : ActsOnRecord (.tally c) c kindTally readHandleFlag Prod.fst
    fun x r => if x.2 then r.mayChange c else r.mayRead c where
  bad hr hp := next_congr (by rw [State.tally, hr.openRequest]; simp only [hp])
  onRecord hr hp := ⟨_, next_congr (by rw [State.tally, hr.openRequest]; simp only [hp]; rfl)⟩

end Sys2Proof.Machine
end

section
/-! PROOFS. SUSPEND and ARM (O39). -/

namespace Sys2Proof.Machine

open Host State

variable {s : State} {c : ChanId} {f : Frame} {h : Handle} {r : Record}

/-- The restatement of one record keeps its units' timers but for its own, which goes with its state (R50, R51). -/
theorem restate_revoke_quiet (s : State) (c : ChanId) {h : Handle} {r r' : Record}
    (hr : s.table.resolve h = some r) (hscope : r'.scope = r.scope) (hside : r'.side = r.side) :
    let t := ((s.popFrame c).restate h.slot r').revoke r.owner c
    s.QuietAfter (fun p j => j = h.slot ∧ r.scope = .one p) (fun u => r.memberOf u = true) t ∧
    ∀ p limit, r.side.trigger = .onSilence limit → r.scope = .one p → r.side.cond.isCross = false →
      (r'.state = .armed → (s.port p).mu.live = true → t.QuietAt p h.slot limit) ∧
      (r'.state ≠ .armed ∨ (s.port p).mu.live = false → t.QuietStopped p h.slot) := by
  intro t
  have hmem : ∀ u, r'.memberOf u = true ↔ r.memberOf u = true := fun u => by
    cases u <;> simp [Record.memberOf, hscope, hside]
  have hslot : h.slot < (s.popFrame c).table.slots.length :=
    WatchTable.lt_of_recordAt _ (WatchTable.recordAt_of_resolve _ hr)
  refine ⟨?_, fun p limit htr hsc hcr => ?_⟩
  · have hq := (QuietAfter.restate (s.popFrame c) h.slot r').same (.revoke _ r.owner c)
    exact (hq.mono (fun p i x => by rwa [hscope] at x) hmem).of_popFrame
  · rw [← hscope] at hsc
    rw [← hside] at htr hcr
    obtain ⟨hat, hstop⟩ := restate_quiet (s.popFrame c) h.slot r' hslot p limit htr hsc hcr
    exact ⟨fun ha hl => (hat ha hl).revoke _ _, fun x => (hstop x).revoke _ _⟩

/-- A SUSPEND that changes no state is answered at once (log 24). -/
theorem suspend_unchanged (hr : s.Ready c kindSuspend f) (hp : readHandlePayload f.payload = some h)
    (hs : s.table.resolve h = some r) (hm : r.mayChange c = true) (hst : r.state = .suspended ∨ r.state = .spent) :
    exec (.suspend c) s = .next (((s.popFrame c).revoke r.owner c).answer c f .done []) := by
  refine next_congr ?_
  rw [State.suspend, hr.openRequest]
  simp only [hp]
  rw [onRecord_resolved hs hm]
  rcases hst with hst | hst <;> simp only [hst]

/-- A SUSPEND that changes the state restates the record, once its units are between events. -/
theorem restates_suspend (hr : s.Ready c kindSuspend f) (hp : readHandlePayload f.payload = some h)
    (hs : s.table.resolve h = some r) (hm : r.mayChange c = true) (hst : r.state = .armed ∨ r.state = .waiting) :
    exec (.suspend c) s = .next (if (s.popFrame c).anyBusy r.units then s else
      (((s.popFrame c).restate h.slot { r with state := .suspended }).revoke r.owner c).wait c f
        (.change s.table.nextChange [])) := by
  refine next_congr ?_
  rw [State.suspend, hr.openRequest]
  simp only [hp]
  rw [onRecord_resolved hs hm]
  rcases hst with hst | hst <;> simp only [hst] <;> rfl

theorem restates_arm (hr : s.Ready c kindArm f) (hp : readHandlePayload f.payload = some h)
    (hs : s.table.resolve h = some r) (hm : r.mayChange c = true) :
    exec (.arm c) s = .next (if (s.popFrame c).anyBusy r.units then s else
      (((s.popFrame c).restate h.slot (armed r)).revoke r.owner c).wait c f (.change s.table.nextChange [])) := by
  refine next_congr ?_
  rw [State.arm, hr.openRequest]
  simp only [hp]
  rw [onRecord_resolved hs hm]
  rfl

/-- A command that restates a record waits for its units, and otherwise is one change of the table (R35). -/
theorem restatement_settles {i : Instr} {r' : Record} (hs : s.table.resolve h = some r)
    (hi : exec i s = .next (if (s.popFrame c).anyBusy r.units then s else
      (((s.popFrame c).restate h.slot r').revoke r.owner c).wait c f (.change s.table.nextChange [])))
    (hscope : r'.scope = r.scope) (hside : r'.side = r.side) :
    ((∃ u, r.memberOf u = true ∧ s.InEvent u) → exec i s = .next s) ∧
    ((∀ u, r.memberOf u = true → ¬ s.InEvent u) →
      ∃ t, exec i s = .next (t.wait c f (.change s.table.nextChange [])) ∧ (s.popFrame c).RecordsOnly t ∧
        s.QuietAfter (fun p j => j = h.slot ∧ r.scope = .one p) (fun u => r.memberOf u = true) t ∧
        t.table = { s.table.setRecord h.slot r' with nextChange := s.table.nextChange + 1 } ∧
        t.notice.additions = s.notice.additions ++ (if r.owner = c then [] else [.revoked r.owner]) ∧
        (∀ u, r.memberOf u = true → t.view u = (s.view u).after (t.table.chain u) s.table.nextChange) ∧
        (∀ u, r.memberOf u = false → t.view u = s.view u) ∧
        (∀ p limit, r.side.trigger = .onSilence limit → r.scope = .one p → r.side.cond.isCross = false →
          (r'.state = .armed → (s.port p).mu.live = true → t.QuietAt p h.slot limit) ∧
          (r'.state ≠ .armed ∨ (s.port p).mu.live = false → t.QuietStopped p h.slot))) := by
  rw [hi]
  refine ⟨fun hb => next_congr (if_pos (busy_units s c r hb)), fun hfree => ?_⟩
  have hmem : ∀ u, r'.memberOf u = r.memberOf u := fun u => by
    cases u <;> simp [Record.memberOf, hscope, hside]
  obtain ⟨only, table, additions, concerned, others⟩ := restate_core s c h.slot r r' hmem
  obtain ⟨after, quiet⟩ := restate_revoke_quiet s c hs hscope hside
  refine ⟨_, next_congr (if_neg ?_), only, after, table, additions, concerned, others, quiet⟩
  rw [free_units s c r hfree]
  exact Bool.false_ne_true

end Sys2Proof.Machine

open Sys2Proof Sys2Proof.Machine Sys2Proof.Machine.State

/-- Settles O39: both commands restate one record (`restatement_settles`) once the refusals of R12 are behind them. -/
theorem suspendAndArmChangeTheState : Obligations.SuspendAndArmChangeTheState := by
  refine ⟨readHandlePayload_iff, fun i kind c f s hik hr => ?_⟩
  rcases hik with ⟨rfl, rfl⟩ | ⟨rfl, rfl⟩
  case inl =>
    have begins := actsOnRecord_suspend c
    refine ⟨begins.bad hr, fun h hp => ⟨begins.stale hr hp, fun r hs => ?_⟩⟩
    simp only [show kindSuspend ≠ kindArm by decide, if_false, true_implies]
    have settles := fun hm hst => restatement_settles hs (restates_suspend hr hp hs hm hst) rfl rfl
    refine ⟨begins.denied hr hp hs, fun hm hst => ?_, fun hm hst => (settles hm hst).1, fun hm hst => (settles hm hst).2⟩
    rw [suspend_unchanged hr hp hs hm hst, revoke_eq]
    rfl
  case inr =>
    have begins := actsOnRecord_arm c
    refine ⟨begins.bad hr, fun h hp => ⟨begins.stale hr hp, fun r hs => ?_⟩⟩
    simp only [show kindArm ≠ kindSuspend by decide, if_true, false_implies]
    have settles := fun hm => restatement_settles hs (restates_arm hr hp hs hm) rfl rfl
    exact ⟨begins.denied hr hp hs, fun _ => trivial, fun hm _ => (settles hm).1, fun hm _ => (settles hm).2⟩
end

section
/-! PROOFS. LOOKUP, LIST, FIND and TALLY (O41). -/

namespace Sys2Proof.Machine

open Host State

variable {s : State} {c : ChanId} {f : Frame} {h : Handle} {r : Record}

/-! ### Rights (R10, R65, R67) -/

theorem Record.mayRead_false_iff (r : Record) (c : ChanId) :
    r.mayRead c = false ↔ c ≠ 0 ∧ c ≠ r.owner ∧ r.guard = .guardPrivate := by
  rw [← Bool.not_eq_true, r.mayRead_iff]
  tauto

/-- A TALLY is a read without the clear flag and a change with it. -/
theorem tally_may_iff (r : Record) (c : ChanId) (clear : Bool) :
    (if clear then r.mayChange c else r.mayRead c) = true ↔
      c = 0 ∨ c = r.owner ∨ r.guard = .guardOpen ∨ (clear = false ∧ r.guard = .guardReadable) := by
  cases clear with
  | true => simp [r.mayChange_iff]
  | false => cases hg : r.guard <;> simp [r.mayRead_iff, hg]

/-! ### LOOKUP (R23) -/

theorem lookup_image (hr : s.Ready c kindLookup f) (hp : readHandlePayload f.payload = some h)
    (hs : s.table.resolve h = some r) (hm : r.mayRead c = true) :
    AnswersOnly (.lookup c) s c f .done r.image (some h) := by
  refine next_congr ?_
  rw [State.lookup, hr.openRequest]
  simp only [hp]
  rw [onRecord_resolved hs hm]

/-! ### LIST and FIND (R24, R25) -/

theorem list_bad (hr : s.Ready c kindList f) (hp : readList f.payload = none) :
    AnswersOnly (.list c) s c f .bad [] :=
  next_congr (by rw [State.list, hr.openRequest]; simp only [hp])

theorem list_visible (hr : s.Ready c kindList f) {sel : Selector} (hp : readList f.payload = some sel) :
    AnswersOnly (.list c) s c f .done (listAnswer (s.table.visible c (listed s.table sel))) :=
  next_congr (by rw [State.list, hr.openRequest]; simp only [hp]; rfl)

theorem find_bad (hr : s.Ready c kindFind f) (hp : readFind f.payload = none) :
    AnswersOnly (.find c) s c f .bad [] :=
  next_congr (by rw [State.find, hr.openRequest]; simp only [hp])

theorem find_visible (hr : s.Ready c kindFind f) {q : FindRequest} (hp : readFind f.payload = some q) :
    AnswersOnly (.find c) s c f .done (listAnswer (s.table.visible c (foundSlots s.table q))) :=
  next_congr (by rw [State.find, hr.openRequest]; simp only [hp]; rfl)

/-! ### TALLY (R65, R67) -/

/-- TALLY on a record the channel may take: BAD without a tally part, the tally part without the clear flag, and with it
one change of the count side. -/
theorem tally_resolved (hr : s.Ready c kindTally f) {clear : Bool} (hp : readHandleFlag f.payload = some (h, clear))
    (hs : s.table.resolve h = some r) (hm : (if clear then r.mayChange c else r.mayRead c) = true) :
    (r.tally = none → AnswersOnly (.tally c) s c f .bad []) ∧
    ∀ k, r.tally = some k →
      (clear = false → AnswersOnly (.tally c) s c f .done k.answer) ∧
      (clear = true → exec (.tally c) s = .next (if (s.popFrame c).anyBusy r.units then s else
        (((s.popFrame c).changeTable r.units (s.table.setRecord h.slot { r with tally := some k.clear })).revoke
          r.owner c).wait c f (.change s.table.nextChange k.answer))) := by
  refine ⟨fun ht => next_congr ?_, fun k ht => ⟨fun hc => next_congr ?_, fun hc => next_congr ?_⟩⟩
  all_goals
    rw [State.tally, hr.openRequest]
    simp only [hp]
    rw [onRecord_resolved hs hm]
    simp only [ht]
  · subst hc
    rfl
  · subst hc
    rfl

/-- A TALLY with the clear flag waits for its units, and otherwise is one change of the table (R35, R67). -/
theorem tally_clears {k : Tally}
    (hi : exec (.tally c) s = .next (if (s.popFrame c).anyBusy r.units then s else
        (((s.popFrame c).changeTable r.units (s.table.setRecord h.slot { r with tally := some k.clear })).revoke
          r.owner c).wait c f (.change s.table.nextChange k.answer))) :
    ((∃ u, r.memberOf u = true ∧ s.InEvent u) → exec (.tally c) s = .next s) ∧
    ((∀ u, r.memberOf u = true → ¬ s.InEvent u) →
      ∃ t, exec (.tally c) s = .next (t.wait c f (.change s.table.nextChange k.answer)) ∧
        (s.popFrame c).RecordsOnly t ∧ s.QuietAfter (fun _ _ => False) (fun u => r.memberOf u = true) t ∧
        t.table = { s.table.setRecord h.slot { r with tally := some k.clear } with
          nextChange := s.table.nextChange + 1 } ∧
        t.notice.additions = s.notice.additions ++ (if r.owner = c then [] else [.revoked r.owner]) ∧
        (∀ u, r.memberOf u = true → t.view u = (s.view u).after (t.table.chain u) s.table.nextChange) ∧
        (∀ u, r.memberOf u = false → t.view u = s.view u)) := by
  rw [hi]
  refine ⟨fun hb => next_congr (if_pos (busy_units s c r hb)), fun hfree => ?_⟩
  obtain ⟨only, table, additions, concerned, others⟩ :=
    changeTable_core s c h.slot r { r with tally := some k.clear }
  refine ⟨_, next_congr (if_neg ?_), only, ?_, table, additions, concerned, others⟩
  · rw [free_units s c r hfree]
    exact Bool.false_ne_true
  · have quiet := QuietAfter.changeTable (s.popFrame c) r.units (units_nodup r)
      (s.table.setRecord h.slot { r with tally := some k.clear })
    exact ((quiet.same (.revoke _ r.owner c)).mono (fun _ _ => id) (mem_units r)).of_popFrame

end Sys2Proof.Machine

open Sys2Proof Sys2Proof.Machine Sys2Proof.Machine.State

/-- Settles O41: the bytes are those of the layout lemmas, and each command answers from the table's own version. -/
theorem recordsAreReported : Obligations.RecordsAreReported := by
  refine ⟨readList_iff, readFind_iff, record_image, tally_bytes, snapshot_bytes, listAnswer_bytes,
    fun c f s hr => ?_, fun c f s => ?_, fun c f s hr => ?_⟩
  case refine_1 =>
    have begins := actsOnRecord_lookup c
    refine ⟨begins.bad hr, fun h hp => ⟨begins.stale hr hp, fun r hs => ⟨fun h0 ho hg => ?_, fun hm => ?_⟩⟩⟩
    · exact begins.denied hr hp hs ((r.mayRead_false_iff c).2 ⟨h0, ho, hg⟩)
    · exact lookup_image hr hp hs ((r.mayRead_iff c).2 hm)
  case refine_2 =>
    intro given
    have visible : ∀ slots, listAnswer (s.table.visible c slots) = given slots := fun slots =>
      congrArg listAnswer (visible_eq s.table c slots)
    refine ⟨fun hr => ⟨list_bad hr, fun d hp => ?_, fun p hp => ?_, fun hp => ?_⟩, fun hr => ⟨find_bad hr, fun q hp => ?_⟩⟩
    · exact visible _ ▸ list_visible hr hp
    · exact visible _ ▸ list_visible hr hp
    · exact visible _ ▸ list_visible hr hp
    · have found : (fun r => Record.found r q) = fun r : Record => match r.side.cond with
          | .bus m d => m.accepts (if q.withData then d else none) q.obs
          | _ => false := by
        funext r
        unfold Record.found
        cases r.side.cond <;> rfl
      have hf := find_visible hr hp
      rw [visible, foundSlots, found] at hf
      exact hf
  case refine_3 =>
    have begins := actsOnRecord_tally c
    refine ⟨begins.bad hr, fun h clear hp => ⟨begins.stale hr hp, fun r hs => ?_⟩⟩
    intro may
    have resolved := fun hm : may => tally_resolved hr hp hs ((tally_may_iff r c clear).2 hm)
    refine ⟨fun hm => begins.denied hr hp hs ?_, fun hm => (resolved hm).1, fun k hm hk => ((resolved hm).2 k hk).1,
      fun k hm hk hc => (tally_clears (((resolved hm).2 k hk).2 hc)).1,
      fun k hm hk hc => (tally_clears (((resolved hm).2 k hk).2 hc)).2⟩
    exact Bool.eq_false_iff.2 fun hx => hm ((tally_may_iff r c clear).1 hx)
end

section
/-! PROOFS. The change boundary (O50). -/

namespace Sys2Proof.Machine

open Host State

variable {s t : State} {u : UnitId} {k : Token} {rest : List Token} {n : Nat}

/-! ### A change that no unit has left (R31, R166) -/

theorem endRecordsStep_other (h : ¬ ∃ c, s.teardowns.current = some (c, .changing n)) : s.endRecordsStep n = s := by
  unfold endRecordsStep
  split
  · next c m hc =>
    refine if_neg fun hmn => h ⟨c, ?_⟩
    rw [hc, hmn]
  · rfl

theorem endRecordsStep_current {c : ChanId} (h : s.teardowns.current = some (c, .changing n)) :
    s.endRecordsStep n = { s with teardowns := { s.teardowns with current := some (c, .ports allPorts allPorts) } } := by
  simp [endRecordsStep, h]

theorem answerChange_none (h : s.changeWaiter n = none) : s.answerChange n = s := by
  simp [answerChange, h]

theorem answerChange_some {c : ChanId} {pl : List Byte} (h : s.changeWaiter n = some (c, pl)) :
    s.answerChange n = s.finish c .done pl := by
  simp [answerChange, h]

theorem releaseChange_left (h : ∃ v, ∃ x ∈ (s.view v).tokens, x.change = n) : s.releaseChange n = s :=
  if_neg fun hd => (changeDone_iff s n).1 hd h

theorem releaseChange_done (h : ¬ ∃ v, ∃ x ∈ (s.view v).tokens, x.change = n) :
    s.releaseChange n = (s.answerChange n).endRecordsStep n := if_pos ((changeDone_iff s n).2 h)

/-! ### What a unit takes at its boundary (R31, R35) -/

/-- The state in which unit `u` has taken token `k` and has `rest` left, before the change is released. -/
def State.boundaryTaken (s : State) (u : UnitId) (k : Token) (rest : List Token) : State :=
  (s.takeToken u k).setView u { (s.takeToken u k).view u with tokens := rest, begun := false }

theorem changeBoundary_waits (h : s.unitBusy u = true ∨ (s.view u).tokens = []) : s.changeBoundary u = s := by
  unfold changeBoundary
  cases hb : s.unitBusy u with
  | true => rfl
  | false =>
    rw [hb] at h
    rw [h.resolve_left Bool.false_ne_true]

theorem changeBoundary_takes (hb : s.unitBusy u = false) (hk : (s.view u).tokens = k :: rest) :
    s.changeBoundary u = (s.boundaryTaken u k rest).releaseChange k.change := by
  unfold changeBoundary
  rw [hb, hk]
  rfl

theorem view_boundaryTaken (s : State) (u : UnitId) (k : Token) (rest : List Token) :
    (s.boundaryTaken u k rest).view u = { (s.takeToken u k).view u with tokens := rest, begun := false } := by
  unfold boundaryTaken
  rw [view_setView, if_pos rfl]

theorem view_boundaryTaken_ne {v : UnitId} (hv : v ≠ u) : (s.boundaryTaken u k rest).view v = s.view v := by
  unfold boundaryTaken takeToken
  rw [view_setView, if_neg (Ne.symm hv)]
  split
  · exact view_takeUpdate_ne s (Ne.symm hv) _
  · rfl

theorem boundaryTaken_recordsOnly (s : State) (u : UnitId) (k : Token) (rest : List Token) :
    s.RecordsOnly (s.boundaryTaken u k rest) := (takeToken_spec s u k rest).1

theorem boundaryTaken_quietKept (s : State) (u : UnitId) (k : Token) (rest : List Token) :
    s.QuietKept (fun p j => ∃ e, k.update = some (e, true) ∧ j = e.slot ∧ s.TimedAt p j) (s.boundaryTaken u k rest) :=
  (QuietKept.takeToken s u k).trans (.setView _ u _)

/-- Without a match side the copy stays. -/
theorem boundaryTaken_copy_same (hk : k.update = none) : ((s.boundaryTaken u k rest).view u).copy = (s.view u).copy := by
  rw [view_boundaryTaken, takeToken, hk]

/-- A match side takes its place in the copy for the entry its slot had. -/
theorem boundaryTaken_copy_put {e : CopyEntry} {quiet : Bool} (hk : k.update = some (e, quiet)) :
    ((s.boundaryTaken u k rest).view u).copy = putEntry e (s.view u).copy := by
  rw [view_boundaryTaken, takeToken, hk]
  show ((s.takeUpdate u (e, quiet)).view u).copy = _
  rw [takeUpdate_view]
  rfl

theorem mem_putEntry (e x : CopyEntry) (l : List CopyEntry) :
    x ∈ putEntry e l ↔ x = e ∨ (x ∈ l ∧ x.slot ≠ e.slot) := by
  simp [putEntry, WatchTable.mem_insertEntry]

/-- A copy in order stays in order (R34). -/
theorem putEntry_sorted (e : CopyEntry) {l : List CopyEntry} (hl : l.Pairwise fun a b => a.before b = true) :
    (putEntry e l).Pairwise fun a b => a.before b = true :=
  insertEntry_sorted e _ (hl.filter _) fun _ hx => by simpa using (List.mem_filter.1 hx).2

/-- A change of the quiet limit restarts the timer of an ARMED record at the new limit (R18, R51). -/
theorem boundaryTaken_quietSet {p : PortId} {e : CopyEntry} {r : Record} {m limit : Nat}
    (hk : k.update = some (e, true)) (hr : s.table.recordAt e.slot = some r) (ha : r.state = .armed)
    (htr : r.side.trigger = .onSilence limit) (hsc : r.scope = .one p) (he : e.side.trigger = .onSilence m) :
    s.QuietSet (s.boundaryTaken (.matchUnit p) k rest) p e.slot m := by
  have taken : s.QuietSet (s.takeToken (.matchUnit p) k) p e.slot m := by
    rw [takeToken, hk]
    exact takeUpdate_quiet s p hr ha (silencePort_iff.2 ⟨⟨limit, htr⟩, hsc⟩) he
  exact QuietKept.quietSet (named := fun _ _ => False) (.setView _ _ _) id taken

/-! ### The release of the change a unit has taken -/

/-- A change that only changed the records, once released: the response handed over, or step 1 of a teardown ended. -/
theorem releaseChange_cases (only : s.RecordsOnly t) :
    let left : Prop := ∃ v, ∃ x ∈ (t.view v).tokens, x.change = n
    let waits (c : ChanId) : Prop := ∃ e pl, (s.lane c).executing = some e ∧ e.wait = .change n pl
    let steps : Prop := ∃ c, s.teardowns.current = some (c, .changing n)
    (left → t.releaseChange n = t) ∧
    (¬ left → (∀ c, ¬ waits c) → ¬ steps → t.releaseChange n = t) ∧
    (∀ c e pl, ¬ left → (s.lane c).executing = some e → e.wait = .change n pl → (∀ d, d ≠ c → ¬ waits d) →
      ¬ steps → t.releaseChange n = t.finish c .done pl) ∧
    (∀ c, ¬ left → (∀ d, ¬ waits d) → s.teardowns.current = some (c, .changing n) →
      t.releaseChange n = { t with teardowns := { s.teardowns with current := some (c, .ports allPorts allPorts) } }) := by
  intro left waits steps
  have lanes : ∀ c, t.lane c = s.lane c := lane_of_bench only.bench
  have idle : (∀ c, ¬ waits c) → t.answerChange n = t := fun hw =>
    answerChange_none (changeWaiter_none t n fun c => by rw [lanes]; exact hw c)
  refine ⟨releaseChange_left, fun hl hw hs => ?_, fun c e pl hl he hp hw hs => ?_, fun c hl hw hs => ?_⟩
  · rw [releaseChange_done hl, idle hw, endRecordsStep_other (by rwa [only.teardowns])]
  · have waiter := changeWaiter_some t n c e pl (by rw [lanes]; exact he) hp fun d hd => by rw [lanes]; exact hw d hd
    rw [releaseChange_done hl, answerChange_some waiter,
      endRecordsStep_other (by rwa [(finish_answered t c .done pl).teardowns, only.teardowns])]
  · rw [releaseChange_done hl, idle hw, endRecordsStep_current (by rw [only.teardowns]; exact hs), only.teardowns]

end Sys2Proof.Machine

open Sys2Proof Sys2Proof.Machine Sys2Proof.Machine.State

/-- Settles O50: the unit takes its oldest token (`State.boundaryTaken`), and the change is then released. -/
theorem changeBoundaryTakesTheOldestChange : Obligations.ChangeBoundaryTakesTheOldestChange := by
  intro u s busy
  have busy_iff : s.unitBusy u = true ↔ busy := unitBusy_iff s u
  refine ⟨fun h => next_congr (changeBoundary_waits (h.imp busy_iff.2 id)), fun k rest hb hk => ?_⟩
  have free : s.unitBusy u = false := Bool.eq_false_iff.2 fun h => hb (busy_iff.1 h)
  have runs : exec (.changeBoundary u) s = .next ((s.boundaryTaken u k rest).releaseChange k.change) :=
    next_congr (changeBoundary_takes free hk)
  obtain ⟨only, table, notice⟩ := takeToken_spec s u k rest
  refine ⟨s.boundaryTaken u k rest, only, boundaryTaken_quietKept s u k rest, table, notice, ?_, ?_,
    fun v hv => view_boundaryTaken_ne hv, boundaryTaken_copy_same, fun e quiet hu => ⟨fun x => ?_, fun hl => ?_, ?_⟩, ?_⟩
  · rw [view_boundaryTaken]
  · rw [view_boundaryTaken]
  · rw [boundaryTaken_copy_put hu, mem_putEntry]
  · rw [boundaryTaken_copy_put hu]
    exact putEntry_sorted e hl
  · rintro r p m limit rfl rfl hr ha htr hsc he
    exact boundaryTaken_quietSet hu hr ha htr hsc he
  · rw [runs]
    obtain ⟨left, nobody, waiter, stepEnds⟩ := releaseChange_cases (n := k.change) only
    exact ⟨fun h => next_congr (left h), fun h1 h2 h3 => next_congr (nobody h1 h2 h3),
      fun c e pl h1 h2 h3 h4 h5 => next_congr (waiter c e pl h1 h2 h3 h4 h5),
      fun c h1 h2 h3 => next_congr (stepEnds c h1 h2 h3)⟩
end

section
/-! PROOFS. RETIRE (O40). -/

namespace Sys2Proof.Machine

open Host State

variable {s : State} {c : ChanId} {f : Frame} {h : Handle} {r : Record}

theorem Record.mayRetire_iff (r : Record) (c : ChanId) : r.mayRetire c = true ↔ c = 0 ∨ c = r.owner := by
  simp [mayRetire]

/-! ### The table after a RETIRE (R1, R21, R29) -/

/-- Neither freeing a slot nor cutting after-links moves the counters of the table. -/
theorem freeSlot_cutLinks_counters (t : WatchTable) (i : Nat) (is : List Nat) :
    ((t.freeSlot i).cutLinks is).counter = t.counter ∧ ((t.freeSlot i).cutLinks is).nextChange = t.nextChange := by
  obtain ⟨counter, nextChange, -⟩ := disposal_counters [] [i] is t
  exact ⟨counter, nextChange⟩

theorem retireAt_table (s : State) (h : Handle) (r : Record) (c : ChanId) :
    (s.retireAt h r c).table = { (s.table.freeSlot h.slot).cutLinks (s.table.dependents h) with
      nextChange := s.table.nextChange + 1 } := by
  unfold retireAt
  simp only [revokeOwners_table, revoke_table, stopQuiet_table, changeTable_table, freeSlot_cutLinks_counters]

/-- The slot retired is FREE with the issue number increased. -/
theorem retireAt_slotAt_retired (hs : s.table.resolve h = some r) (c : ChanId) :
    (s.retireAt h r c).table.slotAt h.slot = { issue := h.issue + 1, record := none } := by
  obtain ⟨x, hx, -, hissue⟩ := (s.table.resolve_iff h r).1 hs
  have hlt := WatchTable.lt_of_recordAt _ (WatchTable.recordAt_of_resolve _ hs)
  have freed : (s.table.freeSlot h.slot).slotAt h.slot = { issue := h.issue + 1, record := none } := by
    rw [WatchTable.slotAt_freeSlot, if_pos ⟨rfl, hlt⟩, WatchTable.slotAt_of_getElem? _ hx, hissue]
  rw [retireAt_table]
  show ((s.table.freeSlot h.slot).cutLinks _).slotAt h.slot = _
  rw [WatchTable.cutLinks_slotAt, WatchTable.recordAt, freed]
  split <;> rfl

/-- Every other slot stays, but that a dependent of the record loses its after-link. -/
theorem retireAt_slotAt_other {j : Nat} (hj : j ≠ h.slot) (r : Record) (c : ChanId) :
    (s.retireAt h r c).table.slotAt j = if j ∈ s.table.dependents h then
      { issue := (s.table.slotAt j).issue, record := (s.table.recordAt j).map Record.cut } else s.table.slotAt j := by
  have kept : (s.table.freeSlot h.slot).slotAt j = s.table.slotAt j := by
    rw [WatchTable.slotAt_freeSlot, if_neg fun e => hj e.1.symm]
  rw [retireAt_table]
  show ((s.table.freeSlot h.slot).cutLinks _).slotAt j = _
  rw [WatchTable.cutLinks_slotAt, WatchTable.recordAt, kept]
  rfl

theorem not_mem_dependents_of_after {j : Nat} {x : Record} (hx : s.table.recordAt j = some x) (ha : x.after ≠ some h) :
    j ∉ s.table.dependents h := fun hm => by
  obtain ⟨y, hy, hya⟩ := (mem_dependents _ _ _).1 hm
  rw [hx] at hy
  cases hy
  exact ha hya

theorem not_mem_dependents_of_free {j : Nat} (hj : s.table.recordAt j = none) : j ∉ s.table.dependents h := fun hm => by
  obtain ⟨y, hy, -⟩ := (mem_dependents _ _ _).1 hm
  rw [hj] at hy
  cases hy

/-- What stands after a RETIRE in the slot of a dependent: nothing in the slot retired itself, elsewhere the record cut
loose. -/
theorem retireAt_recordAt_dependent (hs : s.table.resolve h = some r) {j : Nat} (hj : j ∈ s.table.dependents h)
    (c : ChanId) {y : Record} : (s.retireAt h r c).table.recordAt j = some y ↔
      j ≠ h.slot ∧ ∃ x, s.table.recordAt j = some x ∧ y = x.cut := by
  by_cases e : j = h.slot
  · subst e
    simp [WatchTable.recordAt, retireAt_slotAt_retired hs c]
  · rw [WatchTable.recordAt, retireAt_slotAt_other e, if_pos hj]
    simp [e, eq_comm]

/-! ### What a RETIRE does beside the table -/

theorem retireAt_recordsOnly (s : State) (h : Handle) (r : Record) (c : ChanId) : s.RecordsOnly (s.retireAt h r c) :=
  (((changeTable_recordsOnly s _ _).trans (stopQuiet_recordsOnly _ _ _)).trans (revoke_ro _ _ _)).trans
    (revokeOwners_ro _ _ _)

/-- The units concerned: those of the record and those of its dependents. -/
theorem mem_retireUnits (hs : s.table.resolve h = some r) (u : UnitId) : u ∈ retireUnits s.table h ↔
    r.memberOf u = true ∨ ∃ j x, s.table.recordAt j = some x ∧ x.after = some h ∧ x.memberOf u = true := by
  have hr := WatchTable.recordAt_of_resolve _ hs
  unfold retireUnits
  simp only [mem_unitsOf_iff, List.mem_cons, exists_eq_or_imp, hr, Option.some.injEq, exists_eq_left', mem_dependents]
  refine or_congr_right ⟨?_, ?_⟩
  · rintro ⟨j, ⟨x, hx, ha⟩, y, hy, hu⟩
    rw [hx] at hy
    cases hy
    exact ⟨j, x, hx, ha, hu⟩
  · rintro ⟨j, x, hx, ha, hu⟩
    exact ⟨j, ⟨x, hx, ha⟩, x, hx, hu⟩

theorem retireUnits_nodup (t : WatchTable) (h : Handle) : (retireUnits t h).Nodup := unitsOf_nodup _ _

/-- The views after a RETIRE are those after its change of the table. -/
theorem view_retireAt (s : State) (h : Handle) (r : Record) (c : ChanId) (u : UnitId) : (s.retireAt h r c).view u =
    (s.changeTable (retireUnits s.table h) ((s.table.freeSlot h.slot).cutLinks (s.table.dependents h))).view u := by
  unfold retireAt
  rw [revokeOwners_view, revoke_view, view_stopQuiet]

theorem retireAt_view_concerned {u : UnitId} (hu : u ∈ retireUnits s.table h) (r : Record) (c : ChanId) :
    (s.retireAt h r c).view u =
      (s.view u).after ((s.retireAt h r c).table.chain u) s.table.nextChange := by
  rw [view_retireAt, changeTable_view_mem _ _ (retireUnits_nodup _ _) _ hu, (freeSlot_cutLinks_counters _ _ _).2,
    retireAt_table]
  rfl

theorem retireAt_view_other {u : UnitId} (hu : u ∉ retireUnits s.table h) (r : Record) (c : ChanId) :
    (s.retireAt h r c).view u = s.view u := by
  rw [view_retireAt, changeTable_view_other _ _ _ hu]

/-- The quiet timer of the record stops (R21). -/
theorem retireAt_quietStopped {n : Nat} {p : PortId} (htr : r.side.trigger = .onSilence n) (hsc : r.scope = .one p)
    (s : State) (h : Handle) (c : ChanId) : (s.retireAt h r c).QuietStopped p h.slot := by
  unfold retireAt
  exact ((stopQuiet_stopped _ h.slot (silencePort_iff.2 ⟨⟨n, htr⟩, hsc⟩)).revoke r.owner c).congr
    (by rw [revokeOwners_port]) (by rw [revokeOwners_port])

/-- REVOKED is handed over for the other owners of the record and of its dependents, and for nobody else (R11). -/
theorem retireAt_additions (hs : s.table.resolve h = some r) (c : ChanId) :
    ∃ l, (s.retireAt h r c).notice.additions = s.notice.additions ++ l ∧
      ∀ a, a ∈ l ↔ (r.owner ≠ c ∧ a = .revoked r.owner) ∨
        ∃ j x, j ≠ h.slot ∧ s.table.recordAt j = some x ∧ x.after = some h ∧ x.owner ≠ c ∧ a = .revoked x.owner := by
  have htable := fun {j : Nat} (hj : j ∈ s.table.dependents h) {y : Record} =>
    retireAt_recordAt_dependent hs hj c (y := y)
  unfold retireAt at htable ⊢
  simp only [revokeOwners_table] at htable
  obtain ⟨l, hl, hmem⟩ := revokeOwners_additions (((s.changeTable (retireUnits s.table h)
    ((s.table.freeSlot h.slot).cutLinks (s.table.dependents h))).stopQuiet h.slot r).revoke r.owner c)
    (s.table.dependents h) c
  rw [revoke_additions, stopQuiet_notice, changeTable_notice, List.append_assoc] at hl
  refine ⟨_, hl, fun a => ?_⟩
  rw [List.mem_append, hmem]
  refine or_congr (by split <;> simp [*]) ⟨?_, ?_⟩
  · rintro ⟨j, hj, y, hy, ho, rfl⟩
    obtain ⟨hne, x, hx, rfl⟩ := (htable hj).1 hy
    obtain ⟨z, hz, ha⟩ := (mem_dependents _ _ _).1 hj
    rw [hx] at hz
    cases hz
    exact ⟨j, x, hne, hx, ha, ho, rfl⟩
  · rintro ⟨j, x, hne, hx, ha, ho, rfl⟩
    have hj := (mem_dependents _ _ _).2 ⟨x, hx, ha⟩
    exact ⟨j, hj, x.cut, (htable hj).2 ⟨hne, x, hx, rfl⟩, ho, rfl⟩

/-! ### RETIRE, case by case -/

/-- RETIRE on a record the channel may retire. -/
theorem retire_resolved {force : Bool} (hr : s.Ready c kindRetire f)
    (hp : readHandleFlag f.payload = some (h, force)) (hs : s.table.resolve h = some r) (hm : r.mayRetire c = true) :
    exec (.retire c) s = .next (if !force && !(s.table.dependents h).isEmpty then (s.popFrame c).answer c f .inUse []
      else if (s.popFrame c).anyBusy (retireUnits s.table h) then s
      else ((s.popFrame c).retireAt h r c).wait c f (.change s.table.nextChange [])) := by
  refine next_congr ?_
  rw [State.retire, hr.openRequest]
  simp only [hp]
  rw [onRecord_resolved hs hm]
  rfl

/-- Without force a record with a dependent is not retired. -/
theorem retire_refused_iff (t : WatchTable) (h : Handle) (force : Bool) :
    (!force && !(t.dependents h).isEmpty) = true ↔ force = false ∧ ∃ j x, t.recordAt j = some x ∧ x.after = some h := by
  rw [Bool.and_eq_true, Bool.not_eq_true', Bool.not_eq_true', ← Bool.not_eq_true ((t.dependents h).isEmpty),
    dependents_isEmpty, not_not]

end Sys2Proof.Machine

open Sys2Proof Sys2Proof.Machine Sys2Proof.Machine.State

/-- Settles O40: what `State.retireAt` does to each slot, to the additions, to the views and to the timers, by the lemmas
above, once the checks of RETIRE are behind it. -/
theorem retireFreesTheSlot : Obligations.RetireFreesTheSlot := by
  refine ⟨readHandleFlag_iff, fun c f s hr => ?_⟩
  have begins := actsOnRecord_retire c
  refine ⟨begins.bad hr, fun h force hp => ⟨begins.stale hr hp, fun r hs => ?_⟩⟩
  intro inUse
  have resolved := fun hm => retire_resolved hr hp hs ((r.mayRetire_iff c).2 hm)
  have passes : (force = false → ¬ inUse) → ¬ (!force && !(s.table.dependents h).isEmpty) = true := fun hf hx => by
    obtain ⟨h1, h2⟩ := (retire_refused_iff _ _ _).1 hx
    exact hf h1 h2
  refine ⟨fun h0 ho => begins.denied hr hp hs ?_, fun hm hf hu => ?_, ?_⟩
  · exact Bool.eq_false_iff.2 fun hx => ((r.mayRetire_iff c).1 hx).elim h0 ho
  · exact (resolved hm).trans (next_congr (if_pos ((retire_refused_iff _ _ _).2 ⟨hf, hu⟩)))
  intro concerned
  have units : ∀ u, u ∈ retireUnits s.table h ↔ concerned u := mem_retireUnits hs
  refine ⟨fun hm hf hb => ?_, fun hm hf hb => ?_⟩
  · obtain ⟨u, hu, hbusy⟩ := hb
    have busy : (s.popFrame c).anyBusy (retireUnits s.table h) = true :=
      (anyBusy_iff _ _).2 ⟨u, (units u).2 hu, hbusy⟩
    rw [resolved hm, if_neg (passes hf), if_pos busy]
  have free : (s.popFrame c).anyBusy (retireUnits s.table h) = false :=
    (anyBusy_false _ _).2 fun u hu => hb u ((units u).1 hu)
  have runs := resolved hm
  rw [if_neg (passes hf), free, if_neg Bool.false_ne_true] at runs
  have hs' : (s.popFrame c).table.resolve h = some r := hs
  obtain ⟨l, additions, members⟩ := retireAt_additions hs' c
  have table := retireAt_table (s.popFrame c) h r c
  have counters := freeSlot_cutLinks_counters s.table h.slot (s.table.dependents h)
  refine ⟨(s.popFrame c).retireAt h r c, l, runs, retireAt_recordsOnly _ _ _ _,
    ((QuietAfter.retireAt (s.popFrame c) h r c).mono (fun _ _ => id) units).of_popFrame,
    retireAt_slotAt_retired hs' c, fun j x hj hx => ⟨fun ha => ?_, fun ha => ?_⟩, fun j hj => ?_, ?_, ?_,
    fun u hu => ?_, fun u hu => ?_, fun n p htr hsc => retireAt_quietStopped htr hsc _ h c, additions, members⟩
  · refine (retireAt_slotAt_other hj r c).trans ((if_pos ((mem_dependents _ _ _).2 ⟨x, hx, ha⟩)).trans ?_)
    rw [popFrame_table, hx]
    rfl
  · exact (retireAt_slotAt_other hj r c).trans (if_neg (not_mem_dependents_of_after hx ha))
  · have hne : j ≠ h.slot := fun e => by
      rw [e, WatchTable.recordAt_of_resolve _ hs] at hj
      cases hj
    exact (retireAt_slotAt_other hne r c).trans (if_neg (not_mem_dependents_of_free hj))
  · rw [table]
    exact counters.1
  · rw [table]
    rfl
  · rw [← view_popFrame s c u]
    exact retireAt_view_concerned (s := s.popFrame c) ((units u).2 hu) r c
  · rw [← view_popFrame s c u]
    exact retireAt_view_other (s := s.popFrame c) (fun x => hu ((units u).1 x)) r c
end

section
/-! PROOFS. PLACE (O37). -/

namespace Sys2Proof.Machine

open Host State

variable {s : State} {c : ChanId} {f : Frame} {q : PlaceRequest} {i : Nat} {r : Record}

/-! ### The checks of R13 -/

theorem afterRefusal_stale {t : WatchTable} {h : Handle} (ht : t.resolve h = none) :
    afterRefusal t c (some h) = some .stale := by
  simp only [afterRefusal, ht]

theorem afterRefusal_denied {t : WatchTable} {h : Handle} {x : Record} (ht : t.resolve h = some x)
    (hm : x.mayRead c = false) : afterRefusal t c (some h) = some .denied := by
  simp [afterRefusal, ht, hm]

/-- An after-link is taken when it names a record the channel may read. -/
theorem afterRefusal_linked {t : WatchTable} {a : Option Handle}
    (hl : ∀ h, a = some h → ∃ x, t.resolve h = some x ∧ x.mayRead c = true) : afterRefusal t c a = none := by
  cases a with
  | none => rfl
  | some h =>
    obtain ⟨x, hx, hm⟩ := hl h rfl
    simp [afterRefusal, hx, hm]

theorem placeSlot_noRoom {t : WatchTable} (h : ¬ ∀ u, r.memberOf u = true → (t.chain u).length < unitRoom u) :
    placeSlot t r = none := if_neg fun hr => h ((hasRoom_iff t r).1 hr)

theorem placeSlot_noSlot {t : WatchTable} (h : ∀ i, i < t.slots.length → t.recordAt i ≠ none) :
    placeSlot t r = none := by
  unfold placeSlot
  rw [firstFree_none t h]
  exact ite_self none

theorem placeSlot_lowest {t : WatchTable} (hroom : ∀ u, r.memberOf u = true → (t.chain u).length < unitRoom u)
    (hi : i < t.slots.length) (hfree : t.recordAt i = none) (hlow : ∀ j, j < i → t.recordAt j ≠ none) :
    placeSlot t r = some i :=
  (if_pos ((hasRoom_iff t r).2 hroom)).trans (firstFree_some t i hi hfree hlow)

/-! ### PLACE, case by case (R13, R15) -/

theorem place_bad (hr : s.Ready c kindPlace f) (hp : readPlace f.payload = none) :
    AnswersOnly (.place c) s c f .bad [] :=
  next_congr (by rw [State.place, hr.openRequest]; simp only [hp])

theorem place_refused (hr : s.Ready c kindPlace f) (hp : readPlace f.payload = some q) {st : Status}
    (ha : afterRefusal s.table c q.after = some st) : AnswersOnly (.place c) s c f st [] :=
  next_congr (by rw [State.place, hr.openRequest]; simp only [hp, popFrame_table, ha])

theorem place_full (hr : s.Ready c kindPlace f) (hp : readPlace f.payload = some q)
    (ha : afterRefusal s.table c q.after = none)
    (hi : placeSlot s.table (newRecord q c s.table.counter) = none) : AnswersOnly (.place c) s c f .full [] :=
  next_congr (by rw [State.place, hr.openRequest]; simp only [hp, popFrame_table, ha, hi])

theorem place_placed (hr : s.Ready c kindPlace f) (hp : readPlace f.payload = some q)
    (ha : afterRefusal s.table c q.after = none)
    (hi : placeSlot s.table (newRecord q c s.table.counter) = some i) :
    exec (.place c) s = .next (if (s.popFrame c).anyBusy (newRecord q c s.table.counter).units then s else
      ((s.popFrame c).placeAt i (newRecord q c s.table.counter)).wait c f
        (.change s.table.nextChange (s.table.handleAt i).bytes)) :=
  next_congr (by rw [State.place, hr.openRequest]; simp only [hp, popFrame_table, ha, hi]; rfl)

/-! ### The change a PLACE makes (R15, R51) -/

theorem placeAt_recordsOnly (s : State) (i : Nat) (r : Record) : s.RecordsOnly (s.placeAt i r) := by
  unfold placeAt
  simp only
  split
  · exact (changeTable_recordsOnly _ _ _).trans (restartQuiet_recordsOnly _ _ _)
  · exact changeTable_recordsOnly _ _ _

theorem placeAt_notice (s : State) (i : Nat) (r : Record) : (s.placeAt i r).notice = s.notice := by
  unfold placeAt
  simp only
  split
  · rw [restartQuiet_notice, changeTable_notice]
  · rw [changeTable_notice]

theorem placeAt_table (s : State) (i : Nat) (r : Record) : (s.placeAt i r).table =
    { s.table.setRecord i r with counter := s.table.counter + 1, nextChange := s.table.nextChange + 1 } := by
  unfold placeAt
  simp only
  split
  · rw [restartQuiet_table, changeTable_table]
    rfl
  · rw [changeTable_table]
    rfl

theorem placeAt_view_member {u : UnitId} (hu : r.memberOf u = true) (s : State) (i : Nat) :
    (s.placeAt i r).view u = (s.view u).after ((s.placeAt i r).table.chain u) s.table.nextChange := by
  rw [placeAt_view, changeTable_view_mem _ _ (units_nodup r) _ ((mem_units r u).2 hu), placeAt_table]
  rfl

theorem placeAt_view_other {u : UnitId} (hu : r.memberOf u = false) (s : State) (i : Nat) :
    (s.placeAt i r).view u = s.view u := by
  rw [placeAt_view, changeTable_view_other]
  rw [mem_units, hu]
  exact Bool.false_ne_true

/-- A silence record placed ARMED has its timer at the full limit, under the running condition. -/
theorem placeAt_quiet (hi : i < s.table.slots.length) {p : PortId} {limit : Nat} (ha : r.state = .armed)
    (htr : r.side.trigger = .onSilence limit) (hsc : r.scope = .one p) (hcr : r.side.cond.isCross = false) :
    ((s.port p).mu.live = true → (s.placeAt i r).QuietAt p i limit) ∧
    ((s.port p).mu.live = false → (s.placeAt i r).QuietStopped p i) := by
  have hport : r.silencePort = some p := silencePort_iff.2 ⟨⟨limit, htr⟩, hsc⟩
  have hmem := memberOf_silence hsc hcr
  have hlimit := copyLimit_changeTable s r.units (units_nodup r)
    { s.table.setRecord i r with counter := s.table.counter + 1 } ((mem_units r _).2 hmem)
    ((WatchTable.recordAt_setRecord s.table i i r).trans (if_pos ⟨rfl, hi⟩)) hmem
  rw [htr] at hlimit
  have hlive := live_of_recordsOnly (changeTable_recordsOnly s r.units
    { s.table.setRecord i r with counter := s.table.counter + 1 }) p
  unfold placeAt
  simp only [ha, if_true]
  exact ⟨fun hl => restartQuiet_at _ _ _ hport (hlive.trans hl) hlimit,
    fun hl => restartQuiet_stopped _ _ hport (hlive.trans hl)⟩

end Sys2Proof.Machine

open Sys2Proof Sys2Proof.Machine Sys2Proof.Machine.State

/-- Settles O37: the layout lemma of a PLACE image, the checks of R13 in their order, and what `State.placeAt` does. -/
theorem placeStoresTheRecord : Obligations.PlaceStoresTheRecord := by
  refine ⟨fun b i => ⟨rfl, halfAt_toNat b i, wordAt_toNat b i⟩, WatchTable.resolve_iff,
    fun w i => ⟨fun x => w.slotAt_of_getElem?, w.slotAt_beyond, rfl, rfl, fun _ => rfl⟩, Record.mayRead_iff,
    fun _ => rfl, rfl, readPlace_iff, fun c f s hr => ⟨place_bad hr, fun q hp => ?_⟩⟩
  intro r linked room
  refine ⟨fun h ha hs => ?_, fun h x ha hs hm => ?_, fun hl hroom => ?_, fun hl hfull => ?_,
    fun i hl hroom hi hfree hlow => ?_⟩
  · exact place_refused hr hp (by rw [ha, afterRefusal_stale hs])
  · exact place_refused hr hp (by rw [ha, afterRefusal_denied hs hm])
  · exact place_full hr hp (afterRefusal_linked hl) (placeSlot_noRoom hroom)
  · exact place_full hr hp (afterRefusal_linked hl) (placeSlot_noSlot hfull)
  have runs : exec (.place c) s = .next (if (s.popFrame c).anyBusy r.units then s else
      ((s.popFrame c).placeAt i r).wait c f (.change s.table.nextChange (s.table.handleAt i).bytes)) :=
    place_placed hr hp (afterRefusal_linked hl) (placeSlot_lowest hroom hi hfree hlow)
  refine ⟨fun hb => runs.trans (next_congr (if_pos (busy_units s c r hb))), fun hfree => ?_⟩
  rw [free_units s c r hfree, if_neg Bool.false_ne_true] at runs
  refine ⟨(s.popFrame c).placeAt i r, runs, placeAt_recordsOnly _ _ _, placeAt_notice _ _ _,
    (QuietAfter.placeAt (s.popFrame c) i r).of_popFrame, placeAt_table _ _ _, fun u hu => ?_, fun u hu => ?_,
    fun p limit ha htr hsc hcr => placeAt_quiet (s := s.popFrame c) hi ha htr hsc hcr⟩
  · rw [← view_popFrame s c u]
    exact placeAt_view_member hu (s.popFrame c) i
  · rw [← view_popFrame s c u]
    exact placeAt_view_other hu (s.popFrame c) i
end

section
/-! PROOFS. Step 1 of a teardown (O10). -/

namespace Sys2Proof.Machine

open Host State

variable {s t : State} {c : ChanId} {i : Nat} {r : Record}

/-! ### The words of R30 -/

/-- The record passes to C0 when its owner `c` is torn down. -/
def State.PassesOn (s : State) (c : ChanId) (r : Record) : Prop := c ≠ 0 ∧ (s.chan 0).isOpen = true ∧ r.keep = true

/-- The after-link of the record names a record of `c` that does not pass on, and so is freed. -/
def State.LosesLink (s : State) (c : ChanId) (r : Record) : Prop :=
  ∃ h j x, r.after = some h ∧ s.table.recordAt j = some x ∧ x.owner = c ∧ ¬ s.PassesOn c x ∧ s.table.handleAt j = h

theorem kept_iff (hr : s.table.recordAt i = some r) : i ∈ s.keptSlots c ↔ r.owner = c ∧ s.PassesOn c r :=
  mem_keptSlots s c hr

theorem freed_iff (hr : s.table.recordAt i = some r) : i ∈ s.freedSlots c ↔ r.owner = c ∧ ¬ s.PassesOn c r :=
  mem_freedSlots s c hr

theorem cut_iff (hr : s.table.recordAt i = some r) (hf : i ∉ s.freedSlots c) :
    i ∈ cutSlots s.table (s.freedSlots c) ↔ s.LosesLink c r := mem_cutSlots s c hr hf

theorem not_freed_of_cut (hi : i ∈ cutSlots s.table (s.freedSlots c)) : i ∉ s.freedSlots c := by
  simpa using (List.mem_filter.1 hi).2

/-! ### The slots after step 1 -/

theorem dispose_frees (hr : s.table.recordAt i = some r) (ho : r.owner = c) (hp : ¬ s.PassesOn c r) :
    (s.disposeRecords c).table.slotAt i = { issue := (s.table.slotAt i).issue + 1, record := none } := by
  rw [disposeRecords_slotAt s c hr, if_pos ((freed_iff hr).2 ⟨ho, hp⟩)]

/-- A record that is not freed stays in its slot, cut loose if its after-link names a freed one. -/
theorem dispose_stays (hr : s.table.recordAt i = some r) (hf : ¬ (r.owner = c ∧ ¬ s.PassesOn c r)) {x : Record}
    (hx : x = if i ∈ s.keptSlots c then { r with owner := 0 } else r) :
    (s.LosesLink c r → (s.disposeRecords c).table.slotAt i = { issue := (s.table.slotAt i).issue, record := some x.cut }) ∧
    (¬ s.LosesLink c r → (s.disposeRecords c).table.slotAt i = { issue := (s.table.slotAt i).issue, record := some x }) := by
  have hfreed : i ∉ s.freedSlots c := fun hi => hf ((freed_iff hr).1 hi)
  rw [disposeRecords_slotAt s c hr, if_neg hfreed, hx]
  have hcut := cut_iff hr hfreed
  exact ⟨fun hl => by simp only [hcut.2 hl, if_true], fun hl => by simp only [mt hcut.1 hl, if_false]⟩

theorem dispose_passes (hr : s.table.recordAt i = some r) (ho : r.owner = c) (hp : s.PassesOn c r) :
    let x : Record := { r with owner := 0 }
    (s.LosesLink c r → (s.disposeRecords c).table.slotAt i = { issue := (s.table.slotAt i).issue, record := some x.cut }) ∧
    (¬ s.LosesLink c r → (s.disposeRecords c).table.slotAt i = { issue := (s.table.slotAt i).issue, record := some x }) :=
  dispose_stays hr (fun h => h.2 hp) (if_pos ((kept_iff hr).2 ⟨ho, hp⟩)).symm

theorem dispose_keeps (hr : s.table.recordAt i = some r) (ho : r.owner ≠ c) :
    (s.LosesLink c r → (s.disposeRecords c).table.slotAt i = { issue := (s.table.slotAt i).issue, record := some r.cut }) ∧
    (¬ s.LosesLink c r → (s.disposeRecords c).table.slotAt i = { issue := (s.table.slotAt i).issue, record := some r }) :=
  dispose_stays hr (fun h => ho h.1) (if_neg fun hk => ho ((kept_iff hr).1 hk).1).symm

theorem disposeRecords_table (s : State) (c : ChanId) : (s.disposeRecords c).table =
    { ((s.freedSlots c).foldl WatchTable.freeSlot ((s.keptSlots c).foldl handOver s.table)).cutLinks
        (cutSlots s.table (s.freedSlots c)) with nextChange := s.table.nextChange + 1 } := by
  unfold disposeRecords
  simp only [revokeOwners_table, stopFreed_table, changeTable_table, disposal_counters]

/-! ### What step 1 does beside the table -/

/-- A slot whose record is cut loose held a record that is not freed, and holds it without its after-link. -/
theorem disposed_cut_record (hi : i ∈ cutSlots s.table (s.freedSlots c)) {x : Record}
    (hx : (s.disposeRecords c).table.recordAt i = some x) : ∃ r, s.table.recordAt i = some r ∧ s.LosesLink c r ∧
      ((r.owner ≠ c ∧ x.owner = r.owner) ∨ (r.owner = c ∧ s.PassesOn c r ∧ x.owner = 0)) := by
  have hf := not_freed_of_cut hi
  cases hr : s.table.recordAt i with
  | none =>
    rw [WatchTable.recordAt, disposeRecords_free s c hr] at hx
    rw [WatchTable.recordAt, hx] at hr
    cases hr
  | some r =>
    have hl := (cut_iff hr hf).1 hi
    refine ⟨r, rfl, hl, ?_⟩
    by_cases ho : r.owner = c
    · have hp : s.PassesOn c r := by
        by_contra hp
        exact hf ((freed_iff hr).2 ⟨ho, hp⟩)
      rw [WatchTable.recordAt, (dispose_passes hr ho hp).1 hl] at hx
      cases hx
      exact .inr ⟨ho, hp, rfl⟩
    · rw [WatchTable.recordAt, (dispose_keeps hr ho).1 hl] at hx
      cases hx
      exact .inl ⟨ho, rfl⟩

/-- REVOKED goes to the owners of the records cut loose, C0 for one just handed to it, and to nobody else (R11, log 21). -/
theorem disposeRecords_revokes (s : State) (c : ChanId) :
    ∃ l, (s.disposeRecords c).notice.additions = s.notice.additions ++ l ∧
      ∀ a, a ∈ l ↔ ∃ i r, s.table.recordAt i = some r ∧ s.LosesLink c r ∧
        ((r.owner ≠ c ∧ a = .revoked r.owner) ∨ (r.owner = c ∧ s.PassesOn c r ∧ a = .revoked 0)) := by
  obtain ⟨l, hl, hmem⟩ := disposeRecords_additions s c
  refine ⟨l, hl, fun a => ?_⟩
  rw [hmem]
  constructor
  · rintro ⟨i, hi, x, hx, -, rfl⟩
    obtain ⟨r, hr, hlose, ⟨ho, e⟩ | ⟨ho, hp, e⟩⟩ := disposed_cut_record hi hx
    · exact ⟨i, r, hr, hlose, .inl ⟨ho, by rw [e]⟩⟩
    · exact ⟨i, r, hr, hlose, .inr ⟨ho, hp, by rw [e]⟩⟩
  · rintro ⟨i, r, hr, hlose, ⟨ho, rfl⟩ | ⟨ho, hp, rfl⟩⟩
    · have hf : i ∉ s.freedSlots c := fun hi => ho ((freed_iff hr).1 hi).1
      exact ⟨i, (cut_iff hr hf).2 hlose, r.cut, congrArg Slot.record ((dispose_keeps hr ho).1 hlose), ho, rfl⟩
    · have hf : i ∉ s.freedSlots c := fun hi => ((freed_iff hr).1 hi).2 hp
      have stands := congrArg Slot.record ((dispose_passes hr ho hp).1 hlose)
      obtain ⟨hc0, -⟩ := hp
      exact ⟨i, (cut_iff hr hf).2 hlose, _, stands, hc0.symm, rfl⟩

/-- The quiet timers of the freed records stop (R21, R50). -/
theorem disposeRecords_quietStopped (hr : s.table.recordAt i = some r) (ho : r.owner = c) (hp : ¬ s.PassesOn c r)
    {n : Nat} {p : PortId} (htr : r.side.trigger = .onSilence n) (hsc : r.scope = .one p) :
    (s.disposeRecords c).QuietStopped p i := by
  unfold disposeRecords
  refine (stopFreed_stopped s.table (s.freedSlots c) _ p i (.inr ⟨(freed_iff hr).2 ⟨ho, hp⟩, r, hr, ?_⟩)).congr
    (by rw [revokeOwners_port]) (by rw [revokeOwners_port])
  exact silencePort_iff.2 ⟨⟨n, htr⟩, hsc⟩

theorem disposalUnits_nodup (s : State) (c : ChanId) : (s.disposalUnits c).Nodup := unitsOf_nodup _ _

theorem disposeRecords_view_concerned {u : UnitId} (hu : u ∈ s.disposalUnits c) :
    (s.disposeRecords c).view u = (s.view u).after ((s.disposeRecords c).table.chain u) s.table.nextChange := by
  rw [disposeRecords_view, changeTable_view_mem _ _ (disposalUnits_nodup s c) _ hu, disposeRecords_table]
  simp only [disposal_counters]
  rfl

theorem disposeRecords_view_other {u : UnitId} (hu : u ∉ s.disposalUnits c) :
    (s.disposeRecords c).view u = s.view u := by
  rw [disposeRecords_view, changeTable_view_other _ _ _ hu]

/-! ### TEARDOWN_RECORDS -/

theorem State.RecordsOnly.withTeardowns (h : s.RecordsOnly t) (x : Teardowns) :
    ({ s with teardowns := x } : State).RecordsOnly { t with teardowns := x } :=
  ⟨h.pending, h.bench, h.chans, rfl, h.desc, h.fresh, h.notice, h.cross, h.ports, h.events⟩

theorem State.view_withTeardowns (s : State) (x : Teardowns) (u : UnitId) :
    ({ s with teardowns := x } : State).view u = s.view u := by
  cases u <;> rfl

theorem ownedSlots_isEmpty_iff (w : WatchTable) (c : ChanId) :
    (ownedSlots w c).isEmpty = true ↔ ∀ i r, w.recordAt i = some r → r.owner ≠ c := by
  rw [List.isEmpty_iff, List.eq_nil_iff_forall_not_mem]
  refine ⟨fun h i r hr ho => h i (mem_ownedSlots hr ho), fun h i hi => ?_⟩
  obtain ⟨-, howned⟩ := List.mem_filter.1 hi
  cases hr : w.recordAt i with
  | none => simp [hr] at howned
  | some r => exact h i r hr (by simpa [hr] using howned)

theorem teardownRecords_empty (hc : s.teardowns.current = some (c, .records))
    (h : ∀ i r, s.table.recordAt i = some r → r.owner ≠ c) : s.teardownRecords =
      { s with teardowns := { s.teardowns with current := some (c, .ports allPorts allPorts) } } := by
  unfold teardownRecords
  simp only [hc]
  exact if_pos ((ownedSlots_isEmpty_iff _ _).2 h)

theorem teardownRecords_owned (hc : s.teardowns.current = some (c, .records))
    (h : ∃ i r, s.table.recordAt i = some r ∧ r.owner = c) :
    s.teardownRecords = if s.anyBusy (s.disposalUnits c) then s else
      { s.disposeRecords c with
        teardowns := { s.teardowns with current := some (c, .changing s.table.nextChange) } } := by
  unfold teardownRecords
  simp only [hc]
  obtain ⟨i, r, hr, ho⟩ := h
  exact if_neg fun hx => (ownedSlots_isEmpty_iff _ _).1 hx i r hr ho

end Sys2Proof.Machine

open Sys2Proof Sys2Proof.Machine Sys2Proof.Machine.State

/-- Settles O10: what `State.disposeRecords` leaves in each slot, hands over and does to the views and the timers. -/
theorem recordsStepOfATeardown : Obligations.RecordsStepOfATeardown := by
  intro c s hc
  refine ⟨fun h => next_congr (teardownRecords_empty hc h), ?_⟩
  intro passes loses cut concerned
  have units : ∀ u, u ∈ s.disposalUnits c ↔ concerned u := mem_disposalUnits s c
  refine ⟨fun ho hb => ?_, fun ho hb => ?_⟩
  · obtain ⟨u, hu, hbusy⟩ := hb
    exact next_congr ((teardownRecords_owned hc ho).trans (if_pos ((anyBusy_iff _ _).2 ⟨u, (units u).2 hu, hbusy⟩)))
  have runs := teardownRecords_owned hc ho
  rw [(anyBusy_false _ _).2 fun u hu => hb u ((units u).1 hu), if_neg Bool.false_ne_true] at runs
  obtain ⟨l, additions, members⟩ := disposeRecords_revokes s c
  obtain ⟨counter, -, slots⟩ := disposal_counters (s.keptSlots c) (s.freedSlots c) (cutSlots s.table (s.freedSlots c)) s.table
  have table := disposeRecords_table s c
  have after := (QuietAfter.disposeRecords s c).mono (own' := fun p i => ∃ r, s.table.recordAt i = some r ∧
    r.owner = c ∧ ¬ passes r ∧ r.scope = .one p) (fun p i ⟨hf, r, hr, hsc⟩ =>
      ⟨r, hr, ((freed_iff hr).1 hf).1, ((freed_iff hr).1 hf).2, hsc⟩) units
  refine ⟨_, l, next_congr runs, (disposeRecords_recordsOnly s c).withTeardowns _, ⟨after.kept, after.retimed⟩,
    additions, members, ?_, ?_, ?_, fun i hr => disposeRecords_free s c hr, fun i r hr => ?_, fun u hu => ?_,
    fun u hu => ?_⟩
  · exact (congrArg WatchTable.counter table).trans counter
  · exact congrArg WatchTable.nextChange table
  · exact (congrArg (·.slots.length) table).trans slots
  · exact ⟨fun ho hp => ⟨dispose_frees hr ho hp, fun n p htr hsc => disposeRecords_quietStopped hr ho hp htr hsc⟩,
      fun ho hp => (dispose_passes hr ho hp).2, fun ho hp => (dispose_passes hr ho hp).1,
      fun ho => (dispose_keeps hr ho).2, fun ho => (dispose_keeps hr ho).1⟩
  · exact (view_withTeardowns _ _ _).trans (disposeRecords_view_concerned ((units u).2 hu))
  · exact (view_withTeardowns _ _ _).trans (disposeRecords_view_other fun x => hu ((units u).1 x))
end

section
/-! PROOFS. AMEND (O38). -/

namespace Sys2Proof.Machine

open Host State

variable {s : State} {c : ChanId} {f : Frame} {i : Nat} {r : Record} {a : AmendRequest} {u : UnitId} {p : PortId}

/-! ### The fields an AMEND names (R35) -/

theorem namesCount_iff (a : AmendRequest) : a.namesCount = true ↔
    a.goal ≠ none ∨ a.repeats ≠ none ∨ a.mode ≠ none ∨ a.load ≠ none ∨ a.newTally ≠ none := by
  simp only [AmendRequest.namesCount, Bool.or_eq_true, Option.isSome_iff_ne_none, or_assoc]

theorem namesMatch_iff (a : AmendRequest) : a.namesMatch = true ↔
    a.rank ≠ none ∨ a.bus ≠ none ∨ a.data ≠ none ∨ a.edge ≠ none ∨ a.actions ≠ none ∨ a.quiet ≠ none := by
  simp only [AmendRequest.namesMatch, Bool.or_eq_true, Option.isSome_iff_ne_none, or_assoc]

theorem amendUpdate_match (hm : a.namesMatch = true) (i : Nat) (r : Record) :
    amendUpdate i r a = some (r.entry i, a.quiet.isSome) := if_pos hm

theorem amendUpdate_report (hm : ¬ a.namesMatch = true) (i : Nat) (r : Record) : amendUpdate i r a = none := if_neg hm

/-! ### The record after the change (R16 to R18, R68 to R70) -/

theorem amended_cond_bus {m : BusMatch} {d : Option DataMatch} (h : r.side.cond = .bus m d) :
    (amended r a).side.cond = .bus (a.bus.getD m) (a.data.getD d) := by
  simp only [amended, amendSide, h]

theorem amended_cond_line {l : LineId} {e : EdgeFilter} (h : r.side.cond = .line l e) :
    (amended r a).side.cond = .line l (a.edge.getD e) := by
  simp only [amended, amendSide, h]

theorem amended_cond_cross {x : CrossId} (h : r.side.cond = .cross x) : (amended r a).side.cond = .cross x := by
  simp only [amended, amendSide, h]

theorem amended_onSilence {n : Nat} (h : r.side.trigger = .onSilence n) :
    (amended r a).side.trigger = .onSilence (a.quiet.getD n) := by
  simp only [amended, amendSide, h]

theorem amended_onHit (h : r.side.trigger = .onHit) : (amended r a).side.trigger = .onHit := by
  simp only [amended, amendSide, h]

theorem amended_hits_unnamed (h : a.goal = none) : (amended r a).hits = r.hits := by
  simp only [amended, h]

theorem amended_hits_goal {g : Nat} (h : a.goal = some g) : (amended r a).hits = amendHits r g := by
  simp only [amended, h]

/-- A new goal leaves a SPENT record complete, a WAITING one as it is, and any other short of the goal (R17). -/
theorem amendHits_cases (r : Record) (g : Nat) :
    (r.state = .spent → amendHits r g = g) ∧ (r.state = .waiting → amendHits r g = r.hits) ∧
    (r.state = .armed ∨ r.state = .suspended → amendHits r g = if r.hits < g then r.hits else g - 1) := by
  refine ⟨fun h => ?_, fun h => ?_, fun h => ?_⟩
  · simp only [amendHits, h]
  · simp only [amendHits, h]
  · rcases h with h | h <;> simp only [amendHits, h]

theorem amended_tally_new {k : TallyMode × TallySign × TallyLimit} (h : a.newTally = some k) :
    (amended r a).tally = some (Tally.start k.1 k.2.1 k.2.2) := by
  simp only [amended, h]

theorem amended_tally_none (h : a.newTally = none) (ht : r.tally = none) : (amended r a).tally = none := by
  simp only [amended, h, ht, Option.map_none]

theorem amended_tally_some {t : Tally} (h : a.newTally = none) (ht : r.tally = some t) :
    (amended r a).tally = some (amendTally t a) := by
  simp only [amended, h, ht, Option.map_some]

theorem amendTally_unnamed (t : Tally) (hm : a.mode = none) (hl : a.load = none) : amendTally t a = t := by
  simp only [amendTally, hm, hl]

/-- A mode clears the tally (R69). -/
theorem amendTally_mode (t : Tally) {m : TallyMode} (hm : a.mode = some m) (hl : a.load = none) :
    amendTally t a = { t with mode := m, accumulator := 0, contributions := 0, overflow := false } := by
  simp only [amendTally, hm, hl, Tally.clear]

/-- A load sets the value of the tally (R68). -/
theorem amendTally_load (t : Tally) {w : Word} (hm : a.mode = none) (hl : a.load = some w) :
    amendTally t a = { t with accumulator := t.sign.read w, overflow := false } := by
  simp only [amendTally, hm, hl]

/-- The mode comes first and the load after it (R69). -/
theorem amendTally_mode_load (t : Tally) {m : TallyMode} {w : Word} (hm : a.mode = some m) (hl : a.load = some w) :
    amendTally t a = { t with mode := m, accumulator := t.sign.read w, contributions := 0, overflow := false } := by
  simp only [amendTally, hm, hl, Tally.clear]

/-! ### The change an AMEND makes -/

theorem amendAt_count (hc : a.namesCount = true) (s : State) (i : Nat) (r : Record) :
    s.amendAt i r a = (((r.units.foldl bringUpToDate s).setTable (s.table.setRecord i (amended r a))).takeAtOnce r.units
      (amendUpdate i (amended r a) a)).announce r.units none := by
  simp only [amendAt, hc, if_true, bring_table]

theorem amendAt_sides (hc : ¬ a.namesCount = true) (s : State) (i : Nat) (r : Record) :
    s.amendAt i r a =
      (s.setTable (s.table.setRecord i (amended r a))).announce r.units (amendUpdate i (amended r a) a) := by
  simp only [amendAt, hc, Bool.false_eq_true, if_false]

theorem amendAt_recordsOnly (s : State) (i : Nat) (r : Record) (a : AmendRequest) :
    s.RecordsOnly (s.amendAt i r a) := by
  by_cases hc : a.namesCount = true
  · rw [amendAt_count hc]
    exact (((RecordsOnly.foldl _ bringUpToDate_recordsOnly r.units s).trans (setTable_recordsOnly _ _)).trans
      (takeAtOnce_recordsOnly _ _ _)).trans (announce_recordsOnly _ _ _)
  · rw [amendAt_sides hc]
    exact (setTable_recordsOnly _ _).trans (announce_recordsOnly _ _ _)

theorem amendAt_notice (s : State) (i : Nat) (r : Record) (a : AmendRequest) : (s.amendAt i r a).notice = s.notice := by
  by_cases hc : a.namesCount = true
  · rw [amendAt_count hc, announce_notice, takeAtOnce_notice]
    exact foldl_notice _ bringUpToDate_notice _ _
  · rw [amendAt_sides hc, announce_notice]
    rfl

theorem amendAt_table (s : State) (i : Nat) (r : Record) (a : AmendRequest) : (s.amendAt i r a).table =
    { s.table.setRecord i (amended r a) with nextChange := s.table.nextChange + 1 } := by
  by_cases hc : a.namesCount = true
  · rw [amendAt_count hc, announce_table, takeAtOnce_table]
    rfl
  · rw [amendAt_sides hc, announce_table]
    rfl

/-! ### The views of the units after it (R31, R35) -/

theorem amendAt_view_other (hu : r.memberOf u = false) (s : State) (i : Nat) (a : AmendRequest) :
    (s.amendAt i r a).view u = s.view u := by
  have hm : u ∉ r.units := by simp [mem_units, hu]
  by_cases hc : a.namesCount = true
  · rw [amendAt_count hc, announce_view_other _ _ _ hm, takeAtOnce_view_other _ _ _ hm, setTable_view,
      bring_view_other _ _ hm]
  · rw [amendAt_sides hc, announce_view_other _ _ _ hm, setTable_view]

theorem amendAt_view_count_match (hu : r.memberOf u = true) (hc : a.namesCount = true) (hm : a.namesMatch = true)
    (s : State) (i : Nat) : (s.amendAt i r a).view u =
      (s.view u).after (putEntry ((amended r a).entry i) (s.view u).upToDate) s.table.nextChange := by
  have hn := units_nodup r
  have hu := (mem_units r u).2 hu
  rw [amendAt_count hc, announce_none_view _ _ hn hu, amendUpdate_match hm, takeAtOnce_view_mem _ _ hn _ hu,
    takeAtOnce_table, setTable_view, bring_view_mem _ hn _ hu]
  rfl

theorem amendAt_view_count (hu : r.memberOf u = true) (hc : a.namesCount = true) (hm : ¬ a.namesMatch = true)
    (s : State) (i : Nat) :
    (s.amendAt i r a).view u = (s.view u).after (s.view u).upToDate s.table.nextChange := by
  have hn := units_nodup r
  have hu := (mem_units r u).2 hu
  rw [amendAt_count hc, announce_none_view _ _ hn hu, amendUpdate_report hm]
  simp only [takeAtOnce, setTable_view]
  rw [bring_view_mem _ hn _ hu]
  rfl

theorem amendAt_view_report (hu : r.memberOf u = true) (hc : ¬ a.namesCount = true) (hm : ¬ a.namesMatch = true)
    (s : State) (i : Nat) : (s.amendAt i r a).view u = { s.view u with
      tokens := (s.view u).tokens ++ [{ change := s.table.nextChange, update := none }] } := by
  rw [amendAt_sides hc, amendUpdate_report hm, announce_none_view _ _ (units_nodup r) ((mem_units r u).2 hu),
    setTable_view]
  rfl

theorem unitIdle_setTable (s : State) (w : WatchTable) (u : UnitId) : (s.setTable w).unitIdle u = s.unitIdle u := by
  cases u <;> rfl

theorem unitBusy_setTable (s : State) (w : WatchTable) (u : UnitId) : (s.setTable w).unitBusy u = s.unitBusy u := by
  cases u <;> rfl

/-- With fields of the match side alone an idle unit has the new match side at once. -/
theorem amendAt_view_idle (hu : r.memberOf u = true) (hc : ¬ a.namesCount = true) (hm : a.namesMatch = true)
    (hi : s.Idle u) (i : Nat) : (s.amendAt i r a).view u =
      (s.view u).after (putEntry ((amended r a).entry i) (s.view u).upToDate) s.table.nextChange := by
  have views := (announce_some_view (s.setTable (s.table.setRecord i (amended r a))) r.units (units_nodup r)
    ((amended r a).entry i, a.quiet.isSome) ((mem_units r u).2 hu)).1
      ((unitIdle_setTable _ _ _).trans ((unitIdle_iff s u).2 hi))
  rw [amendAt_sides hc, amendUpdate_match hm, views, setTable_view]
  rfl

/-- With fields of the match side alone any other unit has it to take at its own boundary. -/
theorem amendAt_view_waits (hu : r.memberOf u = true) (hc : ¬ a.namesCount = true) (hm : a.namesMatch = true)
    (hi : ¬ s.Idle u) (i : Nat) : (s.amendAt i r a).view u = { s.view u with
      begun := !s.unitBusy u,
      tokens := (s.view u).tokens ++
        [{ change := s.table.nextChange, update := some ((amended r a).entry i, a.quiet.isSome) }] } := by
  have waits : s.unitIdle u = false := Bool.eq_false_iff.2 fun h => hi ((unitIdle_iff s u).1 h)
  have views := (announce_some_view (s.setTable (s.table.setRecord i (amended r a))) r.units (units_nodup r)
    ((amended r a).entry i, a.quiet.isSome) ((mem_units r u).2 hu)).2 ((unitIdle_setTable _ _ _).trans waits)
  rw [amendAt_sides hc, amendUpdate_match hm, views, setTable_view, unitBusy_setTable]
  rfl

/-- A unit in the middle of an event has not begun the next one before the change. -/
theorem amendAt_view_inEvent (hu : r.memberOf u = true) (hc : ¬ a.namesCount = true) (hm : a.namesMatch = true)
    (hb : s.InEvent u) (i : Nat) : (s.amendAt i r a).view u = { s.view u with
      begun := false,
      tokens := (s.view u).tokens ++
        [{ change := s.table.nextChange, update := some ((amended r a).entry i, a.quiet.isSome) }] } := by
  rw [amendAt_view_waits hu hc hm (fun h => h.1 hb), (unitBusy_iff s u).2 hb]
  rfl

/-- An event that waits at a unit between events may have begun before the change. -/
theorem amendAt_view_mayHaveBegun (hu : r.memberOf u = true) (hc : ¬ a.namesCount = true) (hm : a.namesMatch = true)
    (hb : ¬ s.InEvent u) (hi : ¬ s.Idle u) (i : Nat) : (s.amendAt i r a).view u = { s.view u with
      begun := true,
      tokens := (s.view u).tokens ++
        [{ change := s.table.nextChange, update := some ((amended r a).entry i, a.quiet.isSome) }] } := by
  rw [amendAt_view_waits hu hc hm hi, Bool.eq_false_iff.2 (mt (unitBusy_iff s u).1 hb)]
  rfl

/-! ### The quiet timer of the record itself (R18, R51) -/

/-- The unit of an ARMED silence record that takes the new quiet limit restarts its timer, in whatever state of the records
it does so. -/
theorem takeUpdate_quietSet {t : State} {limit old : Nat} (only : s.RecordsOnly t)
    (hrec : t.table.recordAt i = some (amended r a)) (hq : a.quiet = some limit) (ha : r.state = .armed)
    (htr : r.side.trigger = .onSilence old) (hsc : r.scope = .one p) :
    s.QuietSet (t.takeUpdate (.matchUnit p) ((amended r a).entry i, true)) p i limit := by
  have htr' : (amended r a).side.trigger = .onSilence limit := by rw [amended_onSilence htr, hq, Option.getD_some]
  unfold QuietSet
  rw [← live_of_recordsOnly only p]
  exact takeUpdate_quiet t p (e := (amended r a).entry i) hrec ha (silencePort_iff.2 ⟨⟨limit, htr'⟩, hsc⟩) htr'

theorem amendAt_quiet {limit old : Nat} (hi : i < s.table.slots.length)
    (htakes : a.namesCount = true ∨ s.Idle (.matchUnit p)) (hq : a.quiet = some limit) (ha : r.state = .armed)
    (htr : r.side.trigger = .onSilence old) (hsc : r.scope = .one p) (hcr : r.side.cond.isCross = false) :
    s.QuietSet (s.amendAt i r a) p i limit := by
  have hm : a.namesMatch = true := (namesMatch_iff a).2 (by simp [hq])
  have hflag : a.quiet.isSome = true := by rw [hq]; rfl
  have hrec : (s.table.setRecord i (amended r a)).recordAt i = some (amended r a) := by
    rw [WatchTable.recordAt_setRecord, if_pos ⟨rfl, hi⟩]
  have hunits := silence_units hsc hcr
  by_cases hc : a.namesCount = true
  · rw [amendAt_count hc, hunits, amendUpdate_match hm, hflag]
    refine (QuietKept.announceNone (named := fun _ _ => False) _ _).quietSet id (takeUpdate_quietSet ?_ hrec hq ha htr hsc)
    exact (RecordsOnly.foldl _ bringUpToDate_recordsOnly _ s).trans (setTable_recordsOnly _ _)
  · have idle : (s.setTable (s.table.setRecord i (amended r a))).unitIdle (.matchUnit p) = true :=
      (unitIdle_setTable _ _ _).trans ((unitIdle_iff s _).2 (htakes.resolve_left hc))
    rw [amendAt_sides hc, hunits, amendUpdate_match hm, hflag]
    simp only [announce, List.foldl_cons, List.foldl_nil, meetChange, offerUpdate, idle, if_true]
    refine ((QuietKept.addToken (named := fun _ _ => False) _ _ _ _).trans (.setTable _ _)).quietSet id
      (takeUpdate_quietSet ?_ ?_ hq ha htr hsc)
    · exact (setTable_recordsOnly s _).trans (bringUpToDate_recordsOnly _ _)
    · rw [bringUpToDate_table]
      exact hrec

/-! ### AMEND, case by case (R12, R16) -/

theorem amend_resolved (hr : s.Ready c kindAmend f) (hp : readAmend f.payload = some a)
    (hs : s.table.resolve a.handle = some r) (hm : r.mayChange c = true) :
    exec (.amend c) s = .next (if amendValid r a then
        if a.namesCount && (s.popFrame c).anyBusy r.units then s
        else (((s.popFrame c).amendAt a.handle.slot r a).revoke r.owner c).wait c f (.change s.table.nextChange [])
      else (s.popFrame c).answer c f .bad []) := by
  refine next_congr ?_
  rw [State.amend, hr.openRequest]
  simp only [hp]
  rw [onRecord_resolved hs hm]
  rfl

theorem idle_popFrame (s : State) (c : ChanId) (u : UnitId) : (s.popFrame c).Idle u ↔ s.Idle u := by
  cases u <;> rfl

/-- The quiet timers after an AMEND, in the words of the statement. -/
theorem amendAt_quietAfter (hs : s.table.recordAt i = some r) {count sides : Prop} (hc : a.namesCount = true ↔ count)
    (hm : a.namesMatch = true ↔ sides) :
    let takes (v : UnitId) : Prop := r.memberOf v = true ∧ (count ∨ (sides ∧ s.Idle v))
    s.QuietAfter (fun q j => a.quiet ≠ none ∧ j = i ∧ r.scope = .one q ∧ ∃ v, takes v) takes (s.amendAt i r a) := by
  simp only [← hc, ← hm, ← unitIdle_iff, ← Option.isSome_iff_ne_none]
  exact QuietAfter.amendAt s i r a hs

end Sys2Proof.Machine

open Sys2Proof Sys2Proof.Machine Sys2Proof.Machine.State

/-- Settles O38: the layout lemma of an AMEND payload, the checks of R12 and R16 in their order, what `State.amendAt` does
to the table, the views and the timers, and the fields of `State.amended`. -/
theorem amendChangesTheNamedFields : Obligations.AmendChangesTheNamedFields := by
  refine ⟨readAmend_iff, amendValid_iff, Record.mayChange_iff, fun _ => ⟨rfl, rfl⟩, fun c f s hr => ?_, fun r a => ?_⟩
  case refine_2 =>
    intro r'
    refine ⟨rfl, rfl, rfl, fun _ _ => amended_cond_bus, fun _ _ => amended_cond_line, fun _ => amended_cond_cross,
      fun _ => amended_onSilence, amended_onHit, amended_hits_unnamed, fun g hg => ?_, fun _ => amended_tally_new,
      amended_tally_none, fun t hn ht hm hl => ?_, fun t m hn ht hm hl => ?_, fun t w hn ht hm hl => ?_,
      fun t m w hn ht hm hl => ?_⟩
    · rw [amended_hits_goal hg]
      exact amendHits_cases r g
    · rw [amended_tally_some hn ht, amendTally_unnamed t hm hl]
    · rw [amended_tally_some hn ht, amendTally_mode t hm hl]
    · rw [amended_tally_some hn ht, amendTally_load t hm hl]
    · rw [amended_tally_some hn ht, amendTally_mode_load t hm hl]
  have begins := actsOnRecord_amend c
  refine ⟨begins.bad hr, fun a hp => ⟨begins.stale hr hp, fun r hs => ⟨begins.denied hr hp hs, fun hm hv => ?_,
    fun hm hv => ?_⟩⟩⟩
  · rw [AnswersOnly, amend_resolved hr hp hs hm, hv, if_neg Bool.false_ne_true]
  have runs := amend_resolved hr hp hs hm
  rw [if_pos hv] at runs
  intro n i r' entry count sides
  have hcount : a.namesCount = true ↔ count := namesCount_iff a
  have hsides : a.namesMatch = true ↔ sides := namesMatch_iff a
  have hrec := WatchTable.recordAt_of_resolve _ hs
  refine ⟨fun hc hb => ?_, fun hfree => ?_⟩
  · rw [runs, hcount.2 hc, busy_units s c r hb]
    rfl
  have goes : ¬ (a.namesCount && (s.popFrame c).anyBusy r.units) = true := fun h => by
    rw [Bool.and_eq_true] at h
    rw [free_units s c r (hfree (hcount.1 h.1))] at h
    exact Bool.false_ne_true h.2
  rw [if_neg goes] at runs
  set x := s.popFrame c with hx
  have idle : ∀ u, x.Idle u ↔ s.Idle u := idle_popFrame s c
  have seen : ∀ u, ((x.amendAt i r a).revoke r.owner c).view u = (x.amendAt i r a).view u := revoke_view _ _ _
  refine ⟨(x.amendAt i r a).revoke r.owner c, runs, (amendAt_recordsOnly _ _ _ _).trans (revoke_ro _ _ _), ?_, ?_, ?_,
    fun u hu => ?_, fun u hu => ?_, fun p old limit htakes hq ha htr hsc hcr => ?_⟩
  · exact ((amendAt_quietAfter (s := x) hrec hcount hsides).same (.revoke _ _ _)).of_popFrame
  · rw [revoke_table, amendAt_table]
    rfl
  · rw [revoke_additions, amendAt_notice]
    rfl
  · rw [seen, ← view_popFrame s c u]
    refine ⟨fun hc hm hi => ?_, fun hc hm hb => ?_, fun hc hm hb hi => ?_, fun hc hm => ?_, fun hc hm => ?_,
      fun hc hm => ?_⟩
    · exact amendAt_view_idle hu (mt hcount.1 hc) (hsides.2 hm) ((idle u).2 hi) i
    · exact amendAt_view_inEvent (s := x) hu (mt hcount.1 hc) (hsides.2 hm) hb i
    · exact amendAt_view_mayHaveBegun (s := x) hu (mt hcount.1 hc) (hsides.2 hm) hb (mt (idle u).1 hi) i
    · exact amendAt_view_report hu (mt hcount.1 hc) (mt hsides.1 hm) x i
    · exact amendAt_view_count_match hu (hcount.2 hc) (hsides.2 hm) x i
    · exact amendAt_view_count hu (hcount.2 hc) (mt hsides.1 hm) x i
  · rw [seen, amendAt_view_other hu, view_popFrame]
  · have hslot : i < x.table.slots.length := WatchTable.lt_of_recordAt _ hrec
    have timed : x.QuietSet (x.amendAt i r a) p i limit :=
      amendAt_quiet hslot (htakes.imp hcount.2 (idle _).2) hq ha htr hsc hcr
    have kept : (x.amendAt i r a).QuietKept (fun _ _ => False) ((x.amendAt i r a).revoke r.owner c) := .revoke _ _ _
    exact kept.quietSet id timed
end

section
/-! PROOFS. The members of a chain and their order (O42). -/

namespace Sys2Proof.Machine.WatchTable

variable {t : WatchTable} {u : UnitId} {i : Nat} {e : CopyEntry}

/-- A unit has an entry of a slot when the record there concerns it (R33). -/
theorem entryFor_eq_some_iff :
    t.entryFor u i = some e ↔ ∃ r, t.recordAt i = some r ∧ r.memberOf u = true ∧ e = r.entry i := by
  unfold entryFor
  cases t.recordAt i with
  | none => simp
  | some r =>
    simp only [Option.some.injEq, exists_eq_left']
    split
    · next hm => simp [hm, eq_comm]
    · next hm => simp [hm]

/-- The members of a chain by their records, where `mem_chain` has them by their slots. -/
theorem mem_chain_iff : e ∈ t.chain u ↔ ∃ i r, t.recordAt i = some r ∧ r.memberOf u = true ∧ e = r.entry i := by
  simp only [mem_chain, entryFor_eq_some_iff]
  constructor
  · rintro ⟨i, -, r, hr, hm, he⟩
    exact ⟨i, r, hr, hm, he⟩
  · rintro ⟨i, r, hr, hm, he⟩
    exact ⟨i, lt_of_recordAt t hr, r, hr, hm, he⟩

/-- No slot gives a unit two entries. -/
theorem entries_slots_nodup (t : WatchTable) (u : UnitId) : ((t.indices.filterMap (t.entryFor u)).map (·.slot)).Nodup := by
  rw [List.map_filterMap]
  refine List.nodup_range.filterMap fun i j k hi hj => ?_
  obtain ⟨a, ha, rfl⟩ := Option.mem_map.1 hi
  obtain ⟨b, hb, hab⟩ := Option.mem_map.1 hj
  exact (entryFor_slot ha).symm.trans (hab.symm.trans (entryFor_slot hb))

theorem chain_sorted (t : WatchTable) (u : UnitId) : (t.chain u).Pairwise fun a b => a.before b = true :=
  (chain_sorted_of_foldr _ (t.entries_slots_nodup u)).1

end Sys2Proof.Machine.WatchTable

open Sys2Proof.Machine

/-- Settles O42: membership source by source, and the chain as an insertion sort of the entries by `CopyEntry.before`. -/
theorem chainsHoldTheirRecordsInOrder : Obligations.ChainsHoldTheirRecordsInOrder :=
  ⟨fun r => ⟨r.memberOf_port_iff, r.memberOf_cross_iff⟩,
   fun t u => ⟨fun _ => WatchTable.mem_chain_iff, (t.chain_sorted u).imp fun {a b} h => (before_spec a b).1 h⟩⟩
end

section
/-! PROOFS. When a match accepts (O43). -/

namespace Sys2Proof.Machine

/-! ### Comparison under a mask -/

/-- A masked comparison looks at the bits of the mask and at no other. -/
theorem masked_xor_eq_zero_iff (a b k : Word) :
    (a ^^^ b) &&& k = 0 ↔ ∀ i, i < 32 → k.getLsbD i = true → a.getLsbD i = b.getLsbD i := by
  rw [eq_zero_iff]
  refine forall₂_congr fun i _ => ?_
  rw [BitVec.getLsbD_and, BitVec.getLsbD_xor]
  cases a.getLsbD i <;> cases b.getLsbD i <;> simp

/-! ### The fields of a match, one by one (R40 to R42) -/

theorem addressAccepts_iff (m : BusMatch) (a : Word) :
    m.addressAccepts a = true ↔ ∀ i, i < 32 → m.mask.getLsbD i = false → a.getLsbD i = m.base.getLsbD i := by
  unfold BusMatch.addressAccepts
  rw [decide_eq_true_iff, masked_xor_eq_zero_iff]
  refine forall₂_congr fun i hi => ?_
  simp [hi]

theorem dataAccepts_iff (x : DataMatch) (w : Width) (d : Word) :
    x.accepts w d = true ↔ ∀ i, i < 32 → x.mask.getLsbD i = true →
      (decide (i < 8 * w.bytes) && d.getLsbD i) = x.pattern.getLsbD i := by
  unfold DataMatch.accepts
  rw [decide_eq_true_iff, masked_xor_eq_zero_iff]
  exact forall₂_congr fun i hi => by rw [low_getLsbD w d i hi]

theorem dirAccepts_iff (f : DirFilter) (d : Direction) :
    f.accepts d = true ↔ f = .either ∨ (f = .read ∧ d = .read) ∨ (f = .write ∧ d = .write) := by
  cases f <;> simp [DirFilter.accepts]

theorem widthAccepts_iff (s : WidthSet) (w : Width) :
    s.accepts w = true ↔ (w = .one ∧ s.one = true) ∨ (w = .two ∧ s.two = true) ∨ (w = .four ∧ s.four = true) := by
  cases w <;> simp [WidthSet.accepts]

theorem initiatorAccepts_iff (f : InitiatorFilter) (i : Fin 16) :
    f.accepts i = true ↔ f = .any ∨ f = .only i ∨ ∃ t, f = .allBut t ∧ i ≠ t := by
  cases f with
  | any => simp [InitiatorFilter.accepts]
  | only t => simp [InitiatorFilter.accepts, eq_comm (a := i)]
  | allBut t => simp [InitiatorFilter.accepts]

theorem originAccepts_iff (f : OriginFilter) (o : Origin) :
    f.accepts o = true ↔ f = .boardAndDebug ∨ (f = .boardOnly ∧ o = .board) := by
  cases f <;> simp [OriginFilter.accepts]

theorem edgeAccepts_iff (f : EdgeFilter) (e : Edge) :
    f.accepts e = true ↔ f = .either ∨ (f = .rise ∧ e = .rise) ∨ (f = .fall ∧ e = .fall) := by
  cases f <;> simp [EdgeFilter.accepts]

end Sys2Proof.Machine

open Sys2Proof.Machine

/-- Settles O43: acceptance is the conjunction of the fields' own tests. -/
theorem acceptanceComparesEveryField : Obligations.AcceptanceComparesEveryField := by
  refine ⟨fun m d o => ?_, edgeAccepts_iff⟩
  have data : (d.all fun x => x.accepts o.width o.data) = true ↔ ∀ x, d = some x → ∀ i, i < 32 →
      x.mask.getLsbD i = true → (decide (i < 8 * o.width.bytes) && o.data.getLsbD i) = x.pattern.getLsbD i := by
    simp only [← dataAccepts_iff]
    cases d <;> simp
  unfold BusMatch.accepts
  simp only [Bool.and_eq_true, and_assoc]
  rw [addressAccepts_iff, dirAccepts_iff, widthAccepts_iff, initiatorAccepts_iff, originAccepts_iff, data]
end

section
/-! PROOFS. The cross lines (O52). -/

namespace Sys2Proof.Machine.State

/-- The state in which the requests of `rest` are left to take (R46). -/
def takeRequest (s : State) (rest : List (PortId × CrossId)) : State :=
  { s with cross := { s.cross with requests := rest } }

variable {s : State} {p : PortId} {x : CrossId} {rest : List (PortId × CrossId)}

/-! ### Pulse requests in their turn (R46, R106) -/

/-- The request at the head is taken when its Match Unit is named; the line it names decides what becomes of it. -/
theorem crossPulse_turn (h : s.cross.requests = (p, x) :: rest) :
    s.crossPulse p = match (s.crossLine x).driving with
      | none => (s.takeRequest rest).setCrossLine x { s.crossLine x with driving := some Config.pulseLength }
      | some _ => s.takeRequest rest := by
  unfold crossPulse
  rw [h]
  exact if_pos rfl

theorem crossPulse_drives (h : s.cross.requests = (p, x) :: rest) (hd : (s.crossLine x).driving = none) :
    s.crossPulse p = (s.takeRequest rest).setCrossLine x
      { s.crossLine x with driving := some Config.pulseLength } := by
  rw [crossPulse_turn h, hd]

theorem crossPulse_merged (h : s.cross.requests = (p, x) :: rest) (hd : (s.crossLine x).driving ≠ none) :
    s.crossPulse p = s.takeRequest rest := by
  obtain ⟨n, hn⟩ := Option.ne_none_iff_exists'.1 hd
  rw [crossPulse_turn h, hn]

theorem crossPulse_waits (h : ∀ x rest, s.cross.requests ≠ (p, x) :: rest) : s.crossPulse p = s := by
  unfold crossPulse
  split
  · next q x rest hq =>
    refine if_neg fun e => h x rest ?_
    rw [hq, e]
  · rfl

/-! ### The detector of falling edges (R56, R107) -/

theorem crossFallingEdge_fresh (hh : (s.crossLine x).high = true) (hx : x ∉ s.cross.edges) :
    s.crossFallingEdge x = { s with cross := { s.cross with
      lines := s.cross.lines.set x { s.crossLine x with high := false }, edges := s.cross.edges ++ [x] } } := by
  simp [crossFallingEdge, hh, setCrossLine, hx]

theorem crossFallingEdge_merged (hh : (s.crossLine x).high = true) (hx : x ∈ s.cross.edges) :
    s.crossFallingEdge x = s.setCrossLine x { s.crossLine x with high := false } := by
  simp [crossFallingEdge, hh, setCrossLine, hx]

theorem crossFallingEdge_low (hh : (s.crossLine x).high = false) : s.crossFallingEdge x = s := by
  simp [crossFallingEdge, hh]

end Sys2Proof.Machine.State

open Sys2Proof.Machine Sys2Proof.Machine.State

/-- Settles O52: the requests by their head, and the detector by the level it last saw and the edges that wait. -/
theorem crossLinesPulseAndDetect : Obligations.CrossLinesPulseAndDetect :=
  ⟨fun _ _ _ _ h => ⟨fun hd => next_congr (crossPulse_drives h hd), fun hd => next_congr (crossPulse_merged h hd)⟩,
   fun _ _ h => next_congr (crossPulse_waits h),
   fun _ _ => ⟨rfl, rfl, fun hh hx => next_congr (crossFallingEdge_fresh hh hx),
     fun hh hx => next_congr (crossFallingEdge_merged hh hx), fun hh => next_congr (crossFallingEdge_low hh)⟩⟩
end

section
/-! PROOFS. The reports a Match Unit takes (O49). -/

namespace Sys2Proof.Machine

open Host State

variable {s : State} {p : PortId} {m : MatchUnit}

/-! ### One Match Unit written and read -/

theorem State.port_setMatch_same (s : State) (p : PortId) (m : MatchUnit) :
    (s.setMatch p m).port p = { s.port p with mu := m } := port_setPort_same s p _

/-- Of two writes of one Match Unit the second stays. -/
theorem State.setMatch_setMatch (s : State) (p : PortId) (m n : MatchUnit) :
    (s.setMatch p m).setMatch p n = s.setMatch p n := by
  show ((s.setMatch p m).setPort p { (s.setMatch p m).port p with mu := n }) = _
  rw [port_setMatch_same]
  simp [setMatch, setPort]

/-! ### What a report does to the quiet timers (R50, R51) -/

theorem told_same (h : (s.port p).mu.live = m.live) : s.told p m = s.setMatch p m := by
  unfold told
  rw [h]
  cases m.live <;> rfl

theorem told_ends (hs : (s.port p).mu.live = true) (hm : m.live = false) :
    s.told p m = (s.setMatch p m).stopAllQuiet p := by
  unfold told
  rw [hs, hm]
  rfl

theorem told_begins (hs : (s.port p).mu.live = false) (hm : m.live = true) :
    s.told p m = (s.setMatch p m).startAllQuiet p := by
  unfold told
  rw [hs, hm]
  rfl

theorem stopAllQuiet_setMatch (s : State) (p : PortId) (m : MatchUnit) :
    (s.setMatch p m).stopAllQuiet p = s.setMatch p { m with timers := [], events := m.events.map MatchEvent.stale } := by
  unfold stopAllQuiet
  rw [setMatch_setMatch, port_setMatch_same]
  rfl

/-- One entry met while the timers of a port start (R51). -/
def State.startIfSilent (s : State) (e : CopyEntry) : State :=
  match s.table.recordAt e.slot with
  | some r => if r.state = .armed && r.side.trigger.isSilence then s.restartQuiet e.slot r else s
  | none => s

theorem startAllQuiet_eq (s : State) (p : PortId) :
    s.startAllQuiet p = (s.port p).mu.view.copy.foldl startIfSilent s := rfl

theorem startIfSilent_armed {e : CopyEntry} {r : Record} (hr : s.table.recordAt e.slot = some r) (ha : r.state = .armed)
    (hq : r.side.trigger.isSilence = true) : s.startIfSilent e = s.restartQuiet e.slot r := by
  simp [startIfSilent, hr, ha, hq]

theorem startIfSilent_other {e : CopyEntry}
    (h : ∀ r, ¬ (s.table.recordAt e.slot = some r ∧ r.state = .armed ∧ r.side.trigger.isSilence = true)) :
    s.startIfSilent e = s := by
  unfold startIfSilent
  split
  · next r hr =>
    refine if_neg fun hc => h r ?_
    simpa [hr] using hc
  · rfl

/-! ### The report a unit takes (R50, R114) -/

theorem matchBusy_false {q : Port} (h : ∀ x ∈ q.gate.fromMatch, x.isHandOver = false) : q.matchBusy = false := by
  simpa [Port.matchBusy] using h

theorem runStateReport_takes {r : RunState} {rest : List RunState} (hb : (s.port p).matchBusy = false)
    (h : (s.port p).mu.runReports = r :: rest) : s.runStateReport p = s.told p { (s.port p).mu with
      run := r, runReports := rest, view := (s.port p).mu.view.between } := by
  simp only [runStateReport, hb, h]

theorem linkStateReport_takes {l : LinkState} {rest : List LinkReport} (hb : (s.port p).matchBusy = false)
    (h : (s.port p).mu.linkReports = .link l :: rest) : s.linkStateReport p = s.told p { (s.port p).mu with
      link := l, linkReports := rest, view := (s.port p).mu.view.between } := by
  simp only [linkStateReport, hb, h]

theorem unseatAtMatchUnit_takes {rest : List LinkReport} (hb : (s.port p).matchBusy = false)
    (h : (s.port p).mu.linkReports = .unseat :: rest) : s.unseatAtMatchUnit p = s.told p { (s.port p).mu with
      link := .down, linkReports := rest, view := (s.port p).mu.view.between } := by
  simp only [unseatAtMatchUnit, hb, h]

end Sys2Proof.Machine

open Sys2Proof.Machine Sys2Proof.Machine.State

/-- Settles O49: each report is told to the unit (`State.told`), which compares the condition before and after. -/
theorem reportsStopAndStartQuietTimers : Obligations.ReportsStopAndStartQuietTimers := by
  intro p i m' s m report free
  have hb := matchBusy_false free
  have takes : exec i s = .next (s.told p m') := by
    rcases report with ⟨r, rest, rfl, h, rfl⟩ | ⟨l, rest, rfl, h, rfl⟩ | ⟨rest, rfl, h, rfl⟩
    · exact next_congr (runStateReport_takes hb h)
    · exact next_congr (linkStateReport_takes hb h)
    · exact next_congr (unseatAtMatchUnit_takes hb h)
  rw [takes]
  refine ⟨fun h => next_congr (told_same h), fun h h' => next_congr ?_, fun h h' => ⟨startIfSilent, next_congr ?_,
    fun t e r ⟨hr, ha, hq⟩ => startIfSilent_armed hr ha hq, fun t e => startIfSilent_other⟩⟩
  · rw [told_ends h h', stopAllQuiet_setMatch]
    rfl
  · rw [told_begins h h', startAllQuiet_eq, port_setMatch_same]
end

section
/-! PROOFS. The walks and the events that begin them (O47). -/

namespace Sys2Proof.Machine

open Host State

variable {s : State} {p : PortId} {e : CopyEntry}

/-! ### One record of a walk (R39, R42, R56) -/

section
variable {meet : State → CopyEntry → State × List Nat} {rest : List CopyEntry} {marks : List Nat}

theorem walk_meets (ha : s.isArmed e.slot = true) (hm : e.slot ∉ marks) :
    walk meet (e :: rest) marks s = walk meet rest (marks ++ (meet s e).2) (meet s e).1 := by
  rw [walk, if_pos]
  simp [ha, hm]

theorem walk_passes (h : ¬ (s.isArmed e.slot = true ∧ e.slot ∉ marks)) :
    walk meet (e :: rest) marks s = walk meet rest marks s := by
  rw [walk, if_neg]
  simpa using h

end

/-! ### One record met, by its source and trigger -/

theorem timing_iff (m : MatchUnit) (i : Nat) : m.timing i = true ↔ ∃ y ∈ m.timers, y.slot = i := by
  simp [MatchUnit.timing]

section
variable {o : Observation} {ep : Half} {m : BusMatch} {k : Option DataMatch}

theorem meetObservation_hit (hc : e.side.cond = .bus m k) (ho : m.accepts k o = true) (ht : e.side.trigger = .onHit) :
    s.meetObservation p o ep e = s.hit e (.obs p o ep) := by
  simp [meetObservation, hc, ht, ho]

theorem meetObservation_restarts {n : Nat} {r : Record} (hc : e.side.cond = .bus m k) (ho : m.accepts k o = true)
    (ht : e.side.trigger = .onSilence n) (hr : s.table.recordAt e.slot = some r)
    (hq : (s.port p).mu.timing e.slot = true) : s.meetObservation p o ep e = (s.restartQuiet e.slot r, []) := by
  simp [meetObservation, hc, ht, ho, hq, hr]

theorem meetObservation_untimed {n : Nat} (hc : e.side.cond = .bus m k) (ht : e.side.trigger = .onSilence n)
    (hq : (s.port p).mu.timing e.slot = false) : s.meetObservation p o ep e = (s, []) := by
  simp [meetObservation, hc, ht, hq]

theorem meetObservation_refused (hc : e.side.cond = .bus m k) (ho : m.accepts k o = false) :
    s.meetObservation p o ep e = (s, []) := by
  cases ht : e.side.trigger <;> simp [meetObservation, hc, ht, ho]

theorem meetObservation_otherSource (h : ∀ m k, e.side.cond ≠ .bus m k) : s.meetObservation p o ep e = (s, []) := by
  unfold meetObservation
  split
  case h_1 m k hc _ => exact (h m k hc).elim
  case h_2 m k n hc _ => exact (h m k hc).elim
  case h_3 => rfl
  case h_4 => rfl

end

section
variable {l : LineId} {d : Edge} {ep : Half}

theorem meetEdge_hit {f : EdgeFilter} (hc : e.side.cond = .line l f) (hf : f.accepts d = true) :
    s.meetEdge p l d ep e = s.hit e (.edge p l d ep) := by
  simp [meetEdge, hc, hf]

theorem meetEdge_refused (h : ∀ f, e.side.cond = .line l f → f.accepts d = false) :
    s.meetEdge p l d ep e = (s, []) := by
  unfold meetEdge
  split
  · next l' f hc =>
    refine if_neg fun ⟨hl, hf⟩ => ?_
    subst hl
    rw [h f hc] at hf
    exact Bool.false_ne_true hf
  · rfl
  · rfl

end

theorem meetCross_hit {x : CrossId} (hc : e.side.cond = .cross x) : s.meetCross x e = s.hit e (.cross x) := by
  simp [meetCross, hc]

theorem meetCross_refused {x : CrossId} (h : e.side.cond ≠ .cross x) : s.meetCross x e = (s, []) := by
  unfold meetCross
  split
  · next x' hc =>
    refine if_neg fun hx => h ?_
    rw [hc, hx]
  · rfl
  · rfl

/-! ### The event that begins a walk (R37, R39, R45) -/

theorem observation_takes {o : Observation} {ep : Half} (h : (s.port p).nextEvent = some (.obs o ep)) :
    s.observation p = (walk (fun t e => t.meetObservation p o ep e) (s.port p).mu.view.copy [] (s.popEvent p)).handOn
      p o ep := by
  unfold observation
  rw [h]

theorem observation_waits (h : ∀ o ep, (s.port p).nextEvent ≠ some (.obs o ep)) : s.observation p = s := by
  unfold observation
  split
  · next o ep he => exact (h o ep he).elim
  · rfl

theorem lineEdge_takes {l : LineId} {d : Edge} {ep : Half} (h : (s.port p).nextEvent = some (.edge l d ep)) :
    s.lineEdge p = walk (fun t e => t.meetEdge p l d ep e) (s.port p).mu.view.copy [] (s.popEvent p) := by
  unfold lineEdge
  rw [h]

theorem lineEdge_waits (h : ∀ l d ep, (s.port p).nextEvent ≠ some (.edge l d ep)) : s.lineEdge p = s := by
  unfold lineEdge
  split
  · next l d ep he => exact (h l d ep he).elim
  · rfl

theorem crossEdge_takes {x : CrossId} {rest : List CrossId} (hv : ¬ s.cross.view.ChangeFirst)
    (hx : s.cross.edges = x :: rest) :
    s.crossEdge = walk (fun t e => t.meetCross x e) s.cross.view.copy [] s.popEdge := by
  unfold crossEdge
  rw [Bool.eq_false_iff.2 (mt (blocked_iff _).1 hv), hx]

theorem crossEdge_waits (h : s.cross.edges = [] ∨ s.cross.view.ChangeFirst) : s.crossEdge = s := by
  unfold crossEdge
  split
  · next x rest hb hx =>
    rcases h with h | h
    · rw [h] at hx; cases hx
    · rw [(blocked_iff _).2 h] at hb; cases hb
  · rfl

end Sys2Proof.Machine

open Sys2Proof.Machine Sys2Proof.Machine.State

/-- Settles O47: the equations of a walk, of the records it meets and of the events that begin one. -/
theorem walksMeetTheArmedRecordsInOrder : Obligations.WalksMeetTheArmedRecordsInOrder := by
  refine ⟨fun meet e rest marks s => ?_, fun s p o ep l d x e => ?_, fun p s => ?_, fun s => ?_⟩
  · intro meets
    have armed : s.isArmed e.slot = true ↔ ∃ r, s.table.recordAt e.slot = some r ∧ r.state = .armed := isArmed_iff s _
    refine ⟨rfl, fun ⟨ha, hm⟩ => walk_meets (armed.2 ha) hm, fun h => walk_passes ?_⟩
    rwa [armed]
  · refine ⟨fun m k hc ho => ⟨meetObservation_hit hc ho, fun n r ht hr => ⟨fun hq => ?_, fun hq => ?_⟩⟩,
      fun m k => meetObservation_refused, meetObservation_otherSource, fun f => meetEdge_hit, meetEdge_refused,
      meetCross_hit, meetCross_refused⟩
    · exact meetObservation_restarts hc ho ht hr ((timing_iff _ _).2 hq)
    · refine meetObservation_untimed hc ht (Bool.eq_false_iff.2 fun hh => ?_)
      obtain ⟨y, hy, hs⟩ := (timing_iff _ _).1 hh
      exact hq y hy hs
  · intro q busy start
    have takes {ev rest} (hb : ¬ busy) (he : q.mu.events = ev :: rest) :
        q.nextEvent = some ev ∧ s.popEvent p = start rest := by
      rw [nextEvent_free hb, he]
      exact ⟨rfl, popEvent_eq s p ev rest he⟩
    refine ⟨fun o ep rest hb he => ?_, fun l d ep rest hb he => ?_, fun h => ?_, fun h => ?_⟩
    · obtain ⟨hn, hp⟩ := takes hb he
      refine ⟨walk_matched _ (fun y f => meetObservation_matched y p o ep f) _ _ _, next_congr ?_⟩
      rw [observation_takes hn, hp]
      rfl
    · obtain ⟨hn, hp⟩ := takes hb he
      refine ⟨walk_matched _ (fun y f => meetEdge_matched y p l d ep f) _ _ _, next_congr ?_⟩
      rw [lineEdge_takes hn, hp]
    · exact next_congr (observation_waits fun o ep => nextEvent_or _ (h.imp id fun hh => hh o ep))
    · exact next_congr (lineEdge_waits fun l d ep => nextEvent_or _ (h.imp id fun hh => hh l d ep))
  · refine ⟨fun x rest hv hx => ⟨walk_matched _ (fun y f => meetCross_matched y x f) _ _ _, next_congr ?_⟩,
      fun h => next_congr (crossEdge_waits h)⟩
    rw [crossEdge_takes hv hx, popEdge, hx]
    rfl
end

section
/-! PROOFS. The quiet timers and their expiries (O48). -/

namespace Sys2Proof.Machine

open Host State

variable {s : State} {p : PortId} {i : Nat} {r : Record}

/-! ### Starting and stopping one timer (R50, R51) -/

theorem stopQuiet_at_port (h : r.silencePort = some p) :
    s.stopQuiet i r = s.setMatch p ((s.port p).mu.stopQuiet i) := by
  unfold stopQuiet
  rw [h]

theorem restartQuiet_starts {n : Nat} (h : r.silencePort = some p) (hl : (s.port p).mu.live = true)
    (hn : (s.port p).mu.copyLimit i = some n) : s.restartQuiet i r = s.setMatch p ((s.port p).mu.startQuiet i n) := by
  simp only [restartQuiet, h, hl, hn]

/-- Without the rest of the running condition, or without a limit in the copy, restarting a timer stops it. -/
theorem restartQuiet_stops (h : r.silencePort = some p)
    (hn : (s.port p).mu.live = false ∨ (s.port p).mu.copyLimit i = none) : s.restartQuiet i r = s.stopQuiet i r := by
  rw [stopQuiet_at_port h]
  simp only [restartQuiet, h]
  rcases hn with hl | hc
  · rw [hl]
  · rw [hc]
    cases (s.port p).mu.live <;> rfl

/-! ### A timer that reaches zero (R53) -/

theorem timer_runs_iff (m : MatchUnit) (i : Nat) :
    (m.timers.any fun t => t.slot = i && 0 < t.left) = true ↔ ∃ x ∈ m.timers, x.slot = i ∧ 0 < x.left := by
  simp

theorem quietTimerZero_runs (h : ∃ x ∈ (s.port p).mu.timers, x.slot = i ∧ 0 < x.left) :
    s.quietTimerZero p i = s.setMatch p { (s.port p).mu with
      timers := (s.port p).mu.timers.map fun x => if x.slot = i then { slot := i, left := 0 } else x,
      events := (s.port p).mu.events ++ [.quiet i true] } := by
  have zeroed : ((s.port p).mu.timers.map fun x => if x.slot = i then { x with left := 0 } else x) =
      (s.port p).mu.timers.map fun x => if x.slot = i then { slot := i, left := 0 } else x := by
    refine List.map_congr_left fun x _ => ?_
    split
    · next hx => rw [hx]
    · rfl
  unfold quietTimerZero
  rw [← zeroed]
  exact if_pos ((timer_runs_iff _ i).2 h)

theorem quietTimerZero_idle (h : ¬ ∃ x ∈ (s.port p).mu.timers, x.slot = i ∧ 0 < x.left) : s.quietTimerZero p i = s :=
  if_neg (mt (timer_runs_iff _ i).1 h)

/-! ### An expiry in its turn (R53) -/

/-- An expiry that presents no hit: stale, its record not ARMED, or its record not in the copy. -/
theorem quietExpiry_discarded {live : Bool} (h : (s.port p).nextEvent = some (.quiet i live))
    (hd : live = false ∨ s.isArmed i = false ∨ (s.port p).mu.view.copy.find? (fun e => e.slot = i) = none) :
    s.quietExpiry p = s.popEvent p := by
  have armed : (s.popEvent p).isArmed i = s.isArmed i := rfl
  have copy : ((s.popEvent p).port p).mu.view.copy = (s.port p).mu.view.copy := by
    rw [popEvent, port_setMatch_same]
    rfl
  simp only [quietExpiry, h, armed, copy]
  rcases hd with hl | ha | hc
  · simp [hl]
  · simp [ha]
  · simp [hc]

theorem quietExpiry_hits {e : CopyEntry} (h : (s.port p).nextEvent = some (.quiet i true)) (ha : s.isArmed i = true)
    (he : (s.port p).mu.view.copy.find? (fun e => e.slot = i) = some e) :
    s.quietExpiry p = (((s.popEvent p).hit e (.silence p (s.port p).tlc.epoch)).1).afterSilence i := by
  have armed : (s.popEvent p).isArmed i = s.isArmed i := rfl
  have unit : (s.popEvent p).port p = { s.port p with mu := { (s.port p).mu with
      events := (s.port p).mu.events.tail, view := (s.port p).mu.view.between } } := port_setMatch_same ..
  have copy : (s.port p).mu.view.between.copy = (s.port p).mu.view.copy := rfl
  simp only [quietExpiry, h, armed, ha, unit, copy, he, Bool.and_self, if_true]

theorem quietExpiry_waits (h : ∀ i live, (s.port p).nextEvent ≠ some (.quiet i live)) : s.quietExpiry p = s := by
  unfold quietExpiry
  split
  · next i live he => exact (h i live he).elim
  · rfl

theorem afterSilence_armed (hr : s.table.recordAt i = some r) (ha : r.state = .armed) :
    s.afterSilence i = s.restartQuiet i r := by
  simp [afterSilence, hr, ha]

theorem afterSilence_notArmed (hr : s.table.recordAt i = some r) (ha : r.state ≠ .armed) :
    s.afterSilence i = s.stopQuiet i r := by
  simp [afterSilence, hr, ha]

end Sys2Proof.Machine

open Sys2Proof.Machine Sys2Proof.Machine.State

/-- Settles O48: the condition, the two operations on a timer, and the two events a timer makes. -/
theorem quietTimersRunAndExpire : Obligations.QuietTimersRunAndExpire := by
  refine ⟨matchLive_iff, copyLimit_iff, fun s i limit r p ht hs => ?_, fun p i s => ?_, fun p s => ?_⟩
  · intro m others stale
    have hp : r.silencePort = some p := silencePort_iff.2 ⟨⟨limit, ht⟩, hs⟩
    have hstale : MatchUnit.discardExpiry i m.events = stale := discardExpiry_eq i _
    refine ⟨?_, fun n hl hn => ?_, restartQuiet_stops hp⟩
    · rw [stopQuiet_at_port hp, ← hstale]
      rfl
    · rw [restartQuiet_starts hp hl hn, ← hstale]
      rfl
  · exact ⟨fun h => next_congr (quietTimerZero_runs h), fun h => next_congr (quietTimerZero_idle h)⟩
  · intro q busy
    refine ⟨fun i live rest hb he => ?_, fun h => ?_⟩
    · intro t armed
      have hn : q.nextEvent = some (.quiet i live) := by rw [nextEvent_free hb, he, List.head?_cons]
      have hpop : s.popEvent p = t := popEvent_eq s p _ rest he
      have harmed : s.isArmed i = true ↔ armed := isArmed_iff s i
      refine ⟨fun h => next_congr ?_, fun e before after hl ha hcopy hslot hbefore => ?_⟩
      · rw [← hpop]
        refine quietExpiry_discarded hn (h.imp id (Or.imp (fun h => ?_) fun h => ?_))
        · exact Bool.eq_false_iff.2 (mt harmed.1 h)
        · rw [List.find?_eq_none]
          simpa using h
      · subst hl
        have hfind : q.mu.view.copy.find? (fun e => e.slot = i) = some e :=
          List.find?_eq_some_iff_append.2 ⟨by simpa using hslot, before, after, hcopy, by simpa using hbefore⟩
        intro u
        have runs : s.quietExpiry p = u.afterSilence i := by
          rw [quietExpiry_hits hn (harmed.2 ha) hfind, hpop]
        obtain ⟨r, hr, -⟩ := ha
        obtain ⟨r', hr', -⟩ := (hit_hitTo t e (.silence p q.tlc.epoch)).held i r hr
        exact ⟨r', hr', fun h => next_congr (runs.trans (afterSilence_armed hr' h)),
          fun h => next_congr (runs.trans (afterSilence_notArmed hr' h))⟩
    · exact next_congr (quietExpiry_waits fun i live => nextEvent_or _ (h.imp id fun hh => hh i live))
end

section
/-! PROOFS. What a hit and a fire do to the records, and what they hand over (O45, O46). -/

namespace Sys2Proof.Machine

open Host State

variable {s : State} {e : CopyEntry} {ev : HitEvent} {r : Record}

/-! ### The record hit (R43, R44) -/

theorem hit_discarded (h : ∀ r, s.table.recordAt e.slot = some r → r.state ≠ .armed) : s.hit e ev = (s, []) := by
  unfold State.hit
  split
  · rfl
  · next r hr => exact if_neg (h r hr)

theorem hit_counts (hr : s.table.recordAt e.slot = some r) (ha : r.state = .armed) (hg : r.hits + 1 ≠ r.goal) :
    s.hit e ev = (s.setTable (s.table.setRecord e.slot (r.counted ev)), []) := by
  have below : ¬ (r.counted ev).hits = (r.counted ev).goal := hg
  simp only [State.hit, hr, ha, if_true, if_neg below]

/-- A record that reaches its goal, after the fire. -/
theorem fired_eq (ha : r.state = .armed) (hg : r.hits + 1 = r.goal) :
    (r.counted ev).fired ev = { r.counted ev with
      snapshot := some { body := ev.snap, fireNumber := r.nextFire }
      state := if r.repeats then .armed else .spent
      hits := if r.repeats then 0 else r.goal } := by
  unfold Record.fired Record.counted
  cases hrep : r.repeats <;> simp [ha, hg, Record.nextFire]

/-! ### A fire, in its three parts: the record, the dispatch, the dependents -/

/-- The state in which the record of slot `i` has fired and its actions are dispatched, before its dependents are
armed. -/
def State.firedAlone (s : State) (i : Nat) (r : Record) (a : Actions) (ev : HitEvent) : State :=
  (s.setTable (s.table.setRecord i (r.fired ev))).dispatch ev a (s.table.handleAt i) r.owner (actionPorts ev r.scope)

theorem fire_eq (s : State) (i : Nat) (r : Record) (a : Actions) (ev : HitEvent) :
    s.fire i r a ev = ((s.table.waitingAfter (s.table.handleAt i)).foldl armDependent (s.firedAlone i r a ev),
      s.table.waitingAfter (s.table.handleAt i)) := rfl

theorem firedAlone_table (s : State) (i : Nat) (r : Record) (a : Actions) (ev : HitEvent) :
    (s.firedAlone i r a ev).table = s.table.setRecord i (r.fired ev) := by
  rw [firedAlone, dispatch_table, setTable_table]

/-- A dispatch hands nothing to a Match Unit. -/
theorem firedAlone_mu (s : State) (i : Nat) (r : Record) (a : Actions) (ev : HitEvent) (p : PortId) :
    ((s.firedAlone i r a ev).port p).mu = (s.port p).mu := by
  obtain ⟨-, -, hport⟩ := dispatch_spec (s.setTable (s.table.setRecord i (r.fired ev))) ev a (s.table.handleAt i) r.owner
    _ (actionPorts_nodup ev r.scope)
  rw [firedAlone, hport]
  split
  · rw [takeActions_mu, setTable_port]
  · rw [setTable_port]

/-! ### A hit that reaches the goal: the slots and the timers after it -/

section
variable (hr : s.table.recordAt e.slot = some r) (ha : r.state = .armed) (hg : r.hits + 1 = r.goal)
include hr ha hg

theorem mem_hit_armed (ev : HitEvent) (j : Nat) : j ∈ (s.hit e ev).2 ↔
    ∃ x, s.table.recordAt j = some x ∧ x.state = .waiting ∧ x.after = some (s.table.handleAt e.slot) := by
  rw [hit_fires hr ha hg, fire_eq]
  exact mem_waitingAfter _ _ j

/-- The slot of the record itself, the slots of the dependents it arms, and all others. -/
theorem hit_slotAt (ev : HitEvent) (j : Nat) : (s.hit e ev).1.table.slotAt j =
    if j = e.slot then { issue := (s.table.slotAt j).issue, record := some ((r.counted ev).fired ev) }
    else if j ∈ (s.hit e ev).2 then
      { issue := (s.table.slotAt j).issue, record := (s.table.recordAt j).map armedRec }
    else s.table.slotAt j := by
  have hl := WatchTable.lt_of_recordAt _ hr
  have self : e.slot ∉ (s.hit e ev).2 := fun hm => by
    obtain ⟨x, hx, hw, -⟩ := (mem_hit_armed hr ha hg ev _).1 hm
    cases hr.symm.trans hx
    rw [ha] at hw
    cases hw
  rw [hit_fires hr ha hg, fire_eq] at self ⊢
  rw [armAll_slotAt, WatchTable.recordAt, firedAlone_table, WatchTable.slotAt_setRecord]
  by_cases hj : j = e.slot
  · subst hj
    rw [if_neg self, if_pos ⟨rfl, hl⟩, if_pos rfl]
  · have other : ¬ (e.slot = j ∧ e.slot < s.table.slots.length) := fun h => hj h.1.symm
    rw [if_neg other, if_neg hj]
    rfl

/-- The quiet timer of a dependent armed by the hit (R28, R51, R58). -/
theorem hit_quiet (ev : HitEvent) {j : Nat} {x : Record} {p : PortId} (hj : j ≠ e.slot) (hx : s.table.recordAt j = some x)
    (hw : x.state = .waiting) (hm : j ∈ (s.hit e ev).2) (hp : x.silencePort = some p) :
    (∀ n, (s.port p).mu.live = true → (s.port p).mu.copyLimit j = some n → (s.hit e ev).1.QuietAt p j n) ∧
    ((s.port p).mu.live = false → (s.hit e ev).1.QuietStopped p j) := by
  rw [hit_fires hr ha hg, fire_eq] at hm ⊢
  have there : (s.firedAlone e.slot (r.counted ev) e.side.actions ev).table.recordAt j = some x := by
    rw [firedAlone_table, WatchTable.recordAt_setRecord, if_neg fun h => hj h.1.symm, hx]
  have timers := armAll_quiet _ _ hm there hw hp
  rwa [firedAlone_mu] at timers

/-! ### What a hit that reaches the goal hands over (R46 to R48) -/

theorem hit_notice (ev : HitEvent) : (s.hit e ev).1.notice = { s.notice with signals := s.notice.signals ++
    (if e.side.actions.signal then [(ev.takenBy, s.table.handleAt e.slot, r.owner)] else []) } := by
  rw [hit_fires hr ha hg, fire_eq]
  obtain ⟨hn, -, -⟩ := armAll_keeps (s.table.waitingAfter (s.table.handleAt e.slot))
    (s.firedAlone e.slot (r.counted ev) e.side.actions ev)
  exact hn.trans (dispatch_spec _ _ _ _ _ _ (actionPorts_nodup ev _)).1

theorem hit_cross (ev : HitEvent) : (s.hit e ev).1.cross = { s.cross with requests := s.cross.requests ++
    (match e.side.actions.crossPulse, ev.takenBy with
      | some x, .matchUnit p => [(p, x)]
      | _, _ => []) } := by
  rw [hit_fires hr ha hg, fire_eq]
  obtain ⟨-, hc, -⟩ := armAll_keeps (s.table.waitingAfter (s.table.handleAt e.slot))
    (s.firedAlone e.slot (r.counted ev) e.side.actions ev)
  exact hc.trans (dispatch_spec _ _ _ _ _ _ (actionPorts_nodup ev _)).2.1

/-- Run Control and the gate of a port see the actions that the port takes, if it is concerned. -/
theorem hit_port (ev : HitEvent) (p : PortId) :
    let q := if p ∈ actionPorts ev r.scope then
        (s.port p).takeActions ev e.side.actions (s.table.handleAt e.slot) r.owner
      else s.port p
    ((s.hit e ev).1.port p).rc = q.rc ∧ ((s.hit e ev).1.port p).gate = q.gate := by
  intro q
  obtain ⟨-, -, dispatched⟩ := dispatch_spec (s.setTable (s.table.setRecord e.slot ((r.counted ev).fired ev))) ev
    e.side.actions (s.table.handleAt e.slot) r.owner _ (actionPorts_nodup ev r.scope)
  have alone : (s.firedAlone e.slot (r.counted ev) e.side.actions ev).port p = q := dispatched p
  obtain ⟨-, -, kept⟩ := armAll_keeps (s.table.waitingAfter (s.table.handleAt e.slot))
    (s.firedAlone e.slot (r.counted ev) e.side.actions ev)
  rw [hit_fires hr ha hg, fire_eq, ← alone]
  exact kept p

end

end Sys2Proof.Machine

open Sys2Proof.Machine Sys2Proof.Machine.State

/-- Settles O45: a hit is discarded, counts, or fires; a fire writes the slots `hit_slotAt` names, and the timers and the
units keep what `QuietKept.hit` and `UnitsKept.hit` say. -/
theorem hitsCountAndFire : Obligations.HitsCountAndFire := by
  refine ⟨fun _ _ _ _ _ _ => ⟨rfl, rfl, rfl, rfl, rfl, rfl, rfl, rfl⟩, fun e ev s => ⟨hit_discarded, fun r hr ha => ?_⟩⟩
  intro counted
  refine ⟨hit_counts hr ha, fun hg => ?_⟩
  intro t armed number h
  have slots := hit_slotAt hr ha hg ev
  have mem := mem_hit_armed hr ha hg ev
  have table := hit_hitTo s e ev
  have units := UnitsKept.hit s e ev
  refine ⟨hit_matched s e ev, units.mu, units.cross, QuietKept.hit s e ev, ?_, fun j x hj hx hw hafter => ?_,
    fun j x hj hx hother => ?_, fun j hfree => ?_, table.counter, table.nextChange⟩
  · rw [slots, if_pos rfl, fired_eq ha hg]
    rfl
  · have hm := (mem j).2 ⟨x, hx, hw, hafter⟩
    refine ⟨hm, ?_, fun p n htr hsc => ?_⟩
    · rw [slots, if_neg hj, if_pos hm, hx, Option.map_some, armedRec, if_pos hw]
    · obtain ⟨starts, stops⟩ := hit_quiet hr ha hg ev hj hx hw hm (silencePort_iff.2 ⟨⟨n, htr⟩, hsc⟩)
      refine ⟨fun f before after limit hl hcopy hf hb hlim => starts limit hl ?_, stops⟩
      exact (copyLimit_iff _ _ _).2 ⟨before, f, after, hcopy, hf, hb, hlim⟩
  · have hm : j ∉ armed := fun hm => by
      obtain ⟨y, hy, hw, hafter⟩ := (mem j).1 hm
      cases hx.symm.trans hy
      exact hother.elim (fun hn => hn hw) fun hn => hn hafter
    exact ⟨hm, by rw [slots, if_neg hj, if_neg hm]⟩
  · have hm : j ∉ armed := fun hm => by
      obtain ⟨y, hy, -⟩ := (mem j).1 hm
      cases hfree.symm.trans hy
    have hj : j ≠ e.slot := fun hj => by
      rw [hj, hr] at hfree
      cases hfree
    exact ⟨hm, by rw [slots, if_neg hj, if_neg hm]⟩

/-- Settles O46: what the dispatch of a fire hands over (`dispatch_spec`), and that arming the dependents hands over
nothing. -/
theorem firesDispatchTheirActions : Obligations.FiresDispatchTheirActions := by
  refine ⟨fun _ _ _ _ _ _ => ⟨⟨rfl, rfl⟩, ⟨rfl, rfl⟩, ⟨rfl, rfl⟩, rfl, rfl⟩, fun e ev s r hr ha hg => ?_⟩
  intro t a h concerned gates
  have cross := hit_cross hr ha hg ev
  have port := hit_port hr ha hg ev
  have mem (p) : p ∈ actionPorts ev r.scope ↔ concerned p := mem_actionPorts ev r.scope p
  refine ⟨hit_notice hr ha hg ev, fun p hp => ?_, fun hc => ?_, fun p hn => ?_, fun p hc hfree => ?_⟩
  · rw [cross, hp]
    cases a.crossPulse <;> rfl
  · rw [cross, hc]
    simp
  · have same : (if p ∈ actionPorts ev r.scope then (s.port p).takeActions ev a h r.owner else s.port p) = s.port p := by
      split
      · next hm =>
        have sole := hn.resolve_left (not_not_intro ((mem p).1 hm))
        exact (takeActions_spec _ _ _ _ _).1 ((foreignSole_iff _ _).2 sole)
      · rfl
    obtain ⟨hrc, hgate⟩ := port p
    exact ⟨hrc.trans (congrArg _ same), hgate.trans (congrArg _ same)⟩
  · have sole : (s.port p).foreignSole r.owner = false := Bool.eq_false_iff.2 fun hs => by
      obtain ⟨d, hd, hsole⟩ := (foreignSole_iff _ _).1 hs
      rw [hfree d hd] at hsole
      cases hsole
    obtain ⟨hrc, hgate⟩ := port p
    obtain ⟨ofMatch, ofCross⟩ := (takeActions_spec (s.port p) ev a h r.owner).2 sole
    rw [if_pos ((mem p).2 hc)] at hrc hgate
    refine ⟨fun hp => ?_, fun hx => ?_⟩
    · obtain ⟨rc, gate⟩ := ofMatch p hp
      exact ⟨hrc.trans rc, hgate.trans gate⟩
    · obtain ⟨rc, gate⟩ := ofCross hx
      exact ⟨hrc.trans rc, hgate.trans gate⟩
end

section
/-! PROOFS. What a contribution does to a tally, and the mean of a tally (O44). -/

namespace Sys2Proof.Machine

/-! ### The range of a sign and the limits (R59, R63, R64) -/

theorem TallySign.low_eq (sg : TallySign) : sg.low = if sg = .unsigned then 0 else -2147483648 := by cases sg <;> rfl

theorem TallySign.high_eq (sg : TallySign) : sg.high = if sg = .unsigned then 4294967295 else 2147483647 := by
  cases sg <;> rfl

namespace Tally

variable {t : Tally} {k : Int}

/-! ### The contribution of a hit (R61) -/

theorem contribution_of_count (o : Option Observation) (h : t.mode = .count) : t.contribution o = 1 := by
  simp [contribution, h]

theorem contribution_of_sum (ob : Observation) (h : t.mode = .sum) :
    t.contribution (some ob) = ob.width.number t.sign ob.data := by
  simp [contribution, h]

/-! ### The accumulator and the overflow flag (R62 to R64) -/

theorem accumulate_held (hl : t.limit = .saturate) (ho : t.overflow = true) : t.accumulate k = t := by
  simp [accumulate, hl, ho]

section
variable (hfree : t.limit = .saturate → t.overflow = false)
include hfree

/-- A tally that R64 does not hold: the true sum decides by the side on which it lies. -/
theorem accumulate_of_free : t.accumulate k =
    if t.sign.high < t.accumulator + k then { t with
      overflow := true
      accumulator := if t.limit = .wrap then t.accumulator + k - 4294967296 else t.sign.high }
    else if t.accumulator + k < t.sign.low then { t with
      overflow := true
      accumulator := if t.limit = .wrap then t.accumulator + k + 4294967296 else t.sign.low }
    else { t with accumulator := t.accumulator + k } := by
  have free : (t.limit = .saturate && t.overflow) = false := by simpa using hfree
  unfold accumulate
  rw [free]
  cases t.limit <;> rfl

theorem accumulate_within (hlow : t.sign.low ≤ t.accumulator + k) (hhigh : t.accumulator + k ≤ t.sign.high) :
    t.accumulate k = { t with accumulator := t.accumulator + k } := by
  rw [accumulate_of_free hfree, if_neg hhigh.not_gt, if_neg hlow.not_gt]

theorem accumulate_above (h : t.sign.high < t.accumulator + k) : t.accumulate k = { t with
    overflow := true
    accumulator := if t.limit = .wrap then t.accumulator + k - 4294967296 else t.sign.high } := by
  rw [accumulate_of_free hfree, if_pos h]

theorem accumulate_below (h : t.accumulator + k < t.sign.low) : t.accumulate k = { t with
    overflow := true
    accumulator := if t.limit = .wrap then t.accumulator + k + 4294967296 else t.sign.low } := by
  have range : t.sign.low ≤ t.sign.high := by cases t.sign <;> decide
  rw [accumulate_of_free hfree, if_neg (h.trans_le range).not_gt, if_pos h]

end

theorem accumulate_kind (t : Tally) (k : Int) : (t.accumulate k).mode = t.mode ∧ (t.accumulate k).limit = t.limit := by
  by_cases hfree : t.limit = .saturate → t.overflow = false
  · rw [accumulate_of_free hfree]
    split
    · exact ⟨rfl, rfl⟩
    · split <;> exact ⟨rfl, rfl⟩
  · obtain ⟨hl, ho⟩ := Classical.not_imp.1 hfree
    rw [accumulate_held hl (by simpa using ho)]
    exact ⟨rfl, rfl⟩

/-! ### One contribution (R62) -/

theorem contribute_contributions (o : Option Observation) (h : t.contributions < 4294967295) :
    (t.contribute o).contributions = t.contributions + 1 := if_pos h

theorem contribute_contributions_full (o : Option Observation) (h : t.contributions = 4294967295) :
    (t.contribute o).contributions = 4294967295 := if_neg (by omega)

end Tally

/-! ### The mean (R66) -/

/-- The mean is the quotient rounded down or up, by the remainder; half-way the parity of the quotient decides. -/
theorem roundedMean_cases (a : Int) (n : Nat) :
    (roundedMean a n = a / n ∧ (2 * (a % n) < n ∨ 2 * (a % n) = n ∧ a / n % 2 = 0)) ∨
    (roundedMean a n = a / n + 1 ∧ (n < 2 * (a % n) ∨ 2 * (a % n) = n ∧ a / n % 2 = 1)) := by
  unfold roundedMean
  extract_lets q r
  split
  · next below => exact .inl ⟨rfl, .inl below⟩
  · next notBelow =>
    split
    · next above => exact .inr ⟨rfl, .inl above⟩
    · next notAbove =>
      have half : 2 * r = n := by omega
      split
      · next even => exact .inl ⟨rfl, .inr ⟨half, even⟩⟩
      · next odd => exact .inr ⟨rfl, .inr ⟨half, by omega⟩⟩

theorem roundedMean_nearest (a : Int) (n : Nat) (hn : 0 < n) :
    let twice := 2 * (a - roundedMean a n * n)
    twice ≤ n ∧ -(n : Int) ≤ twice ∧ (twice = n ∨ twice = -(n : Int) → roundedMean a n % 2 = 0) := by
  intro twice
  have nonneg : 0 ≤ a % n := Int.emod_nonneg a (by omega)
  have less : a % n < n := Int.emod_lt_of_pos a (by omega)
  have rest : a - a / n * n = a % n := by rw [Int.emod_def, Int.mul_comm]
  rcases roundedMean_cases a n with ⟨down, side⟩ | ⟨up, side⟩
  · have value : twice = 2 * (a % n) := by simp only [twice, down, rest]
    rw [down]
    omega
  · have value : twice = 2 * (a % n) - 2 * n := by simp only [twice, up, ← rest]; ring
    rw [up]
    omega

end Sys2Proof.Machine

open Sys2Proof.Machine

/-- Settles O44: the value of a datum is `numberOf_spec`, the accumulator goes by the side of the true sum
(`accumulate_within`, `accumulate_above`, `accumulate_below`), and the mean is `roundedMean_nearest`. -/
theorem talliesTakeContributions : Obligations.TalliesTakeContributions := by
  refine ⟨fun t o => ?_, roundedMean_nearest⟩
  intro k u low high
  have hlow : low = t.sign.low := t.sign.low_eq.symm
  have hhigh : high = t.sign.high := t.sign.high_eq.symm
  have acc : u.accumulator = (t.accumulate k).accumulator := rfl
  have flag : u.overflow = (t.accumulate k).overflow := rfl
  obtain ⟨mode, limit⟩ := Tally.accumulate_kind t k
  rw [hlow, hhigh, acc, flag]
  refine ⟨Tally.contribution_of_count o, fun ob hm ho => ?_, mode, Tally.accumulate_sign t k, limit,
    Tally.contribute_contributions o, Tally.contribute_contributions_full o, fun hl ho => ?_,
    fun hfree => ⟨fun hl hh => ?_, fun h => ?_, fun h => ?_⟩⟩
  · intro n
    have value : k = ob.width.number t.sign ob.data := by simp only [k, ho, Tally.contribution_of_sum ob hm]
    obtain ⟨unsigned, nonnegative, negative⟩ := numberOf_spec ob.width ob.data
    rw [value]
    refine ⟨fun hs => ?_, fun hs hn => ?_, fun hs hn => ?_⟩
    · rw [hs]; exact unsigned
    · rw [hs]; exact nonnegative hn
    · rw [hs]; exact negative hn
  · rw [Tally.accumulate_held hl ho]
    exact ⟨rfl, ho⟩
  · rw [Tally.accumulate_within hfree hl hh]
    exact ⟨rfl, rfl⟩
  · rw [Tally.accumulate_above hfree h]
    exact ⟨rfl, rfl⟩
  · rw [Tally.accumulate_below hfree h]
    exact ⟨rfl, rfl⟩
end

section
/-! PROOFS. What Run Control does to one port: sets of channels, run states, STOP and RUN, and the hold set (O21). -/

namespace Sys2Proof.Machine

open Host State

/-! ### Sets of channels -/

namespace ChanSet

@[simp] theorem has_empty (c : ChanId) : empty.has c = false := by
  fin_cases c <;> rfl

@[simp] theorem has_ofPred (f : ChanId → Bool) (c : ChanId) : (ofPred f).has c = f c := by
  fin_cases c <;> rfl

@[simp] theorem has_insert (a : ChanSet) (d c : ChanId) : (a.insert d).has c = (decide (c = d) || a.has c) := by
  by_cases h : c = d
  · subst h
    simp [has, insert]
  · simp [has, insert, h, Fin.val_ne_of_ne (Ne.symm h)]

@[simp] theorem has_union (a b : ChanSet) (c : ChanId) : (a.union b).has c = (a.has c || b.has c) := has_ofPred _ c

@[simp] theorem has_single (d c : ChanId) : (single d).has c = decide (c = d) := by
  simp [single]

end ChanSet

namespace Port

variable {q : Port} {l : ChanSet} {b : Bool}

/-- STOP starts the stop timer at the port's own limit (R75, R76). -/
theorem startStop_eq (q : Port) : q.startStop = { (q.sendFrame .stop).enter .stopping with
    rc := { ((q.sendFrame .stop).enter .stopping).rc with
      stopTimer := some q.settings.stopLimit, expiries := 0 } } := by
  rw [← sendFrame_settings q .stop]
  rfl

@[simp] theorem has_claimants (q : Port) (c : ChanId) : q.claimants.has c = q.hasClaim c := ChanSet.has_ofPred _ c

theorem has_concerned (q : Port) (c : ChanId) : q.concerned.has c = (q.hasClaim c || q.rc.holds.has c) := by
  simp [concerned]

/-! ### The hold set (R80, R81, R91, R92) -/

theorem unheld_iff : q.unheld = true ↔ (∀ c, q.rc.holds.has c = false) ∧ q.rc.boardHold = false := by
  simp [unheld, set_empty_iff]

/-- The port once entries have left the hold set, before R81 acts. -/
def leave (q : Port) (l : ChanSet) (b : Bool) : Port :=
  { q with rc := { q.rc with
    holds := ChanSet.ofPred fun c => q.rc.holds.has c && !l.has c,
    boardHold := q.rc.boardHold && !b } }

/-- The port whose hold set a leaving has emptied (R81, R92). -/
def lastLeft (q : Port) (l : ChanSet) : Port := { q with rc := { q.rc with resumers := l, budget := 0 } }

/-- A leaving that empties no hold set raises nothing. -/
theorem removeHolds_kept (h : (q.leave l b).unheld = false ∨ q.unheld = true) :
    q.removeHolds l b = (q.leave l b).quietly := by
  refine if_neg ?_
  rw [Bool.and_eq_true, Bool.not_eq_true']
  rintro ⟨emptied, held⟩
  rcases h with h | h
  · exact Bool.false_ne_true (h.symm.trans emptied)
  · exact Bool.false_ne_true (held.symm.trans h)

theorem removeHolds_emptied (h : (q.leave l b).unheld = true) (held : q.unheld = false) :
    q.removeHolds l b = (q.leave l b).emptied l := by
  refine if_pos ?_
  rw [Bool.and_eq_true, Bool.not_eq_true']
  exact ⟨h, held⟩

/-- The board runs on once its last hold is gone. -/
theorem emptied_resumes (h : q.rc.run = .frozen ∨ q.rc.run = .stepping ∨ q.rc.run = .unresponsive) :
    q.emptied l = (q.lastLeft l).resumeBoard := by
  unfold emptied
  rcases h with h | h | h <;> rw [h] <;> rfl

/-- A port that is not held in a stop sends no RUN when its last hold goes. -/
theorem emptied_quiet (h : q.rc.run = .stopping ∨ q.rc.run = .offline ∨ q.rc.run = .running) :
    q.emptied l = (q.lastLeft l).quietly := by
  unfold emptied
  rcases h with h | h | h <;> rw [h] <;> rfl

theorem removeHolds_offline_raised (h : q.rc.run = .offline) : (q.removeHolds l b).raised = none := by
  by_cases last : (q.leave l b).unheld = true ∧ q.unheld = false
  · rw [removeHolds_emptied last.1 last.2, emptied_quiet (q := q.leave l b) (.inr (.inl h))]
    rfl
  · rw [removeHolds_kept (by simpa [Classical.or_iff_not_imp_left] using last)]
    rfl

/-- Only a board hold that is there can leave. -/
theorem removeHolds_board (q : Port) (l : ChanSet) (b : Bool) :
    q.removeHolds l (q.rc.boardHold && b) = q.removeHolds l b := by
  have same : q.leave l (q.rc.boardHold && b) = q.leave l b := by
    unfold leave
    cases q.rc.boardHold <;> rfl
  by_cases last : (q.leave l b).unheld = true ∧ q.unheld = false
  · rw [removeHolds_emptied last.1 last.2, removeHolds_emptied (same ▸ last.1) last.2, same]
  · have kept : (q.leave l b).unheld = false ∨ q.unheld = true := by
      simpa [Classical.or_iff_not_imp_left] using last
    rw [removeHolds_kept kept, removeHolds_kept (same ▸ kept), same]

theorem removeHold_member {c : ChanId} (h : q.rc.holds.has c = true) :
    q.removeHold c b = q.removeHolds (ChanSet.single c) b := by
  rw [removeHold, if_pos h]

theorem removeHold_stranger {c : ChanId} (h : q.rc.holds.has c = false) :
    q.removeHold c b = q.removeHolds ChanSet.empty b := by
  rw [removeHold, h]
  rfl

end Port

end Sys2Proof.Machine

open Sys2Proof.Machine Sys2Proof.Machine.Port

/-- Settles O21: each operation by its own rule, and the leaving of the hold set by whether it empties the set
(`removeHolds_kept`, `removeHolds_emptied`) and by the run state then (`emptied_resumes`, `emptied_quiet`). -/
theorem stopRunAndHoldOperations : Obligations.StopRunAndHoldOperations := by
  refine ⟨fun a b c d f => ⟨rfl, ChanSet.has_empty c, ChanSet.has_single d c, ChanSet.has_insert a d c,
    ChanSet.has_union a b c, ChanSet.has_ofPred f c⟩, fun p o s => ?outcome, fun q => ⟨fun c => ⟨has_claimants q c,
    has_concerned q c⟩, fun c b => ⟨removeHold_member, removeHold_stranger⟩, unheld_iff, fun _ => rfl,
    startStop_eq q, ⟨rfl, rfl, rfl⟩, fun _ => rfl, fun l b => ⟨removeHolds_kept, fun last held => ?leave⟩⟩⟩
  case outcome =>
    obtain ⟨q, raised, settled⟩ := o
    cases raised <;> cases settled <;> rfl
  case leave =>
    have leaves := removeHolds_emptied (l := l) (b := b) last held
    exact ⟨fun run => leaves.trans (emptied_resumes run), fun run => leaves.trans (emptied_quiet run)⟩
end

section
/-! PROOFS. HALT, RESUME and STEP (O23, O24, O25). -/

namespace Sys2Proof.Machine

open Host State

variable {s : State} {c : ChanId} {f : Frame} {p : PortId} {n : Nat}

/-! ### HALT (R77, R78) -/

theorem halt_refused (hr : s.Ready c kindHalt f) (hp : readPortPayload f.payload = none) :
    AnswersOnly (.halt c) s c f .bad [] :=
  next_congr (by rw [State.halt, hr.openRequest]; simp only [hp])

theorem halt_noClaim (hr : s.Ready c kindHalt f) (hp : readPortPayload f.payload = some p)
    (hc : (s.port p).hasClaim c = false) : AnswersOnly (.halt c) s c f .noClaim [] :=
  next_congr (by rw [State.halt, hr.openRequest]; simp only [hp, popFrame_port, hc]; rfl)

/-- A HALT waits while the board has yet to stop. -/
theorem halt_waits (hr : s.Ready c kindHalt f) (hp : readPortPayload f.payload = some p)
    (hc : (s.port p).hasClaim c = true)
    (run : (s.port p).rc.run = .running ∨ (s.port p).rc.run = .stepping ∨ (s.port p).rc.run = .stopping) :
    exec (.halt c) s = .next
      (((s.popFrame c).setPort p ((s.port p).addHold c).stopBoard).wait c f (.settle p)) := by
  refine next_congr ?_
  rw [State.halt, hr.openRequest]
  rcases run with run | run | run <;> simp only [hp, popFrame_port, hc, run, if_true]

/-- Where the board is stopped or out of reach a HALT is answered at once, and sends nothing. -/
theorem halt_answered {st : Status} (hr : s.Ready c kindHalt f) (hp : readPortPayload f.payload = some p)
    (hc : (s.port p).hasClaim c = true)
    (run : (s.port p).rc.run = .frozen ∧ st = .done ∨ (s.port p).rc.run = .unresponsive ∧ st = .unresponsive ∨
      (s.port p).rc.run = .offline ∧ st = (s.port p).offlineStatus) :
    exec (.halt c) s = .next (((s.popFrame c).setPort p ((s.port p).addHold c)).answer c f st []) := by
  refine next_congr ?_
  rw [State.halt, hr.openRequest]
  rcases run with ⟨run, rfl⟩ | ⟨run, rfl⟩ | ⟨run, rfl⟩ <;>
    simp only [hp, popFrame_port, hc, stopBoard_eq, addHold_run, run, if_true]

/-! ### RESUME (R80) -/

theorem resume_refused (hr : s.Ready c kindResume f) (hp : readPortPayload f.payload = none) :
    AnswersOnly (.resume c) s c f .bad [] :=
  next_congr (by rw [State.resume, hr.openRequest]; simp only [hp])

/-- A RESUME with an entry to take out is answered with what the removal leaves. -/
theorem resume_removes {o : RunOutcome} (hr : s.Ready c kindResume f) (hp : readPortPayload f.payload = some p)
    (entry : (s.port p).rc.holds.has c = true ∨ (s.port p).rc.boardHold = true ∧ (s.port p).hasClaim c = true)
    (removal : (s.port p).removeHold c ((s.port p).hasClaim c) = o) :
    exec (.resume c) s = .next (((s.popFrame c).applyRun p o).answer c f .done (resumeAnswer o.port)) := by
  refine next_congr ?_
  rw [State.resume, hr.openRequest, ← removal]
  simp only [hp, popFrame_port]
  exact if_pos (by simpa using entry)

/-- A RESUME with no entry to take out changes nothing. -/
theorem resume_nothing (hr : s.Ready c kindResume f) (hp : readPortPayload f.payload = some p)
    (stranger : (s.port p).rc.holds.has c = false)
    (board : (s.port p).rc.boardHold = true → (s.port p).hasClaim c = false) :
    AnswersOnly (.resume c) s c f (if (s.port p).rc.boardHold then .noClaim else .notHeld) [] := by
  refine next_congr ?_
  rw [State.resume, hr.openRequest]
  simp only [hp, popFrame_port]
  exact if_neg (by simpa [stranger] using board)

/-- The bytes of a RESUME's answer (R191). -/
theorem resumeAnswer_eq (q : Port) : resumeAnswer q = [match q.rc.run with
    | .running => 0
    | .stopping => 1
    | .frozen => 2
    | .stepping => 3
    | .unresponsive => 4
    | .offline => 5,
    BitVec.ofNat 8 (((List.finRange 8).filter fun d => q.rc.holds.has d).length +
      (if q.rc.boardHold then 1 else 0))] := by
  unfold resumeAnswer
  cases q.rc.run <;> rfl

/-! ### STEP (R82) -/

theorem step_refused (hr : s.Ready c kindStep f) (hp : readStep f.payload = none) :
    AnswersOnly (.stepBoard c) s c f .bad [] :=
  next_congr (by rw [State.stepBoard, hr.openRequest]; simp only [hp])

/-- A STEP of a board that runs, is out of reach or does not answer is told so. -/
theorem step_unheld {st : Status} (hr : s.Ready c kindStep f) (hp : readStep f.payload = some (p, n))
    (run : (s.port p).rc.run = .running ∧ st = .running ∨ (s.port p).rc.run = .unresponsive ∧ st = .unresponsive ∨
      (s.port p).rc.run = .offline ∧ st = (s.port p).offlineStatus) :
    AnswersOnly (.stepBoard c) s c f st [] := by
  refine next_congr ?_
  rw [State.stepBoard, hr.openRequest]
  rcases run with ⟨run, rfl⟩ | ⟨run, rfl⟩ | ⟨run, rfl⟩ <;> simp only [hp, popFrame_port, run]

theorem step_notHeld (hr : s.Ready c kindStep f) (hp : readStep f.payload = some (p, n))
    (run : (s.port p).rc.run = .frozen ∨ (s.port p).rc.run = .stepping ∨ (s.port p).rc.run = .stopping)
    (stranger : (s.port p).rc.holds.has c = false) : AnswersOnly (.stepBoard c) s c f .notHeld [] := by
  refine next_congr ?_
  rw [State.stepBoard, hr.openRequest]
  rcases run with run | run | run <;> simp only [hp, popFrame_port, run, stranger, Bool.false_eq_true, if_false]

theorem step_starts (hr : s.Ready c kindStep f) (hp : readStep f.payload = some (p, n))
    (run : (s.port p).rc.run = .frozen) (member : (s.port p).rc.holds.has c = true) :
    exec (.stepBoard c) s = .next (((s.popFrame c).setPort p
      ((({ s.port p with rc := { (s.port p).rc with budget := n } } : Port).sendFrame .run).enter .stepping)).answer c f
      .done (halfBytes (halfOf n))) := by
  refine next_congr ?_
  rw [State.stepBoard, hr.openRequest]
  simp only [hp, popFrame_port, run, member, if_true]
  have budget (q : Port) (h : q.rc.budget = n) : ((q.sendFrame .run).enter .stepping).rc.budget = n := by
    simpa [Port.enter] using h
  rw [budget _ rfl]
  rfl

/-- A STEP of a board that steps or stops adds to the budget. -/
theorem step_adds (hr : s.Ready c kindStep f) (hp : readStep f.payload = some (p, n))
    (run : (s.port p).rc.run = .stepping ∨ (s.port p).rc.run = .stopping)
    (member : (s.port p).rc.holds.has c = true) :
    let raised := satAdd Config.budgetLimit (s.port p).rc.budget n
    exec (.stepBoard c) s = .next (((s.popFrame c).setPort p
      { s.port p with rc := { (s.port p).rc with budget := raised } }).answer c f .done (halfBytes (halfOf raised))) := by
  refine next_congr ?_
  rw [State.stepBoard, hr.openRequest]
  rcases run with run | run <;> simp only [hp, popFrame_port, run, member, if_true] <;> rfl

end Sys2Proof.Machine

open Sys2Proof.Machine Sys2Proof.Machine.State Sys2Proof.Machine.Port

/-- Settles O23: a HALT waits from RUNNING, STEPPING and STOPPING (`halt_waits`), where the stop of the board is that of
`stopBoard_eq`, and is answered at once from the others (`halt_answered`). -/
theorem haltHoldsAndStopsTheBoard : Obligations.HaltHoldsAndStopsTheBoard := by
  refine fun c f s => ⟨fun hh hc => next_congr (hh.openRequest_closed hc _), fun hr => ⟨halt_refused hr,
    fun p hp => ⟨halt_noClaim hr hp, fun hc => ⟨fun run => ?_, fun run => ?_, fun run => ?_,
    fun run => halt_answered hr hp hc (.inl ⟨run, rfl⟩), fun run => halt_answered hr hp hc (.inr (.inl ⟨run, rfl⟩)),
    fun run => halt_answered hr hp hc (.inr (.inr ⟨run, rfl⟩))⟩⟩⟩⟩
  · rw [halt_waits hr hp hc (.inl run), stopBoard_eq, addHold_run, run]
  · rw [halt_waits hr hp hc (.inr (.inl run)), stopBoard_eq, addHold_run, run]
  · rw [halt_waits hr hp hc (.inr (.inr run)), stopBoard_eq, addHold_run, run]

/-- Settles O24: a RESUME takes out what there is of the requester's entry and the board hold (`resume_removes`), and is
refused where there is neither (`resume_nothing`). -/
theorem resumeLeavesTheHoldSet : Obligations.ResumeLeavesTheHoldSet := by
  refine fun c f s => ⟨fun hh hc => next_congr (hh.openRequest_closed hc _), fun hr => ⟨resume_refused hr,
    fun p hp => ?_⟩⟩
  intro q done
  have removes (entry : q.rc.holds.has c = true ∨ q.rc.boardHold = true ∧ q.hasClaim c = true) (l : ChanSet) (b : Bool)
      (removal : q.removeHold c (q.hasClaim c) = q.removeHolds l b) : done l b :=
    (resume_removes hr hp entry removal).trans
      (next_congr (congrArg (State.answer _ c f .done ·) (resumeAnswer_eq _)))
  refine ⟨fun member => removes (.inl member) _ _ ?_, fun stranger board claim => removes (.inr ⟨board, claim⟩) _ _ ?_,
    fun stranger board claim => ?_, fun stranger board => ?_⟩
  · rw [removeHold_member member, removeHolds_board]
  · rw [removeHold_stranger stranger, claim]
  · simpa [q, board] using resume_nothing hr hp stranger fun _ => claim
  · simpa [q, board] using resume_nothing hr hp stranger fun h => absurd (h.symm.trans board) (by decide)

/-- Settles O25: the payload is `readStep_iff`, and the run state and the requester's hold choose among `step_unheld`,
`step_notHeld`, `step_starts` and `step_adds`. -/
theorem stepRunsAHeldBoard : Obligations.StepRunsAHeldBoard := by
  refine ⟨readStep_iff, fun c f s => ⟨fun hh hc => next_congr (hh.openRequest_closed hc _), fun hr => ⟨step_refused hr,
    fun p n hp => ⟨fun run => step_unheld hr hp (.inl ⟨run, rfl⟩), fun run => step_unheld hr hp (.inr (.inr ⟨run, rfl⟩)),
    fun run => step_unheld hr hp (.inr (.inl ⟨run, rfl⟩)), step_notHeld hr hp, step_starts hr hp, step_adds hr hp⟩⟩⟩⟩
end

section
/-! PROOFS. The FREEZE action, the reports of observations and the stop of the board (O26, O27). -/

namespace Sys2Proof.Machine

open Host State Port

variable {s : State} {p : PortId} {q : Port}

/-! ### What the units hand over (R45, R46, R79, R83) -/

theorem takeFirst_none {α : Type} {sel : α → Bool} {l : List α} (h : ∀ x ∈ l, sel x = false) :
    takeFirst sel l = none := by
  cases hl : takeFirst sel l with
  | none => rfl
  | some y =>
    obtain ⟨accepted, before, after, rfl, -, -⟩ := takeFirst_spec sel l hl
    have refused : sel y.1 = false := h y.1 (by simp)
    exact absurd (refused.symm.trans accepted) (by decide)

theorem isFreeze_iff (m : UnitToRun) : m.isFreeze = true ↔ ∃ sender owner, m = .freeze sender owner := by
  cases m <;> simp [UnitToRun.isFreeze]

theorem isCrossFreeze_iff (m : UnitToRun) : m.isCrossFreeze = true ↔ ∃ owner, m = .freeze true owner := by
  cases m <;> simp [UnitToRun.isCrossFreeze]

/-- Which hand-overs a FREEZE command looks at: those of the Cross Line Unit pass over the reports of the Match Unit
(log 3). -/
def freezeSel (crossSender : Bool) (m : UnitToRun) : Bool := !crossSender || m.isFreeze

/-- The port `r` after a FREEZE of `owner` (R79). -/
def State.frozenBy (s : State) (r : Port) (owner : ChanId) : Port :=
  if (s.chan owner).isOpen then (r.addHold owner).stopBoard else r

/-- The oldest FREEZE action is taken when it is of the sender named. -/
theorem freeze_takes {sender : Bool} {owner : ChanId} {rest : List UnitToRun}
    (h : takeFirst (freezeSel sender) (s.port p).rc.fromUnits = some (.freeze sender owner, rest)) :
    exec (.freeze p sender) s = .next (s.setPort p (s.frozenBy
      { s.port p with rc := { (s.port p).rc with fromUnits := rest } } owner)) := by
  refine next_congr ?_
  unfold freezeSel at h
  simp only [State.freeze, h, if_true]
  rfl

/-- Without a FREEZE action of its sender in its turn a FREEZE command does nothing (log 1). -/
theorem freeze_early {sender : Bool}
    (h : ∀ owner rest, takeFirst (freezeSel sender) (s.port p).rc.fromUnits ≠ some (.freeze sender owner, rest)) :
    exec (.freeze p sender) s = .next s := by
  refine next_congr ?_
  unfold freezeSel at h
  simp only [State.freeze]
  split
  · next other owner rest taken =>
    refine if_neg ?_
    rintro rfl
    exact h owner rest taken
  · rfl
  · rfl

theorem observationTaken_takes {rest : List UnitToRun}
    (h : takeFirst (fun m => !m.isCrossFreeze) (s.port p).rc.fromUnits = some (.taken, rest)) :
    exec (.observationTaken p) s = .next (s.setPort p
      ({ s.port p with rc := { (s.port p).rc with fromUnits := rest } } : Port).takeObservation) := by
  refine next_congr ?_
  simp only [State.observationTaken, h]
  rfl

/-- Without a report in its turn nothing happens (log 1). -/
theorem observationTaken_early
    (h : ∀ rest, takeFirst (fun m => !m.isCrossFreeze) (s.port p).rc.fromUnits ≠ some (.taken, rest)) :
    exec (.observationTaken p) s = .next s := by
  refine next_congr ?_
  simp only [State.observationTaken]
  split
  · next rest taken => exact absurd taken (h rest)
  · rfl
  · rfl

theorem takeObservation_other (h : q.rc.run ≠ .stepping) : q.takeObservation = q := if_neg h

theorem takeObservation_steps (h : q.rc.run = .stepping) (left : 1 < q.rc.budget) :
    q.takeObservation = { q with rc := { q.rc with budget := q.rc.budget - 1 } } :=
  (if_pos h).trans (if_neg (Nat.sub_ne_zero_of_lt left))

theorem takeObservation_last (h : q.rc.run = .stepping) (last : q.rc.budget ≤ 1) :
    q.takeObservation = ({ q with rc := { q.rc with budget := q.rc.budget - 1 } } : Port).startStop :=
  (if_pos h).trans (if_pos (Nat.sub_eq_zero_of_le last))

/-! ### STOPPED (R84) -/

/-- Without a STOPPED frame in its turn nothing happens (log 1). -/
theorem stopped_early (h : (s.port p).rc.reports.head? ≠ some .stopped) : exec (.stopped p) s = .next s := by
  have absent : takeReport (s.port p) .stopped = none := by
    unfold takeReport
    cases hl : (s.port p).rc.reports with
    | nil => rfl
    | cons x rest =>
      refine if_neg ?_
      rintro rfl
      exact h (by rw [hl]; rfl)
  exact next_congr (by rw [State.stopped, absent])

theorem stopped_takes {rest : List RunReport} (h : (s.port p).rc.reports = .stopped :: rest) :
    exec (.stopped p) s = .next (s.applyRun p
      ({ s.port p with rc := { (s.port p).rc with reports := rest } } : Port).takeStopped) :=
  next_congr (by rw [State.stopped, takeReport_head h])

/-- The hold set was emptied while the board stopped: it runs on. -/
theorem takeStopped_unheld (h : q.rc.run = .stopping) (free : q.unheld = true) : q.takeStopped = q.resumeBoard := by
  simp only [Port.takeStopped, h, free, if_true]

/-- A step came while the board stopped: it steps on. -/
theorem takeStopped_budget (h : q.rc.run = .stopping) (held : q.unheld = false) (left : 0 < q.rc.budget) :
    q.takeStopped = ((q.sendFrame .run).enter .stepping).quietly := by
  simp only [Port.takeStopped, h, held, left, Bool.false_eq_true, if_false, if_true]

theorem takeStopped_settles (h : q.rc.run = .stopping) (held : q.unheld = false) (spent : q.rc.budget = 0) :
    q.takeStopped =
      { port := q.enter .frozen, raised := some (.frozen, q.concerned), settled := some .done } := by
  simp only [Port.takeStopped, h, held, spent, Bool.false_eq_true, Nat.lt_irrefl, if_false]

/-- A board that was given up has stopped after all. -/
theorem takeStopped_late (h : q.rc.run = .unresponsive) :
    q.takeStopped = { port := q.enter .frozen, raised := some (.frozen, q.concerned), settled := none } := by
  simp only [Port.takeStopped, h]

/-- A board that stops without being told to is held by the board hold. -/
theorem takeStopped_self (h : q.rc.run = .running ∨ q.rc.run = .stepping) :
    q.takeStopped =
      { port := q.addBoardHold.enter .frozen, raised := some (.selfStop, q.concerned), settled := some .done } := by
  rcases h with h | h <;> simp only [Port.takeStopped, h]

theorem takeStopped_ignored (h : q.rc.run = .frozen ∨ q.rc.run = .offline) : q.takeStopped = q.quietly := by
  rcases h with h | h <;> simp only [Port.takeStopped, h]

/-! ### The stop timer (R76, R85) -/

theorem takeStopExpiry_discarded (h : q.rc.run ≠ .stopping ∨ q.rc.stopTimer = none) : q.takeStopExpiry = q.quietly := by
  refine if_neg ?_
  rintro ⟨stopping, timed⟩
  rcases h with h | h
  · exact h stopping
  · rw [h] at timed
    cases timed

theorem takeStopExpiry_runs (h : q.rc.run = .stopping) (timed : q.rc.stopTimer ≠ none) :
    q.rc.run = .stopping ∧ q.rc.stopTimer.isSome = true := ⟨h, Option.isSome_iff_ne_none.2 timed⟩

/-- The first expiry sends STOP again and restarts the timer. -/
theorem takeStopExpiry_first (h : q.rc.run = .stopping) (timed : q.rc.stopTimer ≠ none) (first : q.rc.expiries = 0) :
    q.takeStopExpiry = Port.quietly { q.sendFrame .stop with
      rc := { q.rc with expiries := 1, stopTimer := some q.settings.stopLimit } } := by
  unfold Port.takeStopExpiry
  rw [if_pos (takeStopExpiry_runs h timed), if_pos first]
  rw [← sendFrame_settings q .stop, ← sendFrame_rc q .stop]
  rfl

theorem takeStopExpiry_unheld (h : q.rc.run = .stopping) (timed : q.rc.stopTimer ≠ none) (later : q.rc.expiries ≠ 0)
    (free : q.unheld = true) : q.takeStopExpiry = q.resumeBoard := by
  unfold Port.takeStopExpiry
  rw [if_pos (takeStopExpiry_runs h timed), if_neg later, if_pos free]

/-- The second expiry gives the board up. -/
theorem takeStopExpiry_givesUp (h : q.rc.run = .stopping) (timed : q.rc.stopTimer ≠ none) (later : q.rc.expiries ≠ 0)
    (held : q.unheld = false) : q.takeStopExpiry =
      { port := q.enter .unresponsive, raised := some (.unresponsive, q.concerned), settled := some .unresponsive } := by
  unfold Port.takeStopExpiry
  rw [if_pos (takeStopExpiry_runs h timed), if_neg later, held]
  rfl

end Sys2Proof.Machine

open Sys2Proof Sys2Proof.Machine Sys2Proof.Machine.State

/-- Settles O26: which hand-over is the oldest a command looks at is read from the list (`takeFirst_split`,
`takeFirst_none`), and what it does is `freeze_takes` or `observationTaken_takes`. -/
theorem freezeAndObservationReports : Obligations.FreezeAndObservationReports := by
  intro p s q act isFreeze isCross
  have acts (r : Port) (owner : ChanId) (hr : r.rc.run = q.rc.run) : s.setPort p (s.frozenBy r owner) = act r owner := by
    simp only [act, frozenBy, stopBoard_eq, addHold_run, hr]
    split <;> rfl
  have passed {before : List UnitToRun} (hb : ∀ m ∈ before, ¬ isFreeze m) : ∀ m ∈ before, freezeSel true m = false :=
    fun m hm => Bool.eq_false_iff.2 fun h => hb m hm ((isFreeze_iff m).1 h)
  have crossed {before : List UnitToRun} (hb : ∀ m ∈ before, isCross m) : ∀ m ∈ before, (!m.isCrossFreeze) = false :=
    fun m hm => by rw [(isCrossFreeze_iff m).2 (hb m hm)]; rfl
  refine ⟨fun owner rest h => ?_, fun h => freeze_early fun owner rest taken => ?_, fun owner before after h hb => ?_,
    fun owner before after h hb => freeze_early fun owner' rest taken => ?_, fun hb => freeze_early fun owner rest => ?_,
    fun owner before after h hb => observationTaken_early fun rest taken => ?_,
    fun hb => observationTaken_early fun rest => ?_, fun before after h hb => ?_⟩
  · exact (freeze_takes (by rw [h]; rfl)).trans (next_congr (acts _ _ rfl))
  · cases hl : q.rc.fromUnits with
    | nil => rw [hl] at taken; cases taken
    | cons m tail => rw [hl] at taken; cases taken; exact h owner rest hl
  · have takes := freeze_takes (by rw [h]; exact takeFirst_split _ _ _ _ rfl (passed hb))
    exact takes.trans (next_congr (acts _ _ rfl))
  · rw [h, takeFirst_split _ _ _ _ rfl (passed hb)] at taken
    cases taken
  · rw [takeFirst_none (passed hb)]
    exact nofun
  · rw [h, takeFirst_split _ _ _ _ rfl (crossed hb)] at taken
    cases taken
  · rw [takeFirst_none (crossed hb)]
    exact nofun
  · have takes := observationTaken_takes (by rw [h]; exact takeFirst_split _ _ _ _ rfl (crossed hb))
    exact ⟨fun run => takes.trans (next_congr (congrArg (s.setPort p) (takeObservation_other run))),
      fun run left => takes.trans (next_congr (congrArg (s.setPort p) (takeObservation_steps run left))),
      fun run last => takes.trans (next_congr (congrArg (s.setPort p) (takeObservation_last run last)))⟩

/-- Settles O27: the outcome of a STOPPED frame is an equation of `takeStopped` for each run state, and that of an expiry
one of `takeStopExpiry`; `applyRun` puts it into effect. -/
theorem stoppedAndTheStopTimerAct : Obligations.StoppedAndTheStopTimerAct := by
  refine ⟨fun p s => ⟨stopped_early, fun rest h => ?stopped⟩, fun p s => ?expiry⟩
  case stopped =>
    intro q raise selfStopped
    have takes : exec (.stopped p) s = .next (s.applyRun p q.takeStopped) := stopped_takes h
    rw [takes]
    exact ⟨fun run free => by rw [takeStopped_unheld run free]; rfl,
      fun run held left => by rw [takeStopped_budget run held left]; rfl,
      fun run held spent => by rw [takeStopped_settles run held spent]; rfl,
      fun run => by rw [takeStopped_late run]; rfl, fun run => by rw [takeStopped_self run]; rfl,
      fun run => by rw [takeStopped_ignored run]; rfl⟩
  case expiry =>
    intro q
    have takes : exec (.stopTimerExpiry p) s = .next (s.applyRun p q.takeStopExpiry) := rfl
    rw [takes]
    exact ⟨fun idle => by rw [takeStopExpiry_discarded idle]; rfl, fun run timed =>
      ⟨fun first => by rw [takeStopExpiry_first run timed first]; rfl,
        fun later free => by rw [takeStopExpiry_unheld run timed later free]; rfl,
        fun later held => by rw [takeStopExpiry_givesUp run timed later held]; rfl⟩⟩
end

section
/-! PROOFS. Link, reset line and seat at Run Control (O28). -/

namespace Sys2Proof.Machine

open Host State Port

variable {s : State} {p : PortId} {rest : List RunReport} {n : Nat}

theorem linkLoss_takes (h : (s.port p).rc.reports = List.replicate n .stopped ++ .linkLost :: rest) :
    let q : Port := { s.port p with rc := { (s.port p).rc with reports := rest, linkLocked := false } }
    exec (.linkLossAtRunControl p) s = .next ((s.setPort p (q.enter .offline)).settleHalts p .noLink) :=
  next_congr (by rw [State.linkLossAtRunControl, takeDeparture_head (by decide) h]; rfl)

theorem unseat_takes (h : (s.port p).rc.reports = List.replicate n .stopped ++ .unseat :: rest) :
    let q : Port := { s.port p with rc := { (s.port p).rc with
      reports := rest, linkLocked := false, holds := ChanSet.empty, boardHold := false } }
    exec (.unseatAtRunControl p) s = .next ((s.setPort p (q.enter .offline)).settleHalts p .absent) :=
  next_congr (by rw [State.unseatAtRunControl, takeDeparture_head (by decide) h]; rfl)

/-- The board hold goes with an assertion of the reset line; no RESUMED is raised for it, since the port is OFFLINE. -/
theorem resetAsserted_takes (h : (s.port p).rc.reports = .resetAsserted :: rest) :
    let q : Port := { s.port p with rc := { (s.port p).rc with reports := rest, resetAsserted := true } }
    exec (.resetAsserted p) s = .next
      ((s.setPort p ((q.enter .offline).removeHolds ChanSet.empty true).port).settleHalts p .inReset) := by
  intro q
  have quiet : ((q.enter .offline).removeHolds ChanSet.empty true).raised = none :=
    Port.removeHolds_offline_raised (enter_run q .offline)
  refine next_congr ?_
  rw [State.resetAsserted, takeReport_head h]
  show (s.setPort p _ |>.raiseRun p ((q.enter .offline).removeHolds ChanSet.empty true).raised).settleHalts p .inReset = _
  rw [quiet]
  rfl

theorem linkLock_takes (h : (s.port p).rc.reports = .linkLocked :: rest) :
    let q : Port := { s.port p with rc := { (s.port p).rc with reports := rest, linkLocked := true } }
    exec (.linkLockAtRunControl p) s = .next (s.setPort p (if q.reachable then q.recompute else q)) :=
  next_congr (by rw [State.linkLockAtRunControl, takeReport_head h]; rfl)

theorem resetReleased_takes (h : (s.port p).rc.reports = .resetReleased :: rest) :
    let q : Port := { s.port p with rc := { (s.port p).rc with reports := rest, resetAsserted := false } }
    exec (.resetReleased p) s = .next (s.setPort p (if q.reachable then q.recompute else q)) :=
  next_congr (by rw [State.resetReleased, takeReport_head h]; rfl)

theorem reachable_iff (q : Port) : q.reachable = true ↔ q.rc.linkLocked = true ∧ q.rc.resetAsserted = false := by
  simp [Port.reachable]

end Sys2Proof.Machine

open Sys2Proof Sys2Proof.Machine Sys2Proof.Machine.State

/-- Settles O28: each report by its own lemma; a lock and a release recompute the run state where the other condition of
`reachable_iff` stands. -/
theorem linkResetAndSeatReportsAtRunControl : Obligations.LinkResetAndSeatReportsAtRunControl := by
  intro p n rest s q again
  refine ⟨linkLoss_takes, resetAsserted_takes, unseat_takes, fun h => ?_, fun h => ?_⟩
  · rw [linkLock_takes h]
    simp only [reachable_iff, true_and]
    rfl
  · rw [resetReleased_takes h]
    simp only [reachable_iff, and_true]
    rfl
end

section
/-! PROOFS. What opens and closes a capture gate: its own operations, the GATE request and the gate actions (O34, O35). -/

namespace Sys2Proof.Machine

open Host State

variable {s : State} {c : ChanId} {f : Frame} {p : PortId} {q : Port} {g : Gate} {cross : Bool} {span : Half}
  {rest : List GateMsg}

/-! ### Opening and closing (R97, R98) -/

namespace Gate

theorem closeBy_open (h : g.isOpen = true) (k : EventKind) :
    g.closeBy k = { g with isOpen := false, span := 0, closingMark := k = .observation } := if_pos h

theorem closeBy_closed (h : g.isOpen = false) (k : EventKind) : g.closeBy k = g :=
  if_neg (Bool.eq_false_iff.1 h)

/-- The gate once the oldest event of a sender is taken: `rest` waits behind it (R96). -/
def leaving (g : Gate) (cross : Bool) (rest : List GateMsg) : Gate :=
  if cross then { g with fromCross := rest } else { g with fromMatch := rest }

@[simp] theorem leaving_isOpen : (g.leaving cross rest).isOpen = g.isOpen := by
  cases cross <;> rfl

end Gate

theorem dropGateInbox_eq {m : GateMsg} (h : gateInbox g cross = m :: rest) :
    dropGateInbox g cross = g.leaving cross rest := by
  have tail : (gateInbox g cross).tail = rest := by rw [h]; rfl
  rw [← tail]
  cases cross <;> rfl

theorem Port.takeGateOpen_locked (h : q.tlc.link = .locked) (o : Opener) :
    (q.setGate g).takeGateOpen span o = q.setGate (g.openWith span o) := if_pos h

theorem Port.takeGateOpen_unlocked (h : q.tlc.link ≠ .locked) (o : Opener) :
    (q.setGate g).takeGateOpen span o = q.setGate g := if_neg h

/-! ### The gate actions and the unseat (R97, R98, R104) -/

theorem gateOpen_takes {h : Handle} {k : EventKind}
    (oldest : gateInbox (s.port p).gate cross = .openGate span h k :: rest) :
    exec (.gateOpen p cross) s = .next (s.setPort p
      (((s.port p).setGate ((s.port p).gate.leaving cross rest)).takeGateOpen span (.record h))) :=
  next_congr (by simp only [State.gateOpen, oldest, dropGateInbox_eq oldest])

theorem gateClose_takes {k : EventKind} (oldest : gateInbox (s.port p).gate cross = .closeGate k :: rest) :
    exec (.gateClose p cross) s = .next (s.setPort p
      ((s.port p).setGate (((s.port p).gate.leaving cross rest).closeBy k))) :=
  next_congr (by simp only [State.gateClose, oldest, dropGateInbox_eq oldest])

theorem unseatAtGate_takes (h : 0 < (s.port p).gate.unseats) :
    exec (.unseatAtGate p) s = .next (s.setPort p
      ((s.port p).setGate { (s.port p).gate.closeOff with unseats := (s.port p).gate.unseats - 1 })) :=
  next_congr (if_pos h)

/-! ### The GATE request (R103) -/

theorem gate_refused (hr : s.Ready c kindGate f) (hp : readGate f.payload = none) :
    AnswersOnly (.gate c) s c f .bad [] :=
  next_congr (by rw [State.gateRequest, hr.openRequest]; simp only [hp])

theorem gate_noClaim {op : Option Half} (hr : s.Ready c kindGate f) (hp : readGate f.payload = some (p, op))
    (hc : (s.port p).hasClaim c = false) : AnswersOnly (.gate c) s c f .noClaim [] :=
  next_congr (by rw [State.gateRequest, hr.openRequest]; simp only [hp, popFrame_port, hc]; rfl)

theorem gate_noLink (hr : s.Ready c kindGate f) (hp : readGate f.payload = some (p, some span))
    (hc : (s.port p).hasClaim c = true) (link : (s.port p).tlc.link ≠ .locked) :
    AnswersOnly (.gate c) s c f .noLink [] := by
  refine next_congr ?_
  rw [State.gateRequest, hr.openRequest]
  simp only [hp, popFrame_port, hc, link, if_true, if_false]

/-- GATE OPEN opens the gate for the channel, and reports it as opened. -/
theorem gate_opens (hr : s.Ready c kindGate f) (hp : readGate f.payload = some (p, some span))
    (hc : (s.port p).hasClaim c = true) (link : (s.port p).tlc.link = .locked) :
    let opened := (s.port p).gate.openWith span (.channel c)
    exec (.gate c) s = .next
      (((s.popFrame c).setPort p ((s.port p).setGate opened)).answer c f .done opened.answer) := by
  refine next_congr ?_
  rw [State.gateRequest, hr.openRequest]
  simp only [hp, popFrame_port, hc, link, if_true]

/-- GATE CLOSE closes the gate as an action of no observation does: no closing mark is set. -/
theorem gate_closes (hr : s.Ready c kindGate f) (hp : readGate f.payload = some (p, none))
    (hc : (s.port p).hasClaim c = true) :
    let closed := (s.port p).gate.closeBy .lineEdge
    exec (.gate c) s = .next
      (((s.popFrame c).setPort p ((s.port p).setGate closed)).answer c f .done closed.answer) := by
  refine next_congr ?_
  rw [State.gateRequest, hr.openRequest]
  simp only [hp, popFrame_port, hc, if_true]

end Sys2Proof.Machine

open Sys2Proof.Machine Sys2Proof.Machine.State

/-- Settles O34: the bytes are `readGate_iff` and `gate_bytes`; the claim, the link and the operation asked for choose
among `gate_noClaim`, `gate_noLink`, `gate_opens` and `gate_closes`. -/
theorem gateRequestOpensAndCloses : Obligations.GateRequestOpensAndCloses := by
  refine ⟨readGate_iff, gate_bytes, fun c f s => ⟨fun hh hc => next_congr (hh.openRequest_closed hc _),
    fun hr => ⟨gate_refused hr, fun p op hp => ?request⟩⟩⟩
  case request =>
    refine ⟨gate_noClaim hr hp, ?asksOpen, ?asksClose⟩
    case asksOpen =>
      rintro span rfl claimed
      exact ⟨gate_noLink hr hp claimed, gate_opens hr hp claimed⟩
    case asksClose =>
      rintro rfl claimed
      have closes := gate_closes hr hp claimed
      refine ⟨fun isOpen => ?_, fun isClosed => ?_⟩
      · rw [Gate.closeBy_open isOpen] at closes
        exact closes
      · rw [Gate.closeBy_closed isClosed] at closes
        exact closes

/-- Settles O35: the action is taken by `gateOpen_takes` or `gateClose_takes`; what it does turns on the link
(`takeGateOpen_locked`, `takeGateOpen_unlocked`) and on the gate (`closeBy_open`, `closeBy_closed`), which the taking
leaves as it was (`leaving_isOpen`). -/
theorem gateActionsOpenAndClose : Obligations.GateActionsOpenAndClose := by
  intro p cross s q inbox
  refine ⟨fun span h kind rest oldest => ?opens, fun kind rest oldest => ?closes, unseatAtGate_takes⟩
  case opens =>
    have takes := gateOpen_takes oldest
    exact ⟨fun link => takes.trans (next_congr (congrArg (s.setPort p) (Port.takeGateOpen_locked link _))),
      fun link => takes.trans (next_congr (congrArg (s.setPort p) (Port.takeGateOpen_unlocked link _)))⟩
  case closes =>
    have takes := gateClose_takes oldest
    have kept : (q.gate.leaving cross rest).isOpen = q.gate.isOpen := Gate.leaving_isOpen
    refine ⟨fun isOpen => ?_, fun isClosed => ?_⟩
    · rw [Gate.closeBy_open (kept.trans isOpen)] at takes
      exact takes
    · rw [Gate.closeBy_closed (kept.trans isClosed)] at takes
      exact takes
end

section
/-! PROOFS. The gate's decision on an observation (O36). -/

namespace Sys2Proof.Machine

open Host State

variable {s : State} {p : PortId} {g : Gate} {o : Observation} {epoch : Half}

/-! ### The decision by the gate, the store and the span (R99 to R102) -/

namespace Gate

theorem forwards_iff : g.forwards = true ↔ g.isOpen = true ∨ g.closingMark = true := by
  simp [forwards]

/-- The gate once it has begun to send an observation, before its span is counted down (R99, R101). -/
def sendRecord (g : Gate) (p : PortId) (o : Observation) (epoch : Half) : Gate :=
  { g with closingMark := false, sending := true, missed := 0, sent := g.sent ++ [captureRecord p epoch o g.missed] }

theorem decide_letGo (h : g.isOpen = false) (unmarked : g.closingMark = false) (ready : Bool) :
    g.decide p o epoch ready = { g with closingMark := false } := by
  refine if_neg ?_
  rw [forwards_iff, h, unmarked]
  simp

theorem decide_missed (h : g.isOpen = true ∨ g.closingMark = true) :
    g.decide p o epoch false = { g with closingMark := false, gap := true, missed := satAdd 255 g.missed 1 } :=
  if_pos (forwards_iff.2 h)

/-- A CLOSED gate with its closing mark set sends the observation and stays CLOSED. -/
theorem decide_sent_closed (h : g.isOpen = false) (marked : g.closingMark = true) :
    g.decide p o epoch true = g.sendRecord p o epoch := by
  rw [decide, if_pos (forwards_iff.2 (.inr marked))]
  simp [h, sendRecord]

/-- Span 0 is the gate that no number of records closes. -/
theorem decide_sent_unlimited (h : g.isOpen = true) (unlimited : g.span = 0) :
    g.decide p o epoch true = g.sendRecord p o epoch := by
  rw [decide, if_pos (forwards_iff.2 (.inl h))]
  simp [h, unlimited, sendRecord]

theorem decide_sent_counting (h : g.isOpen = true) (counting : 1 < g.span) :
    g.decide p o epoch true = { g.sendRecord p o epoch with span := g.span - 1 } := by
  have counts : 0 < g.span := by omega
  have left : g.span - 1 ≠ 0 := by omega
  rw [decide, if_pos (forwards_iff.2 (.inl h))]
  simp [h, counts, left, sendRecord]

/-- The last record of a counting span closes the gate. -/
theorem decide_sent_last (h : g.isOpen = true) (last : g.span = 1) :
    g.decide p o epoch true = { g.sendRecord p o epoch with span := 0, isOpen := false } := by
  rw [decide, if_pos (forwards_iff.2 (.inl h))]
  simp [h, last, sendRecord]

end Gate

/-! ### The hand-over (R45, R101) -/

theorem gateDecision_sending (h : (s.port p).gate.sending = true) (ready : Bool) :
    exec (.gateDecision p ready) s = .next s :=
  next_congr (by simp only [State.gateDecision, h])

theorem gateDecision_takes {rest : List GateMsg} (idle : (s.port p).gate.sending = false)
    (oldest : (s.port p).gate.fromMatch = .handOver o epoch :: rest) (ready : Bool) :
    exec (.gateDecision p ready) s = .next (s.setPort p { s.port p with
      gate := { (s.port p).gate with fromMatch := rest }.decide p o epoch ready,
      tlc := { (s.port p).tlc with creditReturns := (s.port p).tlc.creditReturns + 1 } }) :=
  next_congr (by simp only [State.gateDecision, idle, oldest])

end Sys2Proof.Machine

open Sys2Proof.Machine Sys2Proof.Machine.State

/-- Settles O36: `gateDecision_takes` hands the observation to the gate's `decide`, whose outcome is one equation for each
clause: let go, missed, or sent by a closing mark, an unlimited span, a counting span or its last record. -/
theorem gateDecidesEachObservation : Obligations.GateDecidesEachObservation := by
  refine ⟨captureRecord_bytes, fun p ready s => ?_⟩
  intro q
  refine ⟨fun sending => gateDecision_sending sending ready, rfl, fun o epoch rest idle oldest => ?decided⟩
  case decided =>
    intro g sent done
    have decided {x : Gate} (h : { q.gate with fromMatch := rest }.decide p o epoch ready = x) : done x :=
      h ▸ gateDecision_takes idle oldest ready
    refine ⟨fun isClosed unmarked => decided ?letGo, ?missed, ?marked, ?unlimited, ?counting, ?last⟩
    case letGo => exact Gate.decide_letGo (g := { q.gate with fromMatch := rest }) isClosed unmarked ready
    case missed =>
      rintro forwards rfl
      exact decided (Gate.decide_missed forwards)
    case marked =>
      rintro isClosed marked rfl
      exact decided (Gate.decide_sent_closed isClosed marked)
    case unlimited =>
      rintro isOpen unlimited rfl
      exact decided (Gate.decide_sent_unlimited isOpen unlimited)
    case counting =>
      rintro isOpen counting rfl
      exact decided (Gate.decide_sent_counting isOpen counting)
    case last =>
      rintro isOpen last rfl
      exact decided (Gate.decide_sent_last isOpen last)
end

section
/-! PROOFS. The invariants of the ports over one step (O58). -/

namespace Sys2Proof.Machine

open Host State

variable {s t : State}

theorem pinReset_port (x : State) (a b : Bool) (p : PortId) : (x.pinReset a b).port p = Port.reset := reset_port p

/-! ### What every step of a port keeps -/

/-- What every step of a port keeps in every phase, every step of the part keeps: a pin reset is a step of each port, and
every other command moves the ports by such steps (`exec_ports`). -/
theorem step_keeps_ports {P : Port → Prop} (hk : ∀ w q r, Port.StepTo w q r → P q → P r) (hstep : step s = .next t)
    (hs : ∀ p, P (s.port p)) (p : PortId) : P (t.port p) := by
  obtain rfl | ⟨a, b, x, rfl⟩ | ⟨i, rest, _, _, hexec, _⟩ := step_moves hstep
  · exact hs p
  · rw [pinReset_port]
    exact hk .running _ _ .pinReset (hs p)
  · exact (exec_ports i _ t hexec p).lift (hk _) (hs p)

/-! ### Seats, which the end of the walk sets (R110, R194) -/

theorem phaseOf_ending_iff (i : Instr) (s : State) :
    phaseOf i s = .ending ↔ s.desc.walking = true ∧ ∃ memory pins, i = .walkEnd memory pins := by
  unfold phaseOf
  cases s.desc.walking
  · simp
  · cases i <;> simp

theorem phaseOf_walking {i : Instr} (h : s.desc.walking = true) (hi : phaseOf i s ≠ .ending) : phaseOf i s = .walking := by
  unfold phaseOf at *
  rw [if_pos h] at *
  split at hi
  · exact absurd rfl hi
  · rfl

theorem walkEnd_walking (memory : List (Nat × Byte)) (pins : Vector PinLevels 6) (h : s.desc.walking = true) :
    (s.walkEnd memory pins).desc.walking = false := by
  unfold State.walkEnd
  rw [if_pos h]

/-- The end of the walk finds every port EMPTY, with its link DOWN, and leaves it EMPTY or ARRIVING. -/
theorem walkEnd_keeps_seats (memory : List (Nat × Byte)) (pins : Vector PinLevels 6) (h : s.desc.walking = true)
    (hs : SeatsHold s) : SeatsHold (s.walkEnd memory pins) := by
  intro p
  obtain ⟨seat, empty⟩ := hs p
  obtain ⟨set, ended⟩ := walkEnd_port memory pins s h p
  refine ⟨?_, fun walking => absurd (walking.symm.trans (walkEnd_walking memory pins h)) (by decide)⟩
  rw [ended]
  exact Port.StepTo.keeps_seat .ending _ _ (.walkEnd pins[p] rfl) ⟨seat, fun _ => empty h⟩

/-- Every other command keeps the seats: during the walk no port leaves EMPTY, and no command begins a walk. -/
theorem moves_keep_seats {i : Instr} (hports : PortsTo (phaseOf i s) s t) (hmoves : Moves none s none t)
    (hi : phaseOf i s ≠ .ending) (hs : SeatsHold s) : SeatsHold t := by
  intro p
  obtain ⟨seat, empty⟩ := hs p
  refine ⟨(hports p).lift (fun q r step hq => step.keeps_seat _ _ _ ⟨hq, fun ending => absurd ending hi⟩) seat,
    fun walking => ?_⟩
  have walked : s.desc.walking = true :=
    hmoves.lift (P := fun _ u => u.desc.walking = true → s.desc.walking = true)
      (fun _ _ _ _ move still walking => still (move.keeps_walking _ _ _ _ walking)) id walking
  exact (hports p).lift (fun q r step => step.keeps_empty _ _ _ (phaseOf_walking walked hi)) (empty walked)

theorem step_keeps_seats (hstep : step s = .next t) (hs : SeatsHold s) : SeatsHold t := by
  obtain rfl | ⟨a, b, x, rfl⟩ | ⟨i, rest, _, _, hexec, hmoves⟩ := step_moves hstep
  · exact hs
  · exact reset_seatsHold
  · by_cases hi : phaseOf i { s with pending := rest } = .ending
    · obtain ⟨walking, memory, pins, rfl⟩ := (phaseOf_ending_iff _ _).1 hi
      cases hexec
      exact walkEnd_keeps_seats memory pins walking hs
    · exact moves_keep_seats (exec_ports i _ t hexec) hmoves hi hs

end Sys2Proof.Machine

open Sys2Proof.Machine Sys2Proof.Machine.State

/-- Settles O58: credits, claims and run control are kept by every step of a port in every phase of the walk
(`step_keeps_ports`); the seats also turn on the phase, since only the end of the walk sets them (`step_keeps_seats`). -/
theorem stepKeepsThePorts : Obligations.StepKeepsThePorts := fun _ _ hstep =>
  ⟨step_keeps_ports Port.StepTo.keeps_credits hstep, step_keeps_ports Port.StepTo.keeps_claims hstep,
   step_keeps_ports Port.StepTo.keeps_run hstep, step_keeps_seats hstep⟩
end

section
/-! PROOFS. DRIVE, PORTSTAT and the return to safe levels (O29). -/

namespace Sys2Proof.Machine

open Host State

variable {s : State} {c : ChanId} {f : Frame} {p : PortId}

/-! ### DRIVE (R127) -/

theorem drive_refused (hr : s.Ready c kindDrive f) (hp : readDrive f.payload = none) :
    AnswersOnly (.drive c) s c f .bad [] :=
  next_congr (by rw [State.drive, hr.openRequest]; simp only [hp])

theorem drive_noClaim {r : DriveRequest} (hr : s.Ready c kindDrive f) (hp : readDrive f.payload = some r)
    (hc : (s.port r.port).hasSole c = false) : AnswersOnly (.drive c) s c f .noClaim [] :=
  next_congr (by rw [State.drive, hr.openRequest]; simp only [hp, popFrame_port, hc]; rfl)

/-- A line the payload does not name keeps its level; a change of the reset line is reported to Run Control (R128). -/
theorem drive_sets {r : DriveRequest} (hr : s.Ready c kindDrive f) (hp : readDrive f.payload = some r)
    (hc : (s.port r.port).hasSole c = true) :
    let q := s.port r.port
    let reset := r.reset.getD q.tlc.resetAsserted
    let power := r.power.getD q.tlc.powerOn
    exec (.drive c) s = .next (((s.popFrame c).setPort r.port { q with
      tlc := { q.tlc with resetAsserted := reset, powerOn := power },
      rc := { q.rc with reports := if q.tlc.resetAsserted = reset then q.rc.reports else
        q.rc.reports ++ [if reset then .resetAsserted else .resetReleased] } }).answer c f .done
      [if reset then 1 else 2, if power then 1 else 2]) := by
  refine next_congr ?_
  rw [State.drive, hr.openRequest]
  simp only [hp, popFrame_port, hc, if_true, setResetLine_eq]
  rfl

/-! ### PORTSTAT (R130) -/

theorem portstat_refused (hr : s.Ready c kindPortstat f) (hp : readPortPayload f.payload = none) :
    AnswersOnly (.portstat c) s c f .bad [] :=
  next_congr (by rw [State.portstat, hr.openRequest]; simp only [hp])

/-- The answer gives the flag as it was before PORTSTAT cleared it. -/
theorem portstat_reports (hr : s.Ready c kindPortstat f) (hp : readPortPayload f.payload = some p) :
    exec (.portstat c) s = .next (((s.popFrame c).setPort p
      { s.port p with tlc := { (s.port p).tlc with violation := false } }).answer c f .done (s.port p).answer) := by
  refine next_congr ?_
  rw [State.portstat, hr.openRequest]
  simp only [hp, popFrame_port]
  rfl

end Sys2Proof.Machine

open Sys2Proof.Machine Sys2Proof.Machine.State

/-- Settles O29: the bytes are `readDrive_iff` and `port_bytes`; DRIVE is `drive_sets` and its refusals, PORTSTAT
`portstat_reports`, and the return to safe levels `toSafeLevels_eq`. -/
theorem driveSafeLevelsAndPortstat : Obligations.DriveSafeLevelsAndPortstat := by
  refine ⟨readDrive_iff, port_bytes, ⟨fun c f s hr => ⟨drive_refused hr, fun r hp => ⟨drive_noClaim hr hp,
    drive_sets hr hp⟩⟩, fun c f s hr => ⟨portstat_refused hr, fun p => portstat_reports hr⟩⟩, fun q => ?_⟩
  rw [toSafeLevels_eq]
  exact ⟨rfl, rfl, rfl⟩
end

section
/-! PROOFS. The seat: changes of the filtered level and expiries of the debounce timer (O30). -/

namespace Sys2Proof.Machine

open Host State

variable {s : State} {p : PortId} {high : Bool}

/-! ### Where a board is counted as present (R110) -/

theorem SeatState.present_iff (x : SeatState) : x.present = true ↔ x = .seated ∨ x = .leaving := by
  cases x <;> simp [present]

theorem SeatState.present_eq_false_iff (x : SeatState) : x.present = false ↔ x = .empty ∨ x = .arriving := by
  cases x <;> simp [present]

/-! ### Changes of the filtered level (R110, R112) -/

theorem seatChange_ignored (h : s.desc.walking = true ∨ (s.port p).tlc.seatHigh = high) :
    exec (.seatChange p high) s = .next s :=
  next_congr (if_pos (by simpa using h))

/-- The rows of R112's table that a change of the level meets: the seat state and the timer it leaves. -/
theorem seatChange_moves {seat : SeatState} {timer : Option Nat} (walked : s.desc.walking = false)
    (changed : (s.port p).tlc.seatHigh ≠ high)
    (row : (s.port p).tlc.seat = .empty ∧ high = true ∧ seat = .arriving ∧ timer = some (s.port p).settings.debounce ∨
      (s.port p).tlc.seat = .arriving ∧ high = false ∧ seat = .empty ∧ timer = none ∨
      (s.port p).tlc.seat = .seated ∧ high = false ∧ seat = .leaving ∧ timer = some (s.port p).settings.debounce ∨
      (s.port p).tlc.seat = .leaving ∧ high = true ∧ seat = .seated ∧ timer = none) :
    exec (.seatChange p high) s = .next (s.setPort p { s.port p with
      tlc := { (s.port p).tlc with seatHigh := high, seat := seat, debounce := timer } }) := by
  refine next_congr ?_
  rw [State.seatChange]
  refine (if_neg (by simp [walked, changed])).trans ?_
  rcases row with ⟨was, rfl, rfl, rfl⟩ | ⟨was, rfl, rfl, rfl⟩ | ⟨was, rfl, rfl, rfl⟩ | ⟨was, rfl, rfl, rfl⟩ <;>
    simp only [was] <;> rfl

/-! ### Expiries of the debounce timer (R113, R114) -/

theorem debounceExpiry_ignored (h : (s.port p).tlc.debounce = none ∨ (s.port p).tlc.seat = .empty ∨
    (s.port p).tlc.seat = .seated) : exec (.debounceExpiry p) s = .next s := by
  refine next_congr ?_
  unfold State.debounceExpiry
  rcases h with idle | seat | seat
  · simp only [idle]
  all_goals
    simp only [seat]
    cases (s.port p).tlc.debounce <;> rfl

/-- A seating waits for the arbiter and the gate to have taken an unseat (R95, R148, log 4). -/
theorem debounceExpiry_waits (timed : (s.port p).tlc.debounce ≠ none) (seat : (s.port p).tlc.seat = .arriving)
    (waits : (s.port p).unseatWaits = true) : exec (.debounceExpiry p) s = .next s := by
  obtain ⟨n, runs⟩ := Option.ne_none_iff_exists'.1 timed
  exact next_congr (by simp only [State.debounceExpiry, runs, seat, waits, if_true])

theorem debounceExpiry_seats (timed : (s.port p).tlc.debounce ≠ none) (seat : (s.port p).tlc.seat = .arriving)
    (free : (s.port p).unseatWaits = false) : exec (.debounceExpiry p) s = .next
      ((s.setPort p (s.port p).seatBoard).raiseLink p .seated (s.port p).claimants) := by
  obtain ⟨n, runs⟩ := Option.ne_none_iff_exists'.1 timed
  exact next_congr (by simp only [State.debounceExpiry, runs, seat, free, Bool.false_eq_true, if_false])

theorem debounceExpiry_unseats (timed : (s.port p).tlc.debounce ≠ none) (seat : (s.port p).tlc.seat = .leaving) :
    exec (.debounceExpiry p) s = .next
      ((s.setPort p (s.port p).unseat).raiseLink p .unseated (s.port p).concerned) := by
  obtain ⟨n, runs⟩ := Option.ne_none_iff_exists'.1 timed
  exact next_congr (by simp only [State.debounceExpiry, runs, seat])

/-- The unseat at the controller: a LOCKED link closes its gate, the four receivers are told, the lines return to the safe
levels (R114). -/
theorem unseat_eq (q : Port) : q.unseat = ({ q with
    tlc := { q.tlc with seat := .empty, debounce := none, link := .down, goodSync := 0, badSync := 0,
                        expecting := false, outgoing := [] },
    gate := { (if q.tlc.link = .locked then
        { q.gate with isOpen := false, span := 0, closingMark := false } else q.gate) with
      unseats := q.gate.unseats + 1 },
    rc := { q.rc with reports := q.rc.reports ++ [.unseat] },
    mu := { q.mu with linkReports := q.mu.linkReports ++ [.unseat] },
    arb := { q.arb with fromLink := q.arb.fromLink ++ [.report .unseat] } } : Port).toSafeLevels := by
  unfold Port.unseat
  by_cases locked : q.tlc.link = .locked
  · simp only [if_pos locked]
    rfl
  · simp only [if_neg locked]
    rfl

theorem unseatWaits_iff (q : Port) :
    q.unseatWaits = true ↔ .report .unseat ∈ q.arb.fromLink ∨ 0 < q.gate.unseats := by
  simp [Port.unseatWaits]

end Sys2Proof.Machine

open Sys2Proof Sys2Proof.Machine Sys2Proof.Machine.State

/-- Settles O30: each row of the table is one of `seatChange_moves`, and an expiry seats, unseats, waits or is discarded by
the timer, the seat state and the unseat on its way (`unseatWaits_iff`). -/
theorem seatStatesFollowTheTable : Obligations.SeatStatesFollowTheTable := by
  refine ⟨fun p high s => ?level, fun p s => ?expiry⟩
  case level =>
    intro q seat
    exact ⟨seatChange_ignored, fun walked changed =>
      ⟨fun was up => seatChange_moves walked changed (.inl ⟨was, up, rfl, rfl⟩),
       fun was down => seatChange_moves walked changed (.inr (.inl ⟨was, down, rfl, rfl⟩)),
       fun was down => seatChange_moves walked changed (.inr (.inr (.inl ⟨was, down, rfl, rfl⟩))),
       fun was up => seatChange_moves walked changed (.inr (.inr (.inr ⟨was, up, rfl, rfl⟩)))⟩⟩
  case expiry =>
    intro q
    refine ⟨fun timed seat waits => debounceExpiry_waits timed seat ((unseatWaits_iff q).2 waits),
      fun timed seat arbiter gate => ?_, fun timed seat => ?_, debounceExpiry_ignored⟩
    · exact debounceExpiry_seats timed seat (Bool.eq_false_iff.2 (Port.unseatWaits_false.2 ⟨arbiter, gate⟩))
    · rw [← unseat_eq]
      exact debounceExpiry_unseats timed seat
end

section
/-! PROOFS. Status edges (O31). -/

namespace Sys2Proof.Machine

open Host State

variable {s : State} {p : PortId} {l : LineId} {high : Bool} {m : MatchUnit} {e : Edge} {epoch : Half}

/-! ### A filtered edge at the Match Unit (R38, R125) -/

/-- An edge of status line `l`, whatever its direction and its epoch. -/
def MatchEvent.onLine (l : LineId) : MatchEvent → Bool
  | .edge l' _ _ => l' = l
  | .obs _ _ => false
  | .quiet _ _ => false

theorem MatchEvent.onLine_iff (x : MatchEvent) : x.onLine l = true ↔ ∃ e ep, x = .edge l e ep := by
  cases x <;> simp [onLine]

/-- What the Match Unit does with an edge turns on the waiting edges of its line alone. -/
theorem waitEdge_eq (m : MatchUnit) (l : LineId) (e : Edge) (epoch : Half) : waitEdge m l e epoch =
    if m.events.any (MatchEvent.onLine l) then
      { m with events := m.events.filter fun x => !x.onLine l,
               view := if m.events.head?.any (MatchEvent.onLine l) then m.view.between else m.view }
    else { m with events := m.events ++ [.edge l e epoch] } := rfl

theorem waitEdge_waits (h : ∀ x ∈ m.events, ¬ x.onLine l = true) :
    waitEdge m l e epoch = { m with events := m.events ++ [.edge l e epoch] } := by
  rw [waitEdge_eq, List.any_eq_false.2 h]
  rfl

theorem waitEdge_withdraws (h : ∃ x ∈ m.events, x.onLine l = true) : waitEdge m l e epoch = { m with
    events := m.events.filter fun x => !x.onLine l,
    view := if m.events.head?.any (MatchEvent.onLine l) then { m.view with begun := false } else m.view } := by
  rw [waitEdge_eq, if_pos (List.any_eq_true.2 h)]
  rfl

/-! ### A change of a filtered status level (R124, R194) -/

theorem statusEdge_ignored (h : s.desc.walking = true ∨ (s.port p).tlc.status[l] = high) :
    exec (.statusEdge p l high) s = .next s :=
  next_congr (if_pos (by simpa using h))

/-- A change that is looked at sets the level, and is handed on where a board is counted as present. -/
theorem statusEdge_changes (walked : s.desc.walking = false) (changed : (s.port p).tlc.status[l] ≠ high) :
    let q := s.port p
    exec (.statusEdge p l high) s = .next (s.setPort p { q with
      tlc := { q.tlc with status := q.tlc.status.set l high },
      mu := if q.tlc.seat.present then waitEdge q.mu l (if high then .rise else .fall) q.tlc.epoch else q.mu }) := by
  refine next_congr ?_
  rw [State.statusEdge]
  refine (if_neg (by simpa [walked] using changed)).trans ?_
  cases seat : (s.port p).tlc.seat <;> simp only [seat] <;> rfl

end Sys2Proof.Machine

open Sys2Proof Sys2Proof.Machine Sys2Proof.Machine.State

/-- Settles O31: a change is handed on by the seat state (`statusEdge_changes`), and at the Match Unit it waits or withdraws
(`waitEdge_waits`, `waitEdge_withdraws`). -/
theorem statusEdgesWaitOrWithdraw : Obligations.StatusEdgesWaitOrWithdraw := by
  intro p l high s q q1 sameLine
  have onLine (x : MatchEvent) : x.onLine l = true ↔ sameLine x := x.onLine_iff
  refine ⟨statusEdge_ignored, fun walked changed => ⟨fun seat => ?absent, fun seat free => ?waits,
    fun seat waiting => ?withdraws⟩⟩
  case absent =>
    rw [statusEdge_changes walked changed, (SeatState.present_eq_false_iff _).2 seat]
    rfl
  case waits =>
    rw [statusEdge_changes walked changed, (SeatState.present_iff _).2 seat, if_pos rfl,
      waitEdge_waits fun x hx => mt (onLine x).1 (free x hx)]
  case withdraws =>
    obtain ⟨x, hx, same⟩ := waiting
    refine ⟨fun x => !x.onLine l, fun x => by rw [← onLine]; simp, ?_⟩
    rw [statusEdge_changes walked changed, (SeatState.present_iff _).2 seat, if_pos rfl,
      waitEdge_withdraws ⟨x, hx, (onLine x).2 same⟩]
    simp only [Bool.not_not]
    rfl
end

section
/-! PROOFS. Superframes from the board and the state of the link (O32). -/

namespace Sys2Proof.Machine

open Host State

variable {s : State} {p : PortId} {f : BoardSuperframe}

/-! ### The judgement and the sent count (R116, R123) -/

theorem judge_iff (q : Port) (f : BoardSuperframe) : q.judge f = true ↔ f.checkAgrees = true ∧
    (f.sync = .atExpected ∨ (f.sync = .elsewhere ∧ q.tlc.link = .hunting ∧ q.tlc.expecting = false)) := by
  unfold Port.judge
  cases f.sync <;> simp

/-- A count that is as it was leaves the port; a step past 8 sets the credit-violation flag. -/
theorem checkSentCount_eq (q : Port) (sent : Byte) : q.checkSentCount sent = { q with tlc := { q.tlc with
    received := sent,
    violation := q.tlc.violation || decide (8 < (sent - q.tlc.received).toNat) } } := by
  unfold Port.checkSentCount
  by_cases same : sent = q.tlc.received
  · subst same
    simp
  · have differs : (sent - q.tlc.received).toNat ≠ 0 := by bv_omega
    by_cases far : 8 < (sent - q.tlc.received).toNat
    · simp only [if_neg differs, if_neg (Nat.not_le.2 far), far, decide_true, Bool.or_true, Port.setLink]
    · simp only [if_neg differs, if_pos (Nat.le_of_not_lt far), far, decide_false, Bool.or_false, Port.setLink]

/-! ### A superframe by the state of the link (R116, R117) -/

theorem superframe_down (link : (s.port p).tlc.link = .down) : exec (.boardSuperframe p f) s = .next s :=
  next_congr (by simp only [State.boardSuperframe, link])

/-- A good superframe counts towards the lock. -/
theorem superframe_counts (link : (s.port p).tlc.link = .hunting) (good : (s.port p).judge f = true)
    (short : (s.port p).tlc.goodSync + 1 ≠ 3) : exec (.boardSuperframe p f) s = .next (s.setPort p { s.port p with
      tlc := { (s.port p).tlc with goodSync := (s.port p).tlc.goodSync + 1, expecting := true } }) := by
  refine next_congr ?_
  simp only [State.boardSuperframe, link, good]
  exact if_neg short

theorem superframe_locks (link : (s.port p).tlc.link = .hunting) (good : (s.port p).judge f = true)
    (third : (s.port p).tlc.goodSync + 1 = 3) : exec (.boardSuperframe p f) s = .next
      ((s.setPort p ((s.port p).lock f.sentCount)).raiseLink p .locked (s.port p).concerned) := by
  refine next_congr ?_
  simp only [State.boardSuperframe, link, good]
  exact if_pos third

theorem superframe_restarts (link : (s.port p).tlc.link = .hunting) (bad : (s.port p).judge f = false) :
    exec (.boardSuperframe p f) s = .next (s.setPort p { s.port p with
      tlc := { (s.port p).tlc with goodSync := 0, expecting := false } }) :=
  next_congr (by simp only [State.boardSuperframe, link, bad]; rfl)

/-- A good superframe on a LOCKED link has its frames taken, the sent count first. -/
theorem superframe_taken (link : (s.port p).tlc.link = .locked) (good : (s.port p).judge f = true) :
    exec (.boardSuperframe p f) s = .next (s.setPort p (f.frames.foldl Port.takeFrame { s.port p with
      tlc := { (s.port p).tlc with
        badSync := 0, received := f.sentCount,
        violation := (s.port p).tlc.violation || decide (8 < (f.sentCount - (s.port p).tlc.received).toNat) } })) := by
  refine next_congr ?_
  simp only [State.boardSuperframe, link, good, checkSentCount_eq]
  rfl

theorem superframe_missed (link : (s.port p).tlc.link = .locked) (bad : (s.port p).judge f = false)
    (short : (s.port p).tlc.badSync + 1 ≠ 3) : exec (.boardSuperframe p f) s = .next (s.setPort p { s.port p with
      tlc := { (s.port p).tlc with badSync := (s.port p).tlc.badSync + 1 } }) := by
  refine next_congr ?_
  simp only [State.boardSuperframe, link, bad]
  exact if_neg short

theorem superframe_loses (link : (s.port p).tlc.link = .locked) (bad : (s.port p).judge f = false)
    (third : (s.port p).tlc.badSync + 1 = 3) : exec (.boardSuperframe p f) s = .next
      ((s.setPort p (s.port p).lose).raiseLink p .lost (s.port p).concerned) := by
  refine next_congr ?_
  simp only [State.boardSuperframe, link, bad]
  exact if_pos third

end Sys2Proof.Machine

open Sys2Proof.Machine Sys2Proof.Machine.State

/-- Settles O32: `judge_iff` says which superframes are good; the link state, the judgement and the third in a row choose
the outcome. -/
theorem superframesMoveTheLink : Obligations.SuperframesMoveTheLink := by
  intro p f s q good
  have judged : good → q.judge f = true := (judge_iff q f).2
  have refused (bad : ¬ good) : q.judge f = false := Bool.eq_false_iff.2 fun h => bad ((judge_iff q f).1 h)
  exact ⟨superframe_down, fun link h => superframe_counts link (judged h), fun link h => superframe_locks link (judged h),
    fun link h => superframe_restarts link (refused h), fun link h => superframe_taken link (judged h),
    fun link h => superframe_missed link (refused h), fun link h => superframe_loses link (refused h)⟩
end

section
/-! PROOFS. Frames from and to the board, the outputs of the link and observation credits (O33). -/

namespace Sys2Proof.Machine

open Host State

variable {s : State} {p : PortId} {q : Port} {o : RawObs} {ob : Observation}

/-! ### Frames from the board (R119, R120, R122) -/

theorem checkedObs_iff (o : RawObs) (ob : Observation) : checkedObs o = some ob ↔
    ∃ d w og, ∃ h : o.initiator < 16, o.direction = some d ∧ o.width = w.bytes ∧ o.origin = some og ∧
      ob = { address := o.address, data := w.low o.data, direction := d, width := w, initiator := ⟨o.initiator, h⟩,
             origin := og, sequence := o.sequence } := by
  constructor
  · intro checked
    unfold checkedObs at checked
    split at checked
    · next d w t og direction width initiator origin =>
      have number : o.initiator = t.val := readSixteen_iff.1 initiator
      cases checked
      exact ⟨d, w, og, number ▸ t.isLt, direction, readWidth_iff.1 width, origin, by simp only [number]⟩
    · cases checked
  · rintro ⟨d, w, og, h, direction, width, origin, rfl⟩
    have number : readSixteen o.initiator = some ⟨o.initiator, h⟩ := readSixteen_iff.2 rfl
    simp only [checkedObs, direction, readWidth_iff.2 width, number, origin]

/-- An observation is accepted against a credit, and carries the epoch to the Match Unit. -/
theorem takeObs_accepted (listed : checkedObs o = some ob) (credit : 0 < q.tlc.credits) : q.takeObs o = { q with
    tlc := { q.tlc with received := q.tlc.received + 1, credits := q.tlc.credits - 1 },
    mu := { q.mu with events := q.mu.events ++ [.obs ob q.tlc.epoch] } } := by
  simp only [Port.takeObs, listed, credit, if_true]

theorem takeObs_violates (listed : checkedObs o = some ob) (spent : q.tlc.credits = 0) : q.takeObs o = { q with
    tlc := { q.tlc with received := q.tlc.received + 1, violation := true } } := by
  simp only [Port.takeObs, listed, spent, Nat.lt_irrefl, if_false]
  rfl

theorem takeObs_unlisted (unlisted : checkedObs o = none) : q.takeObs o = { q with
    tlc := { q.tlc with received := q.tlc.received + 1 } } := by
  simp only [Port.takeObs, unlisted]
  rfl

theorem takeFrame_reply {tag : Nat} {res : RawResult} {data : Word} {r : ReplyFrame}
    (listed : checkedReply tag res data = some r) :
    q.takeFrame (.reply tag res data) = { q with arb := { q.arb with fromLink := q.arb.fromLink ++ [.reply r] } } := by
  simp only [Port.takeFrame, listed]

theorem takeFrame_reply_unlisted {tag : Nat} {res : RawResult} {data : Word}
    (unlisted : checkedReply tag res data = none) : q.takeFrame (.reply tag res data) = q := by
  simp only [Port.takeFrame, unlisted]

/-! ### The outputs and what leaves on them (R115, R118, R121) -/

theorem outputs_down {t : LinkController} (h : t.link = .down) :
    t.outputs = { clock := .low, dataOut := .low, strobe := .low } := by
  rw [outputs_eq, if_pos h]

theorem outputs_driven {t : LinkController} (h : t.link ≠ .down) :
    t.outputs = { clock := .driven, dataOut := .driven, strobe := .driven } := by
  rw [outputs_eq, if_neg h]

theorem outgoingSuperframe_down (link : (s.port p).tlc.link = .down) (room : Nat) :
    exec (.outgoingSuperframe p room) s = .next s :=
  next_congr (by simp only [State.outgoingSuperframe, outputs_down link])

theorem outgoingSuperframe_leaves (link : (s.port p).tlc.link ≠ .down) (room : Nat) :
    let q := s.port p
    exec (.outgoingSuperframe p room) s = .next (s.setPort p { q with tlc := { q.tlc with
      outgoing := q.tlc.outgoing.drop room,
      sentFrames := q.tlc.sentFrames ++ [{ creditTotal := q.tlc.received + BitVec.ofNat 8 q.tlc.credits,
                                           frames := q.tlc.outgoing.take room }] } }) :=
  next_congr (by simp only [State.outgoingSuperframe, outputs_driven link]; rfl)

/-! ### The return of a credit (R122) -/

theorem creditReturn_early (h : (s.port p).tlc.creditReturns = 0) : exec (.creditReturn p) s = .next s :=
  next_congr (if_neg (by omega))

theorem creditReturn_takes (h : 0 < (s.port p).tlc.creditReturns) :
    exec (.creditReturn p) s = .next (s.setPort p { s.port p with tlc := { (s.port p).tlc with
      credits := (s.port p).tlc.credits + 1, creditReturns := (s.port p).tlc.creditReturns - 1 } }) :=
  next_congr (if_pos h)

end Sys2Proof.Machine

open Sys2Proof.Machine Sys2Proof.Machine.State

/-- Settles O33: each kind of frame by its own equation, the outputs by the link state, which is DOWN without a board
(`seatHolds_outputs`), and what leaves by the outputs. -/
theorem framesAndCreditsOfTheLink : Obligations.FramesAndCreditsOfTheLink := by
  refine ⟨fun q => ?frames, fun q => ?outputs, ?leaving⟩
  case frames =>
    exact ⟨fun _ _ => takeObs_accepted, fun _ _ => takeObs_violates, fun _ => takeObs_unlisted, checkedObs_iff,
      checkedReply_iff, fun _ _ _ _ => takeFrame_reply, fun _ _ _ => takeFrame_reply_unlisted, rfl, rfl⟩
  case outputs =>
    exact ⟨outputs_down, outputs_driven, fun holds seat =>
      (seatHolds_outputs holds).2 ((SeatState.present_eq_false_iff _).2 seat)⟩
  case leaving =>
    exact ⟨fun p room s => ⟨(outgoingSuperframe_down · room), (outgoingSuperframe_leaves · room)⟩,
      fun q f => ⟨fun link => if_pos link, fun link => if_neg link⟩,
      fun p s => ⟨creditReturn_early, creditReturn_takes⟩⟩
end

section
/-! PROOFS. CLAIM and RELEASE, and what their two blocks take of a RELEASE (O13, O14). -/

namespace Sys2Proof.Machine

open Host State

variable {s : State} {c : ChanId} {f : Frame} {p : PortId} {q : Port} {m m' : ClaimMode}

/-! ### The table of R132 -/

theorem hasClaim_iff : q.hasClaim c = true ↔ q.arb.claims[c] ≠ none := Option.isSome_iff_ne_none

theorem hasSole_iff : q.hasSole c = true ↔ q.arb.claims[c] = some .sole := decide_eq_true_iff

/-- A first SHARED claim stands beside any claim but a SOLE one. -/
theorem claimResult_shared (held : q.arb.claims[c] = none) :
    claimResult q c .shared = if q.foreignSole c then none else some .shared := by
  unfold claimResult
  rw [held]

/-- A channel that is not SOLE becomes SOLE only without a claim beside its own. -/
theorem claimResult_sole (held : q.arb.claims[c] = none ∨ q.arb.claims[c] = some .shared) :
    claimResult q c .sole = if allChans.any fun d => d ≠ c && q.hasClaim d then none else some .sole := by
  unfold claimResult
  rcases held with held | held <;> rw [held]

theorem claimResult_shared_again (held : q.arb.claims[c] = some .shared) :
    claimResult q c .shared = some .shared := by
  unfold claimResult
  rw [held]

/-- A SOLE holder chooses its mode freely. -/
theorem claimResult_of_sole (held : q.arb.claims[c] = some .sole) (m : ClaimMode) :
    claimResult q c m = some m := by
  unfold claimResult
  rw [held]

/-! ### CLAIM (R132) -/

theorem claim_refused (hr : s.Ready c kindClaim f) (hp : readClaim f.payload = none) :
    AnswersOnly (.claim c) s c f .bad [] :=
  next_congr (by rw [State.claim, hr.openRequest]; simp only [hp])

theorem claim_busy (hr : s.Ready c kindClaim f) (hp : readClaim f.payload = some (p, m))
    (table : claimResult (s.port p) c m = none) : AnswersOnly (.claim c) s c f .busy [] :=
  next_congr (by rw [State.claim, hr.openRequest]; simp only [hp, popFrame_port, table])

/-- A granted CLAIM leaves the requester's mode in the list and reports it (R191). -/
theorem claim_granted (hr : s.Ready c kindClaim f) (hp : readClaim f.payload = some (p, m))
    (table : claimResult (s.port p) c m = some m') :
    let q := s.port p
    exec (.claim c) s = .next
      (((s.popFrame c).setPort p { q with arb := { q.arb with claims := q.arb.claims.set c (some m') } }).answer c f
        .done [match (generalizing := false) m' with
          | .shared => 0
          | .sole => 1]) := by
  refine next_congr ?_
  rw [State.claim, hr.openRequest]
  simp only [hp, popFrame_port, table]
  cases m' <;> rfl

/-! ### RELEASE (R133) -/

theorem release_refused (hr : s.Ready c kindRelease f) (hp : readPortPayload f.payload = none) :
    AnswersOnly (.release c) s c f .bad [] :=
  next_congr (by rw [State.release, hr.openRequest]; simp only [hp])

theorem release_notHeld (hr : s.Ready c kindRelease f) (hp : readPortPayload f.payload = some p)
    (hc : (s.port p).hasClaim c = false) : AnswersOnly (.release c) s c f .notHeld [] :=
  next_congr (by rw [State.release, hr.openRequest]; simp only [hp, popFrame_port, hc]; rfl)

/-- The removal of the hold goes to Run Control in any case, the return of the lines to their controller for a SOLE
claim alone. -/
theorem release_hands_on (hr : s.Ready c kindRelease f) (hp : readPortPayload f.payload = some p)
    (hc : (s.port p).hasClaim c = true) :
    let q := s.port p
    exec (.release c) s = .next (((s.popFrame c).setPort p { q with
      arb := { q.arb with claims := q.arb.claims.set c none, parked := q.arb.parked.set c none },
      rc := { q.rc with removals := q.rc.removals ++ [c] },
      tlc := if q.hasSole c then { q.tlc with safeRequests := q.tlc.safeRequests ++ [c] } else q.tlc }).wait c f
      (.release true (q.hasSole c))) := by
  refine next_congr ?_
  rw [State.release, hr.openRequest]
  rcases Bool.eq_false_or_eq_true ((s.port p).hasSole c) with sole | sole <;>
    simp only [hp, popFrame_port, hc, sole, if_true, Bool.false_eq_true, if_false] <;> rfl

/-! ### The two parts of a RELEASE that are waited for (R133) -/

/-- The last part to be taken answers the RELEASE. -/
theorem releaseStep_answers {e : Executing} {runControl : Bool} (he : (s.lane c).executing = some e)
    (hw : e.wait = .release runControl !runControl) : s.releaseStep c runControl = s.finish c .done [] := by
  rw [releaseStep, he]
  simp only [hw]
  cases runControl <;> rfl

/-- The first of two parts leaves the RELEASE waiting for the other. -/
theorem releaseStep_waits_on {e : Executing} {runControl : Bool} (he : (s.lane c).executing = some e)
    (hw : e.wait = .release true true) : s.releaseStep c runControl =
      s.setLane c { s.lane c with executing := some { e with wait := .release (!runControl) runControl } } := by
  rw [releaseStep, he]
  simp only [hw]
  cases runControl <;> rfl

/-- A part of a RELEASE that no longer executes concerns no request. -/
theorem releaseStep_other {runControl : Bool}
    (h : ∀ e r l, (s.lane c).executing = some e → e.wait ≠ .release r l) : s.releaseStep c runControl = s := by
  unfold releaseStep
  split
  · next e he =>
    split
    · next r l hw => exact absurd hw (h e r l he)
    all_goals rfl
  · rfl

theorem holdRemoval_takes {rest : List ChanId} (h : (s.port p).rc.removals = c :: rest) :
    exec (.holdRemoval p) s = .next ((s.applyRun p
      (({ s.port p with rc := { (s.port p).rc with removals := rest } } : Port).removeHold c false)).releaseStep c true) :=
  next_congr (by rw [holdRemoval]; simp only [h]; rfl)

theorem safeLevels_takes {rest : List ChanId} (h : (s.port p).tlc.safeRequests = c :: rest) :
    exec (.safeLevels p) s = .next ((s.setPort p
      ({ s.port p with tlc := { (s.port p).tlc with safeRequests := rest } } : Port).toSafeLevels).releaseStep c false) :=
  next_congr (by rw [safeLevels]; simp only [h]; rfl)

end Sys2Proof.Machine

open Sys2Proof.Machine Sys2Proof.Machine.State

/-- Settles O13: the payload is `readClaim_iff`, the row of the table that applies is one of the equations of
`claimResult`, and its entry decides between `claim_granted` and `claim_busy`. -/
theorem claimFollowsItsTable : Obligations.ClaimFollowsItsTable := by
  refine ⟨readClaim_iff, fun q c => ⟨hasClaim_iff, hasSole_iff⟩, fun c f s =>
    ⟨fun hh hc => next_congr (hh.openRequest_closed hc _), fun hr => ⟨claim_refused hr, fun p m hp => ?table⟩⟩⟩
  intro q others otherSole done busy
  have foreign : q.foreignSole c = true ↔ otherSole := foreignSole_iff q c
  have beside : (allChans.any fun d => d ≠ c && q.hasClaim d) = true ↔ others := otherClaim_iff q c
  have becomesSole (held : q.arb.claims[c] = none ∨ q.arb.claims[c] = some .shared) (asked : m = .sole) :
      (others → busy) ∧ (¬ others → done .sole) := by
    subst asked
    have row := claimResult_sole held
    exact ⟨fun h => claim_busy hr hp (row.trans (if_pos (beside.2 h))),
      fun h => claim_granted hr hp (row.trans (if_neg (mt beside.1 h)))⟩
  refine ⟨?unclaimed, fun held => becomesSole (.inl held), ?sharedAgain, fun held => becomesSole (.inr held),
    fun held => claim_granted hr hp (claimResult_of_sole held m)⟩
  case unclaimed =>
    rintro held rfl
    have row := claimResult_shared held
    exact ⟨fun h => claim_busy hr hp (row.trans (if_pos (foreign.2 h))),
      fun h => claim_granted hr hp (row.trans (if_neg (mt foreign.1 h)))⟩
  case sharedAgain =>
    rintro held rfl
    exact claim_granted hr hp (claimResult_shared_again held)

/-- Settles O14: RELEASE is `release_hands_on` and its refusals; each of the two blocks takes its part (`holdRemoval_takes`,
`safeLevels_takes`), and what the request then waits for is in the equations of `releaseStep`. -/
theorem releaseEndsTheClaimAndItsHold : Obligations.ReleaseEndsTheClaimAndItsHold := by
  refine ⟨fun c f s hr => ⟨release_refused hr, fun p hp => ⟨release_notHeld hr hp, release_hands_on hr hp⟩⟩,
    fun p c rest s h => ?hold, fun p c rest s h => ?lines⟩
  case hold =>
    have takes := holdRemoval_takes h
    exact ⟨fun e he hw => takes.trans (next_congr (releaseStep_answers he hw)),
      fun e he hw => takes.trans (next_congr (releaseStep_waits_on he hw)),
      fun other => takes.trans (next_congr (releaseStep_other other))⟩
  case lines =>
    have takes := safeLevels_takes h
    exact ⟨fun e he hw => takes.trans (next_congr (releaseStep_answers he hw)),
      fun e he hw => takes.trans (next_congr (releaseStep_waits_on he hw)),
      fun other => takes.trans (next_congr (releaseStep_other other))⟩
end

section
/-! PROOFS. READ, WRITE, REPLAY and DROP (O15, O16). -/

namespace Sys2Proof.Machine

open Host State

variable {s : State} {c : ChanId} {f : Frame} {p : PortId} {q : Port} {dir : Direction} {kind : Byte}
  {r : AccessRequest} {left : Remainder} {e : QueueEntry} {st : Status}

/-! ### The checks of R136 and R149 -/

/-- A block that wants the board halted may not run while it runs (R136, R140, R149). -/
theorem wantsHalt_iff {wants : Bool} {run : RunState} :
    (wants && run ≠ .frozen) = true ↔ ¬ (wants = true → run = .frozen) := by
  simp

theorem otherEpoch_iff {guard : Option Half} {epoch : Half} :
    (guard.any fun g => g ≠ epoch) = true ↔ ¬ ∀ g, guard = some g → g = epoch := by
  cases guard <;> simp

theorem away_iff {seat : SeatState} :
    seat = .empty ∨ seat = .arriving ↔ ¬ (seat = .seated ∨ seat = .leaving) := by
  cases seat <;> simp

/-- A check that passes leaves the answer to the checks after it. -/
theorem check_passed {P : Prop} [Decidable P] {answer fails later : Option Status}
    (checks : answer = if ¬ P then fails else later) (passes : P) : answer = later :=
  checks.trans (if_neg (not_not.2 passes))

open Classical in
/-- The checks of R136 from the claim on, in their order. -/
theorem accessRefusal_eq (q : Port) (c : ChanId) (r : AccessRequest) : accessRefusal q c r =
    if ¬ q.hasClaim c = true then some .noClaim
    else if ¬ q.arb.parked[c] = none then some .parked
    else if ¬ (q.tlc.seat = .seated ∨ q.tlc.seat = .leaving) then some .absent
    else if ¬ q.arb.linkLocked = true then some .noLink
    else if ¬ q.tlc.resetAsserted = false then some .inReset
    else if ¬ ∀ g, r.epochGuard = some g → g = q.tlc.epoch then some .epoch
    else if ¬ (r.block.haltedOnly = true → q.rc.run = .frozen) then some .running
    else none :=
  if_congr (by simp) rfl <| if_congr Option.isSome_iff_ne_none rfl <| if_congr away_iff rfl <|
    if_congr (by simp) rfl <| if_congr (by simp) rfl <| if_congr otherEpoch_iff rfl <| if_congr wantsHalt_iff rfl rfl

theorem replayRefusal_noLink (h : q.arb.linkLocked = false) : replayRefusal q left = some .noLink :=
  if_pos (by rw [h]; rfl)

/-- On a LOCKED link the checks of REPLAY are the rechecks of a grant (R140, R149). -/
theorem replayRefusal_locked (h : q.arb.linkLocked = true) (entry : e.block = left.block) :
    replayRefusal q left = grantRefusal q e :=
  (if_neg (by rw [h]; decide)).trans (by rw [grantRefusal, entry])

theorem grantRefusal_inReset (held : q.tlc.resetAsserted = true) : grantRefusal q e = some .inReset := if_pos held

theorem grantRefusal_running (released : q.tlc.resetAsserted = false)
    (runs : ¬ (e.block.haltedOnly = true → q.rc.run = .frozen)) : grantRefusal q e = some .running :=
  (if_neg (by rw [released]; decide)).trans (if_pos (wantsHalt_iff.2 runs))

theorem grantRefusal_passes (released : q.tlc.resetAsserted = false)
    (mayRun : e.block.haltedOnly = true → q.rc.run = .frozen) : grantRefusal q e = none :=
  (if_neg (by rw [released]; decide)).trans (if_neg (mt wantsHalt_iff.1 (not_not.2 mayRun)))

/-! ### READ and WRITE (R136, R137) -/

/-- READ and WRITE are one command but for the direction of the block. -/
theorem exec_access {i : Instr}
    (hi : (i = .read c ∧ dir = .read ∧ kind = kindRead) ∨ (i = .write c ∧ dir = .write ∧ kind = kindWrite)) :
    exec i s = .next (s.access dir kind c) := by
  rcases hi with ⟨rfl, rfl, rfl⟩ | ⟨rfl, rfl, rfl⟩ <;> rfl

/-- With a choice due at the port the request stays in its queue (log 4). -/
theorem access_waits (hr : s.Ready c kind f) (hp : readAccess dir f.payload = some r)
    (due : (s.port r.port).choiceDue = true) : s.access dir kind c = s :=
  if_pos (by simp [hr.headFrame, hp, accessBlocked, due])

theorem access_bad (hr : s.Ready c kind f) (hp : readAccess dir f.payload = none) :
    s.access dir kind c = (s.popFrame c).answer c f .bad [] := by
  have free : ¬ s.accessBlocked (((s.headFrame c).bind fun f => readAccess dir f.payload).map (·.port)) = true := by
    simp [hr.headFrame, hp, accessBlocked]
  rw [access, if_neg free, hr.openRequest]
  simp only [hp]

section
variable (hr : s.Ready c kind f) (hp : readAccess dir f.payload = some r)
  (due : (s.port r.port).choiceDue = false)
include hr hp due

theorem access_free :
    ¬ s.accessBlocked (((s.headFrame c).bind fun f => readAccess dir f.payload).map (·.port)) = true := by
  simp [hr.headFrame, hp, accessBlocked, due]

theorem access_refused (check : accessRefusal (s.port r.port) c r = some st) :
    s.access dir kind c = (s.popFrame c).answer c f st [] := by
  rw [access, if_neg (access_free hr hp due), hr.openRequest]
  simp only [hp, popFrame_port, check]

theorem access_joins (check : accessRefusal (s.port r.port) c r = none) :
    let q := s.port r.port
    s.access dir kind c = ((s.popFrame c).setPort r.port { q with arb := { q.arb with queue := q.arb.queue ++
      [{ chan := c, block := r.block, epochGuard := r.epochGuard, replayOf := none, age := 0 }] } }).wait c f
      (.access r.port) := by
  rw [access, if_neg (access_free hr hp due), hr.openRequest]
  simp only [hp, popFrame_port, check]
  rfl

end

/-! ### REPLAY (R149) -/

theorem replay_waits (hr : s.Ready c kindReplay f) (hp : readPortPayload f.payload = some p)
    (due : (s.port p).choiceDue = true) : exec (.replay c) s = .next s :=
  next_congr (if_pos (by simp [hr.headFrame, hp, accessBlocked, due]))

theorem replay_bad (hr : s.Ready c kindReplay f) (hp : readPortPayload f.payload = none) :
    AnswersOnly (.replay c) s c f .bad [] := by
  have free : ¬ s.accessBlocked ((s.headFrame c).bind fun f => readPortPayload f.payload) = true := by
    simp [hr.headFrame, hp, accessBlocked]
  refine next_congr ?_
  rw [replay, if_neg free, hr.openRequest]
  simp only [hp]

section
variable (hr : s.Ready c kindReplay f) (hp : readPortPayload f.payload = some p)
  (due : (s.port p).choiceDue = false)
include hr hp due

theorem replay_free : ¬ s.accessBlocked ((s.headFrame c).bind fun f => readPortPayload f.payload) = true := by
  simp [hr.headFrame, hp, accessBlocked, due]

theorem replay_notHeld (parked : (s.port p).arb.parked[c] = none) : AnswersOnly (.replay c) s c f .notHeld [] := by
  refine next_congr ?_
  rw [replay, if_neg (replay_free hr hp due), hr.openRequest]
  simp only [hp, popFrame_port, parked]

theorem replay_refused (parked : (s.port p).arb.parked[c] = some left)
    (check : replayRefusal (s.port p) left = some st) : AnswersOnly (.replay c) s c f st [] := by
  refine next_congr ?_
  rw [replay, if_neg (replay_free hr hp due), hr.openRequest]
  simp only [hp, popFrame_port, parked, check]

/-- The remainder moves from parking to the tail of the queue. -/
theorem replay_joins (parked : (s.port p).arb.parked[c] = some left)
    (check : replayRefusal (s.port p) left = none) :
    let q := s.port p
    exec (.replay c) s = .next
      (((s.popFrame c).setPort p { q with arb := { q.arb with parked := q.arb.parked.set c none, queue :=
        q.arb.queue ++ [{ chan := c, block := left.block, epochGuard := none, replayOf := some left, age := 0 }] } }).wait
        c f (.access p)) := by
  refine next_congr ?_
  rw [replay, if_neg (replay_free hr hp due), hr.openRequest]
  simp only [hp, popFrame_port, parked, check]
  rfl

end

/-! ### DROP (R150) -/

theorem drop_bad (hr : s.Ready c kindDrop f) (hp : readPortPayload f.payload = none) :
    AnswersOnly (.drop c) s c f .bad [] :=
  next_congr (by rw [State.drop, hr.openRequest]; simp only [hp])

theorem drop_notHeld (hr : s.Ready c kindDrop f) (hp : readPortPayload f.payload = some p)
    (parked : (s.port p).arb.parked[c] = none) : AnswersOnly (.drop c) s c f .notHeld [] :=
  next_congr (by rw [State.drop, hr.openRequest]; simp only [hp, popFrame_port, parked])

theorem drop_discards (hr : s.Ready c kindDrop f) (hp : readPortPayload f.payload = some p)
    (parked : (s.port p).arb.parked[c] = some left) :
    let q := s.port p
    exec (.drop c) s = .next
      (((s.popFrame c).setPort p { q with arb := { q.arb with parked := q.arb.parked.set c none } }).answer c f .done
        left.answer) := by
  refine next_congr ?_
  rw [State.drop, hr.openRequest]
  simp only [hp, popFrame_port, parked]
  rfl

end Sys2Proof.Machine

open Sys2Proof Sys2Proof.Machine Sys2Proof.Machine.State

/-- Settles O15: the payload is `readAccess_iff`; with no choice due at the port the first check that fails
(`accessRefusal_eq`) is the answer (`access_refused`), and where none fails the block joins the queue (`access_joins`). -/
theorem readAndWriteJoinTheQueue : Obligations.ReadAndWriteJoinTheQueue := by
  refine ⟨readAccess_iff, fun i dir kind c f s hi hr => ?_⟩
  have command : exec i s = .next (s.access dir kind c) := exec_access hi
  refine ⟨fun hp => command.trans (next_congr (access_bad hr hp)),
    fun r hp due => command.trans (next_congr (access_waits hr hp due)), fun r hp due => ?checks⟩
  case checks =>
    intro q claim clear seated locked released sameEpoch mayRun
    have refused {st : Status} (check : accessRefusal q c r = some st) : AnswersOnly i s c f st [] :=
      command.trans (next_congr (access_refused hr hp due check))
    have past1 (h1 : claim) := check_passed (accessRefusal_eq q c r) h1
    have past2 (h1 : claim) (h2 : clear) := check_passed (past1 h1) h2
    have past3 (h1 : claim) (h2 : clear) (h3 : seated) := check_passed (past2 h1 h2) h3
    have past4 (h1 : claim) (h2 : clear) (h3 : seated) (h4 : locked) := check_passed (past3 h1 h2 h3) h4
    have past5 (h1 : claim) (h2 : clear) (h3 : seated) (h4 : locked) (h5 : released) :=
      check_passed (past4 h1 h2 h3 h4) h5
    have past6 (h1 : claim) (h2 : clear) (h3 : seated) (h4 : locked) (h5 : released) (h6 : sameEpoch) :=
      check_passed (past5 h1 h2 h3 h4 h5) h6
    exact ⟨fun h => refused ((accessRefusal_eq q c r).trans (if_pos h)),
      fun h1 h => refused ((past1 h1).trans (if_pos h)),
      fun h1 h2 h => refused ((past2 h1 h2).trans (if_pos h)),
      fun h1 h2 h3 h => refused ((past3 h1 h2 h3).trans (if_pos h)),
      fun h1 h2 h3 h4 h => refused ((past4 h1 h2 h3 h4).trans (if_pos h)),
      fun h1 h2 h3 h4 h5 h => refused ((past5 h1 h2 h3 h4 h5).trans (if_pos h)),
      fun h1 h2 h3 h4 h5 h6 h => refused ((past6 h1 h2 h3 h4 h5 h6).trans (if_pos h)),
      fun h1 h2 h3 h4 h5 h6 h7 =>
        command.trans (next_congr (access_joins hr hp due (check_passed (past6 h1 h2 h3 h4 h5 h6) h7)))⟩

/-- Settles O16: the bytes are `readPortPayload_iff` and `remainder_bytes`; REPLAY waits for a choice that is due
(`replay_waits`), and is refused by the checks of R149 or joins the queue; DROP is `drop_discards` and its refusals. -/
theorem replayAndDropTakeTheRemainder : Obligations.ReplayAndDropTakeTheRemainder := by
  refine ⟨readPortPayload_iff, remainder_bytes,
    fun c f s hr => ⟨replay_bad hr, fun p => replay_waits hr, fun p hp due => ⟨replay_notHeld hr hp due,
      fun r parked => ?replay⟩⟩,
    fun c f s hr => ⟨drop_bad hr, fun p hp => ⟨drop_notHeld hr hp, fun r => drop_discards hr hp⟩⟩⟩
  case replay =>
    let q := s.port p
    have refused {st : Status} := replay_refused (st := st) hr hp due parked
    have rechecks (locked : q.arb.linkLocked = true) := replayRefusal_locked (left := r) locked
      (e := { chan := c, block := r.block, epochGuard := none, replayOf := some r, age := 0 }) rfl
    exact ⟨fun down => refused (replayRefusal_noLink down),
      fun locked held => refused ((rechecks locked).trans (grantRefusal_inReset held)),
      fun locked released wants runs =>
        refused ((rechecks locked).trans (grantRefusal_running released fun h => runs (h wants))),
      fun locked released mayRun =>
        replay_joins hr hp due parked ((rechecks locked).trans (grantRefusal_passes released mayRun))⟩
end

section
/-! PROOFS. The addresses of a block's words, the choice of an entry and its grant (O17, O18). -/

namespace Sys2Proof.Machine

open Host State

variable {s : State} {p : PortId} {q : Port} {b : Block} {e : QueueEntry} {st : Status} {span : Nat}

/-! ### Addresses of a block's words (R135) -/

namespace Block

theorem wordAddress_increment (h : b.stepping = .increment) (i : Nat) :
    b.wordAddress i = b.start + BitVec.ofNat 32 (i * b.width.bytes) := by
  unfold wordAddress
  rw [h]

theorem wordAddress_fixed (h : b.stepping = .fixed) (i : Nat) : b.wordAddress i = b.start := by
  unfold wordAddress
  rw [h]

theorem wordAddress_wrap (h : b.stepping = .wrap span) (i : Nat) :
    let base := b.start.toNat - b.start.toNat % span
    b.wordAddress i = BitVec.ofNat 32 (base + (b.start.toNat - base + i * b.width.bytes) % span) := by
  unfold wordAddress
  rw [h]

/-- The block that continues from word `k` goes on through the addresses of the whole block; a WRAP span divides the
address space, so the address of word `k` lies in the span of the start. -/
theorem fromWord_wordAddress (spans : ∀ span, b.stepping = .wrap span → 0 < span ∧ 4294967296 % span = 0) (k i : Nat) :
    (b.fromWord k).wordAddress i = b.wordAddress (k + i) := by
  have start : (b.fromWord k).start = b.wordAddress k := rfl
  have width : (b.fromWord k).width = b.width := rfl
  cases h : b.stepping with
  | increment =>
    have continues : (b.fromWord k).stepping = .increment := h
    rw [wordAddress_increment continues, start, width, wordAddress_increment h, wordAddress_increment h,
      BitVec.add_assoc, ← BitVec.ofNat_add, Nat.add_mul]
  | fixed =>
    have continues : (b.fromWord k).stepping = .fixed := h
    rw [wordAddress_fixed continues, start, wordAddress_fixed h, wordAddress_fixed h]
  | wrap span =>
    have continues : (b.fromWord k).stepping = .wrap span := h
    obtain ⟨positive, divides⟩ := spans span h
    rw [wordAddress_wrap continues, start, width, wordAddress_wrap h, wordAddress_wrap h, BitVec.toNat_ofNat]
    exact congrArg (BitVec.ofNat 32)
      (wrapAddress_shift b.start.toNat span i k b.width.bytes b.start.isLt positive divides)

theorem fromWord_data (b : Block) (k i : Nat) : (b.fromWord k).data.getD i 0 = b.data.getD (k + i) 0 := by
  simp [fromWord, List.getD_eq_getElem?_getD]

end Block

/-! ### The choice (R138, R139) -/

theorem overdue_iff : e.overdue = true ↔ 6 ≤ e.age := decide_eq_true_iff

theorem not_overdue (young : e.age < 6) : ¬ e.overdue = true := mt overdue_iff.1 (by omega)

/-- Of the overdue entries the first in the queue is chosen. -/
theorem chooseEntry_overdue (cls : ChanId → Fin 4) (lifts : ChanSet) {before : List QueueEntry}
    (after : List QueueEntry) (old : 6 ≤ e.age) (young : ∀ x ∈ before, x.age < 6) :
    chooseEntry cls lifts (before ++ e :: after) = some e := by
  have found : (before ++ e :: after).find? QueueEntry.overdue = some e :=
    List.find?_eq_some_iff_append.2 ⟨overdue_iff.2 old, before, after, rfl,
      fun x hx => by simpa using not_overdue (young x hx)⟩
  rw [chooseEntry, found]

theorem chooseEntry_young {cls : ChanId → Fin 4} {lifts : ChanSet} {queue : List QueueEntry}
    (young : ∀ x ∈ queue, x.age < 6) : chooseEntry cls lifts queue = lowestStanding cls lifts queue := by
  have none_overdue : queue.find? QueueEntry.overdue = none :=
    List.find?_eq_none.2 fun x hx => not_overdue (young x hx)
  rw [chooseEntry, none_overdue]

theorem choiceDue_iff : q.choiceDue = true ↔ q.arb.use = .idle ∧ q.arb.linkLocked = true ∧ q.arb.queue ≠ [] := by
  simp [Port.choiceDue, and_assoc]

/-! ### The grant (R139, R140, R142) -/

/-- A word goes out with the next tag, and the reply limit timer starts; the frame is not sent on a lost link (R118). -/
theorem sendWord_eq (q : Port) (b : RunningBlock) (i : Nat) :
    let w : FlightWord := { tag := q.arb.nextTag, index := i, address := b.block.wordAddress i,
                            data := b.block.data.getD i 0 }
    q.sendWord b i = { q with
      tlc := if q.tlc.link = .locked then { q.tlc with outgoing := q.tlc.outgoing ++
        [.access w.tag b.block.direction w.address b.block.width w.data] } else q.tlc,
      arb := { q.arb with use := .executing b w, nextTag := q.arb.nextTag + 1,
                          replyTimer := some q.settings.replyLimit } } := by
  simp only [Port.sendWord, Block.wordData, Port.sendFrame_eq]
  rfl

theorem grant_not_due (h : (s.port p).choiceDue = false) : exec (.grant p) s = .next s :=
  next_congr (if_neg (by simp [h]))

section
variable (due : (s.port p).choiceDue = true)
  (chosen : chooseEntry (fun c => (s.chan c).cls) (s.port p).arb.lifts (s.port p).arb.queue = some e)
include due chosen

/-- An entry that fails its rechecks leaves the queue alone: no entry ages and no lift changes. -/
theorem grant_refused (recheck : grantRefusal (s.port p) e = some st) :
    let q := s.port p
    exec (.grant p) s = .next
      ((s.setPort p { q with arb := { q.arb with queue := q.arb.queue.filter fun x => x.chan ≠ e.chan,
                                                 parked := match e.replayOf with
        | some r => q.arb.parked.set e.chan (some r)
        | none => q.arb.parked } }).finish e.chan st []) := by
  refine next_congr ?_
  rw [grant]
  simp only [due, if_true, chosen, recheck]
  cases e.replayOf <;> rfl

theorem grant_sends (recheck : grantRefusal (s.port p) e = none) :
    exec (.grant p) s = .next (s.setPort p (grantEntry (s.port p) e)) := by
  refine next_congr ?_
  rw [grant]
  simp only [due, if_true, chosen, recheck]

end

end Sys2Proof.Machine

open Sys2Proof.Machine Sys2Proof.Machine.State

/-- Settles O17: the choice is `chooseEntry_overdue` or, without an overdue entry, `lowestStanding_pick`; the recheck
decides between `grant_refused` and `grant_sends`, whose first word is `sendWord_eq`. -/
theorem grantChoosesAndSendsTheFirstWord : Obligations.GrantChoosesAndSendsTheFirstWord := by
  refine ⟨fun cls lifts before after e => ⟨chooseEntry_overdue cls lifts after, fun young lower atMost =>
    (chooseEntry_young young).trans (lowestStanding_pick e after atMost before lower)⟩,
    fun q => choiceDue_iff, fun p s => ⟨grant_not_due, fun e idle locked chosen => ?granted⟩⟩
  case granted =>
    have waiting : (s.port p).arb.queue ≠ [] := fun empty => by
      rw [empty] at chosen
      cases chosen
    have due : (s.port p).choiceDue = true := choiceDue_iff.2 ⟨idle, locked, waiting⟩
    refine ⟨fun held => grant_refused due chosen (grantRefusal_inReset held),
      fun released wants runs => grant_refused due chosen (grantRefusal_running released fun h => runs (h wants)),
      fun released mayRun => (grant_sends due chosen (grantRefusal_passes released mayRun)).trans ?word⟩
    case word =>
      rw [grantEntry, sendWord_eq]
      rfl

/-- Settles O18: one equation per stepping, and for the continued block `fromWord_wordAddress`, whose condition a span of
2^3 to 2^12 meets. -/
theorem wordAddressesFollowTheStepping : Obligations.WordAddressesFollowTheStepping := by
  refine ⟨⟨rfl, rfl, rfl⟩, fun b i k => ⟨fun h => Block.wordAddress_increment h i,
    fun h => Block.wordAddress_fixed h i, fun span h => ?wrap, fun spans => ⟨?continues, Block.fromWord_data b k i, rfl⟩⟩⟩
  case wrap =>
    rw [Block.wordAddress_wrap h i, Nat.div_mul_self_eq_mod_sub_self]
  case continues =>
    refine Block.fromWord_wordAddress (fun span h => ?_) k i
    obtain ⟨n, -, small, rfl⟩ := spans span h
    have divides : 2 ^ n ∣ 2 ^ 32 := Nat.pow_dvd_pow 2 (by omega)
    exact ⟨Nat.two_pow_pos n, Nat.mod_eq_zero_of_dvd divides⟩
end

section
/-! PROOFS. What ends the word in flight, and the reports of the link and the seat at the arbiter (O19, O20). -/

namespace Sys2Proof.Machine

open Host State

variable {s : State} {p : PortId} {q : Port} {b : RunningBlock} {w : FlightWord} {r : ReplyFrame} {d : Word}
  {frames : List ReplyFrame} {rest : List ArbiterMsg}

/-- A port written twice holds what was written last. -/
theorem setPort_setPort (s : State) (p : PortId) (x y : Port) : (s.setPort p x).setPort p y = s.setPort p y := by
  simp [State.setPort]

/-- The port once its arbiter has taken a hand-over: `rest` is what waits still. -/
def Port.inboxLeft (q : Port) (rest : List ArbiterMsg) : Port := { q with arb := { q.arb with fromLink := rest } }

theorem Port.setArb_inbox (q : Port) (rest : List ArbiterMsg) :
    q.setArb { q.arb with fromLink := rest } = q.inboxLeft rest := rfl

@[simp] theorem Port.inboxLeft_use (q : Port) (rest : List ArbiterMsg) : (q.inboxLeft rest).arb.use = q.arb.use := rfl

/-! ### The end of a word (R143, R145, R146) -/

/-- The running block with one more word done (R143). -/
def RunningBlock.withWord (b : RunningBlock) (d : Word) : RunningBlock :=
  { b with wordsDone := b.wordsDone + 1, readData := match b.block.direction with
    | .read => b.readData ++ [b.block.width.low d]
    | .write => b.readData }

theorem completeWord_continues (more : b.wordsDone + 1 < b.block.count) :
    (s.setPort p q).completeWord p b d = s.setPort p (q.sendWord (b.withWord d) (b.wordsDone + 1)) := by
  refine (if_pos more).trans ?_
  rw [setPort_setPort, port_setPort_same]
  rfl

theorem completeWord_ends (last : b.block.count ≤ b.wordsDone + 1) : (s.setPort p q).completeWord p b d =
    (s.setPort p q.freeLink).finish b.chan .done ((b.withWord d).answer 0) := by
  refine (if_neg (Nat.not_lt.2 last)).trans ?_
  rw [setPort_setPort, port_setPort_same]
  rfl

theorem failBlock_written (reason : FailReason) : (s.setPort p q).failBlock p b reason =
    (s.setPort p (q.park b reason).freeLink).finish b.chan reason.status (b.answer reason.code) := by
  rw [failBlock, setPort_setPort, port_setPort_same]

/-! ### REPLY (R143) -/

/-- With no REPLY frame at the head of what was handed over, none is taken (R117, R119, log 1). -/
theorem reply_nothing (h : ∀ r rest, (s.port p).arb.fromLink ≠ .reply r :: rest) : exec (.reply p) s = .next s := by
  refine next_congr ?_
  unfold reply
  split
  · rfl
  · rfl
  · next r rest oldest => exact absurd oldest (h r rest)

section
variable (oldest : (s.port p).arb.fromLink = .reply r :: rest)
include oldest

theorem reply_completes (use : (s.port p).arb.use = .executing b w) (tag : r.tag = w.tag) (ok : r.faultCode = none) :
    exec (.reply p) s = .next ((s.setPort p ((s.port p).inboxLeft rest)).completeWord p b r.data) := by
  refine next_congr ?_
  rw [reply, oldest]
  simp only [Port.setArb_inbox, port_setPort_same]
  simp only [Port.inboxLeft_use, use, tag, if_true, ok]

theorem reply_faults {code : Fin 16} (use : (s.port p).arb.use = .executing b w) (tag : r.tag = w.tag)
    (fault : r.faultCode = some code) :
    exec (.reply p) s = .next ((s.setPort p ((s.port p).inboxLeft rest)).failBlock p b (.fault code)) := by
  refine next_congr ?_
  rw [reply, oldest]
  simp only [Port.setArb_inbox, port_setPort_same]
  simp only [Port.inboxLeft_use, use, tag, if_true, fault]

theorem reply_drains (use : (s.port p).arb.use = .draining w) (tag : r.tag = w.tag) :
    exec (.reply p) s = .next (s.setPort p ((s.port p).inboxLeft rest).freeLink) := by
  refine next_congr ?_
  rw [reply, oldest]
  simp only [Port.setArb_inbox, port_setPort_same]
  simp only [Port.inboxLeft_use, use, tag, if_true, setPort_setPort]

theorem reply_idle (use : (s.port p).arb.use = .idle) :
    exec (.reply p) s = .next (s.setPort p ((s.port p).inboxLeft rest)) := by
  refine next_congr ?_
  rw [reply, oldest]
  simp only [Port.setArb_inbox, port_setPort_same]
  simp only [Port.inboxLeft_use, use]

/-- A REPLY that is not that of the word in flight is discarded. -/
theorem reply_discarded (use : (s.port p).arb.use = .executing b w ∨ (s.port p).arb.use = .draining w)
    (tag : r.tag ≠ w.tag) : exec (.reply p) s = .next (s.setPort p ((s.port p).inboxLeft rest)) := by
  refine next_congr ?_
  rw [reply, oldest]
  simp only [Port.setArb_inbox, port_setPort_same]
  rcases use with use | use <;> simp only [Port.inboxLeft_use, use, tag, if_false]

end

/-! ### The reply limit (R144) -/

theorem replyLimit_ends (timer : (s.port p).arb.replyTimer ≠ none) (use : (s.port p).arb.use = .executing b w) :
    exec (.replyLimitExpiry p) s = .next (s.failBlock p b .timeout) := by
  obtain ⟨n, timer⟩ := Option.ne_none_iff_exists'.1 timer
  exact next_congr (by rw [replyLimitExpiry, timer, use])

theorem replyLimit_drains (timer : (s.port p).arb.replyTimer ≠ none) (use : (s.port p).arb.use = .draining w) :
    exec (.replyLimitExpiry p) s = .next (s.setPort p (s.port p).freeLink) := by
  obtain ⟨n, timer⟩ := Option.ne_none_iff_exists'.1 timer
  exact next_congr (by rw [replyLimitExpiry, timer, use])

theorem replyLimit_nothing (h : (s.port p).arb.replyTimer = none ∨ (s.port p).arb.use = .idle) :
    exec (.replyLimitExpiry p) s = .next s := by
  refine next_congr ?_
  unfold replyLimitExpiry
  rcases h with timer | use
  · rw [timer]
  · rw [use]
    cases (s.port p).arb.replyTimer <;> rfl

/-! ### Lock, loss and unseat (R151, R152) -/

theorem arbiter_takes_lock (oldest : (s.port p).arb.fromLink = .report .linkLocked :: rest) :
    exec (.linkLockAtArbiter p) s = .next (s.setPort p
      { s.port p with arb := { (s.port p).arb with fromLink := rest, linkLocked := true } }) :=
  next_congr (by rw [linkLockAtArbiter, takeArbiterReport_lock oldest]; rfl)

/-- The word on the link at a loss: its block is parked, or the draining link becomes free (R151). -/
theorem loseBlock_written (s : State) (p : PortId) (q : Port) (use : LinkUse) :
    (s.setPort p q).loseBlock p use = match use with
      | .executing b _ => (s.setPort p (q.park b .linkLost).freeLink).finish b.chan .linkLost (b.answer 0)
      | .draining _ => s.setPort p q.freeLink
      | .idle => s.setPort p q := by
  cases use with
  | idle => rfl
  | executing b w => exact failBlock_written .linkLost
  | draining w =>
    rw [loseBlock, setPort_setPort, port_setPort_same]

/-- A loss: the word on the link first (log 34), then the entries of the queue in their order. -/
theorem arbiter_takes_loss (h : (s.port p).arb.fromLink = frames.map .reply ++ .report .linkLost :: rest) :
    let q := (s.port p).inboxLeft (frames.map .reply ++ rest)
    exec (.linkLossAtArbiter p) s = .next (q.arb.queue.foldl (refuseEntry p)
      (((s.setPort p { q with arb := { q.arb with linkLocked := false } }).loseBlock p q.arb.use).emptyQueue p)) :=
  next_congr (by rw [linkLossAtArbiter, takeArbiterReport_over (by decide) h]; rfl)

theorem arbiter_takes_unseat (h : (s.port p).arb.fromLink = frames.map .reply ++ .report .unseat :: rest) :
    let q := (s.port p).inboxLeft (frames.map .reply ++ rest)
    exec (.unseatAtArbiter p) s = .next (q.arb.queue.foldl (fun t e => t.finish e.chan .absent [])
      ((s.setPort p { q with arb := { q.arb with linkLocked := false, queue := [], parked := Vector.replicate 8 none,
                                                 use := .idle, replyTimer := none } }).absentBlock q.arb.use)) :=
  next_congr (by rw [unseatAtArbiter, takeArbiterReport_over (by decide) h]; rfl)

/-- An entry met by a loss gives the remainder it was made of back to parking (R149, R151). -/
theorem refuseEntry_eq (p : PortId) : refuseEntry p = fun v e =>
    let parked := match e.replayOf with
      | some r => (v.port p).arb.parked.set e.chan (some r)
      | none => (v.port p).arb.parked
    (v.setPort p { v.port p with arb := { (v.port p).arb with parked := parked } }).finish e.chan .noLink [] := by
  funext v e
  rw [refuseEntry]
  cases e.replayOf <;> rfl

end Sys2Proof.Machine

open Sys2Proof.Machine Sys2Proof.Machine.State

/-- Settles O19: the word sent is `sendWord_eq`, the bytes of the answer `runningBlock_bytes`; a REPLY with the tag of the
word ends it (`reply_completes`, `reply_faults`, `reply_drains`), any other is discarded, and the reply limit ends it
(`replyLimit_ends`, `replyLimit_drains`). -/
theorem repliesAndTheReplyLimitEndTheWord : Obligations.RepliesAndTheReplyLimitEndTheWord := by
  refine ⟨sendWord_eq, runningBlock_bytes, fun p s => reply_nothing, fun p r rest s oldest => ?reply, fun p s => ?limit⟩
  case reply =>
    refine ⟨fun b w use tag ok => ?completes, fun b w code use tag fault => ?faults, fun w => reply_drains oldest,
      reply_idle oldest, fun b w => reply_discarded oldest⟩
    case completes =>
      have completes := reply_completes oldest use tag ok
      exact ⟨fun more => completes.trans (next_congr (completeWord_continues more)),
        fun last => completes.trans (next_congr (completeWord_ends last))⟩
    case faults => exact (reply_faults oldest use tag fault).trans (next_congr (failBlock_written _))
  case limit =>
    exact ⟨fun b w timer use => replyLimit_ends timer use, fun w => replyLimit_drains, replyLimit_nothing⟩

/-- Settles O20: what is there and not too early is taken (`arbiter_takes_lock`, `arbiter_takes_loss`, `arbiter_takes_unseat`), and nothing
else is (`takeArbiterReport_early`); a loss ends the word on the link by `loseBlock_written` and an entry by
`refuseEntry_eq`. -/
theorem linkAndSeatReportsAtTheArbiter : Obligations.LinkAndSeatReportsAtTheArbiter := by
  intro p frames rest s inbox q
  refine ⟨fun early => ?noLock, fun early => ?noLoss, fun early => ?noUnseat, arbiter_takes_lock, fun h => ?loss,
    fun h => ?unseat⟩
  case noLock =>
    have missing : takeArbiterReport (s.port p) .linkLocked = none :=
      takeArbiterReport_early fun fs l none_before => by rw [none_before rfl]; exact early l
    exact next_congr (by rw [linkLockAtArbiter, missing])
  case noLoss =>
    have missing : takeArbiterReport (s.port p) .linkLost = none := takeArbiterReport_early fun fs l _ => early fs l
    exact next_congr (by rw [linkLossAtArbiter, missing])
  case noUnseat =>
    have missing : takeArbiterReport (s.port p) .unseat = none := takeArbiterReport_early fun fs l _ => early fs l
    exact next_congr (by rw [unseatAtArbiter, missing])
  case loss =>
    refine (arbiter_takes_loss h).trans (next_congr ?_)
    rw [refuseEntry_eq, loseBlock_written]
    rfl
  case unseat =>
    exact arbiter_takes_unseat h
end

section
/-! PROOFS. Step 2 of a teardown at an arbiter and at a Run Control (O11). -/

namespace Sys2Proof.Machine

open Host State

variable {s : State} {p : PortId} {c : ChanId} {q : Port} {arbiters runControls : List PortId}

/-! ### At the arbiter (R154, R126) -/

/-- The channel leaves the claims, the queue, the lifts and the remainders; only its own word in flight drains. -/
theorem arbiterTeardown_eq (a : Arbiter) (c : ChanId) : arbiterTeardown a c = { a with
    claims := a.claims.set c none, queue := a.queue.filter fun e => e.chan ≠ c, lifts := a.lifts.set c false,
    parked := a.parked.set c none,
    use := match a.use with
      | .executing b w => if b.chan = c then .draining w else .executing b w
      | u => u } := by
  unfold arbiterTeardown
  cases a.use <;> rfl

theorem teardownAtArbiter_takes (stage : s.teardowns.current = some (c, .ports arbiters runControls))
    (mem : p ∈ arbiters) :
    exec (.teardownAtArbiter p) s = .next
      { (s.setPort p (portTeardown (s.port p) c)).endWait c (.access p) with
        teardowns := { s.teardowns with
          current := some (c, .ports (arbiters.filter fun x => x ≠ p) runControls) } } := by
  have kept := (endWait_answered (s.setPort p (portTeardown (s.port p) c)) c (.access p)).teardowns
  refine next_congr ?_
  rw [teardownAtArbiter, stage]
  simp only [List.contains_iff_mem.2 mem, if_true, kept, setPort_teardowns]

/-! ### At Run Control (R91, R92) -/

theorem freezeWaits_iff : freezeWaits q c = true ↔ ∃ sender, UnitToRun.freeze sender c ∈ q.rc.fromUnits := by
  simp [freezeWaits]

/-- A FREEZE that names the channel is taken first (log 4). -/
theorem teardownAtRunControl_waits (stage : s.teardowns.current = some (c, .ports arbiters runControls))
    (freeze : freezeWaits (s.port p) c = true) : exec (.teardownAtRunControl p) s = .next s := by
  refine next_congr ?_
  rw [teardownAtRunControl, stage]
  exact if_neg (by simp [freeze])

theorem teardownAtRunControl_takes (stage : s.teardowns.current = some (c, .ports arbiters runControls))
    (mem : p ∈ runControls) (free : freezeWaits (s.port p) c = false) :
    let t := s.applyRun p ((s.port p).removeHold c false)
    exec (.teardownAtRunControl p) s = .next
      { (t.setPort p (dropResumer (t.port p) c)).endWait c (.settle p) with
        teardowns := { s.teardowns with
          current := some (c, .ports arbiters (runControls.filter fun x => x ≠ p)) } } := by
  intro t
  have kept : ((t.setPort p (dropResumer (t.port p) c)).endWait c (.settle p)).teardowns = s.teardowns :=
    (endWait_answered _ _ _).teardowns.trans (applyRun_teardowns s p _)
  refine next_congr ?_
  rw [teardownAtRunControl, stage]
  simp only [List.contains_iff_mem.2 mem, free, Bool.not_false, Bool.and_self, if_true]
  rw [kept]

end Sys2Proof.Machine

open Sys2Proof.Machine Sys2Proof.Machine.State

/-- Settles O11: the arbiter's step is `teardownAtArbiter_takes` with what it leaves in `arbiterTeardown_eq`; Run Control
waits for a FREEZE that names the channel or takes its step (`teardownAtRunControl_takes`). -/
theorem portStepsOfATeardown : Obligations.PortStepsOfATeardown := by
  refine ⟨fun p c as rs s stage mem => ?arbiter, fun p c as rs s stage mem freeze =>
    teardownAtRunControl_waits stage (freezeWaits_iff.2 freeze), fun p c as rs s stage mem none_waits => ?runControl⟩
  case arbiter =>
    rw [teardownAtArbiter_takes stage mem, portTeardown, arbiterTeardown_eq]
    rfl
  case runControl =>
    exact teardownAtRunControl_takes stage mem
      (Bool.eq_false_iff.2 fun waits => (freezeWaits_iff.1 waits).elim none_waits)
end

section
/-! PROOFS. The invariants of the channels, the teardowns and the owners of the records over one step (O60). -/

namespace Sys2Proof.Machine

open Host State

variable {s t : State}

/-- A CLOSED channel holds nothing: this needs no other invariant. -/
theorem step_keeps_channels (hstep : step s = .next t) (channels : ChannelsHold s) : ChannelsHold t :=
  step_keeps (fun _ _ => id) Move.keeps_channels (fun _ _ _ => reset_channelsHold) hstep channels

/-- A teardown that begins finds its channel OPEN and not in the order yet, which is the invariant of the channels. -/
theorem step_keeps_teardowns (hstep : step s = .next t) (channels : ChannelsHold s) (teardowns : TeardownsHold s) :
    TeardownsHold t :=
  (step_keeps (P := fun u => ChannelsHold u ∧ TeardownsHold u) (fun _ _ => id)
    (fun _ _ _ _ move ⟨hc, ht⟩ => ⟨move.keeps_channels _ _ _ _ hc, move.keeps_teardowns _ _ _ _ hc ht⟩)
    (fun _ _ _ => ⟨reset_channelsHold, reset_teardownsHold⟩) hstep ⟨channels, teardowns⟩).2

/-- A channel that places a record is not the one torn down, which is the invariant of the teardowns. -/
theorem step_keeps_owners (hstep : step s = .next t) (channels : ChannelsHold s) (teardowns : TeardownsHold s)
    (owners : OwnersHold s) : OwnersHold t :=
  (step_keeps (P := fun u => (ChannelsHold u ∧ TeardownsHold u) ∧ OwnersHold u) (fun _ _ => id)
    (fun _ _ _ _ move ⟨⟨hc, ht⟩, ho⟩ => ⟨⟨move.keeps_channels _ _ _ _ hc, move.keeps_teardowns _ _ _ _ hc ht⟩,
      move.keeps_owners _ _ _ _ ht ho⟩)
    (fun _ _ _ => ⟨⟨reset_channelsHold, reset_teardownsHold⟩, reset_ownersHold⟩)
    hstep ⟨⟨channels, teardowns⟩, owners⟩).2

end Sys2Proof.Machine

open Sys2Proof.Machine Sys2Proof.Machine.State

/-- Settles O60: every step is an idle step, a pin reset or a chain of moves (`step_keeps`), and each move keeps the three
invariants, the teardowns by the help of the channels and the owners by the help of the teardowns. -/
theorem stepKeepsChannelsAndTeardowns : Obligations.StepKeepsChannelsAndTeardowns := fun _ _ hstep =>
  ⟨step_keeps_channels hstep, step_keeps_teardowns hstep, step_keeps_owners hstep⟩
end

section
/-! PROOFS. OPEN, and the requests of a channel that are answered at once: RENEW, NOTICES, POLL and PARTSTAT (O7, O8). -/

namespace Sys2Proof.Machine

open Host State

variable {s : State} {c : ChanId} {f : Frame}

/-! ### OPEN (R159) -/

theorem openChannel_bad (hr : s.AtHead c kindOpen f) (hp : readOpen f.payload = none) :
    AnswersOnly (.openChannel c) s c f .bad [] :=
  next_congr (by rw [State.openChannel, hr.request]; simp only [hp])

theorem openChannel_busy {q : OpenRequest} (hr : s.AtHead c kindOpen f) (hp : readOpen f.payload = some q)
    (opened : (s.chan c).isOpen = true) : AnswersOnly (.openChannel c) s c f .busy [] :=
  next_congr (by rw [State.openChannel, hr.request]; simp only [hp, popFrame_chan, opened, if_true])

/-- What a CLOSED channel makes of an OPEN: the class is checked, then what waits at the Notice Unit (log 4). -/
theorem openChannel_closed {q : OpenRequest} (hr : s.AtHead c kindOpen f) (hp : readOpen f.payload = some q)
    (closed : (s.chan c).isOpen = false) :
    exec (.openChannel c) s = .next (if (s.chan c).maxClass < q.cls then (s.popFrame c).answer c f .denied []
      else if s.noticeWaits c then s
      else ((((s.popFrame c).setChan c (openedChannel (s.chan c) q)).emptyPending c).reevaluate).answer c f .done
        (openAnswer q.cls (openLease (s.chan c) q) q.enables)) := by
  refine next_congr ?_
  rw [State.openChannel, hr.request]
  simp only [hp, popFrame_chan, closed, Bool.false_eq_true, if_false]
  rfl

/-- A channel whose frame is at the head is in no teardown, so that the entry keeps that it is in none. -/
theorem openedChannel_eq {k : Channel} (settled : k.teardown = none) (q : OpenRequest) :
    openedChannel k q = { k with
      isOpen := true, cls := q.cls, leaseLimit := some (q.lease.getD k.defaultLease),
      leaseTimer := some (q.lease.getD k.defaultLease), enables := q.enables } := by
  rw [openedChannel, settled]
  rfl

/-! ### RENEW, NOTICES, POLL and PARTSTAT (R161, R176, R178, R196) -/

theorem renew_bad (hr : s.Ready c kindRenew f) (hp : f.payload ≠ []) : AnswersOnly (.renew c) s c f .bad [] :=
  next_congr (by rw [State.renew, hr.openRequest]; exact if_neg (by simpa using hp))

theorem renew_reports (hr : s.Ready c kindRenew f) (hp : f.payload = []) :
    AnswersOnly (.renew c) s c f .done (halfBytes (halfOf ((s.chan c).leaseLimit.getD 0))) :=
  next_congr (by rw [State.renew, hr.openRequest, hp]; rfl)

theorem notices_bad (hr : s.Ready c kindNotices f) (hp : readNotices f.payload = none) :
    AnswersOnly (.notices c) s c f .bad [] :=
  next_congr (by rw [State.notices, hr.openRequest]; simp only [hp])

theorem notices_enables {e : Enables} (hr : s.Ready c kindNotices f) (hp : readNotices f.payload = some e) :
    exec (.notices c) s = .next
      ((((s.popFrame c).setChan c { s.chan c with enables := e }).reevaluate).answer c f .done [e.byte]) :=
  next_congr (by rw [State.notices, hr.openRequest]; simp only [hp, popFrame_chan])

theorem poll_bad (hr : s.Ready c kindPoll f) (hp : f.payload ≠ []) : AnswersOnly (.poll c) s c f .bad [] :=
  next_congr (by rw [State.poll, hr.openRequest]; exact if_neg (by simpa using hp))

theorem poll_reports (hr : s.Ready c kindPoll f) (hp : f.payload = []) :
    exec (.poll c) s = .next
      ((((s.popFrame c).setPending c Pending.empty).reevaluate).answer c f .done (s.pendingOf c).answer) :=
  next_congr (by rw [State.poll, hr.openRequest, hp]; rfl)

theorem partstat_bad (hr : s.Ready c kindPartstat f) (hp : f.payload ≠ []) :
    AnswersOnly (.partstat c) s c f .bad [] :=
  next_congr (by rw [State.partstat, hr.openRequest]; exact if_neg (by simpa using hp))

theorem partstat_reports (hr : s.Ready c kindPartstat f) (hp : f.payload = []) :
    AnswersOnly (.partstat c) s c f .done s.desc.answer :=
  next_congr (by rw [State.partstat, hr.openRequest, hp]; rfl)

end Sys2Proof.Machine

open Sys2Proof.Machine Sys2Proof.Machine.State

/-- Settles O7: the payload is `readOpen_iff`, and on a CLOSED channel `openChannel_closed` gives the class, the wait and the
opening in that order. -/
theorem openOpensTheChannel : Obligations.OpenOpensTheChannel := by
  refine ⟨readOpen_iff, rfl, fun c f s hr => ⟨openChannel_bad hr, fun q hp => ⟨openChannel_busy hr hp,
    fun closed above => ?denied, fun closed within waits => ?waits, fun closed within free => ?opens⟩⟩⟩
  case denied => exact (openChannel_closed hr hp closed).trans (next_congr (if_pos above))
  case waits =>
    refine (openChannel_closed hr hp closed).trans (next_congr ?_)
    rw [if_neg (not_lt.2 within), if_pos ((noticeWaits_iff s c).2 waits)]
  case opens =>
    refine (openChannel_closed hr hp closed).trans (next_congr ?_)
    rw [if_neg (not_lt.2 within), if_neg (mt (noticeWaits_iff s c).1 free), openedChannel_eq hr.settled]
    rfl

/-- Settles O8: the bytes are `readNotices_iff`, `enables_byte` and `pending_bytes`, and each request has its own
equation. -/
theorem renewNoticesPollAndPartstatAnswer : Obligations.RenewNoticesPollAndPartstatAnswer :=
  ⟨readNotices_iff, enables_byte, pending_bytes, rfl, fun _ _ _ =>
    ⟨fun hr => ⟨renew_bad hr, renew_reports hr⟩, fun hr => ⟨notices_bad hr, fun _ => notices_enables hr⟩,
     fun hr => ⟨poll_bad hr, poll_reports hr⟩, fun hr => ⟨partstat_bad hr, partstat_reports hr⟩⟩⟩
end

section
/-! PROOFS. How a teardown begins, by a CLOSE or by a lapse, and how it ends (O9, O12). -/

namespace Sys2Proof.Machine

open Host State

variable {s : State} {c d : ChanId} {f : Frame}

/-! ### CLOSE and the lapse (R162 to R165) -/

theorem closeChannel_bad (hr : s.Ready c kindClose f) (hp : f.payload ≠ []) :
    AnswersOnly (.closeChannel c) s c f .bad [] :=
  next_congr (by rw [State.closeChannel, hr.openRequest]; exact if_neg (by simpa using hp))

theorem closeChannel_begins (hr : s.Ready c kindClose f) (hp : f.payload = []) :
    exec (.closeChannel c) s = .next ((((s.popFrame c).setChan c
      { s.chan c with leaseTimer := none, teardown := some .closing }).wait c f .teardown).beginTeardown c) :=
  next_congr (by rw [State.closeChannel, hr.openRequest, hp]; rfl)

theorem leaseExpiry_stopped (h : (s.chan c).leaseTimer = none) : exec (.leaseExpiry c) s = .next s :=
  next_congr (by rw [State.leaseExpiry, h])

/-- The hand-over of LAPSED is the Notice Unit's; the order of the teardowns is as it was. -/
theorem lapsed_teardowns (t : State) (c : ChanId) (raised : Prop) [Decidable raised] :
    (if raised then t.sendAddition (.lapsed c) else t).teardowns = t.teardowns := by
  split <;> rfl

/-! ### Step 3 (R168) -/

theorem nextTeardown_none (h : s.teardowns.queued = []) :
    s.nextTeardown = { s with teardowns := { current := none, queued := [] } } := by
  unfold State.nextTeardown
  rw [h]

theorem nextTeardown_begins {rest : List ChanId} (h : s.teardowns.queued = d :: rest) :
    s.nextTeardown = { s with teardowns := { current := some (d, .records), queued := rest } } := by
  unfold State.nextTeardown
  rw [h]

theorem answerClose_eq (s : State) (c : ChanId) (cause : Option TeardownCause) :
    s.answerClose c cause = if cause = some .closing then s.finish c .done [] else s := by
  rcases cause with _ | _ | _ <;> rfl

theorem teardownClose_waits (stage : s.teardowns.current = some (c, .ports [] [])) (waits : s.noticeWaits c = true) :
    exec .teardownClose s = .next s :=
  next_congr (by rw [State.teardownClose, stage]; exact if_pos waits)

theorem teardownClose_closes (stage : s.teardowns.current = some (c, .ports [] []))
    (free : ¬ s.noticeWaits c = true) :
    exec .teardownClose s = .next (((((s.setChan c (s.chan c).closed).emptyPending c).reevaluate).answerClose c
      (s.chan c).teardown).nextTeardown) :=
  next_congr (by rw [State.teardownClose, stage]; exact if_neg free)

end Sys2Proof.Machine

open Sys2Proof.Machine Sys2Proof.Machine.State

/-- Settles O9: both commands begin a teardown (`closeChannel_begins`, `leaseExpiry_lapses`), which is the first of the order
or joins it at its end (`begin_first`, `begin_behind`). -/
theorem closeAndLeaseExpiryBeginATeardown : Obligations.CloseAndLeaseExpiryBeginATeardown := by
  refine ⟨fun c f s hr => ⟨closeChannel_bad hr, fun hp => ?close⟩, fun c s => ⟨leaseExpiry_stopped, fun runs => ?lapse⟩⟩
  case close =>
    rw [closeChannel_begins hr hp]
    exact ⟨fun first => next_congr (begin_first first), fun behind => next_congr (begin_behind behind)⟩
  case lapse =>
    intro t u
    have order : u.teardowns = s.teardowns := lapsed_teardowns t c _
    have begins : exec (.leaseExpiry c) s = .next (u.beginTeardown c) := next_congr (leaseExpiry_lapses c s runs)
    rw [begins, ← order]
    exact ⟨fun first => next_congr (begin_first first), fun behind => next_congr (begin_behind behind)⟩

/-- Settles O12: the step waits for the Notice Unit (`teardownClose_waits`), or closes the channel, answers a CLOSE
(`answerClose_eq`) and goes on to the teardown that is due next. -/
theorem lastStepOfATeardownClosesTheChannel : Obligations.LastStepOfATeardownClosesTheChannel := by
  refine fun c s stage => ⟨fun waits => teardownClose_waits stage ((noticeWaits_iff s c).2 waits), fun free => ?_⟩
  intro t u
  have closes := teardownClose_closes stage (mt (noticeWaits_iff s c).1 free)
  have answers : (((s.setChan c (s.chan c).closed).emptyPending c).reevaluate).answerClose c (s.chan c).teardown = u :=
    answerClose_eq t c _
  have order : u.teardowns = s.teardowns := by
    rw [← answers]
    exact (answerClose_answered _ c _).teardowns
  rw [closes, answers, ← order]
  exact ⟨fun last => next_congr (nextTeardown_none last), fun d rest next => next_congr (nextTeardown_begins next)⟩
end

section
/-! PROOFS. The ends of a request, and the answers of the HALTs that wait for a port to settle (O22). -/

namespace Sys2Proof.Machine

open Host State

variable {s : State} {c : ChanId} {e : Executing} {w : Wait} {p : PortId} {st : Status}

/-! ### The end of one request (R163, R169, R182, R184) -/

theorem finish_nothing (idle : (s.lane c).executing = none) (st : Status) (payload : List Byte) :
    s.finish c st payload = s := by
  unfold State.finish
  rw [idle]

theorem finish_responds (he : (s.lane c).executing = some e) (loud : e.silent = false) (st : Status)
    (payload : List Byte) :
    s.finish c st payload = (s.setLane c { s.lane c with executing := none }).respond c e.tag st payload := by
  unfold State.finish
  rw [he]
  exact if_neg (by simp [loud])

theorem finish_silently (he : (s.lane c).executing = some e) (silent : e.silent = true) (st : Status)
    (payload : List Byte) : s.finish c st payload =
      s.setLane c { s.lane c with executing := none, outstanding := (s.lane c).outstanding - 1 } := by
  unfold State.finish
  rw [he]
  exact if_pos silent

theorem endWait_other (other : ∀ e, (s.lane c).executing = some e → e.wait ≠ w) : s.endWait c w = s := by
  unfold State.endWait
  split
  · next e he => exact if_neg (other e he)
  · rfl

theorem endWait_ends (he : (s.lane c).executing = some e) (hw : e.wait = w) : s.endWait c w =
    s.setLane c { s.lane c with executing := none, outstanding := (s.lane c).outstanding - 1 } := by
  unfold State.endWait State.endSilently
  rw [he]
  exact if_pos hw

/-! ### The lanes after the ends of several requests -/

/-- The lane of a channel whose request `e` has ended: only a marked one frees its place at once (R182). -/
def Lane.ended (l : Lane) (e : Executing) : Lane :=
  { l with executing := none, outstanding := if e.silent then l.outstanding - 1 else l.outstanding }

theorem finish_lane_same (he : (s.lane c).executing = some e) (st : Status) (payload : List Byte) :
    (s.finish c st payload).lane c = (s.lane c).ended e := by
  cases silent : e.silent with
  | false => rw [finish_responds he silent, respond_lane, lane_setLane_same, Lane.ended, silent]; rfl
  | true => rw [finish_silently he silent, lane_setLane_same, Lane.ended, silent]; rfl

/-- Each channel of the list has its request ended once, whatever the order of the list. -/
theorem foldl_finish_lane {l : List ChanId} (nodup : l.Nodup) (mem : c ∈ l) (he : (s.lane c).executing = some e) :
    (l.foldl (fun t d => t.finish d st []) s).lane c = (s.lane c).ended e := by
  induction l generalizing s with
  | nil => cases mem
  | cons a rest ih =>
    obtain ⟨fresh, nodup⟩ := List.nodup_cons.1 nodup
    rw [List.foldl_cons]
    by_cases ha : a = c
    · subst ha
      rw [(fold_finish st rest nodup _).2.1 a fresh, finish_lane_same he]
    · have same : (s.finish a st []).lane c = s.lane c := finish_lane_ne s ha st []
      rw [ih nodup (List.mem_of_ne_of_mem (Ne.symm ha) mem) (same ▸ he), same]

/-! ### Settling a port (R78) -/

theorem mem_waitingHalts : c ∈ s.waitingHalts p ↔ ∃ e, (s.lane c).executing = some e ∧ e.wait = .settle p := by
  unfold State.waitingHalts
  rw [List.mem_filter]
  cases he : (s.lane c).executing <;> simp [mem_allChans]

/-- The channels a settling answers, in the order of its answers, a free value (log 9). -/
def State.settleOrder (s : State) (p : PortId) : List ChanId :=
  orderByRank (fun c => Config.settleRank s.fresh c.val) (s.waitingHalts p)

theorem mem_settleOrder : c ∈ s.settleOrder p ↔ ∃ e, (s.lane c).executing = some e ∧ e.wait = .settle p :=
  (mem_orderByRank _ _ _).trans mem_waitingHalts

theorem settleOrder_nodup (s : State) (p : PortId) : (s.settleOrder p).Nodup :=
  nodup_orderByRank _ _ (List.Nodup.filter _ (by decide))

/-- Settling ends the requests of the order one after another; beside them it only uses up a free value. -/
theorem settleHalts_eq (s : State) (p : PortId) (st : Status) : ∃ fresh, s.settleHalts p st =
    (s.settleOrder p).foldl (fun t c => t.finish c st []) { s with fresh := fresh } := ⟨_, rfl⟩

theorem settleHalts_lane_waiting (he : (s.lane c).executing = some e) (hw : e.wait = .settle p) :
    (s.settleHalts p st).lane c = (s.lane c).ended e := by
  obtain ⟨fresh, folded⟩ := settleHalts_eq s p st
  rw [folded]
  exact foldl_finish_lane (settleOrder_nodup s p) (mem_settleOrder.2 ⟨e, he, hw⟩) he

theorem settleHalts_lane_other (other : ¬ ∃ e, (s.lane c).executing = some e ∧ e.wait = .settle p) :
    (s.settleHalts p st).lane c = s.lane c := by
  obtain ⟨fresh, folded⟩ := settleHalts_eq s p st
  rw [folded]
  exact (fold_finish st _ (settleOrder_nodup s p) _).2.1 c (mt mem_settleOrder.1 other)

/-- Each HALT that waits and is not marked has one response, and there are no others. -/
theorem settleHalts_output (s : State) (p : PortId) (st : Status) :
    ∃ l, (s.settleHalts p st).bench.output = s.bench.output ++ l ∧
      (∀ r, r ∈ l ↔ ∃ e, (s.lane r.chan).executing = some e ∧ e.wait = .settle p ∧ e.silent = false ∧
        r = { chan := r.chan, tag := e.tag, status := st, payload := [] }) ∧
      (l.map (·.chan)).Nodup := by
  obtain ⟨fresh, folded⟩ := settleHalts_eq s p st
  obtain ⟨-, -, l, output, answers, once⟩ :=
    fold_finish st (s.settleOrder p) (settleOrder_nodup s p) { s with fresh := fresh }
  refine ⟨l, folded ▸ output, fun r => (answers r).trans ?_, once⟩
  rw [mem_settleOrder]
  constructor
  · rintro ⟨⟨e, he, hw⟩, e', he', loud, hr⟩
    cases he.symm.trans he'
    exact ⟨e, he, hw, loud, hr⟩
  · rintro ⟨e, he, hw, loud, hr⟩
    exact ⟨⟨e, he, hw⟩, e, he, loud, hr⟩

end Sys2Proof.Machine

open Sys2Proof.Machine Sys2Proof.Machine.State

/-- Settles O22: the ends of one request by their own equations; settling a port ends those of the order, each once, for
every order (`foldl_finish_lane`), and leaves every other block by `settleHalts_answered`. -/
theorem settlingAnswersEveryWaitingHalt : Obligations.SettlingAnswersEveryWaitingHalt := by
  refine ⟨fun c st payload s => ⟨fun idle => finish_nothing idle st payload,
    fun e he loud => finish_responds he loud st payload, fun e he silent => finish_silently he silent st payload⟩,
    fun c w s => ⟨endWait_other, fun e => endWait_ends⟩, fun p st s => ?_⟩
  have others := settleHalts_answered s p st
  exact ⟨fun c e => settleHalts_lane_waiting, fun c => settleHalts_lane_other, settleHalts_output s p st,
    others.ports, others.chans, others.table, others.cross, others.notice, others.desc, others.teardowns,
    others.pending⟩
end

section
/-! PROOFS. The attention line, the pending sets and the outstanding frames over one step (O57). -/

namespace Sys2Proof.Machine

open Host State

variable {s t : State}

/-- The outstanding frames of each channel stay those in its lane and in the output queue: between two moves of a command a
frame may be in hand (`FramesIn`), and the command ends with none in hand. -/
theorem step_keeps_frames (hstep : step s = .next t) (frames : FramesHold s) : FramesHold t := by
  obtain rfl | ⟨_, _, _, rfl⟩ | ⟨_, rest, _, _, _, moves⟩ := step_moves hstep
  · exact frames
  · exact reset_framesHold
  · have taken : FramesIn none { s with pending := rest } := (framesIn_none s).2 frames
    exact (framesIn_none t).1 (moves.lift (P := FramesIn) Move.keeps_frames taken)

end Sys2Proof.Machine

open Sys2Proof.Machine Sys2Proof.Machine.State

/-- Settles O57: every move that changes a channel's enables or a pending set re-evaluates the line (`Move.keeps_attention`),
every change of a set is one of R171's (`Move.keeps_pendings`), and the frames are counted with the one in hand
(`step_keeps_frames`). -/
theorem stepKeepsAttentionAndFrames : Obligations.StepKeepsAttentionAndFrames := fun _ _ hstep =>
  ⟨step_keeps (fun _ _ => id) Move.keeps_attention (fun _ _ _ => reset_attentionHolds) hstep,
   step_keeps (fun _ _ => id) Move.keeps_pendings (fun _ _ _ => reset_pendingsHold) hstep,
   step_keeps_frames hstep⟩
end

section
/-! PROOFS. What the Notice Unit takes of the units, the blocks of the ports and the other senders (O51). -/

namespace Sys2Proof.Machine

open Host State

variable {s : State}

/-! ### The members an addition changes (R172, R174) -/

/-- The table of R172: a handle in FIRED already, a handle with room for it, a handle with none. -/
theorem Pending.addFired_eq (q : Pending) (h : Handle) : q.addFired h =
    if h ∈ q.fired then q
    else if q.fired.length < 16 then { q with fired := q.fired ++ [h] }
    else { q with more := true } := by
  by_cases present : h ∈ q.fired
  · exact (if_pos (by simpa using present)).trans (if_pos present).symm
  · exact (if_neg (by simpa using present)).trans (if_neg present).symm

/-- Each block's additions (R174). -/
theorem Addition.source_iff (a : Addition) : (a.source = .watchTable ↔ ∃ c, a = .revoked c) ∧
    (a.source = .channelTable ↔ ∃ c, a = .lapsed c) ∧
    (a.source = .benchPort ↔ a = .linkError ∨ ∃ c, a = .overrun c) := by
  cases a <;> simp [Addition.source]

namespace State

/-! ### The oldest hand-over of one sender (R172 to R174) -/

theorem signal_takes {u : UnitId} {h : Handle} {c : ChanId} {before after : List (UnitId × Handle × ChanId)}
    (waiting : s.notice.signals = before ++ (u, h, c) :: after) (oldest : ∀ x ∈ before, x.1 ≠ u) :
    s.signal u = (({ s with notice := { s.notice with signals := before ++ after } }).addTo c
      fun q => q.addFired h).reevaluate := by
  unfold signal
  rw [waiting, takeFirst_split _ before after _ (by simp) (by simpa using oldest)]

theorem portEvent_takes {m : PortEventMsg} {before after : List PortEventMsg}
    (waiting : s.notice.events = before ++ m :: after)
    (oldest : ∀ x ∈ before, ¬ (x.port = m.port ∧ x.block = m.block)) :
    s.portEvent m.port m.block =
      (({ s with notice := { s.notice with events := before ++ after } }).addEvents m).reevaluate := by
  unfold portEvent
  rw [waiting, takeFirst_split _ before after _ (by simp) (by simpa using oldest)]

theorem noticeAddition_takes {a : Addition} {before after : List Addition}
    (waiting : s.notice.additions = before ++ a :: after) (oldest : ∀ x ∈ before, x.source ≠ a.source) :
    s.noticeAddition a.source = (({ s with notice := { s.notice with additions := before ++ after } }).addTo a.target
      fun q => q.add a).reevaluate := by
  unfold noticeAddition
  rw [waiting, takeFirst_split _ before after _ (by simp) (by simpa using oldest)]

/-! ### A port event joins the sets of the channels it names (R173) -/

theorem allChans_nodup : allChans.Nodup := by decide

theorem addEvents_sets (s : State) (m : PortEventMsg) :
    s.addEvents m = { s with notice := { s.notice with pending := (s.addEvents m).notice.pending } } :=
  (addEvents_fold m allChans allChans_nodup s).1

theorem addEvents_pendingOf_kept {m : PortEventMsg} {c : ChanId} (h : m.chans.has c = false ∨ (s.chan c).isOpen = false) :
    (s.addEvents m).pendingOf c = s.pendingOf c := by
  refine ((addEvents_fold m allChans allChans_nodup s).2 c).trans (if_neg ?_)
  rintro ⟨_, named, opened⟩
  rcases h with unnamed | closed
  · exact absurd (unnamed.symm.trans named) (by decide)
  · exact absurd (closed.symm.trans opened) (by decide)

theorem addEvents_pendingOf_joined {m : PortEventMsg} {c : ChanId} (named : m.chans.has c = true)
    (opened : (s.chan c).isOpen = true) :
    (s.addEvents m).pendingOf c = (s.pendingOf c).addEvent m.port m.kind :=
  ((addEvents_fold m allChans allChans_nodup s).2 c).trans (if_pos ⟨mem_allChans c, named, opened⟩)

/-- When only the pending sets changed, the line re-evaluated after it leaves everything but the sets and the line. -/
theorem reevaluate_of_sets {t : State} (sets : t = { s with notice := { s.notice with pending := t.notice.pending } }) :
    t.reevaluate = { s with notice := { s.notice with
      pending := t.reevaluate.notice.pending, attn := t.reevaluate.notice.attn } } := by
  rw [sets]
  rfl

end State

end Sys2Proof.Machine

open Sys2Proof.Machine Sys2Proof.Machine.State

/-- Settles O51: the line by `attentionCondition_iff`; which hand-over a command takes, and what it does with it, by
`signal_takes`, `portEvent_takes` and `noticeAddition_takes`; the sets that a port event joins, and their order, by
`addEvents_pendingOf_joined` and `addPair_order`. -/
theorem noticeUnitTakesAdditions : Obligations.NoticeUnitTakesAdditions := by
  refine ⟨fun s => ⟨attentionCondition_iff s, rfl⟩, fun s => ⟨fun _ => rfl, fun _ => rfl⟩,
    fun u h c before after s waiting oldest => ?signals, ?events, ?additions, Addition.source_iff⟩
  case signals =>
    refine next_congr ((signal_takes waiting oldest).trans ?_)
    simp only [Pending.addFired_eq]
    rfl
  case events =>
    rintro _ _ m before after s waiting rfl rfl oldest
    refine ⟨_, next_congr (portEvent_takes waiting oldest), reevaluate_attention _,
      reevaluate_of_sets (addEvents_sets _ m), fun c apart => ?kept, fun c named opened => ?joined⟩
    case kept =>
      rw [reevaluate_pendingOf]
      exact addEvents_pendingOf_kept apart
    case joined =>
      rw [reevaluate_pendingOf, addEvents_pendingOf_joined named]
      · exact ⟨rfl, addPair_nodup _ _, addPair_order _ _, fun x => addPair_mem _ x _⟩
      · exact opened
  case additions =>
    intro a src c add before after s waiting rule oldest
    obtain ⟨rfl, rfl, rfl⟩ : a.source = src ∧ a.target = c ∧ (fun q => q.add a) = add := by
      obtain ⟨rfl, rfl, rfl⟩ | ⟨rfl, rfl, rfl⟩ | ⟨d, rfl, rfl, rfl, rfl⟩ | ⟨rfl, rfl, rfl, rfl⟩ := rule <;>
        exact ⟨rfl, rfl, rfl⟩
    exact next_congr (noticeAddition_takes waiting oldest)
end

section
/-! PROOFS. The receiver: a frame that passes its checks joins its channel's queue, and one that fails is discarded (O3,
O4). -/

namespace Sys2Proof.Machine

open Host State

variable {s : State} {c : ChanId} {f : Frame} {tag kind : Byte} {payload got : List Byte} {stops : Bool}

/-! ### The bytes of a frame (R180) -/

theorem crc16_concat (l : List Byte) (b : Byte) : crc16 (l ++ [b]) = crcByte (crc16 l) b :=
  List.foldl_concat ..

/-- The bytes of a frame that its check covers. -/
def frameBody (c : ChanId) (tag kind : Byte) (payload : List Byte) : List Byte :=
  halfBytes (halfOf payload.length) ++ [byteOf c.val, tag, kind] ++ payload

/-- The bytes of a frame that follow its start byte. -/
def frameTail (c : ChanId) (tag kind : Byte) (payload : List Byte) : List Byte :=
  frameBody c tag kind payload ++ halfBytes (crc16 (frameBody c tag kind payload))

theorem requestBytes_eq (c : ChanId) (tag kind : Byte) (payload : List Byte) :
    requestBytes c tag kind payload = 0xA5 :: frameTail c tag kind payload := rfl

theorem frameBody_length : (frameBody c tag kind payload).length = payload.length + 5 := by
  simp [frameBody, halfBytes]

theorem frameTail_length : (frameTail c tag kind payload).length = payload.length + 7 := by
  simp [frameTail, frameBody_length, halfBytes]

/-- The length field gives the payload's length, which the limit keeps within 16 bits. -/
theorem frameTail_lengthField (fits : payload.length ≤ Config.payloadLimit) :
    (halfAt (frameTail c tag kind payload) 0).toNat = payload.length := by
  rw [frameTail, frameBody, List.append_assoc, List.append_assoc, halfAt_halfBytes, halfOf, BitVec.toNat_ofNat]
  simp only [Config.payloadLimit] at fits
  omega

theorem halfAt_append_length (a b : List Byte) : halfAt (a ++ b) a.length = halfAt b 0 := by
  simp only [halfAt, List.getD_append_right a b 0 (a.length + 1) (by omega),
    List.getD_append_right a b 0 a.length le_rfl, Nat.add_sub_cancel_left, Nat.sub_self]

theorem frameTail_take :
    (frameTail c tag kind payload).take ((frameTail c tag kind payload).length - 2) = frameBody c tag kind payload :=
  List.take_left' (by rw [frameTail_length, frameBody_length]; rfl)

theorem frameTail_check :
    crc16 ((frameTail c tag kind payload).take ((frameTail c tag kind payload).length - 2)) =
      halfAt (frameTail c tag kind payload) ((frameTail c tag kind payload).length - 2) := by
  have behindBody : (frameTail c tag kind payload).length - 2 = (frameBody c tag kind payload).length := by
    rw [frameTail_length, frameBody_length]
    omega
  rw [frameTail_take, behindBody, frameTail, halfAt_append_length]
  exact (halfAt_halfBytes _ []).symm

theorem readChan_frameTail : readChan (byteAt (frameTail c tag kind payload) 2) = some c := by
  refine readChan_iff.2 (Nat.mod_eq_of_lt ?_)
  exact c.isLt.trans (by decide)

/-! ### The end of a frame (R181) -/

theorem endFrame_arrives (check : crc16 (got.take (got.length - 2)) = halfAt got (got.length - 2))
    (named : readChan (byteAt got 2) = some c) :
    s.endFrame got true =
      s.arrive c { tag := got.getD 3 0, kind := got.getD 4 0, payload := (got.take (got.length - 2)).drop 5 } := by
  simp only [endFrame, check, named, Bool.true_and, decide_true, if_true]

theorem endFrame_fails (fails : stops = false ∨ 8 ≤ byteAt got 2 ∨
      crc16 (got.take (got.length - 2)) ≠ halfAt got (got.length - 2)) :
    s.endFrame got stops = s.sendAddition .linkError := by
  unfold endFrame
  dsimp only
  split
  case isFalse => rfl
  case isTrue passes =>
    obtain ⟨high, check⟩ := (Bool.and_eq_true _ _).mp passes
    obtain low | beyond | mismatch := fails
    · exact absurd (low.symm.trans high) (by decide)
    · rw [readChan, dif_neg (not_lt.2 beyond)]
      rfl
    · exact absurd (of_decide_eq_true check) mismatch

/-! ### The arrival (R160, R182) -/

theorem restartLease_bench (s : State) (c : ChanId) : (s.restartLease c).bench = s.bench := by
  unfold restartLease
  dsimp only
  split <;> rfl

theorem restartLease_lane (s : State) (c d : ChanId) : (s.restartLease c).lane d = s.lane d := by
  unfold State.lane
  rw [restartLease_bench]

theorem arrive_joins (room : (s.lane c).outstanding < 4) :
    s.arrive c f = (s.restartLease c).setLane c { s.lane c with
      outstanding := (s.lane c).outstanding + 1, queue := (s.lane c).queue ++ [f] } := by
  unfold arrive
  dsimp only
  rw [restartLease_lane]
  exact if_pos room

theorem arrive_overruns (full : 4 ≤ (s.lane c).outstanding) :
    s.arrive c f = (s.restartLease c).sendAddition (.overrun c) := by
  unfold arrive
  dsimp only
  rw [restartLease_lane]
  exact if_neg (not_lt.2 full)

/-! ### Bytes back to back (R181) -/

/-- Bytes received with every stop bit high. -/
def receivedHigh (bytes : List Byte) : List RxByte := bytes.map fun b => { value := b, stopHigh := true }

theorem receivedHigh_values (bytes : List Byte) : (receivedHigh bytes).map (·.value) = bytes :=
  (List.map_map ..).trans (List.map_id _)

theorem receivedHigh_all (bytes : List Byte) : (receivedHigh bytes).all (·.stopHigh) = true := by
  simp [receivedHigh]

theorem benchFrame_receivedHigh {bytes : List Byte} (hunting : s.bench.receiver = .hunting)
    (within : (halfAt bytes 0).toNat ≤ 1024) (whole : bytes.length = (halfAt bytes 0).toNat + 7) :
    s.benchFrame (receivedHigh (0xA5 :: bytes)) = s.endFrame bytes true := by
  have ends := receive_whole s hunting { value := 0xA5, stopHigh := true } (receivedHigh bytes) rfl
  rw [receivedHigh_values, receivedHigh_all, receivedHigh, List.length_map] at ends
  exact ends within whole

/-- The bytes of a request, every stop bit high, are the arrival of its frame. -/
theorem benchFrame_request (fits : payload.length ≤ Config.payloadLimit) (hunting : s.bench.receiver = .hunting) :
    s.benchFrame (receivedHigh (requestBytes c tag kind payload)) =
      s.arrive c { tag := tag, kind := kind, payload := payload } := by
  have lengthField : (halfAt (frameTail c tag kind payload) 0).toNat = payload.length := frameTail_lengthField fits
  have whole : (frameTail c tag kind payload).length = (halfAt (frameTail c tag kind payload) 0).toNat + 7 := by
    rw [lengthField, frameTail_length]
  rw [requestBytes_eq, benchFrame_receivedHigh hunting (lengthField.trans_le fits) whole,
    endFrame_arrives frameTail_check readChan_frameTail, frameTail_take]
  rfl

/-- A length field above the limit ends the frame at once. -/
theorem receiveByte_tooLong {b : RxByte} {lo : Byte} (reading : s.bench.receiver = .reading [lo] stops)
    (above : 1024 < (halfAt [lo, b.value] 0).toNat) :
    s.receiveByte b = (s.setReceiver .hunting).sendAddition .linkError := by
  unfold receiveByte
  rw [reading]
  exact (if_neg (by simp)).trans (if_pos above)

theorem receiveByte_lengthByte {b : RxByte} (reading : s.bench.receiver = .reading [] stops) :
    s.receiveByte b = s.setReceiver (.reading [b.value] (stops && b.stopHigh)) := by
  unfold receiveByte
  rw [reading]
  rfl

theorem benchFrame_tooLong {start lo hi : RxByte} (hunting : s.bench.receiver = .hunting) (starts : start.value = 0xA5)
    (above : 1024 < (halfAt [lo.value, hi.value] 0).toNat) :
    s.benchFrame [start, lo, hi] = s.sendAddition .linkError := by
  calc s.benchFrame [start, lo, hi]
    _ = (((s.setReceiver (.reading [] start.stopHigh)).receiveByte lo).receiveByte hi) := by
      rw [← receive_start hunting starts]; rfl
    _ = (s.setReceiver (.reading [lo.value] (start.stopHigh && lo.stopHigh))).receiveByte hi := by
      rw [receiveByte_lengthByte (stops := start.stopHigh) (s := s.setReceiver (.reading [] start.stopHigh)) rfl]
      rfl
    _ = (s.setReceiver .hunting).sendAddition .linkError := receiveByte_tooLong rfl above
    _ = s.sendAddition .linkError := by rw [setReceiver_same hunting]

theorem receiveByte_ignored {b : RxByte} (hunting : s.bench.receiver = .hunting) (other : b.value ≠ 0xA5) :
    s.receiveByte b = s := by
  unfold receiveByte
  rw [hunting]
  exact if_neg other

/-! ### A gap (R181) -/

theorem frameGapTimeout_reading (reading : s.bench.receiver = .reading got stops) :
    s.frameGapTimeout = (s.setReceiver .hunting).sendAddition .linkError := by
  unfold frameGapTimeout
  rw [reading]
  rfl

theorem frameGapTimeout_hunting (hunting : s.bench.receiver = .hunting) : s.frameGapTimeout = s := by
  unfold frameGapTimeout
  rw [hunting]

end Sys2Proof.Machine

open Sys2Proof.Machine Sys2Proof.Machine.State

/-- Settles O3: the bytes of a request are the arrival of its frame (`benchFrame_request`), which restarts the lease and
then joins the queue (`arrive_joins`) or is discarded (`arrive_overruns`). -/
theorem goodFrameJoinsItsQueue : Obligations.GoodFrameJoinsItsQueue := by
  refine ⟨⟨rfl, crc16_concat⟩, fun n => ⟨byteOf_eq n, halfBytes_halfOf n⟩,
    fun c tag kind payload s fits hunting => ⟨fun room => ?joins, fun full => ?overruns⟩⟩
  case joins => exact next_congr ((benchFrame_request fits hunting).trans (arrive_joins room))
  case overruns => exact next_congr ((benchFrame_request fits hunting).trans (arrive_overruns full))

/-- Settles O4: a frame read to its end is `receive_whole`, and fails by `endFrame_fails`; a length above the limit ends
it at the second byte of the length (`benchFrame_tooLong`). -/
theorem failedFrameRaisesLinkError : Obligations.FailedFrameRaisesLinkError := by
  refine fun s => ⟨fun hunting start got starts => ?fails,
    fun hunting start lo hi starts above => next_congr (benchFrame_tooLong hunting starts above),
    fun hunting b other => next_congr (receiveByte_ignored hunting other),
    fun got stops reading => next_congr (frameGapTimeout_reading reading),
    fun hunting => next_congr (frameGapTimeout_hunting hunting)⟩
  intro bytes within length fails
  refine next_congr ((receive_whole s hunting start got starts within length).trans (endFrame_fails ?_))
  obtain startLow | ⟨b, mem, low⟩ | beyond | mismatch := fails
  · exact .inl (by rw [startLow, Bool.false_and])
  · have notAll : got.all (·.stopHigh) = false := List.all_eq_false.2 ⟨b, mem, by simp [low]⟩
    exact .inl (by rw [notAll, Bool.and_false])
  · exact .inr (.inl beyond)
  · exact .inr (.inr mismatch)
end

section
/-! PROOFS. The transmitter (O6). -/

namespace Sys2Proof.Machine

open Host State

variable {s : State}

theorem byteLevels_eq (b : RxByte) : byteLevels b = [false, b.value.getLsbD 0, b.value.getLsbD 1, b.value.getLsbD 2,
    b.value.getLsbD 3, b.value.getLsbD 4, b.value.getLsbD 5, b.value.getLsbD 6, b.value.getLsbD 7, b.stopHigh] := rfl

/-- A response leaves in the same frame format as a request, its status in the place of the kind (R180, R184). -/
theorem frameBytes_eq (r : Response) :
    r.frameBytes = requestBytes r.chan r.tag (byteOf r.status.code) r.payload := rfl

theorem responseTransmit_sends {r : Response} {rest : List Response} (oldest : s.bench.output = r :: rest) :
    s.responseTransmit = { s with
      bench := { s.bench with
        lanes := s.bench.lanes.set r.chan { s.lane r.chan with outstanding := (s.lane r.chan).outstanding - 1 },
        output := rest,
        sentFrames := s.bench.sentFrames ++ [{
          rate := benchRate s.bench.rate1 s.bench.rate0, levels := sendBytes r.frameBytes }] } } := by
  unfold responseTransmit
  rw [oldest]
  rfl

theorem responseTransmit_idles (empty : s.bench.output = []) : s.responseTransmit = s := by
  unfold responseTransmit
  rw [empty]

end Sys2Proof.Machine

open Sys2Proof.Machine Sys2Proof.Machine.State

/-- Settles O6: the head of the output queue leaves (`responseTransmit_sends`) with the bytes of `frameBytes_eq`, each
on the line as `byteLevels_eq` says. -/
theorem transmitterSendsTheOldestResponse : Obligations.TransmitterSendsTheOldestResponse := by
  refine ⟨rfl, ⟨rfl, byteLevels_eq⟩, fun s => ⟨fun r rest oldest => ?sends, fun empty => ?idles⟩⟩
  case sends =>
    refine (next_congr (responseTransmit_sends oldest)).trans ?_
    rw [frameBytes_eq]
    rfl
  case idles => exact next_congr (responseTransmit_idles empty)
end

section
/-! PROOFS. What every request command does before its own rule (O5). -/

namespace Sys2Proof.Machine

open Host State

variable {s : State} {c : ChanId} {f : Frame} {p : PortId} {kind : Byte} {i : Instr}

/-! ### A head frame of no request kind, and the walk (R183, R194) -/

theorem unknownKind_bad (head : s.AtHead c f.kind f) (unknown : f.kind ∉ requestKinds) :
    AnswersOnly (.unknownKind c) s c f .bad [] := by
  refine next_congr ?_
  unfold unknownKind
  rw [head.headFrame]
  exact if_neg (by rwa [List.contains_iff_mem])

theorem unknownKind_known (head : s.AtHead c f.kind f) (known : f.kind ∈ requestKinds) :
    exec (.unknownKind c) s = .next s := by
  refine next_congr ?_
  unfold unknownKind
  rw [head.headFrame]
  exact if_pos (List.contains_iff_mem.2 known)

theorem starting_answers {rest : List Frame} (walking : s.desc.walking = true) (queue : (s.lane c).queue = f :: rest) :
    AnswersOnly (.starting c) s c f .starting [] := by
  refine next_congr ?_
  unfold starting
  rw [walking, queue]

/-! ### The port whose choice a request waits for (log 4) -/

/-- The port that the head frame of channel `c` names, where a request of that kind waits for the port's choice. -/
def State.awaitedPort (s : State) (c : ChanId) (kind : Byte) : Option PortId :=
  if kind = kindRead then ((s.headFrame c).bind fun f => readAccess .read f.payload).map (·.port)
  else if kind = kindWrite then ((s.headFrame c).bind fun f => readAccess .write f.payload).map (·.port)
  else if kind = kindReplay then (s.headFrame c).bind fun f => readPortPayload f.payload
  else none

theorem awaitedPort_read : s.awaitedPort c kindRead =
    ((s.headFrame c).bind fun f => readAccess .read f.payload).map (·.port) := rfl

theorem awaitedPort_write : s.awaitedPort c kindWrite =
    ((s.headFrame c).bind fun f => readAccess .write f.payload).map (·.port) := rfl

theorem awaitedPort_replay : s.awaitedPort c kindReplay = (s.headFrame c).bind fun f => readPortPayload f.payload := rfl

theorem awaitedPort_other (other : ¬ (kind = kindRead ∨ kind = kindWrite ∨ kind = kindReplay)) :
    s.awaitedPort c kind = none := by
  obtain ⟨noRead, noWrite, noReplay⟩ := by simpa only [not_or] using other
  exact (if_neg noRead).trans ((if_neg noWrite).trans (if_neg noReplay))

theorem accessBlocked_iff {named : Option PortId} :
    s.accessBlocked named = true ↔ ∃ p, named = some p ∧ (s.port p).choiceDue = true := by
  cases named <;> simp [accessBlocked]

theorem awaitedPort_names (head : s.AtHead c kind f)
    (names : (∃ r, kind = kindRead ∧ readAccess .read f.payload = some r ∧ r.port = p) ∨
      (∃ r, kind = kindWrite ∧ readAccess .write f.payload = some r ∧ r.port = p) ∨
      (kind = kindReplay ∧ readPortPayload f.payload = some p)) : s.awaitedPort c kind = some p := by
  obtain ⟨r, rfl, reads, rfl⟩ | ⟨r, rfl, reads, rfl⟩ | ⟨rfl, reads⟩ := names
  · rw [awaitedPort_read, head.headFrame, Option.bind_some, reads]
    rfl
  · rw [awaitedPort_write, head.headFrame, Option.bind_some, reads]
    rfl
  · rw [awaitedPort_replay, head.headFrame, Option.bind_some, reads]

/-! ### Every request command -/

/-- Command `i` is a request of that kind for channel `c`: it waits while the choice it awaits is due, and otherwise
executes the head frame by a rule that, for every kind but OPEN, answers CLOSED on a CLOSED channel (R158, R183). -/
def RunsAsRequest (i : Instr) (s : State) (c : ChanId) (kind : Byte) : Prop :=
  ∃ body : Frame → State → State,
    exec i s = .next (if s.accessBlocked (s.awaitedPort c kind) then s else s.request c kind body) ∧
    (kind ≠ kindOpen → ∀ f t, (t.chan c).isOpen = false → body f t = t.answer c f .closed [])

namespace RunsAsRequest

/-- A rule for an OPEN channel is one that answers CLOSED on any other. -/
theorem of_openRequest {body : Frame → State → State}
    (runs : exec i s = .next (if s.accessBlocked (s.awaitedPort c kind) then s else s.openRequest c kind body)) :
    RunsAsRequest i s c kind :=
  ⟨_, runs, fun _ _ _ closed => if_neg (by rw [closed]; decide)⟩

theorem of_openRequest_free {body : Frame → State → State}
    (other : ¬ (kind = kindRead ∨ kind = kindWrite ∨ kind = kindReplay))
    (runs : exec i s = .next (s.openRequest c kind body)) : RunsAsRequest i s c kind :=
  of_openRequest (body := body) (by rw [awaitedPort_other other]; exact runs)

theorem waits (runs : RunsAsRequest i s c kind) (blocked : s.accessBlocked (s.awaitedPort c kind) = true) :
    exec i s = .next s := by
  obtain ⟨body, exec_eq, _⟩ := runs
  rw [exec_eq, if_pos blocked]

theorem closed (runs : RunsAsRequest i s c kind) (free : ¬ s.accessBlocked (s.awaitedPort c kind) = true)
    (other : kind ≠ kindOpen) (head : s.AtHead c kind f) (closed : (s.chan c).isOpen = false) :
    AnswersOnly i s c f .closed [] := by
  obtain ⟨body, exec_eq, refuses⟩ := runs
  refine exec_eq.trans (next_congr ?_)
  rw [if_neg free, head.request]
  exact refuses other f _ closed

theorem idles (runs : RunsAsRequest i s c kind) (without : ∀ f, ¬ s.AtHead c kind f) : exec i s = .next s := by
  obtain ⟨body, exec_eq, _⟩ := runs
  refine exec_eq.trans (next_congr ?_)
  have nothing : s.request c kind body = s :=
    request_cases (P := (· = s)) s c kind body rfl fun f head sameKind => by
      obtain ⟨walked, ended, settled, first⟩ := headFrame_some head
      exact absurd ⟨walked, ended, settled, first, sameKind⟩ (without f)
  rw [nothing, ite_self]

end RunsAsRequest

/-- READ, WRITE and REPLAY may wait for a choice, OPEN does without the check for CLOSED; the other requests only make
that check, and a command that is no request has no kind. -/
theorem requestOf_runs (request : requestOf i = some (c, kind)) : RunsAsRequest i s c kind := by
  cases i
  case openChannel =>
    cases request
    exact ⟨_, rfl, fun other => absurd rfl other⟩
  case read => cases request; exact .of_openRequest rfl
  case write => cases request; exact .of_openRequest rfl
  case replay => cases request; exact .of_openRequest rfl
  all_goals cases request
  all_goals exact .of_openRequest_free (by decide) rfl

end Sys2Proof.Machine

open Sys2Proof.Machine Sys2Proof.Machine.State

/-- Settles O5: every request command waits, idles or answers CLOSED in the one way of `RunsAsRequest`
(`requestOf_runs`). -/
theorem checksBeforeARequestRuns : Obligations.ChecksBeforeARequestRuns := by
  refine ⟨fun c f s => ⟨rfl, fun _ _ _ => rfl, fun _ => rfl⟩, ⟨rfl, rfl⟩,
    ⟨fun c f s head => ⟨unknownKind_bad head, unknownKind_known head⟩, fun c f rest s => starting_answers⟩,
    fun i c kind f s request other head closed noneDue => ?closed,
    fun i c kind f p s request head due names => ?waits,
    fun i c kind s request without => (requestOf_runs request).idles without⟩
  case closed =>
    refine (requestOf_runs request).closed (fun blocked => ?_) other head closed
    obtain ⟨p, awaited, due⟩ := accessBlocked_iff.1 blocked
    have awaits : kind = kindRead ∨ kind = kindWrite ∨ kind = kindReplay := by
      by_contra other
      exact absurd (awaited.symm.trans (awaitedPort_other other)) (Option.some_ne_none p)
    exact absurd (due.symm.trans (noneDue awaits p)) (by decide)
  case waits =>
    exact (requestOf_runs request).waits (accessBlocked_iff.2 ⟨p, awaitedPort_names head names, due⟩)
end

section
/-! PROOFS. What a pin reset puts (O2). -/

namespace Sys2Proof.Machine

open Host State

/-! ### A channel, a port and the chains after a pin reset (R32, R157, R171) -/

/-- With every slot FREE no unit has a member (R33). -/
theorem reset_chain (u : UnitId) : State.reset.table.chain u = [] :=
  List.eq_nil_of_length_eq_zero (chain_length_of_no_records reset_recordAt u)

@[simp] theorem reset_crossLine (x : CrossId) : State.reset.crossLine x = { driving := none, high := true } := by
  revert x; decide

/-- No channel has a claim on a port, a parked remainder there or a lift (R131, R148). -/
theorem Port.reset_unclaimed (c : ChanId) : Port.reset.hasClaim c = false ∧ Port.reset.arb.parked[c] = none ∧
    Port.reset.arb.lifts.has c = false := by
  revert c; decide

end Sys2Proof.Machine

open Sys2Proof.Machine Sys2Proof.Machine.State

/-- Settles O2: what each channel and each port holds are the values of `Channel.reset`, `Lane.reset`, `Pending.empty` and
`Port.reset`, and with no record in the table every chain is empty (`reset_chain`). -/
theorem pinResetPutsEveryResetValue : Obligations.PinResetPutsEveryResetValue := by
  refine ⟨fun _ _ _ => rfl, rfl, rfl, fun c => ?channel, rfl, fun p => ?port, fun x => ?line, reset_chain, rfl, rfl, rfl, rfl,
    rfl, rfl, rfl⟩
  case channel =>
    rw [reset_chan, reset_lane, reset_pendingOf]
    exact ⟨rfl, rfl, rfl, rfl, rfl, rfl, rfl, rfl, rfl, rfl, rfl, rfl⟩
  case port =>
    rw [reset_port]
    refine ⟨rfl, ⟨rfl, rfl, rfl⟩, ⟨rfl, ChanSet.has_empty, ChanSet.has_empty, rfl, rfl, rfl⟩,
      ⟨rfl, rfl, rfl, rfl, rfl, rfl, rfl⟩,
      ⟨rfl, rfl, rfl, rfl, rfl, rfl, rfl, rfl, rfl, rfl, rfl, rfl, rfl⟩, Port.reset_unclaimed, rfl, rfl, rfl⟩
  case line => rw [reset_crossLine]
end

section
/-! PROOFS. The bench reset (O53). -/

namespace Sys2Proof.Machine

open Host State

variable {s : State} {c : ChanId} {f : Frame}

namespace State

/-! ### Each part of the state after a bench reset (R195) -/

@[simp] theorem benchReset_port (s : State) (p : PortId) : s.benchReset.port p = resetPort (s.port p) :=
  mapPorts_get resetPort s.ports p

@[simp] theorem benchReset_chan (s : State) (c : ChanId) : s.benchReset.chan c = (s.chan c).closed :=
  mapEight_get Channel.closed s.chans c

@[simp] theorem benchReset_lane (s : State) (c : ChanId) : s.benchReset.lane c = resetLane (s.lane c) :=
  mapEight_get resetLane s.bench.lanes c

@[simp] theorem benchReset_pendingOf (s : State) (c : ChanId) : s.benchReset.pendingOf c = Pending.empty :=
  Vector.getElem_replicate c.isLt

theorem resetTable_slots_length (t : WatchTable) : (resetTable t).slots.length = t.slots.length :=
  List.length_map _

/-! ### The places of the frames (R182, R195) -/

/-- Of the queue of a channel only the frame taken is gone. -/
theorem popFrame_lane (s : State) (c d : ChanId) : (s.popFrame c).lane d =
    { s.lane d with queue := if d = c then (s.lane d).queue.tail else (s.lane d).queue } := by
  unfold popFrame
  rw [lane_setLane]
  by_cases same : c = d
  · subst same
    rw [if_pos rfl, if_pos rfl]
  · rw [if_neg same, if_neg (Ne.symm same)]

/-- The frame of the RESETBENCH is out of its queue when the queues are emptied, so it keeps its place until its response
has left. -/
theorem resetLane_popFrame_outstanding (s : State) (c d : ChanId) : (resetLane ((s.popFrame c).lane d)).outstanding =
    (s.lane d).outstanding - ((s.lane d).queue.length - (if d = c then 1 else 0)) -
      (if (s.lane d).executing.isSome then 1 else 0) := by
  rw [popFrame_lane]
  by_cases own : d = c
  · simp only [resetLane, if_pos own, List.length_tail]
  · simp only [resetLane, if_neg own, Nat.sub_zero]

end State

/-! ### The request (R195) -/

theorem resetbench_bad (hr : s.Ready c kindResetbench f) (hp : f.payload ≠ []) :
    AnswersOnly (.resetbench c) s c f .bad [] :=
  next_congr (by rw [State.resetbench, hr.openRequest]; exact if_neg (by simpa using hp))

theorem resetbench_denied (hr : s.Ready c kindResetbench f) (hp : f.payload = []) (other : c ≠ 0) :
    AnswersOnly (.resetbench c) s c f .denied [] :=
  next_congr (by rw [State.resetbench, hr.openRequest, hp]; exact if_pos other)

/-- A RESETBENCH of C0 comes when nothing handed over waits (log 4, log 18). -/
theorem resetbench_resets (hr : s.Ready 0 kindResetbench f) (hp : f.payload = []) :
    exec (.resetbench 0) s = .next
      (if (s.popFrame 0).resetWaits then s else (s.popFrame 0).benchReset.answer 0 f .done []) :=
  next_congr (by rw [State.resetbench, hr.openRequest, hp]; rfl)

end Sys2Proof.Machine

open Sys2Proof.Machine Sys2Proof.Machine.State

/-- Settles O53: the wait is `resetWaits_false`, and each part of the state after the reset has its own lemma: a slot
`resetTable_slotAt`, a lane `resetLane_popFrame_outstanding`, a port `resetPort_spec`. -/
theorem resetbenchResetsEveryBlock : Obligations.ResetbenchResetsEveryBlock := by
  refine ⟨fun c f s hr => ⟨resetbench_bad hr, resetbench_denied hr⟩, fun f s hr hp => ⟨fun untaken => ?waits,
    fun taken => ?resets⟩⟩
  case waits =>
    have waits : (s.popFrame 0).resetWaits = true := by
      by_contra free
      exact untaken ((resetWaits_false s).1 (Bool.eq_false_of_not_eq_true free))
    exact (resetbench_resets hr hp).trans (next_congr (if_pos waits))
  have free : ¬ (s.popFrame 0).resetWaits = true := Bool.not_eq_true _ ▸ (resetWaits_false s).2 taken
  obtain ⟨-, -, signals, events, additions⟩ := taken
  refine ⟨_, (resetbench_resets hr hp).trans (next_congr (if_neg free)), rfl, rfl, rfl, rfl, signals, events, additions,
    rfl, rfl, resetTable_slots_length _, fun i => resetTable_slotAt _ i, rfl, rfl, rfl, rfl,
    fun c => ⟨?pending, ?chan, ?queue, ?executing, ?places⟩, fun p => ?port⟩
  case pending => exact benchReset_pendingOf _ c
  case chan => exact benchReset_chan _ c
  case queue => exact congrArg Lane.queue (benchReset_lane _ c)
  case executing => exact congrArg Lane.executing (benchReset_lane _ c)
  case places => exact (congrArg Lane.outstanding (benchReset_lane _ c)).trans (resetLane_popFrame_outstanding s 0 c)
  case port =>
    rw [answer_port, benchReset_port, popFrame_port]
    exact resetPort_spec _ _ Iff.rfl
end

section
/-! PROOFS. What a walk of the description finds (O54). -/

namespace Sys2Proof.Machine

open Host State

variable {m : List (Nat × Byte)} {partly : DescStatus} {a fuel : Nat} {w : Walk} {n : Node} {b : Byte} {k v : List Byte}

/-! ### What a good node sets (R192) -/

namespace Node

theorem setting_of_badCheck (bad : n.check ≠ crc16 n.body) : n.setting = none := if_neg bad

theorem setting_of_port (good : n.check = crc16 n.body) (id : n.id = 0x0101) :
    n.setting = if n.body.length = 11 then readPortBody n.body else none := by
  rw [Node.setting, if_pos good, id]
  rfl

theorem setting_of_channel (good : n.check = crc16 n.body) (id : n.id = 0x0102) :
    n.setting = if n.body.length = 4 then readChannelBody n.body else none := by
  rw [Node.setting, if_pos good, id]
  rfl

theorem setting_of_name (good : n.check = crc16 n.body) (id : n.id = 0x0103) :
    n.setting = if 1 ≤ n.body.length ∧ n.body.length ≤ 32 then some (.ident n.body) else none := by
  rw [Node.setting, if_pos good, id]
  rfl

theorem setting_of_unknown (unknown : n.id ≠ 0x0101 ∧ n.id ≠ 0x0102 ∧ n.id ≠ 0x0103) : n.setting = none := by
  obtain ⟨noPort, noChannel, noName⟩ := unknown
  unfold Node.setting
  split
  · split
    · next id => exact absurd id noPort
    · next id => exact absurd id noChannel
    · next id => exact absurd id noName
    · rfl
  · rfl

/-- A known node of another size sets nothing, whatever its check. -/
theorem setting_of_size (wrong : (n.id = 0x0101 ∧ n.body.length ≠ 11) ∨ (n.id = 0x0102 ∧ n.body.length ≠ 4) ∨
    (n.id = 0x0103 ∧ (n.body.length = 0 ∨ 32 < n.body.length))) : n.setting = none := by
  by_cases good : n.check = crc16 n.body
  · obtain ⟨id, size⟩ | ⟨id, size⟩ | ⟨id, size⟩ := wrong
    · rw [setting_of_port good id, if_neg size]
    · rw [setting_of_channel good id, if_neg size]
    · rw [setting_of_name good id, if_neg (by omega)]
  · exact setting_of_badCheck good

end Node

/-! ### One node of a walk (R192, R193) -/

/-- A node that sets adds its setting, any other node counts as skipped. -/
theorem Walk.take_eq (w : Walk) (a : Nat) (x : Option Setting) : w.take a x = match x with
    | some y => { w with nodes := w.nodes ++ [a], taken := w.taken + 1, settings := w.settings ++ [y] }
    | none => { w with nodes := w.nodes ++ [a], taken := w.taken + 1, skipped := w.skipped + 1 } := by
  cases x <;> rfl

theorem walkFrom_unread (unread : readNode m a = none) : walkFrom m (fuel + 1) a w = (w.take a none, false) := by
  rw [walkFrom, unread]

theorem walkFrom_ends (read : readNode m a = some n) (leads : nextPointer a n.next = .listEnd) :
    walkFrom m (fuel + 1) a w = (w.take a n.setting, true) := by
  rw [walkFrom, read]
  simp only [leads]

theorem walkFrom_goesOn {next : Nat} (read : readNode m a = some n) (leads : nextPointer a n.next = .node next) :
    walkFrom m (fuel + 1) a w = walkFrom m fuel next (w.take a n.setting) := by
  rw [walkFrom, read]
  simp only [leads]

theorem walkFrom_stops (read : readNode m a = some n) (leads : nextPointer a n.next = .bad) :
    walkFrom m (fuel + 1) a w = (w.take a n.setting, false) := by
  rw [walkFrom, read]
  simp only [leads]

/-! ### The header (R193) -/

theorem walkDescription_absent (unread : memByte m 0 = none) : walkDescription m partly = (Walk.start, .absent) := by
  rw [walkDescription, unread]

theorem walkDescription_headerCut (first : memByte m 0 = some b) (cut : memBytes m 0 4 = none) :
    walkDescription m partly = (Walk.start, partly) := by
  rw [walkDescription, first, cut]

/-- Once the first four bytes are acknowledged, so is byte 0. -/
theorem memByte_of_four (four : memBytes m 0 4 = some k) : ∃ b, memByte m 0 = some b := by
  obtain ⟨_, bytes⟩ := (memBytes_iff m 4 0 k).1 four
  exact ⟨_, bytes 0 (by decide)⟩

theorem walkDescription_defective (four : memBytes m 0 4 = some k) (other : k ≠ marker) :
    walkDescription m partly = (Walk.start, .defective) := by
  obtain ⟨b, first⟩ := memByte_of_four four
  simp only [walkDescription, first, four, if_neg other]

theorem walkDescription_pointerCut (four : memBytes m 0 4 = some marker) (cut : memBytes m 4 2 = none) :
    walkDescription m partly = (Walk.start, partly) := by
  obtain ⟨b, first⟩ := memByte_of_four four
  simp only [walkDescription, first, four, cut, if_true]

theorem walkDescription_list (four : memBytes m 0 4 = some marker) (pointer : memBytes m 4 2 = some v) :
    walkDescription m partly = walkList m (halfAt v 0) := by
  obtain ⟨b, first⟩ := memByte_of_four four
  simp only [walkDescription, first, four, pointer, if_true]

theorem walkList_bad {first : Half} (bad : first.toNat % 4 ≠ 0) : walkList m first = (Walk.start, .partlyLoaded) := by
  rw [walkList, firstPointer, if_neg bad]

theorem walkList_walks {first : Half} (good : first.toNat % 4 = 0) : walkList m first =
    let walked := walkFrom m Config.nodeLimit first.toNat Walk.start
    (walked.1, if walked.2 = true ∧ walked.1.skipped = 0 then .loaded else .partlyLoaded) := by
  rw [walkList, firstPointer, if_pos good]
  simp only [Bool.and_eq_true, decide_eq_true_eq]

/-! ### The counts of a whole walk (R193) -/

/-- A walk of at most 64 nodes, each of which set something or was skipped. -/
def Walk.Counted (w : Walk) : Prop :=
  w.taken ≤ 64 ∧ w.settings.length + w.skipped = w.taken ∧ w.nodes.length = w.taken

theorem Walk.start_counted : Walk.start.Counted := ⟨by decide, rfl, rfl⟩

theorem walkFrom_counted (m : List (Nat × Byte)) (a : Nat) : (walkFrom m 64 a Walk.start).1.Counted := by
  obtain ⟨limit, count⟩ := walkFrom_count m 64 a Walk.start
  have nodes := walkFrom_nodes m 64 a Walk.start
  have begun : Walk.start.taken = 0 ∧ Walk.start.skipped = 0 ∧ Walk.start.settings.length = 0 ∧
    Walk.start.nodes.length = 0 := ⟨rfl, rfl, rfl, rfl⟩
  exact ⟨by omega, by omega, by omega⟩

theorem walkList_counted (m : List (Nat × Byte)) (first : Half) : (walkList m first).1.Counted := by
  by_cases good : first.toNat % 4 = 0
  · rw [walkList_walks good]
    exact walkFrom_counted m _
  · rw [walkList_bad good]
    exact Walk.start_counted

theorem walkDescription_counted (m : List (Nat × Byte)) (partly : DescStatus) :
    (walkDescription m partly).1.Counted := by
  unfold walkDescription
  split
  · exact Walk.start_counted
  · split
    · exact Walk.start_counted
    · split
      · split
        · exact Walk.start_counted
        · exact walkList_counted m _
      · exact Walk.start_counted

end Sys2Proof.Machine

open Sys2Proof.Machine Sys2Proof.Machine.State

/-- Settles O54: the header by the equations of `walkDescription`, a node by those of `walkFrom` for each kind of next pointer
(`nextPointer_cases`) and by `Node.setting`'s, and the bytes by the lemmas on the readers. -/
theorem descriptionWalkFindsItsNodes : Obligations.DescriptionWalkFindsItsNodes := by
  refine ⟨fun m partly => ⟨walkDescription_absent, fun k => walkDescription_defective, fun b => walkDescription_headerCut,
      walkDescription_pointerCut, fun v four pointer => ⟨fun bad => ?bad, fun good => ?walks⟩,
      walkDescription_counted m partly⟩,
    fun m fuel a w => ?node, walk_reads, readNode_iff, fun m a n bytes => memBytes_iff m n a bytes,
    fun m a => ⟨memByte_some m a, memByte_none m a⟩, readPortBody_iff, readChannelBody_iff, fun n => ?sets⟩
  case bad => exact (walkDescription_list four pointer).trans (walkList_bad bad)
  case walks => exact (walkDescription_list four pointer).trans (walkList_walks good)
  case node =>
    intro skip take
    have take_eq : ∀ x, w.take a x = take x := w.take_eq a
    refine ⟨rfl, walkFrom_unread, fun n read => ?_⟩
    obtain ⟨ends, absolute, relative, stops⟩ := nextPointer_cases a n.next
    rw [← take_eq]
    exact ⟨fun kind => walkFrom_ends read (ends kind), fun kind => walkFrom_goesOn read (absolute kind),
      fun kind => walkFrom_goesOn read (relative kind), fun kind => walkFrom_stops read (stops kind)⟩
  case sets =>
    refine ⟨fun h => h.elim Node.setting_of_badCheck Node.setting_of_unknown,
      fun good id size => (Node.setting_of_port good id).trans (if_pos size),
      fun good id size => (Node.setting_of_channel good id).trans (if_pos size),
      fun good id least most => (Node.setting_of_name good id).trans (if_pos ⟨least, most⟩), Node.setting_of_size⟩
end

section
/-! PROOFS. The end of the walk (O55). -/

namespace Sys2Proof.Machine

open Host State

variable {s : State} {memory : List (Nat × Byte)} {pins : Vector PinLevels 6}

namespace State

/-! ### The ports at the end of the walk (R110, R124, R126) -/

/-- A port whose settings have been applied takes its levels, its debounce and its safe levels by them. -/
theorem portAtWalkEnd_settings (q : Port) (set : PortSettings) (pins : PinLevels) :
    portAtWalkEnd { q with settings := set } pins = ({ q with
      settings := set,
      tlc := { q.tlc with
        seatHigh := pins.seat, seat := if pins.seat then .arriving else .empty,
        debounce := if pins.seat then some set.debounce else none, status := pins.status } } : Port).toSafeLevels := rfl

/-- Every port takes the levels of its pins, one port after another. -/
def portsAtWalkEnd (pins : Vector PinLevels 6) (s : State) : State :=
  allPorts.foldl (fun t p => t.setPort p (portAtWalkEnd (t.port p) pins[p])) s

theorem portsAtWalkEnd_port (pins : Vector PinLevels 6) (s : State) (p : PortId) :
    (s.portsAtWalkEnd pins).port p = portAtWalkEnd (s.port p) pins[p] := by
  have listed : p ∈ allPorts := by revert p; decide
  have each := (foldl_setPort_each (fun p q => portAtWalkEnd q pins[p]) allPorts (by decide) s).1 p
  rwa [if_pos listed] at each

theorem portsAtWalkEnd_eq (pins : Vector PinLevels 6) (s : State) :
    s.portsAtWalkEnd pins = { s with ports := (s.portsAtWalkEnd pins).ports } :=
  (foldl_setPort_each (fun p q => portAtWalkEnd q pins[p]) allPorts (by decide) s).2

/-! ### The last setting of its kind (R193) -/

theorem lastPort_eq (l : List Setting) (p : PortId) : lastPort l p = l.reverse.findSome? fun x => match x with
    | .port p' y => if p' = p then some y else none
    | _ => none := rfl

theorem lastChannel_eq (l : List Setting) (c : ChanId) : lastChannel l c = l.reverse.findSome? fun x => match x with
    | .channel c' k n => if c' = c then some (k, n) else none
    | _ => none := rfl

theorem lastName_eq (l : List Setting) : lastName l = l.reverse.findSome? fun x => match x with
    | .ident n => some n
    | _ => none := rfl

/-! ### WALK_END (R193, R194) -/

theorem walkEnd_idles (ended : s.desc.walking = false) : s.walkEnd memory pins = s :=
  if_neg (by rw [ended]; decide)

/-- The status that a header cut short leaves: the free value of log 10. -/
def cutStatus (s : State) : DescStatus := statusOfCode (Config.headerStatus s.fresh)

/-- What the end of a walk with the result `r` makes of a state whose settings have been applied: the ports follow their
pins, the edges are dropped and the reader holds what the walk found. -/
def endWalk (r : Walk × DescStatus) (pins : Vector PinLevels 6) (s : State) : State :=
  let t := s.portsAtWalkEnd pins
  { t with
    fresh := t.fresh + 1, cross := { t.cross with edges := [] },
    desc := { t.desc with
      walking := false, status := r.2, nodesTaken := r.1.taken, nodesSkipped := r.1.skipped, reads := r.1.reads } }

@[simp] theorem endWalk_pending (r : Walk × DescStatus) (s : State) : (s.endWalk r pins).pending = s.pending := by
  rw [endWalk, portsAtWalkEnd_eq]

@[simp] theorem endWalk_bench (r : Walk × DescStatus) (s : State) : (s.endWalk r pins).bench = s.bench := by
  rw [endWalk, portsAtWalkEnd_eq]

@[simp] theorem endWalk_teardowns (r : Walk × DescStatus) (s : State) : (s.endWalk r pins).teardowns = s.teardowns := by
  rw [endWalk, portsAtWalkEnd_eq]

@[simp] theorem endWalk_table (r : Walk × DescStatus) (s : State) : (s.endWalk r pins).table = s.table := by
  rw [endWalk, portsAtWalkEnd_eq]

@[simp] theorem endWalk_notice (r : Walk × DescStatus) (s : State) : (s.endWalk r pins).notice = s.notice := by
  rw [endWalk, portsAtWalkEnd_eq]

@[simp] theorem endWalk_chan (r : Walk × DescStatus) (s : State) (c : ChanId) : (s.endWalk r pins).chan c = s.chan c :=
  chan_congr (by rw [endWalk, portsAtWalkEnd_eq]) c

@[simp] theorem endWalk_port (r : Walk × DescStatus) (s : State) (p : PortId) :
    (s.endWalk r pins).port p = portAtWalkEnd (s.port p) pins[p] :=
  (port_congr (by rw [endWalk]) p).trans (portsAtWalkEnd_port pins s p)

@[simp] theorem endWalk_cross (r : Walk × DescStatus) (s : State) :
    (s.endWalk r pins).cross = { s.cross with edges := [] } := by
  rw [endWalk, portsAtWalkEnd_eq]

@[simp] theorem endWalk_desc (r : Walk × DescStatus) (s : State) : (s.endWalk r pins).desc = { s.desc with
    walking := false, status := r.2, nodesTaken := r.1.taken, nodesSkipped := r.1.skipped, reads := r.1.reads } := by
  rw [endWalk, portsAtWalkEnd_eq]

theorem walkEnd_ends (walking : s.desc.walking = true) :
    s.walkEnd memory pins = ((walkDescription memory s.cutStatus).1.settings.foldl applySetting s).endWalk
      (walkDescription memory s.cutStatus) pins := if_pos walking

end State

end Sys2Proof.Machine

open Sys2Proof.Machine Sys2Proof.Machine.State

/-- Settles O55: the walk's end is `walkEnd_ends`; the settings leave what `apply_spec` says, each port then follows its pins
(`portsAtWalkEnd_port`). -/
theorem walkEndAppliesTheDescription : Obligations.WalkEndAppliesTheDescription := by
  refine fun memory pins s => ⟨fun ended => next_congr (walkEnd_idles ended), fun walking => ?_⟩
  obtain ⟨pending, bench, teardowns, table, cross, notice, _, desc, chan, port⟩ :=
    apply_spec (walkDescription memory s.cutStatus).1.settings s
  refine ⟨_, s.cutStatus, next_congr (walkEnd_ends walking), ?pending, ?bench, ?teardowns, ?table, ?cross, ?notice, ?desc,
    fun c => ?chan, fun p => ?port⟩
  case pending => rw [endWalk_pending, pending]
  case bench => rw [endWalk_bench, bench]
  case teardowns => rw [endWalk_teardowns, teardowns]
  case table => rw [endWalk_table, table]
  case cross => rw [endWalk_cross, cross]
  case notice => rw [endWalk_notice, notice]
  case desc => rw [endWalk_desc, desc, lastName_eq] <;> rfl
  case chan => rw [endWalk_chan, chan c, lastChannel_eq] <;> rfl
  case port => rw [endWalk_port, port p, portAtWalkEnd_settings, lastPort_eq] <;> rfl
end

section
/-! PROOFS. One step of the machine, by the two forms of the queue of commands (O1). -/

namespace Sys2Proof.Machine

variable {s : State}

/-- The command is taken from the queue before it runs, so it sees the state with the rest of the queue. -/
theorem step_of_pending_cons {i : Instr} {rest : List Instr} (front : s.pending = i :: rest) :
    step s = exec i { s with pending := rest } := by
  rw [step, front]

/-- The idle of log 1. -/
theorem step_of_pending_nil (empty : s.pending = []) : step s = .next s := by
  rw [step, empty]

end Sys2Proof.Machine

open Sys2Proof.Machine

/-- Settles O1: one equation of `step` for each form of the queue (`step_of_pending_cons`, `step_of_pending_nil`). -/
theorem stepRunsTheFrontCommand : Obligations.StepRunsTheFrontCommand := fun _ =>
  ⟨fun _ _ => step_of_pending_cons, step_of_pending_nil⟩
end
